-- ==== Sys2Proof/Word.lean ====
section
/-! DEFINITION. The word types of the engine: the 8-bit byte of the stream and of DMEM, the 16-bit CRC and status
words, the 32-bit command word and the 64-bit host register (spec 10_state.md R31, R35; 30_encoding.md R110). -/

namespace Sys2Proof

/-- A byte of the stream or of DMEM. -/
abbrev Byte := BitVec 8

/-- A 16-bit word: a CRC-16 value, STATUS, FAULT, the accumulator. -/
abbrev Half := BitVec 16

/-- A 32-bit command word (R110), and the int32 of a Frame value (R55). -/
abbrev Word := BitVec 32

/-- A 64-bit host register (R31). -/
abbrev Reg := BitVec 64

end Sys2Proof
end

