-- ==== Sys2Proof/Syntax.lean ====
section
/-! DEFINITION. The command set: one constructor for every row of spec/opcode_table.json (30_encoding.md R113), with the
operand its word carries (R111: `a` is 8 bits, `b` is 8 or 16 bits). Operands that come from ARG0 and ARG1 are read by
the meanings. -/

namespace Sys2Proof

/-- The commands of R113, in the table's order. -/
inductive Instr where
  | crc8Set (b : BitVec 8)
  | crc8Get
  | crc8Byte (b : BitVec 8)
  | crc8Span
  | crc16Set (b : BitVec 16)
  | crc16Get
  | crc16Byte (b : BitVec 8)
  | crc16Span
  | crc16Spanb
  | brRead32 (a : BitVec 8)
  | brRead64 (a : BitVec 8)
  | brReadbyte
  | brUnary
  | brRice (a : BitVec 8)
  | brRiceb (a : BitVec 8)
  | brUtf8x32
  | brUtf8x64
  | brAligned
  | brZpad
  | brSkipbits
  | brSkipbytes
  | brGetcrc
  | brSetcrc (b : BitVec 16)
  | brUpdcrc
  | brRefill
  | brEos
  | brPos
  | frDecode
  | frStep
  | frInfo (a : BitVec 8)
  | pcmRead
  | sysReset
  | sysDispose
  | sysCfg (a : BitVec 8)
  | sysStatus
  deriving DecidableEq, Repr

/-- The four command formats of R111. -/
inductive Format where
  | F0
  | FA
  | FB8
  | FB16
  deriving DecidableEq, Repr

end Sys2Proof
end

