-- ==== Sys2Proof/Decode.lean ====
section
/-! DEFINITION. Decoding a command word (30_encoding.md R110, R111, R113 to R115), total on all 2^32 words and rejecting by
name, and the encoder written from the same map. A command is one 32-bit word that the host writes to CMD; it is stored
nowhere else, so no byte order enters (R110, R104). -/

namespace Sys2Proof

/-- Why a word is no command (R114). -/
inductive DecodeError where
  /-- the opcode is not in the map of R113 -/
  | illegalOpcode
  /-- a bit R111 shows as 0 is set -/
  | reservedField
  deriving DecidableEq, Repr

/-- The field `OPC = word[31:24]` (R110). -/
def opcOf (w : Word) : BitVec 8 := w.extractLsb' 24 8

/-- The field `A = word[23:16]` (R110). -/
def aOf (w : Word) : BitVec 8 := w.extractLsb' 16 8

/-- The field `B = word[15:0]` (R110). -/
def bOf (w : Word) : BitVec 16 := w.extractLsb' 0 16

/-- The map of R113: for each assigned opcode its format and the command with the operands its format carries. -/
def opcodeMap (opc : Nat) (a : BitVec 8) (b : BitVec 16) : Option (Format × Instr) :=
  match opc with
  | 0x10 => some (.FB8, .crc8Set (b.setWidth 8))
  | 0x11 => some (.F0, .crc8Get)
  | 0x12 => some (.FB8, .crc8Byte (b.setWidth 8))
  | 0x13 => some (.F0, .crc8Span)
  | 0x20 => some (.FB16, .crc16Set b)
  | 0x21 => some (.F0, .crc16Get)
  | 0x22 => some (.FB8, .crc16Byte (b.setWidth 8))
  | 0x23 => some (.F0, .crc16Span)
  | 0x24 => some (.F0, .crc16Spanb)
  | 0x30 => some (.FA, .brRead32 a)
  | 0x31 => some (.FA, .brRead64 a)
  | 0x32 => some (.F0, .brReadbyte)
  | 0x33 => some (.F0, .brUnary)
  | 0x34 => some (.FA, .brRice a)
  | 0x35 => some (.FA, .brRiceb a)
  | 0x36 => some (.F0, .brUtf8x32)
  | 0x37 => some (.F0, .brUtf8x64)
  | 0x38 => some (.F0, .brAligned)
  | 0x39 => some (.F0, .brZpad)
  | 0x3A => some (.F0, .brSkipbits)
  | 0x3B => some (.F0, .brSkipbytes)
  | 0x3C => some (.F0, .brGetcrc)
  | 0x3D => some (.FB16, .brSetcrc b)
  | 0x3E => some (.F0, .brUpdcrc)
  | 0x3F => some (.F0, .brRefill)
  | 0x40 => some (.F0, .brEos)
  | 0x41 => some (.F0, .brPos)
  | 0x50 => some (.F0, .frDecode)
  | 0x51 => some (.F0, .frStep)
  | 0x52 => some (.FA, .frInfo a)
  | 0x53 => some (.F0, .pcmRead)
  | 0x70 => some (.F0, .sysReset)
  | 0x71 => some (.F0, .sysDispose)
  | 0x72 => some (.FA, .sysCfg a)
  | 0x73 => some (.F0, .sysStatus)
  | _ => none

/-- Every field that R111 shows as 0 for the format is 0. -/
def reservedZero (f : Format) (a : BitVec 8) (b : BitVec 16) : Bool :=
  match f with
  | .F0 => a == 0#8 && b == 0#16
  | .FA => b == 0#16
  | .FB8 => a == 0#8 && b.extractLsb' 8 8 == 0#8
  | .FB16 => a == 0#8

/-- `Decode(word)` of R114: the opcode is looked up first, then the reserved fields are checked. -/
def decode (w : Word) : Except DecodeError Instr :=
  match opcodeMap (opcOf w).toNat (aOf w) (bOf w) with
  | none => .error .illegalOpcode
  | some (f, i) => if reservedZero f (aOf w) (bOf w) then .ok i else .error .reservedField

/-- A command word from its three fields (R110). -/
def wordOf (opc a : BitVec 8) (b : BitVec 16) : Word := opc ++ (a ++ b)

/-- The word of a command, from the encodings of R113 and R111. -/
def encode : Instr → Word
  | .crc8Set b => wordOf 0x10#8 0#8 (0#8 ++ b)
  | .crc8Get => wordOf 0x11#8 0#8 0#16
  | .crc8Byte b => wordOf 0x12#8 0#8 (0#8 ++ b)
  | .crc8Span => wordOf 0x13#8 0#8 0#16
  | .crc16Set b => wordOf 0x20#8 0#8 b
  | .crc16Get => wordOf 0x21#8 0#8 0#16
  | .crc16Byte b => wordOf 0x22#8 0#8 (0#8 ++ b)
  | .crc16Span => wordOf 0x23#8 0#8 0#16
  | .crc16Spanb => wordOf 0x24#8 0#8 0#16
  | .brRead32 a => wordOf 0x30#8 a 0#16
  | .brRead64 a => wordOf 0x31#8 a 0#16
  | .brReadbyte => wordOf 0x32#8 0#8 0#16
  | .brUnary => wordOf 0x33#8 0#8 0#16
  | .brRice a => wordOf 0x34#8 a 0#16
  | .brRiceb a => wordOf 0x35#8 a 0#16
  | .brUtf8x32 => wordOf 0x36#8 0#8 0#16
  | .brUtf8x64 => wordOf 0x37#8 0#8 0#16
  | .brAligned => wordOf 0x38#8 0#8 0#16
  | .brZpad => wordOf 0x39#8 0#8 0#16
  | .brSkipbits => wordOf 0x3A#8 0#8 0#16
  | .brSkipbytes => wordOf 0x3B#8 0#8 0#16
  | .brGetcrc => wordOf 0x3C#8 0#8 0#16
  | .brSetcrc b => wordOf 0x3D#8 0#8 b
  | .brUpdcrc => wordOf 0x3E#8 0#8 0#16
  | .brRefill => wordOf 0x3F#8 0#8 0#16
  | .brEos => wordOf 0x40#8 0#8 0#16
  | .brPos => wordOf 0x41#8 0#8 0#16
  | .frDecode => wordOf 0x50#8 0#8 0#16
  | .frStep => wordOf 0x51#8 0#8 0#16
  | .frInfo a => wordOf 0x52#8 a 0#16
  | .pcmRead => wordOf 0x53#8 0#8 0#16
  | .sysReset => wordOf 0x70#8 0#8 0#16
  | .sysDispose => wordOf 0x71#8 0#8 0#16
  | .sysCfg a => wordOf 0x72#8 a 0#16
  | .sysStatus => wordOf 0x73#8 0#8 0#16

/-- The 32-bit command word the host's row numbering stands for: bits above `nbits` are 0. -/
def tableWord (nbits w : Nat) : Word := BitVec.ofNat 32 (w % 2 ^ nbits)

/-- The command the decoder reads from a row's word of the opcode table. -/
def decodeTableWord (nbits w : Nat) : Option Instr :=
  match decode (tableWord nbits w) with
  | .ok i => some i
  | .error _ => none

end Sys2Proof
end

