-- ==== Sys2Proof/Config.lean ====
section
/-! DEFINITION. The implementation parameters of spec 00_scope.md R6: their type and their legal values. A machine is
instantiated with one `Config`, which no step changes; the default values of R6 are in Machine/Tables.lean. The parameter
PREDICTOR, a collaborator that answers, is the field `predictor` of the state. -/

namespace Sys2Proof

/-- Channel assignments (10_state.md R52, 30_encoding.md R142). -/
inductive Assignment where
  | independent
  | leftSide
  | rightSide
  | midSide
  deriving DecidableEq, Repr

/-- What a block-size code stands for (30_encoding.md R140). -/
inductive BlockSizeCode where
  /-- the header is invalid -/
  | reserved
  /-- one byte holding `bs − 1` follows -/
  | deferred8
  /-- two bytes holding `bs − 1` follow -/
  | deferred16
  /-- the block size itself -/
  | direct (n : Nat)
  deriving DecidableEq, Repr

/-- The parameters of R6. -/
structure Config where
  /-- width in bits of the BitReader's buffer word -/
  W : Nat
  /-- size in bytes of the data memory -/
  dmemBytes : Nat
  /-- whether carry-less multiplication is available for the CRC-16 bulk path -/
  hasClmul : Bool
  /-- least span length in bytes of the CRC-16 bulk path -/
  bulkThreshold : Nat
  /-- longest zero run BR.UNARY returns -/
  unaryMax : Nat
  /-- `BS_TABLE`, codes 0 to 15 -/
  bsTable : List BlockSizeCode
  /-- `SR_TABLE`, codes 1 to 11 in order, in Hz -/
  srTable : List Word
  /-- `CH_TABLE`, codes 0 to 15: channel count and assignment, `none` for reserved -/
  chTable : List (Option (Nat × Assignment))
  /-- `BPS_TABLE`, codes 1 to 7 in order, `none` for reserved; code 0 is `SI_BPS` in every table (R143) -/
  bpsTable : List (Option Nat)
  deriving DecidableEq, Repr

/-- A block-size code with no deferred byte stands for 1 to 65536 samples or is reserved (R140). -/
def BlockSizeCode.sizeOk : BlockSizeCode → Bool
  | .direct n => decide (1 ≤ n) && decide (n ≤ 65536)
  | _ => true

/-- A `CH_TABLE` entry: 1 to 8 channels, and two of them for a stereo pair (R142). -/
def channelEntryOk : Option (Nat × Assignment) → Bool
  | none => true
  | some (n, .independent) => decide (1 ≤ n) && decide (n ≤ 8)
  | some (n, _) => decide (n = 2)

/-- A `BPS_TABLE` entry: 1 to 32 bits or reserved (R52, R143; log entry 14). -/
def bitDepthEntryOk : Option Nat → Bool
  | none => true
  | some n => decide (1 ≤ n) && decide (n ≤ 32)

/-- The legal parameter values of R6, with the table shapes of R140 to R143. A `CH_TABLE` and a `BPS_TABLE` may hold any number of
valid and of reserved codes: R142, R143, C7 and D24 leave open whether another `CH_TABLE` than the default must keep its 11 and
5, and which `BPS_TABLE` beside the default and the source-literal preset is legal (DESIGN CHOICE, log entry 14). -/
structure Config.Legal (c : Config) : Prop where
  width : c.W = 32 ∨ c.W = 64
  dmem : 1 ≤ c.dmemBytes ∧ c.dmemBytes ≤ 2 ^ 64
  bulk : 1 ≤ c.bulkThreshold
  unary : 2 ^ 32 - 1 ≤ c.unaryMax
  bs : c.bsTable.length = 16 ∧ c.bsTable.all BlockSizeCode.sizeOk = true ∧
    c.bsTable.count .deferred8 = 1 ∧ c.bsTable.count .deferred16 = 1
  sr : c.srTable.length = 11
  ch : c.chTable.length = 16 ∧ c.chTable.all channelEntryOk = true
  bps : c.bpsTable.length = 7 ∧ c.bpsTable.all bitDepthEntryOk = true

/-- The free value of RES1 where the address it should hold is 2^64 or more, as after a BR.RICEB batch that ends at `DMEM_BYTES` =
2^64: 41_bitreader.md R232 with 00_scope.md R11 states no value there (DESIGN CHOICE, log entry 13). Nothing constrains it. -/
opaque Config.freeAddress : Nat → Reg

end Sys2Proof
end

