-- ==== Sys2Proof/Machine/Tables.lean ====
section
/-! DEFINITION. The default code tables (30_encoding.md R140 to R143), the default parameters (00_scope.md R6) and the readers
of the code tables. -/

namespace Sys2Proof.Machine

/-- The default `BS_TABLE` (R140). -/
def defaultBsTable : List BlockSizeCode :=
  [.reserved, .direct 192, .direct 576, .direct 1152, .direct 2304, .direct 4608, .deferred8, .deferred16] ++
  [.direct 256, .direct 512, .direct 1024, .direct 2048, .direct 4096, .direct 8192, .direct 16384, .direct 32768]

/-- The default `SR_TABLE`, codes 1 to 11 (R141). -/
def defaultSrTable : List Word :=
  [88200#32, 176400#32, 192000#32, 8000#32, 16000#32, 22050#32, 24000#32, 32000#32, 44100#32, 48000#32, 96000#32]

/-- The default `CH_TABLE` (R142). -/
def defaultChTable : List (Option (Nat × Assignment)) :=
  [some (1, .independent), some (2, .independent), some (3, .independent), some (4, .independent)] ++
  [some (5, .independent), some (6, .independent), some (7, .independent), some (8, .independent)] ++
  [some (2, .leftSide), some (2, .rightSide), some (2, .midSide), none, none, none, none, none]

/-- The default `BPS_TABLE`, codes 1 to 7 (R143). -/
def defaultBpsTable : List (Option Nat) := [some 8, some 12, none, some 16, some 20, some 24, none]

/-- The source-literal preset of `BPS_TABLE`, codes 1 to 7 (R143). -/
def literalBpsTable : List (Option Nat) := [none, some 12, none, some 16, some 20, some 24, none]

/-- The default parameters (R6). -/
def defaultConfig : Config where
  W := 64
  dmemBytes := 65536
  hasClmul := false
  bulkThreshold := 256
  unaryMax := 2 ^ 32 - 1
  bsTable := defaultBsTable
  srTable := defaultSrTable
  chTable := defaultChTable
  bpsTable := defaultBpsTable

/-- `BS_TABLE[bsc]`. -/
def bsEntry (c : Config) (code : BitVec 4) : BlockSizeCode := c.bsTable.getD code.toNat .reserved

/-- `CH_TABLE[chc]`, `none` for reserved. -/
def chEntry (c : Config) (code : BitVec 4) : Option (Nat × Assignment) := c.chTable.getD code.toNat none

/-- `BPS_TABLE[bdc]` for codes 1 to 7, `none` for reserved. -/
def bpsEntry (c : Config) (code : BitVec 3) : Option Nat := c.bpsTable.getD (code.toNat - 1) none

/-- `SR_TABLE[src]` for codes 1 to 11, `none` for every other code. -/
def srEntry (c : Config) (code : BitVec 4) : Option Word :=
  if code.toNat = 0 then none else c.srTable[code.toNat - 1]?

/-- A span is bulk-eligible when carry-less multiplication is available and the span is long enough (40_crc.md R185). -/
def bulkEligible (c : Config) (len : Nat) : Bool := c.hasClmul && decide (c.bulkThreshold ≤ len)

end Sys2Proof.Machine
end

