-- ==== Sys2Proof/Machine/State.lean ====
section
/-! DEFINITION. The state of the engine as plain data (10_state.md; the list is INVENTORY.md's '## State'), the reasons a step
can stop, and the state after reset (70_reset_and_hazards.md R450). The world outside the engine (the host's pending accesses,
the answers of the upstream source and of the predictor) is data of the state too, so that a statement about every state is a
statement about every behaviour of the host, the source and the predictor. -/

namespace Sys2Proof.Machine

/-- States of the decode state machine, in the order of their codes 0 to 6 (R50). -/
inductive Fsm where
  | searching
  | headerParse
  | subframes
  | footerCheck
  | done
  | ended
  | failed
  deriving DecidableEq, Repr

/-- Header sub-steps (R52). -/
inductive HeaderStep where
  | H0
  | H1
  | H2
  | H3
  | H4
  deriving DecidableEq, Repr

/-- Subframe sub-steps (R53). -/
inductive SubStep where
  | S0
  | S1
  | S2
  deriving DecidableEq, Repr

/-- Footer sub-steps (R53). -/
inductive FooterStep where
  | F0
  | F1
  deriving DecidableEq, Repr

/-- Subframe kinds (R53). -/
inductive Kind where
  | constant
  | verbatim
  | fixed
  | lpc
  deriving DecidableEq, Repr

/-- Which part of a Rice code is being read (R40). -/
inductive RicePhase where
  | quot
  | rem
  deriving DecidableEq, Repr

/-- The Rice batch record `RB` (R40). -/
structure RiceBatch where
  active : Bool
  k : Nat
  dst : Nat
  remaining : Nat
  phase : RicePhase
  q : Nat
  rn : Nat
  r : Nat
  deriving DecidableEq, Repr

/-- The reset value of `RB` (R40). -/
def RiceBatch.inactive : RiceBatch where
  active := false
  k := 0
  dst := 0
  remaining := 0
  phase := .quot
  q := 0
  rn := 0
  r := 0

/-- Header scratch (R52), less `hp` and `raw`, which are fields of the state. -/
structure Header where
  hres : Bool
  blk : Bool
  bsc : BitVec 4
  src : BitVec 4
  chc : BitVec 4
  bdc : BitVec 3
  hun : Bool
  num : Reg
  bs : Nat
  rate : Word
  bps : Nat
  nch : Nat
  asg : Assignment
  hc8 : Byte
  fstart : Nat
  deriving DecidableEq, Repr

/-- The reset value of the header scratch (R52): all 0, `asg = INDEPENDENT`. -/
def Header.zero : Header where
  hres := false
  blk := false
  bsc := 0#4
  src := 0#4
  chc := 0#4
  bdc := 0#3
  hun := false
  num := 0#64
  bs := 0
  rate := 0#32
  bps := 0
  nch := 0
  asg := .independent
  hc8 := 0#8
  fstart := 0

/-- Subframe scratch (R53). -/
structure Subframe where
  ch : Nat
  ss : SubStep
  kind : Kind
  order : Nat
  wf : Bool
  w : Nat
  be : Int
  i : Nat
  deriving DecidableEq, Repr

/-- The reset value of the subframe scratch (R53): all 0, `ss = S0` (R450). The spec names no kind for it; that it is CONSTANT,
the first of R53's list, is the model's reading of 'all 0' (DEDUCED, log entry 17). -/
def Subframe.zero : Subframe where
  ch := 0
  ss := .S0
  kind := .constant
  order := 0
  wf := false
  w := 0
  be := 0
  i := 0

/-- One answer of the upstream source to a pull: the bytes and whether the stream ends (20_memory.md R84). -/
structure PullAnswer where
  bytes : List Byte
  ends : Bool
  deriving DecidableEq, Repr

/-- What the engine hands to the predictor collaborator (43_subframe.md R330). -/
structure PredRequest where
  kind : Kind
  order : Nat
  be : Int
  bs : Nat
  i : Nat
  prev : List Int
  S : List Byte
  cons : Nat
  deriving DecidableEq, Repr

/-- What the predictor collaborator answers (R330). `produced xs bits` is `Produced(|xs|, xs, c')` with `c'` the position
`bits` after `cons`, or `avail` where the stream has fewer bits: so every value names an outcome the contract allows. -/
inductive PredOutcome where
  | produced (xs : List Int) (bits : Nat)
  | underrun
  | fail
  deriving DecidableEq, Repr

/-- One call of the predictor: how many pulls it makes, then its outcome (R330). -/
structure PredAnswer where
  pulls : Nat
  outcome : PredOutcome
  deriving DecidableEq, Repr

/-- One access of the host (R4, R31, R100), or one line `SRC` of an assembler program (30_encoding.md R116). -/
inductive HostAction where
  /-- the host writes `v` to the register at offset `off` -/
  | write (off : Nat) (v : Reg)
  /-- the host reads the register at offset `off` -/
  | read (off : Nat)
  /-- the host writes one byte of DMEM -/
  | dmemWrite (a : Nat) (b : Byte)
  /-- the host reads one byte of DMEM -/
  | dmemRead (a : Nat)
  /-- the upstream source gets one more answer ready -/
  | source (a : PullAnswer)
  deriving DecidableEq, Repr

/-- DMEM in canonical form: the cells that do not read as 0, by rising address. -/
abbrev Memory := List Host.Cell

/-- The state of the engine and of the world it meets. -/
structure State where
  -- host registers (R31)
  cmd : Word
  arg0 : Reg
  arg1 : Reg
  res0 : Reg
  res1 : Reg
  res2 : Reg
  status : Half
  fault : Half
  -- CRC units (R35, R36)
  c8 : Byte
  c16 : Half
  bcrc : Half
  -- BitReader (R38 to R42)
  S : List Byte
  cons : Nat
  base : Nat
  eos : Bool
  rb : RiceBatch
  dw : Nat
  -- configuration registers (R45)
  siRate : Word
  siBps : BitVec 6
  siChannels : BitVec 4
  -- decode state machine (R50 to R53)
  fsm : Fsm
  acc : Half
  accn : Nat
  hp : HeaderStep
  raw : List Byte
  hdr : Header
  sub : Subframe
  chbuf : List (Nat × Int)
  fs : FooterStep
  fcrc : Half
  -- the Frame (R55)
  fpresent : Bool
  fbuf : List Word
  fcur : Nat
  -- session (R58)
  disposed : Bool
  -- data memory (R90)
  dmem : Memory
  -- parameters (R6)
  cfg : Config
  -- the world outside: PREDICTOR (R330), the upstream sources (R84, R451), the host (R4)
  predictor : Option (List PredAnswer)
  preq : Option PredRequest
  upstream : List PullAnswer
  nextSources : List (List PullAnswer)
  host : List HostAction
  rdata : Reg
  deriving DecidableEq, Repr

/-- Reasons the machine stops. -/
inductive Fault where
  /-- A host access to a DMEM byte at or above `DMEM_BYTES` (20_memory.md R80, R90: no such byte). Raised by the host port.
  Safe: nothing is claimed of the engine after it. -/
  | dmemHole (a : Nat)
  /-- A micro-step in FAILED with FAULT = 0, which 42_frame_sync.md R271 says is never reached. Raised by `microStep`. Safe. -/
  | stepInFailed
  /-- A decode that never completes (70_reset_and_hazards.md R467: "in the model the command does not complete"). Raised by
  the FR.DECODE loop when its micro-step budget is spent, which happens in no state that keeps the invariant. Safe. -/
  | decodeNeverCompletes
  deriving DecidableEq, Repr

/-- Reasons the model gives a step no meaning. -/
inductive Refusal where
  /-- An instruction whose arm has no meaning yet. Raised by `exec`. Safe. -/
  | notModelled (mnemonic : String)
  /-- A Fixed or LPC subframe with `PREDICTOR = absent` (60_exceptions.md R412: "refused"). Raised by the subframe micro-step.
  Safe. -/
  | predictorAbsent
  /-- A pull that makes `|S|` reach 2^61 bytes (41_bitreader.md R218: "The model refuses"). Raised at the end of the command, and by
  the predictor's micro-step for pulls that do not stay. Safe. -/
  | streamTooLong
  /-- A host write to a read-only register (10_state.md R31: "refused by the model"). Raised by the host port. Safe. -/
  | hostWriteReadOnly (off : Nat)
  /-- A host access to an offset that is not in the register map (10_state.md R30, R31). Raised by the host port. Safe. -/
  | hostOffsetUnmapped (off : Nat)
  deriving DecidableEq, Repr

/-- The state right after power-on reset (R450): the values the spec lists, DMEM and the world outside empty, the default
parameters of R6. -/
def State.reset : State where
  cmd := 0#32
  arg0 := 0#64
  arg1 := 0#64
  res0 := 0#64
  res1 := 0#64
  res2 := 0#64
  status := 0#16
  fault := 0#16
  c8 := 0#8
  c16 := 0#16
  bcrc := 0#16
  S := []
  cons := 0
  base := 0
  eos := false
  rb := RiceBatch.inactive
  dw := 0
  siRate := 0#32
  siBps := 0#6
  siChannels := 0#4
  fsm := .searching
  acc := 0#16
  accn := 0
  hp := .H0
  raw := []
  hdr := Header.zero
  sub := Subframe.zero
  chbuf := []
  fs := .F0
  fcrc := 0#16
  fpresent := false
  fbuf := []
  fcur := 0
  disposed := false
  dmem := []
  cfg := defaultConfig
  predictor := none
  preq := none
  upstream := []
  nextSources := []
  host := []
  rdata := 0#64

end Sys2Proof.Machine
end

