-- ==== Sys2Proof/Machine/Flags.lean ====
section
/-! DEFINITION. Status and cause codes (60_exceptions.md R400, R401) and the end of a command: STATUS is written, and the two
fatal kinds latch FAULT (R405). This is the engine's whole exception mechanism (R409). -/

namespace Sys2Proof.Machine

/-- Causes of INVALID (R401). -/
inductive InvalidCause where
  | varintK1
  | varintCont
  | nonzeroPadding
  | unaryLimit
  | riceOverflow
  | noFrame
  deriving DecidableEq, Repr

/-- Causes of FATAL_STREAM (R401). -/
inductive FatalCause where
  | crc16Mismatch
  | reservedSubframeType
  | unsupportedLayout
  | subframeExhausted
  | truncated
  | nonzeroPadding
  | subframeReservedBit
  | badBps
  | wastedBitsInvalid
  | predictorFail
  deriving DecidableEq, Repr

/-- Causes of CONTRACT_VIOLATION (R401). -/
inductive ViolationCause where
  | illegalOpcode
  | reservedField
  | widthRange
  | disposed
  | dmemRange
  | dmemAlign
  | batchInProgress
  | cfgRange
  | predictorContract
  | selectorRange
  deriving DecidableEq, Repr

/-- The status a command ends with (R400). -/
inductive Status where
  | ok
  | underrun
  | endOfStream
  | invalid (c : InvalidCause)
  | fatal (c : FatalCause)
  | violation (c : ViolationCause)
  deriving DecidableEq, Repr

/-- Cause codes of INVALID (R401). -/
def InvalidCause.code : InvalidCause → Nat
  | .varintK1 => 0x01
  | .varintCont => 0x02
  | .nonzeroPadding => 0x03
  | .unaryLimit => 0x04
  | .riceOverflow => 0x05
  | .noFrame => 0x06

/-- Cause codes of FATAL_STREAM (R401). -/
def FatalCause.code : FatalCause → Nat
  | .crc16Mismatch => 0x01
  | .reservedSubframeType => 0x02
  | .unsupportedLayout => 0x03
  | .subframeExhausted => 0x04
  | .truncated => 0x05
  | .nonzeroPadding => 0x06
  | .subframeReservedBit => 0x07
  | .badBps => 0x08
  | .wastedBitsInvalid => 0x09
  | .predictorFail => 0x0A

/-- Cause codes of CONTRACT_VIOLATION (R401). -/
def ViolationCause.code : ViolationCause → Nat
  | .illegalOpcode => 0x01
  | .reservedField => 0x02
  | .widthRange => 0x03
  | .disposed => 0x04
  | .dmemRange => 0x05
  | .dmemAlign => 0x06
  | .batchInProgress => 0x07
  | .cfgRange => 0x08
  | .predictorContract => 0x09
  | .selectorRange => 0x0A

/-- The STATUS word `cause << 8 | code` (R400). -/
def Status.word : Status → Half
  | .ok => 0x0000#16
  | .underrun => 0x0001#16
  | .endOfStream => 0x0002#16
  | .invalid c => BitVec.ofNat 16 (c.code * 256 + 3)
  | .fatal c => BitVec.ofNat 16 (c.code * 256 + 4)
  | .violation c => BitVec.ofNat 16 (c.code * 256 + 5)

/-- The statuses that latch FAULT (R400, R405). -/
def Status.sticky : Status → Bool
  | .ok => false
  | .underrun => false
  | .endOfStream => false
  | .invalid _ => false
  | .fatal _ => true
  | .violation _ => true

/-- The end of a command: STATUS is written (R400), and FAULT keeps the first sticky status since reset (R405). -/
def State.endWith (s : State) (st : Status) : State :=
  { s with
    status := st.word
    fault := if st.sticky && s.fault == 0#16 then st.word else s.fault }

/-- The end of a command that executes under a sticky fault too: STATUS is OK, or FAULT while FAULT is set (R406). -/
def State.endAccepted (s : State) : State :=
  { s with status := if s.fault == 0#16 then Status.ok.word else s.fault }

/-- The code of a state of the decode state machine (10_state.md R50). -/
def Fsm.code : Fsm → Reg
  | .searching => 0#64
  | .headerParse => 1#64
  | .subframes => 2#64
  | .footerCheck => 3#64
  | .done => 4#64
  | .ended => 5#64
  | .failed => 6#64

end Sys2Proof.Machine
end

