-- ==== Sys2Proof/Machine/Operands.lean ====
section
/-! DEFINITION. Operand forms and their checks: widths, parameters and selectors (30_encoding.md R112), DMEM ranges and
alignment (20_memory.md R90, R93), sign and zero extension (00_scope.md R11). -/

namespace Sys2Proof.Machine

/-- A read width is legal from 1 to `most` (41_bitreader.md R212, R213). -/
def widthOk (most : Nat) (a : BitVec 8) : Bool := decide (1 ≤ a.toNat) && decide (a.toNat ≤ most)

/-- A Rice parameter is legal from 0 to 31 (R224, R232). -/
def riceOk (a : BitVec 8) : Bool := decide (a.toNat ≤ 31)

/-- An FR.INFO selector is legal from 0 to 10 (42_frame_sync.md R298). -/
def infoOk (a : BitVec 8) : Bool := decide (a.toNat ≤ 10)

/-- The range `[a, a + len)` lies in DMEM, computed in ℕ without wrap-around (R90). -/
def rangeOk (c : Config) (a len : Nat) : Bool := decide (a + len ≤ c.dmemBytes)

/-- The destination of int32 values is a multiple of 4 (R93). -/
def alignOk (a : Nat) : Bool := a % 4 == 0

/-- A natural number in a 64-bit result register (R11; R218 keeps every position below 2^64). -/
def natReg (n : Nat) : Reg := BitVec.ofNat 64 n

/-- A DMEM address in a 64-bit result register. R11 says that no value exceeds 2^64 − 1 and gives no truncation, but the address
after a batch that ends at `DMEM_BYTES` = 2^64 is 2^64: the spec states no result there, and it is a free value (DESIGN CHOICE,
log entry 13). -/
def addressReg (n : Nat) : Reg := if n < 2 ^ 64 then natReg n else Config.freeAddress n

/-- A bool in a 64-bit result register. -/
def boolReg (b : Bool) : Reg := if b then 1#64 else 0#64

/-- `sext_ℤ`: the `n`-bit value `v` read as two's complement (R11). -/
def sextInt (n v : Nat) : Int := if v.testBit (n - 1) then (v : Int) - 2 ^ n else v

/-- Bytes packed big-endian, the first byte most significant (41_bitreader.md R230). -/
def packBig : Nat → List Byte → Nat
  | v, [] => v
  | v, b :: m => packBig (v * 256 + b.toNat) m

/-- `Z(v)`, the zigzag inverse `(v >> 1) ^ −(v & 1)` on 32-bit values (R222). -/
def zigzag (v : Word) : Word := (v >>> 1) ^^^ (0#32 - (v &&& 1#32))

/-- `Store32(x)`: the low 32 bits of `x` as an int32 (44_reconstruct.md R360). -/
def store32 (x : Int) : Word := BitVec.ofInt 32 x

end Sys2Proof.Machine
end

