-- ==== Sys2Proof/Machine/Ops.lean ====
section
/-! DEFINITION. The named operations over memory, the stream and the registers that every meaning is written with: cells in
canonical form, DMEM access, the upstream pull and `Need`, `Take`, the zero-run scan, the CRC fold, and the frame of a command
(the common checks of 60_exceptions.md R408 and the end of R400, R405). -/

namespace Sys2Proof.Machine

/-! ## Cells by number, in canonical form -/

/-- What cell `a` holds: its listed value, or `d`. -/
def readCell {α : Type} (d : α) : List (Nat × α) → Nat → α
  | [], _ => d
  | (k, v) :: m, a => if a = k then v else readCell d m a

/-- The listed cells of a run of values from cell `a` on: those that are not `d`. -/
def runCells {α : Type} [DecidableEq α] (d : α) : Nat → List α → List (Nat × α)
  | _, [] => []
  | a, x :: xs => if x = d then runCells d (a + 1) xs else (a, x) :: runCells d (a + 1) xs

/-- Store the values `xs` in the cells from `a` on. -/
def writeRun {α : Type} [DecidableEq α] (d : α) (m : List (Nat × α)) (a : Nat) (xs : List α) : List (Nat × α) :=
  m.filter (fun c => decide (c.1 < a)) ++ runCells d a xs ++ m.filter (fun c => decide (a + xs.length ≤ c.1))

/-- Canonical form from cell `lo` on: rising numbers, no cell equal to `d`. -/
def cellsFrom {α : Type} [DecidableEq α] (d : α) : Nat → List (Nat × α) → Bool
  | _, [] => true
  | lo, (k, v) :: m => decide (lo ≤ k) && decide (v ≠ d) && cellsFrom d (k + 1) m

/-! ## DMEM (20_memory.md section 3) -/

/-- What a byte that nothing has written reads as (R95 leaves it to the model: log entry 1, DESIGN CHOICE). -/
def blankByte : Byte := 0#8

/-- DMEM is in canonical form. -/
def Memory.wf (m : Memory) : Bool := cellsFrom blankByte 0 m

/-- One byte of DMEM. -/
def memByte (m : Memory) (a : Nat) : Byte := readCell blankByte m a

/-- The `n` bytes of DMEM from `a` on, by rising address (R94). -/
def memSpan (m : Memory) : Nat → Nat → List Byte
  | _, 0 => []
  | a, n + 1 => memByte m a :: memSpan m (a + 1) n

/-- The bytes of an int32, least significant first (R92). -/
def wordBytes (v : Word) : List Byte :=
  [v.extractLsb' 0 8, v.extractLsb' 8 8, v.extractLsb' 16 8, v.extractLsb' 24 8]

/-- `MemWrite(a + 4j, 4, v_j)` for the values `v_j` in order (R11, R92, R94). -/
def memWriteWords (m : Memory) (a : Nat) (vs : List Word) : Memory :=
  writeRun blankByte m a (vs.flatMap wordBytes)

/-- `MemRead(a, n)`: the bytes assembled little-endian (R11, R92). -/
def memRead (m : Memory) (a n : Nat) : Nat := packBig 0 (memSpan m a n).reverse

/-! ## The stream (00_scope.md R10; 10_state.md R38 to R43) -/

/-- Stream bit `p`: bit `7 − (p mod 8)` of stream byte `p div 8` (R10). -/
def bitAt (S : List Byte) (p : Nat) : Bool := (S.getD (p / 8) 0#8).getLsbD (7 - p % 8)

/-- `Field(p, n)`: the first bit is the most significant (R10). -/
def field (S : List Byte) (p : Nat) : Nat → Nat
  | 0 => 0
  | n + 1 => 2 * field S p n + (bitAt S (p + n)).toNat

/-- The octets `Field(p + 8j, 8)` for `j < n`. -/
def octets (S : List Byte) (p n : Nat) : List Byte :=
  (List.range n).map fun j => BitVec.ofNat 8 (field S (p + 8 * j) 8)

/-- The available cursor, always `8·|S|` (R38). -/
def State.avail (s : State) : Nat := 8 * s.S.length

/-- At least `n` unconsumed bits are there. -/
def State.has (s : State) (n : Nat) : Bool := decide (s.cons + n ≤ s.avail)

/-- The EOS register: bit 0 is the flag, bits 63:1 read 0 (R31). -/
def State.eosReg (s : State) : Reg := boolReg s.eos

/-- Consumed word index of the hidden buffer (R42). -/
def State.wordIndex (s : State) : Nat := (s.cons - s.dw * s.cfg.W) / s.cfg.W

/-- Consumed bit offset of the hidden buffer (R42). -/
def State.bitOffset (s : State) : Nat := (s.cons - s.dw * s.cfg.W) % s.cfg.W

/-- Available full-word count of the hidden buffer (R42). -/
def State.wordCount (s : State) : Nat := (s.avail - s.dw * s.cfg.W) / s.cfg.W

/-- Available trailing partial-byte count of the hidden buffer (R42). -/
def State.partialBytes (s : State) : Nat := (s.avail - s.dw * s.cfg.W) % s.cfg.W / 8

/-- Word `j` of the hidden buffer: its first stream byte is its most significant byte (R42). A byte lane where no stream byte
has arrived yet reads 0 here: R42 places received bytes only (DESIGN CHOICE, log entry 15). No command reads it (R44). -/
def State.bufferWord (s : State) (j : Nat) : Nat :=
  packBig 0 ((List.range (s.cfg.W / 8)).map fun i => s.S.getD ((s.dw + j) * (s.cfg.W / 8) + i) 0#8)

/-- Where the baseline stands once every whole octet consumed since it is folded (R43; 41_bitreader.md R241). -/
def State.foldedBase (s : State) : Nat := s.base + 8 * ((s.cons - s.base) / 8)

/-- The words compaction has discarded once it has run: those wholly before `min(base, cons)`, with the baseline `base` of the
fold that precedes the discard (R43). -/
def State.compacted (s : State) : Nat := max s.dw (min s.foldedBase s.cons / s.cfg.W)

/-- The loop of `Need` (20_memory.md R85) on the answers still to come: pull while fewer than `target` bits have arrived and
the stream has not ended; a pull that returns no byte ends the loop. When no answer is left the source has no data now. -/
def pullUntil (target : Nat) : List PullAnswer → List Byte → Bool → List PullAnswer × List Byte × Bool
  | [], S, eos => ([], S, eos)
  | a :: up, S, eos =>
    if eos || decide (target ≤ 8 * S.length) then (a :: up, S, eos)
    else if a.bytes.isEmpty then (up, S, a.ends)
    else pullUntil target up (S ++ a.bytes) a.ends

/-- `Need(n)`: the state after its pulls (R85, R86); whether it holds `n` bits is `has n` of that state. Where a pull may be
due, compaction runs first (10_state.md R43): it discards the buffer words of the octets it folds, while `base` and BCRC keep
their values until the next fold that a command makes (R43's last sentence; log entry 6). What it changes is hidden (R44). -/
def State.need (s : State) (n : Nat) : State :=
  if s.has n then s
  else
    let r := pullUntil (s.cons + n) s.upstream s.S s.eos
    { s with upstream := r.1, S := r.2.1, eos := r.2.2, dw := s.compacted }

/-- One `Pull()` (R84), with the compaction a refill makes (41_bitreader.md R250): its answer and the state after it. -/
def State.pull (s : State) : PullAnswer × State :=
  match s.upstream with
  | [] => (⟨[], false⟩, { s with dw := s.compacted })
  | a :: up => (a, { s with upstream := up, S := s.S ++ a.bytes, eos := s.eos || a.ends, dw := s.compacted })

/-- `n` pulls, none after the end of the stream (R86). -/
def State.pulls : Nat → State → State
  | 0, s => s
  | n + 1, s => if s.eos then s else State.pulls n s.pull.2

/-- `Take(n)` (41_bitreader.md R211): the state after it and the field, `none` for an underrun, which consumes nothing. -/
def State.take (s : State) (n : Nat) : State × Option Nat :=
  let t := s.need n
  if t.has n then ({ t with cons := t.cons + n }, some (field t.S t.cons n)) else (t, none)

/-- Bits that are there or still to come, less those consumed: no loop of a command reads more. -/
def State.bitsAhead (s : State) : Nat :=
  8 * (s.S.length + (s.upstream.map fun a => a.bytes.length).sum) - s.cons

/-- How a scan for a 1 bit ends. -/
inductive Scan where
  /-- `z` zero bits stand before the next 1 bit -/
  | found (z : Nat)
  /-- the source ran dry first -/
  | short
  /-- the run is too long -/
  | tooLong
  deriving DecidableEq, Repr

/-- The loop of 41_bitreader.md R220 and R223: count zero bits from the cursor, needing one bit more each time, and give up
when `tooMany` says so. Nothing is consumed. Each turn needs a further bit, so `bitsAhead + 1` turns are enough. -/
def scanZeros (tooMany : Nat → Bool) : Nat → Nat → State → State × Scan
  | 0, _, s => (s, .short)
  | turns + 1, z, s =>
    let t := s.need (z + 1)
    if t.has (z + 1) then
      if bitAt t.S (t.cons + z) then (t, .found z)
      else if tooMany (z + 1) then (t, .tooLong)
      else scanZeros tooMany turns (z + 1) t
    else (t, .short)

/-- The scan from the cursor. -/
def State.scan (s : State) (tooMany : Nat → Bool) : State × Scan :=
  scanZeros tooMany (s.bitsAhead + 1) 0 s

/-- BR.UNARY's limit: more than `UNARY_MAX` zeros (R220). -/
def unaryOver (c : Config) (z : Nat) : Bool := decide (c.unaryMax < z)

/-- The Rice overflow: `q · 2^k ≥ 2^32` (R223). -/
def riceOver (k q : Nat) : Bool := decide (2 ^ 32 ≤ q * 2 ^ k)

/-- `Upd()` (R241): fold the whole octets consumed since the baseline. -/
def State.upd (s : State) : State :=
  let nb := (s.cons - s.base) / 8
  { s with bcrc := fold16 s.bcrc (octets s.S s.base nb), base := s.base + 8 * nb }

/-- Zero padding due at the cursor: `(8 − cons mod 8) mod 8` bits (R238, 42_frame_sync.md R289). -/
def State.padding (s : State) : Nat := (8 - s.cons % 8) % 8

/-- Number of leading 1 bits of the low `n` bits of `v`. -/
def leadingOnes : Nat → Nat → Nat
  | 0, _ => 0
  | n + 1, v => if v.testBit n then leadingOnes n v + 1 else 0

/-- How a varint read ends (R228): with a value, with a cause of INVALID, or with an underrun. -/
inductive Varint where
  | value (v : Nat) (raw : List Byte)
  | bad (c : InvalidCause) (raw : List Byte)
  | short
  deriving DecidableEq, Repr

/-- The continuation loop of R228: `left` bytes still to read, the next at position `p`; the value so far and the raw bytes so
far, latest first. The number of bytes read is the length of the raw bytes it returns. -/
def varintTail (S : List Byte) : Nat → Nat → Nat → List Byte → Varint
  | 0, _, v, raw => .value v raw.reverse
  | left + 1, p, v, raw =>
    let b := field S p 8
    if b / 64 = 2 then varintTail S left (p + 8) (v * 64 + b % 64) (BitVec.ofNat 8 b :: raw)
    else .bad .varintCont (BitVec.ofNat 8 b :: raw).reverse

/-- `Utf8(wd)` (R228): the state after it, with the consumed bytes' bits consumed, and how it ends. -/
def State.utf8 (s : State) (wd : Nat) : State × Varint :=
  let t := s.need 8
  if t.has 8 then
    let L := field t.S t.cons 8
    let raw := [BitVec.ofNat 8 L]
    let k := leadingOnes 8 L
    if k = 0 then ({ t with cons := t.cons + 8 }, .value L raw)
    else if k = 1 then ({ t with cons := t.cons + 8 }, .bad .varintK1 raw)
    else if 7 ≤ k then ({ t with cons := t.cons + 8 }, .value (2 ^ wd - 1) raw)
    else
      let u := t.need (8 * k)
      if u.has (8 * k) then
        match varintTail u.S (k - 1) (u.cons + 8) (L % 2 ^ (7 - k)) raw with
        | .value v r => ({ u with cons := u.cons + 8 * r.length }, .value v r)
        | .bad c r => ({ u with cons := u.cons + 8 * r.length }, .bad c r)
        | .short => (u, .short)
      else (u, .short)
  else (t, .short)

/-! ## Commands (60_exceptions.md section 2 and 3) -/

/-- How the body of a command ends: with a state and a status, or with no outcome. -/
abbrev Res := Host.Outcome (State × Status) Fault Refusal

/-- The command ends with this state and status. -/
def Res.done (s : State) (st : Status) : Res := .next (s, st)

/-- `raise CONTRACT_VIOLATION(c)`: nothing but STATUS and FAULT changes (R403). -/
def Res.violation (s : State) (c : ViolationCause) : Res := .next (s, .violation c)

/-- The stream may not reach 2^61 bytes (41_bitreader.md R218): the pulls between the two states made it do so. -/
def streamOverflow (s t : State) : Bool :=
  decide (2 ^ 61 ≤ t.S.length) && decide (s.S.length < t.S.length)

/-- A command that a sticky fault and a dispose stop (R406 to R408, checks 1 and 2), its body otherwise, and its end. -/
def command (s : State) (body : State → Res) : Host.Outcome State Fault Refusal :=
  if s.fault = 0#16 then
    if s.disposed then .next (s.endWith (.violation .disposed))
    else
      match body s with
      | .next (t, st) => if streamOverflow s t then .refused .streamTooLong else .next (t.endWith st)
      | .fault f => .fault f
      | .refused r => .refused r
  else .next { s with status := s.fault }

/-- The batch check (41_bitreader.md R210, R233; R408 check 6). -/
def noBatch (s : State) (body : Res) : Res :=
  if s.rb.active then Res.violation s .batchInProgress else body

/-- A word that is no command (30_encoding.md R114; R408 check 3). -/
def rejectWord (e : DecodeError) (s : State) : Host.Outcome State Fault Refusal :=
  command s fun s =>
    match e with
    | .illegalOpcode => Res.violation s .illegalOpcode
    | .reservedField => Res.violation s .reservedField

end Sys2Proof.Machine
end

