-- ==== Sys2Proof/Machine/BitReader.lean ====
section
/-! DEFINITION. The BitReader commands (41_bitreader.md R212 to R254). -/

namespace Sys2Proof.Machine

/-- `v <- Take(n)`, then `R[RES0] <- v` (R211, R212, R213, R217). -/
def readField (n : Nat) (s : State) : Res :=
  match s.take n with
  | (t, some v) => Res.done { t with res0 := natReg v } .ok
  | (t, none) => Res.done t .underrun

/-- A read whose width operand is checked against `most` (R212, R213). -/
def readCommand (most : Nat) (a : BitVec 8) (s : State) : Host.Outcome State Fault Refusal :=
  command s fun s =>
    if widthOk most a then noBatch s (readField a.toNat s) else Res.violation s .widthRange

/-- BR.READ32 n (R212). -/
def execBrRead32 (a : BitVec 8) (s : State) : Host.Outcome State Fault Refusal :=
  readCommand 32 a s

/-- BR.READ64 n (R213). -/
def execBrRead64 (a : BitVec 8) (s : State) : Host.Outcome State Fault Refusal :=
  readCommand 64 a s

/-- BR.READBYTE (R217). -/
def execBrReadbyte (s : State) : Host.Outcome State Fault Refusal :=
  command s fun s => noBatch s (readField 8 s)

/-- The body of BR.UNARY (R220). -/
def unaryBody (s : State) : Res :=
  match s.scan (unaryOver s.cfg) with
  | (t, .found z) => Res.done { t with cons := t.cons + z + 1, res0 := natReg z } .ok
  | (t, .tooLong) => Res.done t (.invalid .unaryLimit)
  | (t, .short) => Res.done t .underrun

/-- BR.UNARY (R220). -/
def execBrUnary (s : State) : Host.Outcome State Fault Refusal :=
  command s fun s => noBatch s (unaryBody s)

/-- How a Rice decode ends (R223). -/
inductive Rice where
  | value (x : Word)
  | short
  | tooLong
  deriving DecidableEq, Repr

/-- `Rice(k)` (R223): the state after it and the decoded value; nothing is consumed unless there is one. -/
def State.rice (s : State) (k : Nat) : State × Rice :=
  match s.scan (riceOver k) with
  | (t, .found q) =>
    let u := t.need (q + 1 + k)
    if u.has (q + 1 + k) then
      ({ u with cons := u.cons + q + 1 + k },
        .value (zigzag (BitVec.ofNat 32 (q * 2 ^ k + field u.S (u.cons + q + 1) k))))
    else (u, .short)
  | (t, .tooLong) => (t, .tooLong)
  | (t, .short) => (t, .short)

/-- The body of BR.RICE (R224). -/
def riceBody (k : Nat) (s : State) : Res :=
  match s.rice k with
  | (t, .value x) => Res.done { t with res0 := x.signExtend 64 } .ok
  | (t, .tooLong) => Res.done t (.invalid .riceOverflow)
  | (t, .short) => Res.done t .underrun

/-- BR.RICE k (R224). -/
def execBrRice (a : BitVec 8) (s : State) : Host.Outcome State Fault Refusal :=
  command s fun s =>
    if riceOk a then noBatch s (riceBody a.toNat s) else Res.violation s .widthRange

/-- The result registers of BR.RICEB: values written, address of the next one, values left (R232). After a batch that ends at
`DMEM_BYTES` = 2^64 that address is 2^64, which RES1 cannot hold, and RES1 is a free value (DESIGN CHOICE, log entry 13). -/
def State.riceResults (s : State) (n : Nat) : State :=
  { s with res0 := natReg n, res1 := addressReg s.rb.dst, res2 := natReg s.rb.remaining }

/-- The value that `RB` has read in full is written and `RB` moves to the next one (R232). -/
def State.riceEmit (s : State) : State :=
  { s with
    dmem := memWriteWords s.dmem s.rb.dst [zigzag (BitVec.ofNat 32 (s.rb.q * 2 ^ s.rb.k + s.rb.r))]
    rb := { s.rb with
      dst := s.rb.dst + 4, remaining := s.rb.remaining - 1, phase := .quot, q := 0, rn := 0, r := 0 } }

/-- One bit of a Rice code in the phase QUOT (R232): a 1 ends the quotient, a 0 counts. -/
def State.riceQuotBit (s : State) : State :=
  if bitAt s.S s.cons then { s with cons := s.cons + 1, rb := { s.rb with phase := .rem } }
  else { s with cons := s.cons + 1, rb := { s.rb with q := s.rb.q + 1 } }

/-- One bit of a Rice code's remainder (R232). -/
def State.riceRemBit (s : State) : State :=
  { s with
    cons := s.cons + 1
    rb := { s.rb with r := 2 * s.rb.r + (bitAt s.S s.cons).toNat, rn := s.rb.rn + 1 } }

/-- The loop of R232, one bit or one completed value a turn; `n` counts the values written by this command. Each turn consumes
a bit that is there or still to come, or completes a value, after which a bit is due: `2 · bitsAhead + 2` turns are enough. -/
def riceLoop : Nat → Nat → State → Res
  | 0, n, s => Res.done (s.riceResults n) .underrun
  | turns + 1, n, s =>
    if s.rb.remaining = 0 then
      Res.done (State.riceResults { s with rb := { s.rb with active := false } } n) .ok
    else
      match s.rb.phase with
      | .quot =>
        let t := s.need 1
        if t.has 1 then
          let u := t.riceQuotBit
          if u.rb.phase = .quot ∧ riceOver u.rb.k u.rb.q = true then
            Res.done { u.riceResults n with rb := RiceBatch.inactive } (.invalid .riceOverflow)
          else riceLoop turns n u
        else Res.done (t.riceResults n) .underrun
      | .rem =>
        if s.rb.rn < s.rb.k then
          let t := s.need 1
          if t.has 1 then riceLoop turns n t.riceRemBit
          else Res.done (t.riceResults n) .underrun
        else riceLoop turns (n + 1) s.riceEmit

/-- The loop with turns enough for every bit the source can still give. -/
def riceRun (s : State) : Res := riceLoop (2 * s.bitsAhead + 3) 0 s

/-- A new batch (R232): the checks in the order of R408, then the record. -/
def riceStart (a : BitVec 8) (s : State) : Res :=
  if riceOk a then
    if rangeOk s.cfg s.arg0.toNat (4 * s.arg1.toNat) then
      if alignOk s.arg0.toNat then
        riceRun { s with
          rb := { active := decide (0 < s.arg1.toNat), k := a.toNat, dst := s.arg0.toNat, remaining := s.arg1.toNat,
                  phase := .quot, q := 0, rn := 0, r := 0 } }
      else Res.violation s .dmemAlign
    else Res.violation s .dmemRange
  else Res.violation s .widthRange

/-- A continuation (R233): the batch's own operands, or a violation. -/
def riceContinue (a : BitVec 8) (s : State) : Res :=
  if a.toNat = s.rb.k ∧ s.arg0.toNat = s.rb.dst ∧ s.arg1.toNat = s.rb.remaining then riceRun s
  else Res.violation s .batchInProgress

/-- BR.RICEB k (R232, R233). -/
def execBrRiceb (a : BitVec 8) (s : State) : Host.Outcome State Fault Refusal :=
  command s fun s => if s.rb.active then riceContinue a s else riceStart a s

/-- The body of BR.UTF8_32 and BR.UTF8_64 (R230, R231): RES1 and RES2 give the raw bytes on INVALID too. -/
def utf8Body (wd : Nat) (s : State) : Res :=
  match s.utf8 wd with
  | (t, .value v raw) =>
    Res.done { t with res0 := natReg v, res1 := natReg (packBig 0 raw), res2 := natReg raw.length } .ok
  | (t, .bad c raw) =>
    Res.done { t with res1 := natReg (packBig 0 raw), res2 := natReg raw.length } (.invalid c)
  | (t, .short) => Res.done t .underrun

/-- BR.UTF8_32 (R230). -/
def execBrUtf8x32 (s : State) : Host.Outcome State Fault Refusal :=
  command s fun s => noBatch s (utf8Body 32 s)

/-- BR.UTF8_64 (R231). -/
def execBrUtf8x64 (s : State) : Host.Outcome State Fault Refusal :=
  command s fun s => noBatch s (utf8Body 64 s)

/-- BR.ALIGNED (R236), accepted during a batch. -/
def execBrAligned (s : State) : Host.Outcome State Fault Refusal :=
  command s fun s => Res.done { s with res0 := boolReg (s.cons % 8 == 0) } .ok

/-- The body of BR.ZPAD (R238). -/
def zpadBody (s : State) : Res :=
  let r := s.padding
  let t := s.need r
  if t.has r then
    if field t.S t.cons r = 0 then Res.done { t with cons := t.cons + r, res0 := natReg r } .ok
    else Res.done t (.invalid .nonzeroPadding)
  else Res.done t .underrun

/-- BR.ZPAD (R238). -/
def execBrZpad (s : State) : Host.Outcome State Fault Refusal :=
  command s fun s => noBatch s (zpadBody s)

/-- Skip `n` bits without CRC accumulation (R244): the octets before the skip are folded, the skipped bits never are. -/
def skipBody (n : Nat) (s : State) : Res :=
  let t := s.need n
  if t.has n then Res.done { t.upd with cons := t.cons + n, base := t.cons + n } .ok
  else Res.done t .underrun

/-- BR.SKIPBITS (R244). -/
def execBrSkipbits (s : State) : Host.Outcome State Fault Refusal :=
  command s fun s => noBatch s (skipBody s.arg0.toNat s)

/-- BR.SKIPBYTES (R246). -/
def execBrSkipbytes (s : State) : Host.Outcome State Fault Refusal :=
  command s fun s => noBatch s (skipBody (8 * s.arg0.toNat) s)

/-- BR.GETCRC (R243). -/
def execBrGetcrc (s : State) : Host.Outcome State Fault Refusal :=
  command s fun s => noBatch s (Res.done { s.upd with res0 := s.upd.bcrc.setWidth 64 } .ok)

/-- BR.SETCRC b (R240). -/
def execBrSetcrc (b : BitVec 16) (s : State) : Host.Outcome State Fault Refusal :=
  command s fun s => noBatch s (Res.done { s with bcrc := b, base := s.cons } .ok)

/-- BR.UPDCRC (R242). -/
def execBrUpdcrc (s : State) : Host.Outcome State Fault Refusal :=
  command s fun s => noBatch s (Res.done s.upd .ok)

/-- The body of BR.REFILL (R250): one pull, none after the end of the stream. -/
def refillBody (s : State) : Res :=
  if s.eos then Res.done { s with res0 := 0#64, res1 := 0#64 } .ok
  else
    let p := s.pull
    Res.done { p.2 with
      res0 := boolReg (decide (1 ≤ p.1.bytes.length)), res1 := natReg p.1.bytes.length } .ok

/-- BR.REFILL (R250), accepted during a batch. -/
def execBrRefill (s : State) : Host.Outcome State Fault Refusal :=
  command s refillBody

/-- BR.EOS (R252), accepted under a sticky fault, after a dispose and during a batch. -/
def execBrEos (s : State) : Host.Outcome State Fault Refusal :=
  .next (State.endAccepted { s with res0 := boolReg s.eos })

/-- BR.POS (R254), accepted during a batch. -/
def execBrPos (s : State) : Host.Outcome State Fault Refusal :=
  command s fun s =>
    Res.done { s with res0 := natReg s.cons, res1 := natReg s.avail, res2 := natReg s.base } .ok

end Sys2Proof.Machine
end

