-- ==== Sys2Proof/Machine/Crc.lean ====
section
/-! DEFINITION. The CRC-8 and CRC-16 commands (40_crc.md R174 to R177, R188 to R192). -/

namespace Sys2Proof.Machine

/-- A span command: the range check of R90, then `absorb` on the span's bytes. -/
def spanCommand (s : State) (absorb : State → List Byte → State) : Host.Outcome State Fault Refusal :=
  command s fun s =>
    if rangeOk s.cfg s.arg0.toNat s.arg1.toNat then
      Res.done (absorb s (memSpan s.dmem s.arg0.toNat s.arg1.toNat)) .ok
    else Res.violation s .dmemRange

/-- The CRC-16 of a span by the path CRC16.SPANB takes: the polynomial remainder when the span is bulk-eligible, the scalar
fold otherwise (R182, R185, R192). -/
def bulkFold16 (c : Config) (v : Half) (m : List Byte) : Half :=
  if bulkEligible c m.length then rem16 v m else fold16 v m

/-- CRC8.SET b (R174). -/
def execCrc8Set (b : BitVec 8) (s : State) : Host.Outcome State Fault Refusal :=
  command s fun s => Res.done { s with c8 := b } .ok

/-- CRC8.GET (R175). -/
def execCrc8Get (s : State) : Host.Outcome State Fault Refusal :=
  command s fun s => Res.done { s with res0 := s.c8.setWidth 64 } .ok

/-- CRC8.BYTE b (R176). -/
def execCrc8Byte (b : BitVec 8) (s : State) : Host.Outcome State Fault Refusal :=
  command s fun s => Res.done { s with c8 := a8 s.c8 b, res0 := (a8 s.c8 b).setWidth 64 } .ok

/-- CRC8.SPAN (R177). -/
def execCrc8Span (s : State) : Host.Outcome State Fault Refusal :=
  spanCommand s fun s m => { s with c8 := fold8 s.c8 m, res0 := (fold8 s.c8 m).setWidth 64 }

/-- CRC16.SET b (R188). -/
def execCrc16Set (b : BitVec 16) (s : State) : Host.Outcome State Fault Refusal :=
  command s fun s => Res.done { s with c16 := b } .ok

/-- CRC16.GET (R189). -/
def execCrc16Get (s : State) : Host.Outcome State Fault Refusal :=
  command s fun s => Res.done { s with res0 := s.c16.setWidth 64 } .ok

/-- CRC16.BYTE b (R190). -/
def execCrc16Byte (b : BitVec 8) (s : State) : Host.Outcome State Fault Refusal :=
  command s fun s => Res.done { s with c16 := a16 s.c16 b, res0 := (a16 s.c16 b).setWidth 64 } .ok

/-- CRC16.SPAN (R191). -/
def execCrc16Span (s : State) : Host.Outcome State Fault Refusal :=
  spanCommand s fun s m => { s with c16 := fold16 s.c16 m, res0 := (fold16 s.c16 m).setWidth 64 }

/-- CRC16.SPANB (R192). -/
def execCrc16Spanb (s : State) : Host.Outcome State Fault Refusal :=
  spanCommand s fun s m =>
    { s with c16 := bulkFold16 s.cfg s.c16 m, res0 := (bulkFold16 s.cfg s.c16 m).setWidth 64 }

end Sys2Proof.Machine
end

