-- ==== Sys2Proof/Machine/Subframe.lean ====
section
/-! DEFINITION. The subframe micro-steps (43_subframe.md R320 to R335) and what the micro-steps of the frame decode share: an
underrun inside one (42_frame_sync.md R279) and a fatal failure. -/

namespace Sys2Proof.Machine

/-- `fsm <- FAILED ; raise FATAL_STREAM(c)`: the bits consumed so far stay consumed (60_exceptions.md R403). -/
def fatalStep (s : State) (c : FatalCause) : Res := Res.done { s with fsm := .failed } (.fatal c)

/-- An underrun inside a micro-step (42_frame_sync.md R279). -/
def underrunStep (s : State) : Res :=
  if s.eos then
    match s.fsm with
    | .searching => Res.done { s with fsm := .ended, raw := [], hp := .H0 } .endOfStream
    | .headerParse => Res.done { s with fsm := .ended, raw := [], hp := .H0 } .endOfStream
    | .subframes => fatalStep s .truncated
    | .footerCheck => fatalStep s .truncated
    | .done => Res.done s .underrun
    | .ended => Res.done s .underrun
    | .failed => Res.done s .underrun
  else Res.done s .underrun

/-- `v <- Take(n)` in a micro-step, then the rest of it. -/
def takeStep (n : Nat) (s : State) (rest : Nat → State → Res) : Res :=
  match s.take n with
  | (t, some v) => rest v t
  | (t, none) => underrunStep t

/-- The cell of `CHBUF[c][j]`, `j < 65536` (10_state.md R53). -/
def chanKey (c j : Nat) : Nat := c * 65536 + j

/-- `CHBUF[c][j]`. -/
def State.chan (s : State) (c j : Nat) : Int := readCell 0 s.chbuf (chanKey c j)

/-- `CHBUF[ch][i + j] <- x_j` for the values `x_j` in order. -/
def State.putChan (s : State) (i : Nat) (xs : List Int) : State :=
  { s with chbuf := writeRun 0 s.chbuf (chanKey s.sub.ch i) xs }

/-- `TypeDecode(t)`, `none` for reserved (R322). The order R322 gives as '–' is 0 here (DESIGN CHOICE, log entry 16). -/
def typeDecode (t : Nat) : Option (Kind × Nat) :=
  if t = 0 then some (.constant, 0)
  else if t = 1 then some (.verbatim, 0)
  else if t < 8 then none
  else if t ≤ 12 then some (.fixed, t - 8)
  else if t < 32 then none
  else some (.lpc, t - 31)

/-- `side`: 1 for the side channel of a stereo pair (R323). -/
def sideBit (asg : Assignment) (ch : Nat) : Int :=
  match asg with
  | .independent => 0
  | .leftSide => if ch = 1 then 1 else 0
  | .rightSide => if ch = 0 then 1 else 0
  | .midSide => if ch = 1 then 1 else 0

/-- The effective bit depth `bps + side − w` (R325). -/
def State.effDepth (s : State) : Int := s.hdr.bps + sideBit s.hdr.asg s.sub.ch - s.sub.w

/-- `be <- EffDepth() ; ss <- S2`, fatal when the depth is below 1 (R321, R324, R325). -/
def depthStep (s : State) : Res :=
  let t := { s with sub := { s.sub with be := s.effDepth } }
  if s.effDepth < 1 then fatalStep t .badBps
  else Res.done { t with sub := { t.sub with ss := .S2 } } .ok

/-- Sub-step `S0`, the subframe header byte (R321). -/
def subHeaderStep (s : State) : Res :=
  takeStep 8 s fun v s =>
    if v.testBit 7 then fatalStep s .subframeReservedBit
    else
      match typeDecode (v / 2 % 64) with
      | none => fatalStep { s with sub := { s.sub with wf := v.testBit 0 } } .reservedSubframeType
      | some (kind, order) =>
        let t := { s with sub := { s.sub with wf := v.testBit 0, kind := kind, order := order, i := 0 } }
        if v.testBit 0 then Res.done { t with sub := { t.sub with ss := .S1 } } .ok
        else depthStep { t with sub := { t.sub with w := 0 } }

/-- Sub-step `S1`, the wasted-bit count (R324). -/
def wastedStep (s : State) : Res :=
  match s.scan (unaryOver s.cfg) with
  | (t, .found u) => depthStep { t with cons := t.cons + u + 1, sub := { t.sub with w := u + 1 } }
  | (t, .tooLong) => fatalStep t .wastedBitsInvalid
  | (t, .short) => underrunStep t

/-- `ChannelDone()` (R329). -/
def channelDone (s : State) : State :=
  let t := { s with sub := { s.sub with ch := s.sub.ch + 1, i := 0, ss := .S0 } }
  if t.sub.ch = t.hdr.nch then { t with fsm := .footerCheck, fs := .F0 } else t

/-- The samples `xs` go to `CHBUF` from sample `i` on, each shifted left by the wasted bits (R328), and the channel is done
when it holds `bs` of them (R327, R331). -/
def produce (s : State) (xs : List Int) : State :=
  let t := s.putChan s.sub.i (xs.map fun x => x * 2 ^ s.sub.w)
  let u := { t with sub := { t.sub with i := t.sub.i + xs.length } }
  if u.sub.i = u.hdr.bs then channelDone u else u

/-- Sub-step `S2` of a Constant subframe: one value fills the whole block (R326). -/
def constantStep (s : State) : Res :=
  takeStep s.sub.be.toNat s fun v s =>
    let x := sextInt s.sub.be.toNat v * 2 ^ s.sub.w
    Res.done (channelDone (s.putChan 0 (List.replicate s.hdr.bs x))) .ok

/-- Sub-step `S2` of a Verbatim subframe: one sample (R327). -/
def verbatimStep (s : State) : Res :=
  takeStep s.sub.be.toNat s fun v s => Res.done (produce s [sextInt s.sub.be.toNat v]) .ok

/-- The request to the predictor collaborator: the samples so far are those before the wasted shift (R330). -/
def State.predRequest (s : State) : PredRequest where
  kind := s.sub.kind
  order := s.sub.order
  be := s.sub.be
  bs := s.hdr.bs
  i := s.sub.i
  prev := (List.range s.sub.i).map fun j => s.chan s.sub.ch j / 2 ^ s.sub.w
  S := s.S
  cons := s.cons

/-- The state in which the predictor is called: the request is made, and the answers `more` are left after this one. -/
def State.calling (s : State) (more : List PredAnswer) : State :=
  { s with preq := some s.predRequest, predictor := some more }

/-- What the sub-step does with the predictor's outcome, in the state `s` after the predictor's pulls (R331 to R333).
Overproduction changes only fsm, STATUS and FAULT (60_exceptions.md R403): it goes back to `call`, the state before the pulls
(log entry 7). Pulls that it drops and that would make the stream too long are refused here (41_bitreader.md R218), because the
end of the command does not see them. -/
def predOutcomeStep (call s : State) : PredOutcome → Res
  | .underrun => underrunStep s
  | .fail => fatalStep s .predictorFail
  | .produced xs bits =>
    if xs.length = 0 then fatalStep s .subframeExhausted
    else if s.hdr.bs < s.sub.i + xs.length then
      if streamOverflow call s then .refused .streamTooLong
      else Res.done { call with fsm := .failed } (.violation .predictorContract)
    else Res.done (produce { s with cons := s.cons + min bits (s.avail - s.cons) } xs) .ok

/-- Sub-step `S2` of a Fixed or LPC subframe: one call of the predictor (R331), refused when there is none
(60_exceptions.md R412). A predictor with no answer left has not enough bits now (log entry 4). -/
def predictorStep (s : State) : Res :=
  match s.predictor with
  | none => .refused .predictorAbsent
  | some [] => underrunStep { s with preq := some s.predRequest }
  | some (a :: more) => predOutcomeStep (s.calling more) (State.pulls a.pulls (s.calling more)) a.outcome

/-- The micro-step of `SUBFRAMES` (42_frame_sync.md R288). -/
def subframeStep (s : State) : Res :=
  match s.sub.ss with
  | .S0 => subHeaderStep s
  | .S1 => wastedStep s
  | .S2 =>
    match s.sub.kind with
    | .constant => constantStep s
    | .verbatim => verbatimStep s
    | .fixed => predictorStep s
    | .lpc => predictorStep s

end Sys2Proof.Machine
end

