-- ==== Sys2Proof/Machine/Reconstruct.lean ====
section
/-! DEFINITION. Channel reconstruction, interleaving and the Frame (44_reconstruct.md R350 to R360; 42_frame_sync.md R292). -/

namespace Sys2Proof.Machine

/-- `LayoutCheck()` passes (R350): no channel count is configured, or the frame has that count. -/
def State.layoutOk (s : State) : Bool := s.siChannels.toNat == 0 || s.hdr.nch == s.siChannels.toNat

/-- `mid = (m << 1) | (s & 1)` on ℤ (R354). -/
def midOf (m s : Int) : Int := 2 * m + s % 2

/-- Sample `j` of output channel `c` for the decoded channels `x` (R351 to R354), in ℤ with floor shifts. -/
def outSample (asg : Assignment) (x : Nat → Nat → Int) (c j : Nat) : Int :=
  match asg with
  | .independent => x c j
  | .leftSide => if c = 0 then x 0 j else x 0 j - x 1 j
  | .rightSide => if c = 0 then x 1 j + x 0 j else x 1 j
  | .midSide =>
    if c = 0 then (midOf (x 0 j) (x 1 j) + x 1 j) / 2 else (midOf (x 0 j) (x 1 j) - x 1 j) / 2

/-- The number of values of the Frame, `nch · bs` (R55). -/
def State.frameLen (s : State) : Nat := s.hdr.nch * s.hdr.bs

/-- `FBUF[j·nch + c] = Store32(out_c[j])` (R355, R360). -/
def State.interleaved (s : State) : List Word :=
  (List.range s.frameLen).map fun n => store32 (outSample s.hdr.asg s.chan (n % s.hdr.nch) (n / s.hdr.nch))

/-- `CreateFrame()` (42_frame_sync.md R292). -/
def createFrame (s : State) : State :=
  { s with fpresent := true, fcur := 0, fbuf := s.interleaved, fsm := .done }

end Sys2Proof.Machine
end

