-- ==== Sys2Proof/Machine/Frame.lean ====
section
/-! DEFINITION. The frame synchroniser, header parser and footer check (42_frame_sync.md R270 to R292), the micro-step of the
decode state machine, and the commands FR.DECODE, FR.STEP, FR.INFO (R272, R273, R298) and PCM.READ (44_reconstruct.md R364). -/

namespace Sys2Proof.Machine

/-- The `DONE` micro-step: the Frame is released (R274). -/
def releaseStep (s : State) : Res :=
  Res.done { s with fpresent := false, fcur := 0, fsm := .searching, acc := 0#16, accn := 0 } .ok

/-- `SyncFound()` (R276). -/
def syncFound (s : State) : State :=
  let raw := [s.acc.extractLsb' 8 8, s.acc.extractLsb' 0 8]
  { s with
    hdr := { s.hdr with hres := s.acc.getLsbD 1, blk := s.acc.getLsbD 0, fstart := s.cons - 16 }
    raw := raw
    bcrc := fold16 0#16 raw
    base := s.cons
    fsm := .headerParse
    hp := .H0 }

/-- The 14-bit sync marker (30_encoding.md R130). -/
def syncMarker : BitVec 14 := 0b11111111111110#14

/-- A `SEARCHING` micro-step: one bit into the rolling accumulator (R275). -/
def searchStep (s : State) : Res :=
  takeStep 1 s fun v s =>
    let t := { s with acc := (s.acc <<< 1) ||| BitVec.ofNat 16 v, accn := min 16 (s.accn + 1) }
    if t.accn = 16 ∧ t.acc.extractLsb' 2 14 = syncMarker then Res.done (syncFound t) .ok else Res.done t .ok

/-- `Resync()` (R278): the last 8 consumed bits stay in the accumulator. -/
def resync (s : State) : State :=
  { s with
    acc := BitVec.ofNat 16 (field s.S (s.cons - 8) 8), accn := 8, raw := [], hp := .H0, fsm := .searching }

/-- A header found invalid: resync, with status OK (R278, R287). -/
def resyncStep (s : State) : Res := Res.done (resync s) .ok

/-- The two bytes of a 16-bit field, most significant first. -/
def bytesOf16 (v : Nat) : List Byte := [BitVec.ofNat 8 (v / 256), BitVec.ofNat 8 v]

/-- The fixed fields of the header, as `H0` stores them (R280). -/
def Header.fixedFields (h : Header) (v : Nat) : Header :=
  { h with
    bsc := BitVec.ofNat 4 (v / 4096)
    src := BitVec.ofNat 4 (v / 256)
    chc := BitVec.ofNat 4 (v / 16)
    bdc := BitVec.ofNat 3 (v / 2)
    hun := v.testBit 0 }

/-- The fixed fields make the header invalid (R280). -/
def State.fixedInvalid (s : State) : Bool :=
  s.hdr.hres || bsEntry s.cfg s.hdr.bsc == .reserved || s.hdr.src == 15#4 || (chEntry s.cfg s.hdr.chc).isNone ||
    (if s.hdr.bdc == 0#3 then s.siBps == 0#6 else (bpsEntry s.cfg s.hdr.bdc).isNone)

/-- Header sub-step `H0`, the fixed fields (R280). -/
def fixedStep (s : State) : Res :=
  takeStep 16 s fun v s =>
    let t := { s with hdr := s.hdr.fixedFields v, raw := s.raw ++ bytesOf16 v }
    if t.fixedInvalid then resyncStep t else Res.done { t with hp := .H1 } .ok

/-- The varint width the header uses: 32 bits for a frame number, 64 for a sample number (R281). -/
def State.numWidth (s : State) : Nat := if s.hdr.blk then 64 else 32

/-- Header sub-step `H1`, the frame or sample number (R281). -/
def numberStep (s : State) : Res :=
  match s.utf8 s.numWidth with
  | (t, .value v raw) =>
    if v = 2 ^ s.numWidth - 1 then resyncStep t
    else Res.done { t with hdr := { t.hdr with num := natReg v }, raw := t.raw ++ raw, hp := .H2 } .ok
  | (t, .bad _ _) => resyncStep t
  | (t, .short) => underrunStep t

/-- `bs <- n ; hp <- H3`, with the deferred bytes `raw` (R282). -/
def State.setBlockSize (s : State) (n : Nat) (raw : List Byte) : State :=
  { s with hdr := { s.hdr with bs := n }, raw := s.raw ++ raw, hp := .H3 }

/-- Header sub-step `H2`, the block size (R282). A reserved code has been rejected at `H0` already. -/
def blockSizeStep (s : State) : Res :=
  match bsEntry s.cfg s.hdr.bsc with
  | .deferred8 => takeStep 8 s fun v s => Res.done (s.setBlockSize (v + 1) [BitVec.ofNat 8 v]) .ok
  | .deferred16 => takeStep 16 s fun v s => Res.done (s.setBlockSize (v + 1) (bytesOf16 v)) .ok
  | .direct n => Res.done (s.setBlockSize n []) .ok
  | .reserved => resyncStep s

/-- `rate <- r ; hp <- H4`, with the deferred bytes `raw` (R283). -/
def State.setRate (s : State) (r : Word) (raw : List Byte) : State :=
  { s with hdr := { s.hdr with rate := r }, raw := s.raw ++ raw, hp := .H4 }

/-- Header sub-step `H3`, the sample rate (R283). Code 15 has been rejected at `H0` already. -/
def rateStep (s : State) : Res :=
  if s.hdr.src = 12#4 then
    takeStep 8 s fun v s => Res.done (s.setRate (BitVec.ofNat 32 (1000 * v)) [BitVec.ofNat 8 v]) .ok
  else if s.hdr.src = 13#4 then
    takeStep 16 s fun v s => Res.done (s.setRate (BitVec.ofNat 32 v) (bytesOf16 v)) .ok
  else if s.hdr.src = 14#4 then
    takeStep 16 s fun v s => Res.done (s.setRate (BitVec.ofNat 32 (10 * v)) (bytesOf16 v)) .ok
  else if s.hdr.src = 0#4 then Res.done (s.setRate s.siRate []) .ok
  else
    match srEntry s.cfg s.hdr.src with
    | some r => Res.done (s.setRate r []) .ok
    | none => resyncStep s

/-- The nominal bit depth of the header: `SI_BPS` for code 0, the table's entry otherwise (R285). -/
def State.depthEntry (s : State) : Option Nat :=
  if s.hdr.bdc = 0#3 then some s.siBps.toNat else bpsEntry s.cfg s.hdr.bdc

/-- `Accept()`: the header becomes the frame's header (R285). Reserved codes have been rejected at `H0` already. -/
def acceptStep (s : State) : Res :=
  match s.depthEntry, chEntry s.cfg s.hdr.chc with
  | some bps, some (nch, asg) =>
    Res.done { s with
      hdr := { s.hdr with bps := bps, nch := nch, asg := asg }
      fsm := .subframes
      sub := { s.sub with ch := 0, ss := .S0, i := 0 } } .ok
  | _, _ => resyncStep s

/-- Header sub-step `H4`, the header CRC-8 over the reassembled bytes (R284, R286). -/
def headerCrcStep (s : State) : Res :=
  takeStep 8 s fun v s =>
    let t := { s with hdr := { s.hdr with hc8 := BitVec.ofNat 8 v } }
    if fold8 0#8 t.raw = t.hdr.hc8 then acceptStep t else resyncStep t

/-- The micro-step of `HEADER_PARSE`. -/
def headerStep (s : State) : Res :=
  match s.hp with
  | .H0 => fixedStep s
  | .H1 => numberStep s
  | .H2 => blockSizeStep s
  | .H3 => rateStep s
  | .H4 => headerCrcStep s

/-- Footer sub-step `F0`, the zero padding (R289). -/
def paddingStep (s : State) : Res :=
  let r := s.padding
  let t := s.need r
  if t.has r then
    if field t.S t.cons r = 0 then Res.done { t with cons := t.cons + r, fs := .F1 } .ok
    else fatalStep t .nonzeroPadding
  else underrunStep t

/-- Footer sub-step `F1`, the CRC-16, then the layout check, the reconstruction and the Frame (R290). -/
def footerCrcStep (s : State) : Res :=
  let t := s.need 16
  if t.has 16 then
    let u := t.upd
    let v := BitVec.ofNat 16 (field u.S u.cons 16)
    let x := { u with cons := u.cons + 16, fcrc := v }
    if v = u.bcrc then
      if x.layoutOk then Res.done (createFrame x) .ok else fatalStep x .unsupportedLayout
    else fatalStep x .crc16Mismatch
  else underrunStep t

/-- The micro-step of `FOOTER_CHECK`. -/
def footerStep (s : State) : Res :=
  match s.fs with
  | .F0 => paddingStep s
  | .F1 => footerCrcStep s

/-- The micro-step `Step()` (R271). -/
def microStep (s : State) : Res :=
  match s.fsm with
  | .searching => searchStep s
  | .headerParse => headerStep s
  | .subframes => subframeStep s
  | .footerCheck => footerStep s
  | .done => releaseStep s
  | .ended => Res.done s .endOfStream
  | .failed => .fault .stepInFailed

/-- The loop of FR.DECODE (R273): micro-steps until one ends with another status than OK or a Frame is there. -/
def decodeLoop : Nat → State → Res
  | 0, _ => .fault .decodeNeverCompletes
  | turns + 1, s =>
    match microStep s with
    | .next (t, .ok) => if t.fsm = .done then Res.done t .ok else decodeLoop turns t
    | r => r

/-- Micro-steps enough for every decode that completes: each consumes a bit that is there or still to come, takes an answer of
the predictor, or is one of the few that do neither (R282, R283, R289, R274). -/
def State.decodeTurns (s : State) : Nat :=
  4 * s.bitsAhead + 2 * (s.predictor.getD []).length + 4

/-- The FR.DECODE loop (R273). -/
def decodeRun (s : State) : Res := decodeLoop s.decodeTurns s

/-- RES0 gets the state code after the step, except on PREDICTOR_CONTRACT, which writes no result register
(60_exceptions.md R403, R404; R272; log entry 7). -/
def frameResult (t : State) (st : Status) : State :=
  if st = .violation .predictorContract then t else { t with res0 := t.fsm.code }

/-- FR.STEP (R272). -/
def execFrStep (s : State) : Host.Outcome State Fault Refusal :=
  command s fun s => noBatch s <|
    match microStep s with
    | .next (t, st) => Res.done (frameResult t st) st
    | .fault f => .fault f
    | .refused r => .refused r

/-- FR.DECODE (R273). -/
def execFrDecode (s : State) : Host.Outcome State Fault Refusal :=
  command s fun s => noBatch s <|
    match decodeRun s with
    | .next (t, .ok) => Res.done { t with res0 := t.fsm.code, res1 := natReg t.frameLen } .ok
    | .next (t, st) => Res.done (frameResult t st) st
    | .fault f => .fault f
    | .refused r => .refused r

/-- `field(sel)` of FR.INFO (R298). -/
def State.infoField (s : State) (sel : Nat) : Reg :=
  match sel with
  | 0 => boolReg s.hdr.blk
  | 1 => natReg s.hdr.bs
  | 2 => s.hdr.rate.setWidth 64
  | 3 => s.hdr.chc.setWidth 64
  | 4 => natReg s.hdr.nch
  | 5 => natReg s.hdr.bps
  | 6 => s.hdr.num
  | 7 => s.hdr.hc8.setWidth 64
  | 8 => natReg s.hdr.fstart
  | 9 => natReg (s.frameLen - s.fcur)
  | _ => s.fcrc.setWidth 64

/-- FR.INFO sel (R298), accepted during a batch. -/
def execFrInfo (a : BitVec 8) (s : State) : Host.Outcome State Fault Refusal :=
  command s fun s =>
    if infoOk a then
      if s.fpresent then Res.done { s with res0 := s.infoField a.toNat } .ok
      else Res.done s (.invalid .noFrame)
    else Res.violation s .selectorRange

/-- The copy of PCM.READ (44_reconstruct.md R364): at most `cap` of the values left go to DMEM at `dst`. -/
def pcmCopy (s : State) : State :=
  let n := min s.arg1.toNat (s.frameLen - s.fcur)
  { s with
    dmem := memWriteWords s.dmem s.arg0.toNat ((s.fbuf.drop s.fcur).take n)
    fcur := s.fcur + n
    res0 := natReg n
    res1 := natReg (s.frameLen - (s.fcur + n))
    res2 := natReg s.hdr.nch }

/-- PCM.READ once its operands are checked (44_reconstruct.md R364): a Frame with nothing left is decoded past first. -/
def pcmBody (s : State) : Res :=
  if s.arg1.toNat = 0 then Res.done { s with res0 := 0#64 } .ok
  else if s.fpresent = true ∧ s.fcur ≠ s.frameLen then Res.done (pcmCopy s) .ok
  else
    match decodeRun s with
    | .next (t, .ok) => Res.done (pcmCopy t) .ok
    | .next (t, st) => Res.done { t with res0 := 0#64 } st
    | .fault f => .fault f
    | .refused r => .refused r

/-- PCM.READ (44_reconstruct.md R364). -/
def execPcmRead (s : State) : Host.Outcome State Fault Refusal :=
  command s fun s =>
    if rangeOk s.cfg s.arg0.toNat (4 * s.arg1.toNat) then
      if alignOk s.arg0.toNat then noBatch s (pcmBody s) else Res.violation s .dmemAlign
    else Res.violation s .dmemRange

end Sys2Proof.Machine
end

