-- ==== Sys2Proof/Machine/System.lean ====
section
/-! DEFINITION. The system commands (45_system.md R380 to R386; 70_reset_and_hazards.md R451). -/

namespace Sys2Proof.Machine

/-- The reset of a session (70_reset_and_hazards.md R451): every engine state at its reset value but ARG0, ARG1 and DMEM; the
parameters and the host are not the engine's, and the next upstream source takes over (log entry 3). -/
def State.newSession (s : State) : State :=
  { State.reset with
    arg0 := s.arg0
    arg1 := s.arg1
    dmem := s.dmem
    cfg := s.cfg
    predictor := s.predictor
    preq := s.preq
    upstream := s.nextSources.headD []
    nextSources := s.nextSources.tail
    host := s.host
    rdata := s.rdata }

/-- SYS.RESET (R380), accepted in every state; STATUS is OK. -/
def execSysReset (s : State) : Host.Outcome State Fault Refusal :=
  .next s.newSession

/-- SYS.DISPOSE (R382), accepted in every state. -/
def execSysDispose (s : State) : Host.Outcome State Fault Refusal :=
  .next (State.endAccepted { s with
    fpresent := false, fcur := 0, fbuf := [], rb := RiceBatch.inactive, disposed := true })

/-- The body of SYS.CFG (R384). -/
def cfgBody (sel : Nat) (s : State) : Res :=
  match sel with
  | 0 =>
    if s.arg0.toNat ≤ 2 ^ 32 - 1 then Res.done { s with siRate := s.arg0.setWidth 32 } .ok
    else Res.violation s .cfgRange
  | 1 =>
    if s.arg0.toNat ≤ 32 then Res.done { s with siBps := s.arg0.setWidth 6 } .ok
    else Res.violation s .cfgRange
  | 2 =>
    if s.arg0.toNat ≤ 8 then Res.done { s with siChannels := s.arg0.setWidth 4 } .ok
    else Res.violation s .cfgRange
  | _ => Res.violation s .selectorRange

/-- SYS.CFG sel (R384). -/
def execSysCfg (a : BitVec 8) (s : State) : Host.Outcome State Fault Refusal :=
  command s (cfgBody a.toNat)

/-- RES2 of SYS.STATUS: `disposed | (RB.active << 1) | (fpresent << 2) | (eos << 3)` (R386). -/
def State.conditionBits (s : State) : Reg :=
  boolReg s.disposed ||| (boolReg s.rb.active <<< 1) ||| (boolReg s.fpresent <<< 2) ||| (boolReg s.eos <<< 3)

/-- SYS.STATUS (R386), accepted in every state. -/
def execSysStatus (s : State) : Host.Outcome State Fault Refusal :=
  .next (State.endAccepted { s with
    res0 := s.fsm.code, res1 := s.fault.setWidth 64, res2 := s.conditionBits })

end Sys2Proof.Machine
end

