-- ==== Sys2Proof/Machine/Dispatch.lean ====
section
/-! DEFINITION. One command's meaning, chosen by its constructor (30_encoding.md R113). -/

namespace Sys2Proof.Machine

def exec (i : Instr) (s : State) : Host.Outcome State Fault Refusal :=
  match i with
  | .crc8Set b => Sys2Proof.Machine.execCrc8Set b s
  | .crc8Get => Sys2Proof.Machine.execCrc8Get s
  | .crc8Byte b => Sys2Proof.Machine.execCrc8Byte b s
  | .crc8Span => Sys2Proof.Machine.execCrc8Span s
  | .crc16Set b => Sys2Proof.Machine.execCrc16Set b s
  | .crc16Get => Sys2Proof.Machine.execCrc16Get s
  | .crc16Byte b => Sys2Proof.Machine.execCrc16Byte b s
  | .crc16Span => Sys2Proof.Machine.execCrc16Span s
  | .crc16Spanb => Sys2Proof.Machine.execCrc16Spanb s
  | .brRead32 a => Sys2Proof.Machine.execBrRead32 a s
  | .brRead64 a => Sys2Proof.Machine.execBrRead64 a s
  | .brReadbyte => Sys2Proof.Machine.execBrReadbyte s
  | .brUnary => Sys2Proof.Machine.execBrUnary s
  | .brRice a => Sys2Proof.Machine.execBrRice a s
  | .brRiceb a => Sys2Proof.Machine.execBrRiceb a s
  | .brUtf8x32 => Sys2Proof.Machine.execBrUtf8x32 s
  | .brUtf8x64 => Sys2Proof.Machine.execBrUtf8x64 s
  | .brAligned => Sys2Proof.Machine.execBrAligned s
  | .brZpad => Sys2Proof.Machine.execBrZpad s
  | .brSkipbits => Sys2Proof.Machine.execBrSkipbits s
  | .brSkipbytes => Sys2Proof.Machine.execBrSkipbytes s
  | .brGetcrc => Sys2Proof.Machine.execBrGetcrc s
  | .brSetcrc b => Sys2Proof.Machine.execBrSetcrc b s
  | .brUpdcrc => Sys2Proof.Machine.execBrUpdcrc s
  | .brRefill => Sys2Proof.Machine.execBrRefill s
  | .brEos => Sys2Proof.Machine.execBrEos s
  | .brPos => Sys2Proof.Machine.execBrPos s
  | .frDecode => Sys2Proof.Machine.execFrDecode s
  | .frStep => Sys2Proof.Machine.execFrStep s
  | .frInfo a => Sys2Proof.Machine.execFrInfo a s
  | .pcmRead => Sys2Proof.Machine.execPcmRead s
  | .sysReset => Sys2Proof.Machine.execSysReset s
  | .sysDispose => Sys2Proof.Machine.execSysDispose s
  | .sysCfg a => Sys2Proof.Machine.execSysCfg a s
  | .sysStatus => Sys2Proof.Machine.execSysStatus s

end Sys2Proof.Machine
end

