-- ==== Sys2Proof/Machine/HostPort.lean ====
section
/-! DEFINITION. The host port (10_state.md R30, R31): register reads and writes, DMEM bytes, the line SRC, and the command that
a write to CMD starts (00_scope.md R12). -/

namespace Sys2Proof.Machine

/-- A write of a word to CMD: the word is decoded and the command runs to completion (R12, R31, 30_encoding.md R114). -/
def runWord (w : Word) (s : State) : Host.Outcome State Fault Refusal :=
  match decode w with
  | .ok i => exec i { s with cmd := w }
  | .error e => rejectWord e { s with cmd := w }

/-- The offset of CMD (R31). -/
def cmdOffset : Nat := 0x00

/-- A host write to a register offset (R31): CMD takes its 32 bits, read-only registers and other offsets refuse. -/
def hostWrite (off : Nat) (v : Reg) (s : State) : Host.Outcome State Fault Refusal :=
  match off with
  | 0x00 => runWord (v.setWidth 32) s
  | 0x08 => .next { s with arg0 := v }
  | 0x10 => .next { s with arg1 := v }
  | 0x18 => .refused (.hostWriteReadOnly off)
  | 0x20 => .refused (.hostWriteReadOnly off)
  | 0x28 => .refused (.hostWriteReadOnly off)
  | 0x30 => .refused (.hostWriteReadOnly off)
  | 0x38 => .refused (.hostWriteReadOnly off)
  | 0x40 => .refused (.hostWriteReadOnly off)
  | _ => .refused (.hostOffsetUnmapped off)

/-- What a host read of a register offset returns (R31): CMD reads 0, narrower registers read 0 above their width. -/
def hostReadReg (s : State) (off : Nat) : Option Reg :=
  match off with
  | 0x00 => some 0#64
  | 0x08 => some s.arg0
  | 0x10 => some s.arg1
  | 0x18 => some s.res0
  | 0x20 => some s.res1
  | 0x28 => some s.res2
  | 0x30 => some (s.status.setWidth 64)
  | 0x38 => some (s.fault.setWidth 64)
  | 0x40 => some s.eosReg
  | _ => none

/-- A host read: the engine's state is unchanged, the value is latched on the host's side. -/
def hostRead (off : Nat) (s : State) : Host.Outcome State Fault Refusal :=
  match hostReadReg s off with
  | some v => .next { s with rdata := v }
  | none => .refused (.hostOffsetUnmapped off)

/-- A host write of one byte of DMEM. -/
def hostDmemWrite (a : Nat) (b : Byte) (s : State) : Host.Outcome State Fault Refusal :=
  if a < s.cfg.dmemBytes then .next { s with dmem := writeRun blankByte s.dmem a [b] } else .fault (.dmemHole a)

/-- A host read of one byte of DMEM. -/
def hostDmemRead (a : Nat) (s : State) : Host.Outcome State Fault Refusal :=
  if a < s.cfg.dmemBytes then .next { s with rdata := (memByte s.dmem a).setWidth 64 } else .fault (.dmemHole a)

/-- One access of the host, or one more answer of the upstream source. -/
def hostAction (h : HostAction) (s : State) : Host.Outcome State Fault Refusal :=
  match h with
  | .write off v => hostWrite off v s
  | .read off => hostRead off s
  | .dmemWrite a b => hostDmemWrite a b s
  | .dmemRead a => hostDmemRead a s
  | .source x => .next { s with upstream := s.upstream ++ [x] }

end Sys2Proof.Machine
end

