-- ==== Sys2Proof/Machine/Step.lean ====
section
/-! DEFINITION. One step: the host's next access, or nothing while the host waits (70_reset_and_hazards.md R452: "does nothing
until the host writes CMD"). -/

namespace Sys2Proof.Machine

/-- One step of the machine. -/
def step (s : State) : Host.Outcome State Fault Refusal :=
  match s.host with
  | [] => .next s
  | h :: rest => hostAction h { s with host := rest }

/-- The state in which the host's next access writes this command word to CMD: the engine fetches nothing, a command comes
from the host's write (10_state.md R32). -/
def State.withFetchWord (s : State) (nbits w : Nat) : State :=
  { s with host := .write cmdOffset ((tableWord nbits w).setWidth 64) :: s.host }

end Sys2Proof.Machine
end

