-- ==== Sys2Proof/WellFormed.lean ====
section
/-! DEFINITION. Well-formed commands: a width, parameter or selector operand lies in the command's legal range
(30_encoding.md R112, and the ranges R113 lists). Every command that can be written is encodable, and the engine decodes an
ill-formed one and ends it with a contract violation; the meanings make that check themselves (Machine/Operands.lean). -/

namespace Sys2Proof

/-- The operand lies in the range R113 gives the command. -/
def Instr.wellFormed : Instr → Bool
  | .crc8Set _ => true
  | .crc8Get => true
  | .crc8Byte _ => true
  | .crc8Span => true
  | .crc16Set _ => true
  | .crc16Get => true
  | .crc16Byte _ => true
  | .crc16Span => true
  | .crc16Spanb => true
  | .brRead32 a => decide (1 ≤ a.toNat) && decide (a.toNat ≤ 32)
  | .brRead64 a => decide (1 ≤ a.toNat) && decide (a.toNat ≤ 64)
  | .brReadbyte => true
  | .brUnary => true
  | .brRice a => decide (a.toNat ≤ 31)
  | .brRiceb a => decide (a.toNat ≤ 31)
  | .brUtf8x32 => true
  | .brUtf8x64 => true
  | .brAligned => true
  | .brZpad => true
  | .brSkipbits => true
  | .brSkipbytes => true
  | .brGetcrc => true
  | .brSetcrc _ => true
  | .brUpdcrc => true
  | .brRefill => true
  | .brEos => true
  | .brPos => true
  | .frDecode => true
  | .frStep => true
  | .frInfo a => decide (a.toNat ≤ 10)
  | .pcmRead => true
  | .sysReset => true
  | .sysDispose => true
  | .sysCfg a => decide (a.toNat ≤ 2)
  | .sysStatus => true

end Sys2Proof
end

