-- ==== Sys2Proof/Safety.lean ====
section
/-! DEFINITION. The terms claims use: a command that may run, room in the stream, the invariant of the state, safe steps. -/

namespace Sys2Proof.Machine

/-- Neither a sticky fault nor a dispose stops the command (60_exceptions.md R408, checks 1 and 2). -/
structure State.Ready (s : State) : Prop where
  noFault : s.fault = 0#16
  open_ : s.disposed = false

/-- Every answer still to come fits the stream (41_bitreader.md R218): no pull is refused. -/
def State.Room (s : State) : Prop :=
  s.S.length + (s.upstream.map fun a => a.bytes.length).sum < 2 ^ 61

/-- `t` is `s` after pulls and nothing else (20_memory.md R84 to R86): the bytes of some first answers have arrived, the end of
the stream is set if one of them says so, none is pulled once the stream has ended, and compaction may have run. -/
structure State.PulledTo (s t : State) : Prop where
  same : t = { s with upstream := t.upstream, S := t.S, eos := t.eos, dw := t.dw }
  answers : ∃ pre : List PullAnswer, s.upstream = pre ++ t.upstream ∧
    t.S = s.S ++ pre.flatMap (fun a => a.bytes) ∧ t.eos = (s.eos || pre.any fun a => a.ends)
  ended : s.eos = true → t.upstream = s.upstream
  words : t.dw = s.dw ∨ t.dw = s.compacted

/-- FAULT is 0 or a sticky status (60_exceptions.md R405). -/
def State.FaultSticky (s : State) : Prop :=
  s.fault = 0#16 ∨ ∃ st : Status, st.sticky = true ∧ s.fault = st.word

/-- The invariant of the state: what every reachable state satisfies and every step keeps. -/
structure State.Inv (s : State) : Prop where
  /-- `base ≤ cons ≤ avail` (10_state.md R39) -/
  baseLe : s.base ≤ s.cons
  consLe : s.cons ≤ s.avail
  /-- the discarded words lie before the baseline of the fold that precedes a discard (R43), so before the cursor (R42) -/
  wordsLe : s.dw * s.cfg.W ≤ s.foldedBase
  /-- `RB.active` exactly when values remain; `k` in 0..31, `rn` in 0..k (R40) -/
  batch : s.rb.active = decide (0 < s.rb.remaining)
  batchK : s.rb.k ≤ 31
  batchRn : s.rb.rn ≤ s.rb.k
  /-- `accn` in 0..16 (R51) -/
  accnLe : s.accn ≤ 16
  /-- a Frame is present only in DONE, with `nch · bs` values, of which `fcur` are delivered (R55, R56) -/
  frameDone : s.fpresent = true → s.fsm = .done
  frameLen : s.fpresent = true → s.fbuf.length = s.frameLen
  frameCur : s.fpresent = true → s.fcur ≤ s.frameLen
  /-- FAILED is left only by SYS.RESET, and FAULT says why (42_frame_sync.md R270, R271) -/
  failed : s.fsm = .failed → s.fault ≠ 0#16
  /-- in `S2` the effective depth is at least 1 (43_subframe.md R325) -/
  depth : s.fsm = .subframes → s.sub.ss = .S2 → 1 ≤ s.sub.be
  /-- FAULT holds a sticky status or 0 -/
  sticky : s.FaultSticky
  /-- DMEM and CHBUF are in canonical form -/
  dmemWf : Memory.wf s.dmem = true
  chbufWf : cellsFrom (0 : Int) 0 s.chbuf = true

/-- A command passes the checks of R408 that do not look at its operands, and every pull it makes fits the stream. -/
structure State.Accepts (s : State) : Prop where
  ready : s.Ready
  noBatch : s.rb.active = false
  room : s.Room

/-- The word `w` is the command `i`, and `i` passes checks 1 and 2 of R408 before anything else: a sticky fault turns it away
(R406), a dispose makes it a violation (R407). -/
structure Checked (i : Instr) (w : Word) : Prop where
  word : decode w = .ok i
  sticky : ∀ s : State, s.fault ≠ 0#16 → exec i s = .next { s with status := s.fault }
  disposed : ∀ s : State, s.fault = 0#16 → s.disposed = true →
    exec i s = .next { s with status := 0x0405#16, fault := 0x0405#16 }

/-- A Rice batch in progress makes the command a violation with no effect (41_bitreader.md R210, R233). -/
def Busy (i : Instr) : Prop := ∀ s : State, s.Ready → s.rb.active = true →
  exec i s = .next { s with status := 0x0705#16, fault := 0x0705#16 }

/-- CRC-16 commands that absorb the bytes `m`, one after another, with the host's operands in between (40_crc.md R184). -/
inductive Absorbs : State → List Byte → State → Prop where
  | nil (s : State) : Absorbs s [] s
  | byte (s t u : State) (b : Byte) (m : List Byte) (h : exec (.crc16Byte b) s = .next t) (ok : t.status = 0#16)
      (rest : Absorbs t m u) : Absorbs s (b :: m) u
  | span (i : Instr) (hi : i = .crc16Span ∨ i = .crc16Spanb) (s t u : State) (a len : Reg) (m : List Byte)
      (h : exec i { s with arg0 := a, arg1 := len } = .next t) (ok : t.status = 0#16) (rest : Absorbs t m u) :
      Absorbs s (memSpan s.dmem a.toNat len.toNat ++ m) u

/-- `n` successive BR.RICE commands that all end with OK: the state after them and the values in RES0. -/
def runRice (a : BitVec 8) : Nat → State → Option (State × List Word)
  | 0, s => some (s, [])
  | n + 1, s =>
    match exec (.brRice a) s with
    | .next t =>
      if t.status = 0#16 then
        match runRice a n t with
        | some (u, xs) => some (u, t.res0.setWidth 32 :: xs)
        | none => none
      else none
    | .fault _ => none
    | .refused _ => none

/-- BR.RICEB, continued after each UNDERRUN with the operands its result registers name (41_bitreader.md R233): each time the
next answers of `more` have joined those still to come. The state after the command that ends otherwise, or after the last. -/
def runRiceb (a : BitVec 8) : List (List PullAnswer) → State → Option State
  | [], s =>
    match exec (.brRiceb a) s with
    | .next t => some t
    | .fault _ => none
    | .refused _ => none
  | m :: more, s =>
    match exec (.brRiceb a) s with
    | .next t =>
      if t.status = 0x0001#16 then
        runRiceb a more { t with arg0 := t.res1, arg1 := t.res2, upstream := t.upstream ++ m }
      else some t
    | .fault _ => none
    | .refused _ => none

/-- The next micro-step is one of the predictor's: a Fixed or an LPC payload is due (43_subframe.md R330). -/
def State.AtPayload (s : State) : Prop :=
  s.fsm = .subframes ∧ s.sub.ss = .S2 ∧ (s.sub.kind = .fixed ∨ s.sub.kind = .lpc)

/-- `t` is `s` after some FR.STEP commands that all end with OK and none of which makes a Frame: FR.DECODE from `s` takes these
micro-steps and goes on (42_frame_sync.md R273). -/
inductive Steps : State → State → Prop where
  | refl (s : State) : Steps s s
  | step (s t u : State) (h : exec .frStep s = .next t) (ok : t.status = 0x0000#16) (goesOn : t.fsm ≠ .done)
      (rest : Steps t u) : Steps s u

/-- Successive BR.READ64 commands of the given widths that all end with OK: the state after them. -/
def runReads : List (BitVec 8) → State → Option State
  | [], s => some s
  | a :: as, s =>
    match exec (.brRead64 a) s with
    | .next t => if t.status = 0#16 then runReads as t else none
    | .fault _ => none
    | .refused _ => none

/-- The families of the opcode table (30_encoding.md R113). -/
inductive Family where
  | crc8
  | crc16
  | bitReader
  | frame
  | pcm
  | system
  deriving DecidableEq, Repr

/-- The family of a command (R113). -/
def family : Instr → Family
  | .crc8Set _ => .crc8
  | .crc8Get => .crc8
  | .crc8Byte _ => .crc8
  | .crc8Span => .crc8
  | .crc16Set _ => .crc16
  | .crc16Get => .crc16
  | .crc16Byte _ => .crc16
  | .crc16Span => .crc16
  | .crc16Spanb => .crc16
  | .brRead32 _ => .bitReader
  | .brRead64 _ => .bitReader
  | .brReadbyte => .bitReader
  | .brUnary => .bitReader
  | .brRice _ => .bitReader
  | .brRiceb _ => .bitReader
  | .brUtf8x32 => .bitReader
  | .brUtf8x64 => .bitReader
  | .brAligned => .bitReader
  | .brZpad => .bitReader
  | .brSkipbits => .bitReader
  | .brSkipbytes => .bitReader
  | .brGetcrc => .bitReader
  | .brSetcrc _ => .bitReader
  | .brUpdcrc => .bitReader
  | .brRefill => .bitReader
  | .brEos => .bitReader
  | .brPos => .bitReader
  | .frDecode => .frame
  | .frStep => .frame
  | .frInfo _ => .frame
  | .pcmRead => .pcm
  | .sysReset => .system
  | .sysDispose => .system
  | .sysCfg _ => .system
  | .sysStatus => .system

/-- A safe step answers a next state: the machine neither stops nor refuses. -/
def Safe (s : State) : Prop := ∃ t, step s = .next t

/-- A run of `n` steps that are all safe. -/
def SafeRun : Nat → State → Prop
  | 0, _ => True
  | n + 1, s => ∃ t, step s = .next t ∧ SafeRun n t

end Sys2Proof.Machine
end

