-- ==== Sys2Proof/Certificates/Slice0/Obligations.lean ====
section
/-! DEFINITION. The statements for the provers: the numbered rules of the spec as claims about the model. Each docstring names
the rule. Status words are written out (60_exceptions.md R400, R401): 0x0000 is OK, 0x0001 UNDERRUN, 0x0002 END_OF_STREAM,
`cause·256 + 3` INVALID, `cause·256 + 4` FATAL_STREAM, `cause·256 + 5` CONTRACT_VIOLATION. A next state written as an update of
the state before says that every register, flag and byte of memory not named is unchanged. The state `s.need n` after the pulls of `Need`
also holds what compaction does to the hidden count `dw`, which no command reads: that is assumption log entry 6, the model's
reading of 10_state.md R43. -/

open Sys2Proof Sys2Proof.Machine

/-! ## Reset, steps, encoding -/

/-- 70_reset_and_hazards.md R450: every piece of engine state after reset. The model's choice: the scratch kind is CONSTANT
(10_state.md R53's 'all 0': log entry 17, DEDUCED). -/
def Obligations.ResetState : Prop :=
  let s := State.reset
  s.cmd = 0#32 ∧ s.arg0 = 0#64 ∧ s.arg1 = 0#64 ∧ s.res0 = 0#64 ∧ s.res1 = 0#64 ∧ s.res2 = 0#64 ∧
  s.status = 0#16 ∧ s.fault = 0#16 ∧ s.eosReg = 0#64 ∧ s.c8 = 0#8 ∧ s.c16 = 0#16 ∧ s.bcrc = 0#16 ∧
  s.S = [] ∧ s.cons = 0 ∧ s.avail = 0 ∧ s.base = 0 ∧ s.eos = false ∧ s.rb = ⟨false, 0, 0, 0, .quot, 0, 0, 0⟩ ∧
  s.siRate = 0#32 ∧ s.siBps = 0#6 ∧ s.siChannels = 0#4 ∧ s.fsm = .searching ∧ s.acc = 0#16 ∧ s.accn = 0 ∧
  s.hp = .H0 ∧ s.raw = [] ∧
  s.hdr = ⟨false, false, 0#4, 0#4, 0#4, 0#3, false, 0#64, 0, 0#32, 0, 0, .independent, 0#8, 0⟩ ∧
  s.sub = ⟨0, .S0, .constant, 0, false, 0, 0, 0⟩ ∧ (∀ c j, s.chan c j = 0) ∧ s.fs = .F0 ∧ s.fcrc = 0#16 ∧
  s.fpresent = false ∧ s.fcur = 0 ∧ s.fbuf = [] ∧ s.disposed = false ∧ s.dw = 0 ∧ s.wordCount = 0 ∧ s.partialBytes = 0

/-- 00_scope.md R12, 10_state.md R32, 70_reset_and_hazards.md R452: a host write of CMD runs the decoded command, a word of no
command is turned away by name, and with no host access pending nothing happens. The model's choice: the queue of host accesses
and the idle step (log entry 2), and that the 32-bit CMD takes the low 32 bits of what the host writes (log entry 8). -/
def Obligations.StepRunsDecoded : Prop :=
  (∀ (s : State) (v : Reg) (rest : List HostAction) (i : Instr), s.host = .write 0x00 v :: rest →
    decode (v.setWidth 32) = .ok i → step s = exec i { s with host := rest, cmd := v.setWidth 32 }) ∧
  (∀ (s : State) (v : Reg) (rest : List HostAction) (e : DecodeError), s.host = .write 0x00 v :: rest →
    decode (v.setWidth 32) = .error e → step s = rejectWord e { s with host := rest, cmd := v.setWidth 32 }) ∧
  (∀ s : State, s.host = [] → step s = .next s)

/-- 30_encoding.md R113: every assigned opcode, with its format's operand, is its command. -/
def Obligations.OpcodeMap : Prop :=
  (∀ b : BitVec 8, decode (0x100000#24 ++ b) = .ok (.crc8Set b)) ∧ decode 0x11000000#32 = .ok .crc8Get ∧
  (∀ b : BitVec 8, decode (0x120000#24 ++ b) = .ok (.crc8Byte b)) ∧ decode 0x13000000#32 = .ok .crc8Span ∧
  (∀ b : BitVec 16, decode (0x2000#16 ++ b) = .ok (.crc16Set b)) ∧ decode 0x21000000#32 = .ok .crc16Get ∧
  (∀ b : BitVec 8, decode (0x220000#24 ++ b) = .ok (.crc16Byte b)) ∧ decode 0x23000000#32 = .ok .crc16Span ∧
  decode 0x24000000#32 = .ok .crc16Spanb ∧
  (∀ a : BitVec 8, decode (0x30#8 ++ (a ++ 0#16)) = .ok (.brRead32 a)) ∧
  (∀ a : BitVec 8, decode (0x31#8 ++ (a ++ 0#16)) = .ok (.brRead64 a)) ∧
  decode 0x32000000#32 = .ok .brReadbyte ∧ decode 0x33000000#32 = .ok .brUnary ∧
  (∀ a : BitVec 8, decode (0x34#8 ++ (a ++ 0#16)) = .ok (.brRice a)) ∧
  (∀ a : BitVec 8, decode (0x35#8 ++ (a ++ 0#16)) = .ok (.brRiceb a)) ∧
  decode 0x36000000#32 = .ok .brUtf8x32 ∧ decode 0x37000000#32 = .ok .brUtf8x64 ∧
  decode 0x38000000#32 = .ok .brAligned ∧ decode 0x39000000#32 = .ok .brZpad ∧
  decode 0x3A000000#32 = .ok .brSkipbits ∧ decode 0x3B000000#32 = .ok .brSkipbytes ∧
  decode 0x3C000000#32 = .ok .brGetcrc ∧ (∀ b : BitVec 16, decode (0x3D00#16 ++ b) = .ok (.brSetcrc b)) ∧
  decode 0x3E000000#32 = .ok .brUpdcrc ∧ decode 0x3F000000#32 = .ok .brRefill ∧
  decode 0x40000000#32 = .ok .brEos ∧ decode 0x41000000#32 = .ok .brPos ∧
  decode 0x50000000#32 = .ok .frDecode ∧ decode 0x51000000#32 = .ok .frStep ∧
  (∀ a : BitVec 8, decode (0x52#8 ++ (a ++ 0#16)) = .ok (.frInfo a)) ∧ decode 0x53000000#32 = .ok .pcmRead ∧
  decode 0x70000000#32 = .ok .sysReset ∧ decode 0x71000000#32 = .ok .sysDispose ∧
  (∀ a : BitVec 8, decode (0x72#8 ++ (a ++ 0#16)) = .ok (.sysCfg a)) ∧ decode 0x73000000#32 = .ok .sysStatus

/-- Words written out from the spec's encodings decode to the command they stand for, one or two of each family. -/
def Obligations.DecodeWords : Prop :=
  decode 0x100000F4#32 = .ok (.crc8Set 0xF4#8) ∧ decode 0x20001234#32 = .ok (.crc16Set 0x1234#16) ∧
  decode 0x30060000#32 = .ok (.brRead32 6#8) ∧ decode 0x35020000#32 = .ok (.brRiceb 2#8) ∧
  decode 0x50000000#32 = .ok .frDecode ∧ decode 0x520A0000#32 = .ok (.frInfo 10#8) ∧ decode 0x53000000#32 = .ok .pcmRead ∧
  decode 0x72010000#32 = .ok (.sysCfg 1#8) ∧ decode 0x00000000#32 = .error .illegalOpcode ∧
  decode 0x11000001#32 = .error .reservedField

/-- 30_encoding.md R110, R111, R113, R114: a word decodes to a command exactly when it is the word of that command, with every
operand at every value: no two words are one command, no set bit is ignored, and every command decodes from its word. -/
def Obligations.DecodeEncode : Prop :=
  ∀ (w : Word) (i : Instr), decode w = .ok i ↔ w = encode i

/-- 30_encoding.md R114, R115: opcodes outside the map are illegal; in an assigned opcode a set reserved bit is a violation;
and a word of either kind ends with that violation when the host writes it. -/
def Obligations.IllegalWords : Prop :=
  (∀ w : Word, let opc := (w.extractLsb' 24 8).toNat
    (opc ≤ 0x0F ∨ (0x14 ≤ opc ∧ opc ≤ 0x1F) ∨ (0x25 ≤ opc ∧ opc ≤ 0x2F) ∨ (0x42 ≤ opc ∧ opc ≤ 0x4F) ∨
      (0x54 ≤ opc ∧ opc ≤ 0x6F) ∨ 0x74 ≤ opc) ↔ decode w = .error .illegalOpcode) ∧
  (∀ w : Word, let opc := (w.extractLsb' 24 8).toNat
    (((opc ∈ [0x11, 0x13, 0x21, 0x23, 0x24, 0x32, 0x33, 0x36, 0x37, 0x38, 0x39, 0x3A, 0x3B, 0x3C, 0x3E, 0x3F, 0x40, 0x41,
          0x50, 0x51, 0x53, 0x70, 0x71, 0x73]) ∧ w.extractLsb' 0 24 ≠ 0#24) ∨
      (opc ∈ [0x30, 0x31, 0x34, 0x35, 0x52, 0x72] ∧ w.extractLsb' 0 16 ≠ 0#16) ∨
      (opc ∈ [0x10, 0x12, 0x22] ∧ w.extractLsb' 8 16 ≠ 0#16) ∨
      (opc ∈ [0x20, 0x3D] ∧ w.extractLsb' 16 8 ≠ 0#8)) ↔ decode w = .error .reservedField) ∧
  (∀ (w : Word) (s : State), s.Ready → decode w = .error .illegalOpcode →
    runWord w s = .next { s with cmd := w, status := 0x0105#16, fault := 0x0105#16 }) ∧
  (∀ (w : Word) (s : State), s.Ready → decode w = .error .reservedField →
    runWord w s = .next { s with cmd := w, status := 0x0205#16, fault := 0x0205#16 })

/-! ## CRC engines -/

/-- 40_crc.md R171, R179, R183: the two tables are what their procedures compute; check values of the folds, and a
register absorbing its own two bytes. -/
def Obligations.CrcTablesAndValues : Prop :=
  ((∀ i : Byte, t8 i = crcShift8 8 i) ∧ (∀ i : Byte, t16 i = crcShift16 8 (i ++ 0#8))) ∧
  (fold8 0#8 [0x31#8, 0x32#8, 0x33#8, 0x34#8, 0x35#8, 0x36#8, 0x37#8, 0x38#8, 0x39#8] = 0xF4#8 ∧
   fold16 0#16 [0x31#8, 0x32#8, 0x33#8, 0x34#8, 0x35#8, 0x36#8, 0x37#8, 0x38#8, 0x39#8] = 0xFEE8#16 ∧
   fold16 0#16 [0xFF#8, 0xF8#8] = 0x001C#16 ∧ fold16 0#16 [0xFF#8, 0xF9#8] = 0x8019#16 ∧
   fold8 0#8 [0xFF#8, 0xF8#8] = 0x31#8 ∧ fold16 0x1234#16 [0x12#8] = 0x3400#16 ∧
   ∀ c : Half, fold16 c [c.extractLsb' 8 8, c.extractLsb' 0 8] = 0#16)

/-- 40_crc.md R172, R174, R175, R176: CRC8.SET, CRC8.GET and CRC8.BYTE. -/
def Obligations.Crc8Register : Prop :=
  (∀ b : BitVec 8, Checked (.crc8Set b) (0x100000#24 ++ b)) ∧ Checked .crc8Get 0x11000000#32 ∧
  (∀ b : BitVec 8, Checked (.crc8Byte b) (0x120000#24 ++ b)) ∧
  ∀ s : State, s.Ready → ∀ b : BitVec 8,
    exec (.crc8Set b) s = .next { s with c8 := b, status := 0x0000#16 } ∧
    exec .crc8Get s = .next { s with res0 := s.c8.setWidth 64, status := 0x0000#16 } ∧
    exec (.crc8Byte b) s = .next { s with
      c8 := t8 (s.c8 ^^^ b), res0 := (t8 (s.c8 ^^^ b)).setWidth 64, status := 0x0000#16 }

/-- 40_crc.md R180, R188, R189, R190: CRC16.SET, CRC16.GET and CRC16.BYTE. -/
def Obligations.Crc16Register : Prop :=
  (∀ b : BitVec 16, Checked (.crc16Set b) (0x2000#16 ++ b)) ∧ Checked .crc16Get 0x21000000#32 ∧
  (∀ b : BitVec 8, Checked (.crc16Byte b) (0x220000#24 ++ b)) ∧
  (∀ w : Word, w.extractLsb' 24 8 = 0x22#8 → w.extractLsb' 8 8 ≠ 0#8 → decode w = .error .reservedField) ∧
  ∀ s : State, s.Ready → ∀ (b : BitVec 8) (v : BitVec 16),
    exec (.crc16Set v) s = .next { s with c16 := v, status := 0x0000#16 } ∧
    exec .crc16Get s = .next { s with res0 := s.c16.setWidth 64, status := 0x0000#16 } ∧
    exec (.crc16Byte b) s = .next { s with
      c16 := (s.c16 <<< 8) ^^^ t16 (s.c16.extractLsb' 8 8 ^^^ b)
      res0 := ((s.c16 <<< 8) ^^^ t16 (s.c16.extractLsb' 8 8 ^^^ b)).setWidth 64, status := 0x0000#16 }

/-- 40_crc.md R177, R191, R192, 20_memory.md R90: the span commands absorb the bytes of the range in ascending order, and a
range beyond `DMEM_BYTES` is a violation that changes neither CRC register. -/
def Obligations.CrcSpans : Prop :=
  Checked .crc8Span 0x13000000#32 ∧ Checked .crc16Span 0x23000000#32 ∧ Checked .crc16Spanb 0x24000000#32 ∧
  ∀ s : State, s.Ready →
    let m := (List.range s.arg1.toNat).map fun j => memByte s.dmem (s.arg0.toNat + j)
    (s.arg0.toNat + s.arg1.toNat ≤ s.cfg.dmemBytes →
      exec .crc8Span s = .next { s with
        c8 := fold8 s.c8 m, res0 := (fold8 s.c8 m).setWidth 64, status := 0x0000#16 } ∧
      exec .crc16Span s = .next { s with
        c16 := fold16 s.c16 m, res0 := (fold16 s.c16 m).setWidth 64, status := 0x0000#16 } ∧
      exec .crc16Spanb s = .next { s with
        c16 := fold16 s.c16 m, res0 := (fold16 s.c16 m).setWidth 64, status := 0x0000#16 }) ∧
    (s.cfg.dmemBytes < s.arg0.toNat + s.arg1.toNat → ∀ i ∈ [Instr.crc8Span, .crc16Span, .crc16Spanb],
      exec i s = .next { s with status := 0x0505#16, fault := 0x0505#16 })

/-- 40_crc.md R186: the bulk command computes what the scalar command computes, in every state and for every `HAS_CLMUL` and
`BULK_THRESHOLD`. -/
def Obligations.BulkIsScalar : Prop := ∀ s : State, exec .crc16Spanb s = exec .crc16Span s

/-- 40_crc.md R173: the CRC-8 fold byte by byte, as a polynomial remainder, and split at any point. -/
def Obligations.Crc8Fold : Prop :=
  (∀ c : Byte, fold8 c [] = c) ∧ (∀ (c b : Byte) (m : List Byte), fold8 c (b :: m) = fold8 (t8 (c ^^^ b)) m) ∧
  (∀ (c : Byte) (m : List Byte), fold8 c m = rem8 c m) ∧
  (∀ (c : Byte) (m1 m2 : List Byte), fold8 c (m1 ++ m2) = fold8 (fold8 c m1) m2)

/-- 40_crc.md R182, R184: the CRC-16 fold byte by byte, as a polynomial remainder and split at any point; any sequence of
CRC16.BYTE, CRC16.SPAN and CRC16.SPANB that absorbs the bytes `m` after a CRC16.SET `c` leaves C16 = Fold16(c, m). -/
def Obligations.Crc16Fold : Prop :=
  ((∀ c : Half, fold16 c [] = c) ∧
   (∀ (c : Half) (b : Byte) (m : List Byte),
     fold16 c (b :: m) = fold16 ((c <<< 8) ^^^ t16 (c.extractLsb' 8 8 ^^^ b)) m) ∧
   (∀ (c : Half) (m : List Byte), fold16 c m = rem16 c m)) ∧
  ((∀ (c : Half) (m1 m2 : List Byte), fold16 c (m1 ++ m2) = fold16 (fold16 c m1) m2) ∧
   (∀ (r s t : State) (c : Half) (m : List Byte), r.Ready → exec (.crc16Set c) r = .next s → Absorbs s m t →
     t.c16 = fold16 c m))

/-! ## BitReader -/

/-- 00_scope.md R10, 20_memory.md R81: a stream bit, and a field whose first bit is its most significant. -/
def Obligations.FieldOrder : Prop :=
  ∀ (S : List Byte) (p n : Nat), bitAt S p = (S.getD (p / 8) 0#8).getLsbD (7 - p % 8) ∧ field S p n < 2 ^ n ∧
    ∀ i, i < n → (field S p n).testBit (n - 1 - i) = bitAt S (p + i)

/-- 20_memory.md R84, R85, R86, 41_bitreader.md R250: `Need` pulls while bits are short and the stream goes on, one pull after
another until a pull brings nothing; BR.REFILL makes one pull; neither pulls once the stream has ended. The model's choice: what
compaction does where a pull is due (10_state.md R43: `dw := s.compacted`, with `base` and BCRC kept; log entry 6), and that an
exhausted list of answers means no data now (log entry 3). -/
def Obligations.NeedAndRefill : Prop :=
  Checked .brRefill 0x3F000000#32 ∧
  (∀ (s : State) (n : Nat), s.PulledTo (s.need n) ∧ (s.has n = true ↔ s.cons + n ≤ 8 * s.S.length) ∧
    (s.has n = true → s.need n = s) ∧
    (s.has n = false → s.eos = true → s.need n = { s with dw := s.compacted }) ∧
    (∀ a up, s.has n = false → s.eos = false → s.upstream = a :: up →
      s.need n = if a.bytes = [] then s.pull.2 else State.need s.pull.2 n) ∧
    (s.has n = false → s.eos = false → s.upstream = [] → s.need n = { s with dw := s.compacted })) ∧
  (∀ s : State, s.Ready → s.eos = true → exec .brRefill s = .next { s with
    res0 := 0#64, res1 := 0#64, status := 0x0000#16 }) ∧
  (∀ (s : State) (a : PullAnswer) (up : List PullAnswer), s.Ready → s.Room → s.eos = false → s.upstream = a :: up →
    exec .brRefill s = .next { s with
      S := s.S ++ a.bytes, eos := a.ends, upstream := up, dw := s.compacted
      res0 := if 1 ≤ a.bytes.length then 1#64 else 0#64, res1 := BitVec.ofNat 64 a.bytes.length
      status := 0x0000#16 }) ∧
  (∀ s : State, s.Ready → s.eos = false → s.upstream = [] → exec .brRefill s = .next { s with
    dw := s.compacted, res0 := 0#64, res1 := 0#64, status := 0x0000#16 })

/-- 41_bitreader.md R211, R212, R213, R217: a read takes the field at the cursor and moves past it; when the bits do not come
it consumes nothing; a width out of range is a violation. -/
def Obligations.ReadCommands : Prop :=
  (∀ a : BitVec 8, Checked (.brRead32 a) (0x30#8 ++ (a ++ 0#16)) ∧ Checked (.brRead64 a) (0x31#8 ++ (a ++ 0#16))) ∧
  Checked .brReadbyte 0x32000000#32 ∧
  (∀ a : BitVec 8, (1 ≤ a.toNat ∧ a.toNat ≤ 32 → Busy (.brRead32 a)) ∧ (1 ≤ a.toNat ∧ a.toNat ≤ 64 → Busy (.brRead64 a))) ∧
  Busy .brReadbyte ∧
  (∀ (s : State) (a : BitVec 8), s.Ready →
    (¬(1 ≤ a.toNat ∧ a.toNat ≤ 32) → exec (.brRead32 a) s = .next { s with status := 0x0305#16, fault := 0x0305#16 }) ∧
    (¬(1 ≤ a.toNat ∧ a.toNat ≤ 64) → exec (.brRead64 a) s = .next { s with status := 0x0305#16, fault := 0x0305#16 })) ∧
  (∀ (s : State) (i : Instr) (a : BitVec 8), s.Accepts →
    (i = .brRead32 a ∧ 1 ≤ a.toNat ∧ a.toNat ≤ 32) ∨ (i = .brRead64 a ∧ 1 ≤ a.toNat ∧ a.toNat ≤ 64) ∨
      (i = .brReadbyte ∧ a = 8#8) →
    let t := s.need a.toNat
    (t.has a.toNat = true → exec i s = .next { t with
      cons := s.cons + a.toNat, res0 := BitVec.ofNat 64 (field t.S s.cons a.toNat), status := 0x0000#16 }) ∧
    (t.has a.toNat = false → exec i s = .next { t with status := 0x0001#16 }))

/-- 41_bitreader.md R215: reading `n` then `m` bits is reading `n + m` bits and splitting the result. -/
def Obligations.ReadAssociativity : Prop :=
  ∀ (s t u v : State) (a b c : BitVec 8) (rd : BitVec 8 → Instr), s.Accepts →
    (rd = .brRead32 ∧ a.toNat + b.toNat ≤ 32 ∨ rd = .brRead64 ∧ a.toNat + b.toNat ≤ 64) →
    1 ≤ a.toNat → 1 ≤ b.toNat → c.toNat = a.toNat + b.toNat →
    exec (rd a) s = .next t → t.status = 0x0000#16 → exec (rd b) t = .next u → u.status = 0x0000#16 →
    exec (rd c) s = .next v → v.status = 0x0000#16 →
    t.res0.toNat = v.res0.toNat / 2 ^ b.toNat ∧ u.res0.toNat = v.res0.toNat % 2 ^ b.toNat ∧ u.cons = v.cons

/-- 41_bitreader.md R214, 10_state.md R44: nothing a BitReader command does depends on the word width or on how many buffer
words compaction has discarded; only that hidden count itself may differ. -/
def Obligations.WordIndependence : Prop :=
  ∀ (i : Instr) (s t : State) (w d : Nat), family i = .bitReader → exec i s = .next t → ∃ d' : Nat,
    exec i { s with cfg := { s.cfg with W := w }, dw := d } = .next { t with cfg := { t.cfg with W := w }, dw := d' }

/-- 41_bitreader.md R216: a BitReader command other than BR.RICEB that does not end with OK leaves only its pulls behind (an
INVALID varint has consumed its bytes: R228). -/
def Obligations.ReaderAtomicity : Prop :=
  ∀ (i : Instr) (s t : State), family i = .bitReader → (∀ a, i ≠ .brRiceb a) → s.Ready → exec i s = .next t →
    t.status ≠ 0x0000#16 → ((i = .brUtf8x32 ∨ i = .brUtf8x64) → t.status ≠ 0x0103#16 ∧ t.status ≠ 0x0203#16) →
    ∃ u, s.PulledTo u ∧ t = { u with status := t.status, fault := t.fault } ∧
      t.cons = s.cons ∧ t.base = s.base ∧ t.bcrc = s.bcrc ∧ t.rb = s.rb

/-- 41_bitreader.md R220: BR.UNARY, in the case of a run of `z` zeros that ends with a 1, that is too long, that runs dry; and
one of the cases is there. -/
def Obligations.UnaryCommand : Prop :=
  Checked .brUnary 0x33000000#32 ∧ Busy .brUnary ∧
  ∀ s : State, s.Accepts →
    (∃ t, exec .brUnary s = .next t) ∧
    ∀ z : Nat, let t := s.need (z + 1)
      z ≤ s.cfg.unaryMax → (∀ j, j < z → bitAt t.S (s.cons + j) = false) →
      (t.has (z + 1) = true → bitAt t.S (s.cons + z) = true →
        exec .brUnary s = .next { t with
          cons := s.cons + z + 1, res0 := BitVec.ofNat 64 z, status := 0x0000#16 }) ∧
      (t.has (z + 1) = true → bitAt t.S (s.cons + z) = false → z = s.cfg.unaryMax →
        exec .brUnary s = .next { t with status := 0x0403#16 }) ∧
      (t.has (z + 1) = false → (z = 0 ∨ (s.need z).has z = true) →
        exec .brUnary s = .next { t with status := 0x0001#16 })

/-- 41_bitreader.md R223, R224: BR.RICE with quotient `q`: its value, its overflow, its underruns in the quotient and in the
remainder, and the violation for `k > 31`. -/
def Obligations.RiceCommand : Prop :=
  (∀ a : BitVec 8, Checked (.brRice a) (0x34#8 ++ (a ++ 0#16))) ∧
  (∀ a : BitVec 8, a.toNat ≤ 31 → Busy (.brRice a)) ∧
  (∀ (s : State) (a : BitVec 8), s.Ready → 31 < a.toNat →
    exec (.brRice a) s = .next { s with status := 0x0305#16, fault := 0x0305#16 }) ∧
  ∀ (s : State) (a : BitVec 8), s.Accepts → a.toNat ≤ 31 →
    (∃ t, exec (.brRice a) s = .next t) ∧
    ∀ q : Nat, let k := a.toNat
      let t := s.need (q + 1)
      let u := s.need (q + 1 + k)
      q * 2 ^ k < 2 ^ 32 → (∀ j, j < q → bitAt t.S (s.cons + j) = false) →
      (u.has (q + 1 + k) = true → bitAt t.S (s.cons + q) = true →
        q * 2 ^ k + field u.S (s.cons + q + 1) k < 2 ^ 32 ∧
        exec (.brRice a) s = .next { u with
          cons := s.cons + q + 1 + k
          res0 := (zigzag (BitVec.ofNat 32 (q * 2 ^ k + field u.S (s.cons + q + 1) k))).signExtend 64
          status := 0x0000#16 }) ∧
      (t.has (q + 1) = true → bitAt t.S (s.cons + q) = true → u.has (q + 1 + k) = false →
        exec (.brRice a) s = .next { u with status := 0x0001#16 }) ∧
      (t.has (q + 1) = true → bitAt t.S (s.cons + q) = false → 2 ^ 32 ≤ (q + 1) * 2 ^ k →
        exec (.brRice a) s = .next { t with status := 0x0503#16 }) ∧
      (t.has (q + 1) = false → (q = 0 ∨ (s.need q).has q = true) →
        exec (.brRice a) s = .next { t with status := 0x0001#16 })

/-- 41_bitreader.md R222, R226: the zigzag inverse in ℤ, a bijection onto the int32 values; and the Rice code of an int32 `x`,
at any parameter, decodes to `x`. The code is `v div 2^k` zeros, a 1 and the low `k` bits of `v`, with `v` the zigzag code of `x`. -/
def Obligations.RiceRoundTrip : Prop :=
  ((∀ v : Word, v.toNat % 2 = 0 → (zigzag v).toInt = (v.toNat : Int) / 2) ∧
   (∀ v : Word, v.toNat % 2 = 1 → (zigzag v).toInt = -(((v.toNat : Int) + 1) / 2)) ∧ Function.Bijective zigzag) ∧
  (∀ (s : State) (a : BitVec 8) (x : Word) (v : Nat), s.Accepts → a.toNat ≤ 31 →
     (v : Int) = (if 0 ≤ x.toInt then 2 * x.toInt else -2 * x.toInt - 1) →
     let k := a.toNat
     let q := v / 2 ^ k
     s.has (q + 1 + k) = true → (∀ j, j < q → bitAt s.S (s.cons + j) = false) → bitAt s.S (s.cons + q) = true →
     field s.S (s.cons + q + 1) k = v % 2 ^ k →
     exec (.brRice a) s = .next { s with
       cons := s.cons + q + 1 + k, res0 := x.signExtend 64, status := 0x0000#16 })

/-- 41_bitreader.md R232: the checks of a new batch, in order, and the batch of no values; a legal BR.RICEB, new or continued,
always ends, with OK, UNDERRUN or RICE_OVERFLOW; what its result registers say of the `n` values it wrote; and that it changes no
byte of DMEM outside those `n` words, nor anything but the stream, the batch record and the results. (An address of 2^64, after a
batch that ends there, leaves RES1 open: log entry 13.) -/
def Obligations.RicebCommand : Prop :=
  ((∀ a : BitVec 8, Checked (.brRiceb a) (0x35#8 ++ (a ++ 0#16))) ∧
   ∀ (s : State) (a : BitVec 8), s.Ready → s.rb.active = false →
     (31 < a.toNat → exec (.brRiceb a) s = .next { s with status := 0x0305#16, fault := 0x0305#16 }) ∧
     (a.toNat ≤ 31 → s.cfg.dmemBytes < s.arg0.toNat + 4 * s.arg1.toNat →
       exec (.brRiceb a) s = .next { s with status := 0x0505#16, fault := 0x0505#16 }) ∧
     (a.toNat ≤ 31 → s.arg0.toNat + 4 * s.arg1.toNat ≤ s.cfg.dmemBytes → s.arg0.toNat % 4 ≠ 0 →
       exec (.brRiceb a) s = .next { s with status := 0x0605#16, fault := 0x0605#16 }) ∧
     (a.toNat ≤ 31 → s.arg0.toNat ≤ s.cfg.dmemBytes → s.arg0.toNat % 4 = 0 → s.arg1 = 0#64 →
       exec (.brRiceb a) s = .next { s with
         rb := ⟨false, a.toNat, s.arg0.toNat, 0, .quot, 0, 0, 0⟩
         res0 := 0#64, res1 := s.arg0, res2 := 0#64, status := 0x0000#16 })) ∧
  (∀ (s : State) (a : BitVec 8), s.Inv → s.Ready → s.Room →
     (s.rb.active = false ∧ a.toNat ≤ 31 ∧ s.arg0.toNat + 4 * s.arg1.toNat ≤ s.cfg.dmemBytes ∧ s.arg0.toNat % 4 = 0 ∨
       s.rb.active = true ∧ a.toNat = s.rb.k ∧ s.arg0.toNat = s.rb.dst ∧ s.arg1.toNat = s.rb.remaining) →
     ∃ (t : State) (n : Nat), exec (.brRiceb a) s = .next t ∧
       t = { s with
         S := t.S, cons := t.cons, eos := t.eos, rb := t.rb, dw := t.dw, dmem := t.dmem, upstream := t.upstream
         res0 := t.res0, res1 := t.res1, res2 := t.res2, status := t.status } ∧
       (∀ p, p < s.arg0.toNat ∨ s.arg0.toNat + 4 * n ≤ p → memByte t.dmem p = memByte s.dmem p) ∧
       n ≤ s.arg1.toNat ∧ t.res0 = BitVec.ofNat 64 n ∧
       (s.arg0.toNat + 4 * n < 2 ^ 64 → t.res1 = BitVec.ofNat 64 (s.arg0.toNat + 4 * n)) ∧
       t.res2 = BitVec.ofNat 64 (s.arg1.toNat - n) ∧
       (t.status = 0x0000#16 ∧ n = s.arg1.toNat ∧ t.rb.active = false ∨
         t.status = 0x0001#16 ∧ n < s.arg1.toNat ∧ t.rb.active = true ∧ t.rb.k = a.toNat ∧
           t.rb.dst = s.arg0.toNat + 4 * n ∧ t.rb.remaining = s.arg1.toNat - n ∨
         t.status = 0x0503#16 ∧ n < s.arg1.toNat ∧ t.rb = ⟨false, 0, 0, 0, .quot, 0, 0, 0⟩))

/-- 41_bitreader.md R232, R234: a batch that meets no underrun and no overflow is as many BR.RICE commands, but for the hidden
count of discarded words; and however often a batch is suspended and continued, and however it ends, the words it has written
are the values that as many BR.RICE commands find in the stream that had arrived; ended with OK it has their cursor, and a batch
that finds all its bits there does the same; ended otherwise, the next BR.RICE meets the same end. (An address of 2^64 leaves RES1
open: log entry 13.) -/
def Obligations.RicebIsRice : Prop :=
  (∀ (s t : State) (a : BitVec 8) (xs : List Word), s.Inv → s.Accepts → a.toNat ≤ 31 →
    s.arg0.toNat + 4 * s.arg1.toNat ≤ s.cfg.dmemBytes → s.arg0.toNat % 4 = 0 →
    runRice a s.arg1.toNat s = some (t, xs) →
    ∃ (d : Nat) (next : Reg), (s.arg0.toNat + 4 * s.arg1.toNat < 2 ^ 64 →
      next = BitVec.ofNat 64 (s.arg0.toNat + 4 * s.arg1.toNat)) ∧ exec (.brRiceb a) s = .next { t with
      dw := d, dmem := memWriteWords s.dmem s.arg0.toNat xs
      rb := ⟨false, a.toNat, s.arg0.toNat + 4 * s.arg1.toNat, 0, .quot, 0, 0, 0⟩
      res0 := s.arg1, res1 := next, res2 := 0#64, status := 0x0000#16 }) ∧
  (∀ (s u : State) (a : BitVec 8) (more : List (List PullAnswer)), s.Inv → s.Accepts → a.toNat ≤ 31 →
    s.cfg.dmemBytes ≤ 2 ^ 64 → s.arg0.toNat + 4 * s.arg1.toNat ≤ s.cfg.dmemBytes → s.arg0.toNat % 4 = 0 →
    runRiceb a more s = some u →
    ∃ (n : Nat) (v : State) (xs : List Word), n + u.res2.toNat = s.arg1.toNat ∧
      runRice a n { s with S := u.S } = some (v, xs) ∧ u.dmem = memWriteWords s.dmem s.arg0.toNat xs ∧
      (u.status = 0x0000#16 ∧ n = s.arg1.toNat ∧ v.cons = u.cons ∧
          (∃ w, exec (.brRiceb a) { s with S := u.S } = .next w ∧ w.status = 0x0000#16 ∧ w.dmem = u.dmem ∧ w.cons = u.cons) ∨
        u.status = 0x0001#16 ∧ n < s.arg1.toNat ∧
          (∃ w, exec (.brRice a) { v with upstream := [] } = .next w ∧ w.status = 0x0001#16) ∨
        u.status = 0x0503#16 ∧ n < s.arg1.toNat ∧ (∃ w, exec (.brRice a) v = .next w ∧ w.status = 0x0503#16)))

/-- 41_bitreader.md R233: during a batch only the batch's own continuation goes on; the other reading, skipping, CRC checkpoint
and frame commands are violations; the rest is accepted, and SYS.RESET ends the batch. -/
def Obligations.BatchInProgress : Prop :=
  (∀ (s : State) (a : BitVec 8), s.Ready → s.rb.active = true →
    ¬(a.toNat = s.rb.k ∧ s.arg0.toNat = s.rb.dst ∧ s.arg1.toNat = s.rb.remaining) →
    exec (.brRiceb a) s = .next { s with status := 0x0705#16, fault := 0x0705#16 }) ∧
  (∀ (s t : State) (a : BitVec 8), s.Ready → s.rb.active = true →
    a.toNat = s.rb.k ∧ s.arg0.toNat = s.rb.dst ∧ s.arg1.toNat = s.rb.remaining →
    exec (.brRiceb a) s = .next t → t.status ≠ 0x0705#16) ∧
  (∀ i ∈ [Instr.brReadbyte, .brUnary, .brUtf8x32, .brUtf8x64, .brZpad, .brSkipbits, .brSkipbytes, .brGetcrc, .brUpdcrc,
    .frDecode, .frStep], Busy i) ∧
  (∀ b : BitVec 16, Busy (.brSetcrc b)) ∧
  (∀ a : BitVec 8, (1 ≤ a.toNat ∧ a.toNat ≤ 32 → Busy (.brRead32 a)) ∧ (1 ≤ a.toNat ∧ a.toNat ≤ 64 → Busy (.brRead64 a)) ∧
    (a.toNat ≤ 31 → Busy (.brRice a))) ∧
  (∀ s : State, s.Ready → s.rb.active = true → s.arg0.toNat + 4 * s.arg1.toNat ≤ s.cfg.dmemBytes → s.arg0.toNat % 4 = 0 →
    exec .pcmRead s = .next { s with status := 0x0705#16, fault := 0x0705#16 }) ∧
  (∀ (i : Instr) (s t : State), family i = .crc8 ∨ family i = .crc16 ∨ family i = .system ∨ i = .brRefill ∨ i = .brEos ∨
      i = .brPos ∨ i = .brAligned ∨ (∃ a, i = .frInfo a) →
    s.Ready → exec i s = .next t → t.status ≠ 0x0705#16) ∧
  (∀ s t : State, exec .sysReset s = .next t → t.rb = ⟨false, 0, 0, 0, .quot, 0, 0, 0⟩)

/-- 41_bitreader.md R228, R230, R231: the varint commands: by the lead byte, a value, the sentinel, or an invalid lead; with
continuation bytes, a value or the first bad one. The raw bytes packed big-endian are the field of the bytes consumed. -/
def Obligations.VarintCommands : Prop :=
  Checked .brUtf8x32 0x36000000#32 ∧ Checked .brUtf8x64 0x37000000#32 ∧ Busy .brUtf8x32 ∧ Busy .brUtf8x64 ∧
  ∀ (s : State) (i : Instr) (wd : Nat), s.Accepts → (i = .brUtf8x32 ∧ wd = 32 ∨ i = .brUtf8x64 ∧ wd = 64) →
    let t := s.need 8
    let lead := field t.S s.cons 8
    (t.has 8 = false → exec i s = .next { t with status := 0x0001#16 }) ∧
    (t.has 8 = true →
      (lead < 0x80 → exec i s = .next { t with
        cons := s.cons + 8, res0 := BitVec.ofNat 64 lead, res1 := BitVec.ofNat 64 lead, res2 := 1#64
        status := 0x0000#16 }) ∧
      (0x80 ≤ lead → lead < 0xC0 → exec i s = .next { t with
        cons := s.cons + 8, res1 := BitVec.ofNat 64 lead, res2 := 1#64, status := 0x0103#16 }) ∧
      (0xFE ≤ lead → exec i s = .next { t with
        cons := s.cons + 8, res0 := BitVec.ofNat 64 (2 ^ wd - 1), res1 := BitVec.ofNat 64 lead, res2 := 1#64
        status := 0x0000#16 }) ∧
      (∀ c : Nat, (c = 1 ∧ 0xC0 ≤ lead ∧ lead < 0xE0) ∨ (c = 2 ∧ 0xE0 ≤ lead ∧ lead < 0xF0) ∨
          (c = 3 ∧ 0xF0 ≤ lead ∧ lead < 0xF8) ∨ (c = 4 ∧ 0xF8 ≤ lead ∧ lead < 0xFC) ∨ (c = 5 ∧ 0xFC ≤ lead ∧ lead < 0xFE) →
        let u := t.need (8 * (1 + c))
        let byte := fun j => field u.S (s.cons + 8 * j) 8
        (u.has (8 * (1 + c)) = false → exec i s = .next { u with status := 0x0001#16 }) ∧
        (u.has (8 * (1 + c)) = true → (∀ j, 1 ≤ j → j ≤ c → byte j / 64 = 2) → exec i s = .next { u with
          cons := s.cons + 8 * (1 + c)
          res0 := BitVec.ofNat 64 ((List.range c).foldl (fun v j => v * 64 + byte (j + 1) % 64) (lead % 2 ^ (6 - c)))
          res1 := BitVec.ofNat 64 (field u.S s.cons (8 * (1 + c))), res2 := BitVec.ofNat 64 (1 + c)
          status := 0x0000#16 }) ∧
        (∀ j, u.has (8 * (1 + c)) = true → 1 ≤ j → j ≤ c → (∀ h, 1 ≤ h → h < j → byte h / 64 = 2) → byte j / 64 ≠ 2 →
          exec i s = .next { u with
            cons := s.cons + 8 * (j + 1), res1 := BitVec.ofNat 64 (field u.S s.cons (8 * (j + 1)))
            res2 := BitVec.ofNat 64 (j + 1), status := 0x0203#16 })))

/-- 41_bitreader.md R236, R238, R252, R254: BR.ALIGNED, BR.EOS and BR.POS report and change nothing else; BR.EOS does so in every
state; BR.ZPAD consumes the zero padding. -/
def Obligations.PositionAndPadding : Prop :=
  (Checked .brAligned 0x38000000#32 ∧ Checked .brPos 0x41000000#32 ∧ decode 0x40000000#32 = .ok .brEos ∧
   (∀ s : State, s.Ready →
     exec .brAligned s = .next { s with res0 := if s.cons % 8 = 0 then 1#64 else 0#64, status := 0x0000#16 } ∧
     exec .brPos s = .next { s with
       res0 := BitVec.ofNat 64 s.cons, res1 := BitVec.ofNat 64 (8 * s.S.length), res2 := BitVec.ofNat 64 s.base
       status := 0x0000#16 }) ∧
   (∀ s : State, exec .brEos s = .next { s with
     res0 := if s.eos then 1#64 else 0#64, status := if s.fault = 0#16 then 0x0000#16 else s.fault })) ∧
  (Checked .brZpad 0x39000000#32 ∧ Busy .brZpad ∧
   ∀ s : State, s.Accepts → let r := (8 - s.cons % 8) % 8
     let t := s.need r
     (t.has r = false → exec .brZpad s = .next { t with status := 0x0001#16 }) ∧
     (t.has r = true → field t.S s.cons r ≠ 0 → exec .brZpad s = .next { t with status := 0x0303#16 }) ∧
     (t.has r = true → field t.S s.cons r = 0 → exec .brZpad s = .next { t with
       cons := s.cons + r, res0 := BitVec.ofNat 64 r, status := 0x0000#16 }))

/-- 41_bitreader.md R240, R241, R242, R243, R244, R246: the CRC checkpoint commands, and the skips: the octets before a skip are
folded, the skipped bits never are. -/
def Obligations.CrcCheckpointAndSkips : Prop :=
  ((∀ b : BitVec 16, Checked (.brSetcrc b) (0x3D00#16 ++ b) ∧ Busy (.brSetcrc b)) ∧
   Checked .brUpdcrc 0x3E000000#32 ∧ Busy .brUpdcrc ∧ Checked .brGetcrc 0x3C000000#32 ∧ Busy .brGetcrc ∧
   ∀ s : State, s.Accepts →
     let nb := (s.cons - s.base) / 8
     let folded := fold16 s.bcrc ((List.range nb).map fun j => BitVec.ofNat 8 (field s.S (s.base + 8 * j) 8))
     (∀ b : BitVec 16, exec (.brSetcrc b) s = .next { s with bcrc := b, base := s.cons, status := 0x0000#16 }) ∧
     exec .brUpdcrc s = .next { s with bcrc := folded, base := s.base + 8 * nb, status := 0x0000#16 } ∧
     exec .brGetcrc s = .next { s with
       bcrc := folded, base := s.base + 8 * nb, res0 := folded.setWidth 64, status := 0x0000#16 } ∧
     s.cons - (s.base + 8 * nb) < 8 ∧
     (∀ t u : State, exec .brUpdcrc s = .next t → exec .brUpdcrc t = .next u → u = t)) ∧
  (Checked .brSkipbits 0x3A000000#32 ∧ Checked .brSkipbytes 0x3B000000#32 ∧ Busy .brSkipbits ∧ Busy .brSkipbytes ∧
   ∀ (s : State) (i : Instr) (n : Nat), s.Accepts →
     (i = .brSkipbits ∧ n = s.arg0.toNat ∨ i = .brSkipbytes ∧ n = 8 * s.arg0.toNat) →
     let t := s.need n
     (t.has n = false → exec i s = .next { t with status := 0x0001#16 }) ∧
     (t.has n = true → exec i s = .next { t with
       bcrc := fold16 s.bcrc ((List.range ((s.cons - s.base) / 8)).map fun j =>
         BitVec.ofNat 8 (field t.S (s.base + 8 * j) 8))
       cons := s.cons + n, base := s.cons + n, status := 0x0000#16 }))

/-- 41_bitreader.md R248: a skip keeps the CRC of the octets read before it and drops the skipped bits. -/
def Obligations.SkipAndCrc : Prop :=
  ∀ (s s0 s1 s2 s3 t : State) (c : Half) (n : Reg) (r1 r2 : List (BitVec 8)), s.Inv → s.Accepts →
    exec (.brSetcrc c) s = .next s0 → runReads r1 s0 = some s1 →
    exec .brSkipbits { s1 with arg0 := n } = .next s2 → s2.status = 0x0000#16 → runReads r2 s2 = some s3 →
    exec .brGetcrc s3 = .next t →
    let octs := fun p k => (List.range k).map fun j => BitVec.ofNat 8 (field t.S (p + 8 * j) 8)
    t.res0 = (fold16 (fold16 c (octs s.cons ((s1.cons - s.cons) / 8)))
      (octs (s1.cons + n.toNat) ((s3.cons - s1.cons - n.toNat) / 8))).setWidth 64

/-! ## Frame decode -/

/-- 42_frame_sync.md R298: FR.INFO. -/
def Obligations.FrameInfo : Prop :=
  (∀ a : BitVec 8, Checked (.frInfo a) (0x52#8 ++ (a ++ 0#16))) ∧
  ∀ (s : State) (a : BitVec 8), s.Ready →
    (10 < a.toNat → exec (.frInfo a) s = .next { s with status := 0x0A05#16, fault := 0x0A05#16 }) ∧
    (a.toNat ≤ 10 → s.fpresent = false → exec (.frInfo a) s = .next { s with status := 0x0603#16 }) ∧
    (s.fpresent = true → ∀ v : Reg,
      (a = 0#8 ∧ v = (if s.hdr.blk then 1#64 else 0#64)) ∨ (a = 1#8 ∧ v = BitVec.ofNat 64 s.hdr.bs) ∨
      (a = 2#8 ∧ v = s.hdr.rate.setWidth 64) ∨ (a = 3#8 ∧ v = s.hdr.chc.setWidth 64) ∨
      (a = 4#8 ∧ v = BitVec.ofNat 64 s.hdr.nch) ∨ (a = 5#8 ∧ v = BitVec.ofNat 64 s.hdr.bps) ∨
      (a = 6#8 ∧ v = s.hdr.num) ∨ (a = 7#8 ∧ v = s.hdr.hc8.setWidth 64) ∨
      (a = 8#8 ∧ v = BitVec.ofNat 64 s.hdr.fstart) ∨
      (a = 9#8 ∧ v = BitVec.ofNat 64 (s.hdr.nch * s.hdr.bs - s.fcur)) ∨ (a = 10#8 ∧ v = s.fcrc.setWidth 64) →
      exec (.frInfo a) s = .next { s with res0 := v, status := 0x0000#16 })

/-- 42_frame_sync.md R271, R272: FR.STEP always completes, but for a Fixed or LPC payload with no predictor; RES0 is the code of
the state it leaves (but for the predictor's contract violation: the model's choice, log entry 7); and it changes nothing but
the stream, the decode state machine, the Frame and the predictor's answers. -/
def Obligations.StepCompletes : Prop :=
  Checked .frStep 0x51000000#32 ∧ Busy .frStep ∧
  ∀ s : State, s.Accepts → s.fsm ≠ .failed →
    (s.predictor.isSome = true ∨ ¬(s.fsm = .subframes ∧ s.sub.ss = .S2 ∧ (s.sub.kind = .fixed ∨ s.sub.kind = .lpc))) →
    ∃ t, exec .frStep s = .next t ∧
      (t.status = 0x0905#16 ∧ t.res0 = s.res0 ∨ t.status ≠ 0x0905#16 ∧ t.res0 = t.fsm.code) ∧
      t = { s with
        res0 := t.res0, bcrc := t.bcrc, S := t.S, cons := t.cons, base := t.base, eos := t.eos, dw := t.dw, fsm := t.fsm
        acc := t.acc, accn := t.accn, hp := t.hp, raw := t.raw, hdr := t.hdr, sub := t.sub, chbuf := t.chbuf, fs := t.fs
        fcrc := t.fcrc, fpresent := t.fpresent, fbuf := t.fbuf, fcur := t.fcur, predictor := t.predictor, preq := t.preq
        upstream := t.upstream, status := t.status, fault := t.fault }

/-- 42_frame_sync.md R270: the transitions of the decode state machine and the statuses that go with them; an underrun without
end of stream changes nothing but the pulls. (A predictor's answer is used up: log entry 4.) -/
def Obligations.FsmTransitions : Prop :=
  ∀ s t : State, s.Accepts → exec .frStep s = .next t →
    (t.status = 0x0001#16 → ∃ u, ({ s with predictor := t.predictor, preq := t.preq } : State).PulledTo u ∧ u.eos = false ∧
      t = { u with res0 := t.res0, status := 0x0001#16 }) ∧
    (t.status ≠ 0x0001#16 →
      (s.fsm = .searching →
        t.fsm = .searching ∧ t.status = 0x0000#16 ∨ t.fsm = .headerParse ∧ t.hp = .H0 ∧ t.status = 0x0000#16 ∨
        t.fsm = .ended ∧ t.eos = true ∧ t.status = 0x0002#16) ∧
      (s.fsm = .headerParse →
        t.fsm = .headerParse ∧ t.hp ≠ s.hp ∧ t.status = 0x0000#16 ∨ t.fsm = .searching ∧ t.status = 0x0000#16 ∨
        s.hp = .H4 ∧ t.fsm = .subframes ∧ t.sub.ch = 0 ∧ t.sub.ss = .S0 ∧ t.status = 0x0000#16 ∨
        t.fsm = .ended ∧ t.eos = true ∧ t.status = 0x0002#16) ∧
      (s.fsm = .subframes →
        t.fsm = .subframes ∧ t.status = 0x0000#16 ∨
        t.fsm = .footerCheck ∧ t.fs = .F0 ∧ t.sub.ch = t.hdr.nch ∧ t.status = 0x0000#16 ∨
        t.fsm = .failed ∧ t.fault = t.status ∧ (t.status.extractLsb' 0 8 = 4#8 ∨ t.status = 0x0905#16)) ∧
      (s.fsm = .footerCheck →
        t.fsm = .footerCheck ∧ s.fs = .F0 ∧ t.fs = .F1 ∧ t.status = 0x0000#16 ∨
        t.fsm = .done ∧ t.fpresent = true ∧ t.status = 0x0000#16 ∨
        t.fsm = .failed ∧ t.fault = t.status ∧ t.status.extractLsb' 0 8 = 4#8) ∧
      (s.fsm = .done → t.fsm = .searching ∧ t.fpresent = false ∧ t.status = 0x0000#16) ∧
      (s.fsm = .ended → t.fsm = .ended ∧ t.status = 0x0002#16))

/-- 42_frame_sync.md R271, R274, R275, R276: the step out of DONE releases the Frame; in ENDED nothing happens; one search bit, and
what a sync match stores. -/
def Obligations.ReleaseAndSearch : Prop :=
  (∀ s : State, s.Accepts →
     (s.fsm = .done → exec .frStep s = .next { s with
       fpresent := false, fcur := 0, fsm := .searching, acc := 0#16, accn := 0, res0 := 0#64, status := 0x0000#16 }) ∧
     (s.fsm = .ended → exec .frStep s = .next { s with res0 := 5#64, status := 0x0002#16 })) ∧
  (∀ s : State, s.Accepts → s.fsm = .searching → (s.need 1).has 1 = true →
     let t := s.need 1
     let acc := (s.acc <<< 1) ||| (if bitAt t.S s.cons then 1#16 else 0#16)
     let accn := min 16 (s.accn + 1)
     (accn = 16 ∧ acc.extractLsb' 2 14 = 0b11111111111110#14 →
       exec .frStep s = .next { t with
         cons := s.cons + 1, acc := acc, accn := accn
         hdr := { s.hdr with hres := acc.getLsbD 1, blk := acc.getLsbD 0, fstart := s.cons + 1 - 16 }
         raw := [acc.extractLsb' 8 8, acc.extractLsb' 0 8]
         bcrc := fold16 0#16 [acc.extractLsb' 8 8, acc.extractLsb' 0 8], base := s.cons + 1
         fsm := .headerParse, hp := .H0, res0 := 1#64, status := 0x0000#16 }) ∧
     (¬(accn = 16 ∧ acc.extractLsb' 2 14 = 0b11111111111110#14) →
       exec .frStep s = .next { t with
         cons := s.cons + 1, acc := acc, accn := accn, res0 := 0#64, status := 0x0000#16 }))

/-- 42_frame_sync.md R279: an underrun inside a micro-step that reads the stream, in the state `t` after the pulls of the read
that runs dry (a known number of bits; the continuation bytes of the frame or sample number; the wasted-bit count after `z`
zeros): kept and retried; the end of the stream outside a frame; TRUNCATED inside one. -/
def Obligations.StepUnderrun : Prop :=
  ∀ (s t : State), s.Accepts →
    (∃ n : Nat, t = s.need n ∧ t.has n = false ∧
      ((s.fsm = .searching ∧ n = 1) ∨ (s.fsm = .headerParse ∧ s.hp = .H0 ∧ n = 16) ∨
        (s.fsm = .headerParse ∧ s.hp = .H1 ∧ n = 8) ∨
        (s.fsm = .headerParse ∧ s.hp = .H2 ∧ bsEntry s.cfg s.hdr.bsc = .deferred8 ∧ n = 8) ∨
        (s.fsm = .headerParse ∧ s.hp = .H2 ∧ bsEntry s.cfg s.hdr.bsc = .deferred16 ∧ n = 16) ∨
        (s.fsm = .headerParse ∧ s.hp = .H3 ∧ s.hdr.src = 12#4 ∧ n = 8) ∨
        (s.fsm = .headerParse ∧ s.hp = .H3 ∧ (s.hdr.src = 13#4 ∨ s.hdr.src = 14#4) ∧ n = 16) ∨
        (s.fsm = .headerParse ∧ s.hp = .H4 ∧ n = 8) ∨ (s.fsm = .subframes ∧ s.sub.ss = .S0 ∧ n = 8) ∨
        (s.fsm = .subframes ∧ s.sub.ss = .S2 ∧ (s.sub.kind = .constant ∨ s.sub.kind = .verbatim) ∧ n = s.sub.be.toNat) ∨
        (s.fsm = .footerCheck ∧ s.fs = .F0 ∧ n = (8 - s.cons % 8) % 8) ∨
        (s.fsm = .footerCheck ∧ s.fs = .F1 ∧ n = 16))) ∨
    (∃ c : Nat, s.fsm = .headerParse ∧ s.hp = .H1 ∧ (s.need 8).has 8 = true ∧
      t = (s.need 8).need (8 * (1 + c)) ∧ t.has (8 * (1 + c)) = false ∧
      let lead := field (s.need 8).S s.cons 8
      (c = 1 ∧ 0xC0 ≤ lead ∧ lead < 0xE0) ∨ (c = 2 ∧ 0xE0 ≤ lead ∧ lead < 0xF0) ∨ (c = 3 ∧ 0xF0 ≤ lead ∧ lead < 0xF8) ∨
        (c = 4 ∧ 0xF8 ≤ lead ∧ lead < 0xFC) ∨ (c = 5 ∧ 0xFC ≤ lead ∧ lead < 0xFE)) ∨
    (∃ z : Nat, s.fsm = .subframes ∧ s.sub.ss = .S1 ∧ z ≤ s.cfg.unaryMax ∧
      t = s.need (z + 1) ∧ t.has (z + 1) = false ∧ (z = 0 ∨ (s.need z).has z = true) ∧
      ∀ j, j < z → bitAt t.S (s.cons + j) = false) →
    (t.eos = false → exec .frStep s = .next { t with res0 := s.fsm.code, status := 0x0001#16 }) ∧
    (t.eos = true → s.fsm = .searching ∨ s.fsm = .headerParse →
      exec .frStep s = .next { t with
        fsm := .ended, raw := [], hp := .H0, res0 := 5#64, status := 0x0002#16 }) ∧
    (t.eos = true → s.fsm = .subframes ∨ s.fsm = .footerCheck →
      exec .frStep s = .next { t with
        fsm := .failed, res0 := 6#64, status := 0x0504#16, fault := 0x0504#16 })

/-- 42_frame_sync.md R278, R280: the fixed fields of the header, every way they are invalid, and the resync. -/
def Obligations.HeaderFixedFields : Prop :=
  ∀ s : State, s.Accepts → s.fsm = .headerParse → s.hp = .H0 → (s.need 16).has 16 = true →
    let t := s.need 16
    let v := BitVec.ofNat 16 (field t.S s.cons 16)
    let h := { s.hdr with
      bsc := v.extractLsb' 12 4, src := v.extractLsb' 8 4, chc := v.extractLsb' 4 4, bdc := v.extractLsb' 1 3
      hun := v.getLsbD 0 }
    let invalid := h.hres = true ∨ bsEntry s.cfg h.bsc = .reserved ∨ h.src = 15#4 ∨ chEntry s.cfg h.chc = none ∨
      (h.bdc ≠ 0#3 ∧ bpsEntry s.cfg h.bdc = none) ∨ (h.bdc = 0#3 ∧ s.siBps = 0#6)
    (invalid → exec .frStep s = .next { t with
      cons := s.cons + 16, hdr := h, acc := BitVec.ofNat 16 (field t.S (s.cons + 8) 8), accn := 8, raw := [], hp := .H0
      fsm := .searching, res0 := 0#64, status := 0x0000#16 }) ∧
    (¬invalid → exec .frStep s = .next { t with
      cons := s.cons + 16, hdr := h, raw := s.raw ++ [v.extractLsb' 8 8, v.extractLsb' 0 8], hp := .H1
      res0 := 1#64, status := 0x0000#16 })

/-- 42_frame_sync.md R281: the frame or sample number: the step takes what the varint command of the blocking strategy's width
would take, and resyncs where that command is INVALID or gives the sentinel. -/
def Obligations.HeaderNumber : Prop :=
  ∀ (s u : State) (i : Instr) (sentinel : Reg), s.Accepts → s.fsm = .headerParse → s.hp = .H1 →
    (s.hdr.blk = false ∧ i = .brUtf8x32 ∧ sentinel = 0xFFFFFFFF#64 ∨
      s.hdr.blk = true ∧ i = .brUtf8x64 ∧ sentinel = 0xFFFFFFFFFFFFFFFF#64) →
    exec i s = .next u → u.status ≠ 0x0001#16 →
    let kept := { u with res1 := s.res1, res2 := s.res2, status := 0x0000#16 }
    (u.status = 0x0000#16 ∧ u.res0 ≠ sentinel →
      exec .frStep s = .next { kept with
        hdr := { s.hdr with num := u.res0 }, hp := .H2, res0 := 1#64
        raw := s.raw ++ (List.range u.res2.toNat).map fun j => BitVec.ofNat 8 (field u.S (s.cons + 8 * j) 8) }) ∧
    (¬(u.status = 0x0000#16 ∧ u.res0 ≠ sentinel) →
      exec .frStep s = .next { kept with
        acc := BitVec.ofNat 16 (field u.S (u.cons - 8) 8), accn := 8, raw := [], hp := .H0, fsm := .searching
        res0 := 0#64 })

/-- 42_frame_sync.md R282, R283: the block size and the sample rate, by their codes. -/
def Obligations.HeaderSizeAndRate : Prop :=
  ∀ s : State, s.Accepts → s.fsm = .headerParse →
    (s.hp = .H2 →
      (bsEntry s.cfg s.hdr.bsc = .deferred8 → (s.need 8).has 8 = true → let v := field (s.need 8).S s.cons 8
        exec .frStep s = .next { s.need 8 with
          cons := s.cons + 8, raw := s.raw ++ [BitVec.ofNat 8 v], hdr := { s.hdr with bs := v + 1 }, hp := .H3
          res0 := 1#64, status := 0x0000#16 }) ∧
      (bsEntry s.cfg s.hdr.bsc = .deferred16 → (s.need 16).has 16 = true → let v := field (s.need 16).S s.cons 16
        exec .frStep s = .next { s.need 16 with
          cons := s.cons + 16, raw := s.raw ++ [BitVec.ofNat 8 (v / 256), BitVec.ofNat 8 (v % 256)]
          hdr := { s.hdr with bs := v + 1 }, hp := .H3, res0 := 1#64, status := 0x0000#16 }) ∧
      (∀ n, bsEntry s.cfg s.hdr.bsc = .direct n →
        exec .frStep s = .next { s with hdr := { s.hdr with bs := n }, hp := .H3, res0 := 1#64, status := 0x0000#16 })) ∧
    (s.hp = .H3 →
      (s.hdr.src = 12#4 → (s.need 8).has 8 = true → let v := field (s.need 8).S s.cons 8
        exec .frStep s = .next { s.need 8 with
          cons := s.cons + 8, raw := s.raw ++ [BitVec.ofNat 8 v]
          hdr := { s.hdr with rate := BitVec.ofNat 32 (1000 * v) }, hp := .H4, res0 := 1#64, status := 0x0000#16 }) ∧
      (∀ scale : Nat, (s.hdr.src = 13#4 ∧ scale = 1 ∨ s.hdr.src = 14#4 ∧ scale = 10) → (s.need 16).has 16 = true →
        let v := field (s.need 16).S s.cons 16
        exec .frStep s = .next { s.need 16 with
          cons := s.cons + 16, raw := s.raw ++ [BitVec.ofNat 8 (v / 256), BitVec.ofNat 8 (v % 256)]
          hdr := { s.hdr with rate := BitVec.ofNat 32 (scale * v) }, hp := .H4, res0 := 1#64, status := 0x0000#16 }) ∧
      (s.hdr.src = 0#4 → exec .frStep s = .next { s with
        hdr := { s.hdr with rate := s.siRate }, hp := .H4, res0 := 1#64, status := 0x0000#16 }) ∧
      (∀ r, 1 ≤ s.hdr.src.toNat → s.hdr.src.toNat ≤ 11 → s.cfg.srTable[s.hdr.src.toNat - 1]? = some r →
        exec .frStep s = .next { s with hdr := { s.hdr with rate := r }, hp := .H4, res0 := 1#64, status := 0x0000#16 }))

/-- 42_frame_sync.md R284, R285, R286: the header CRC-8 over the reassembled bytes, on a private value: a match makes the header
the frame's, a mismatch resyncs; the host's register C8 keeps its value either way. -/
def Obligations.HeaderCrc : Prop :=
  ∀ (s : State) (bps nch : Nat) (asg : Assignment), s.Accepts → s.fsm = .headerParse → s.hp = .H4 →
    (s.need 8).has 8 = true → chEntry s.cfg s.hdr.chc = some (nch, asg) →
    (s.hdr.bdc = 0#3 ∧ bps = s.siBps.toNat ∨ s.hdr.bdc ≠ 0#3 ∧ bpsEntry s.cfg s.hdr.bdc = some bps) →
    let t := s.need 8
    let v := BitVec.ofNat 8 (field t.S s.cons 8)
    (fold8 0#8 s.raw = v → exec .frStep s = .next { t with
      cons := s.cons + 8, hdr := { s.hdr with hc8 := v, bps := bps, nch := nch, asg := asg }
      fsm := .subframes, sub := { s.sub with ch := 0, ss := .S0, i := 0 }, res0 := 2#64, status := 0x0000#16 }) ∧
    (fold8 0#8 s.raw ≠ v → exec .frStep s = .next { t with
      cons := s.cons + 8, hdr := { s.hdr with hc8 := v }, acc := BitVec.ofNat 16 (field t.S s.cons 8), accn := 8
      raw := [], hp := .H0, fsm := .searching, res0 := 0#64, status := 0x0000#16 })

/-- 42_frame_sync.md R287, 43_subframe.md R335: no outcome of a header attempt is an error: OK, UNDERRUN or END_OF_STREAM, with
FAULT still 0; every failure inside the subframes is fatal or the predictor's contract violation, sticky, and leaves FAILED: none
resyncs. -/
def Obligations.HeaderSoftSubframeHard : Prop :=
  (∀ s t : State, s.Ready → s.fsm = .headerParse → exec .frStep s = .next t → s.rb.active = false →
     t.fault = 0#16 ∧
     ((t.status = 0x0000#16 ∧ (t.fsm = .searching ∨ t.fsm = .headerParse ∨ t.fsm = .subframes)) ∨
       (t.status = 0x0001#16 ∧ t.fsm = .headerParse ∧ t.eos = false) ∨
       (t.status = 0x0002#16 ∧ t.fsm = .ended ∧ t.eos = true))) ∧
  (∀ s t : State, s.Accepts → s.fsm = .subframes → exec .frStep s = .next t →
     t.fsm ≠ .searching ∧ t.fsm ≠ .headerParse ∧ t.fsm ≠ .ended ∧
     (t.status ≠ 0x0000#16 → t.status ≠ 0x0001#16 → t.fsm = .failed ∧ t.fault = t.status ∧
       (t.status ∈ [0x0204#16, 0x0404#16, 0x0504#16, 0x0704#16, 0x0804#16, 0x0904#16, 0x0A04#16, 0x0905#16])))

/-- 43_subframe.md R321, R322, R323, R324, R325: the subframe header byte: reserved bit, type, wasted-bits flag, and the depth; the
wasted-bit count is the BR.UNARY count plus one. The model's choice: what a failing sub-step leaves in the scratch, which no
command reads (log entry 10: on 0x0204 `wf` stored, kind and order kept; on 0x0804 `w` and `be` stored; on 0x0704 nothing), and the order 0 of CONSTANT and VERBATIM, R322's '–' (log entry 16, DESIGN
CHOICE). -/
def Obligations.SubframeHeader : Prop :=
  (∀ s : State, s.Accepts → s.fsm = .subframes → s.sub.ss = .S0 → (s.need 8).has 8 = true →
     let t := s.need 8
     let v := field t.S s.cons 8
     let ty := v / 2 % 64
     let wf := decide (v % 2 = 1)
     let side : Int := if s.hdr.asg = .leftSide ∧ s.sub.ch = 1 ∨ s.hdr.asg = .rightSide ∧ s.sub.ch = 0 ∨
       s.hdr.asg = .midSide ∧ s.sub.ch = 1 then 1 else 0
     let be : Int := s.hdr.bps + side
     (128 ≤ v → exec .frStep s = .next { t with
       cons := s.cons + 8, fsm := .failed, res0 := 6#64, status := 0x0704#16, fault := 0x0704#16 }) ∧
     (v < 128 → (2 ≤ ty ∧ ty ≤ 7 ∨ 13 ≤ ty ∧ ty ≤ 31) → exec .frStep s = .next { t with
       cons := s.cons + 8, sub := { s.sub with wf := wf }, fsm := .failed, res0 := 6#64
       status := 0x0204#16, fault := 0x0204#16 }) ∧
     (∀ kind order, v < 128 →
       (ty = 0 ∧ kind = .constant ∧ order = 0) ∨ (ty = 1 ∧ kind = .verbatim ∧ order = 0) ∨
         (8 ≤ ty ∧ ty ≤ 12 ∧ kind = .fixed ∧ order = ty - 8) ∨ (32 ≤ ty ∧ kind = .lpc ∧ order = ty - 31) →
       (wf = true → exec .frStep s = .next { t with
         cons := s.cons + 8, sub := { s.sub with wf := true, kind := kind, order := order, i := 0, ss := .S1 }
         res0 := 2#64, status := 0x0000#16 }) ∧
       (wf = false → 1 ≤ be → exec .frStep s = .next { t with
         cons := s.cons + 8
         sub := { s.sub with wf := false, kind := kind, order := order, i := 0, w := 0, be := be, ss := .S2 }
         res0 := 2#64, status := 0x0000#16 }) ∧
       (wf = false → be < 1 → exec .frStep s = .next { t with
         cons := s.cons + 8, sub := { s.sub with wf := false, kind := kind, order := order, i := 0, w := 0, be := be }
         fsm := .failed, res0 := 6#64, status := 0x0804#16, fault := 0x0804#16 }))) ∧
  (∀ (s : State) (z : Nat), s.Accepts → s.fsm = .subframes → s.sub.ss = .S1 →
     let t := s.need (z + 1)
     let side : Int := if s.hdr.asg = .leftSide ∧ s.sub.ch = 1 ∨ s.hdr.asg = .rightSide ∧ s.sub.ch = 0 ∨
       s.hdr.asg = .midSide ∧ s.sub.ch = 1 then 1 else 0
     let be : Int := s.hdr.bps + side - (z + 1 : Nat)
     z ≤ s.cfg.unaryMax → (∀ j, j < z → bitAt t.S (s.cons + j) = false) → t.has (z + 1) = true →
     (bitAt t.S (s.cons + z) = true → 1 ≤ be → exec .frStep s = .next { t with
       cons := s.cons + z + 1, sub := { s.sub with w := z + 1, be := be, ss := .S2 }, res0 := 2#64, status := 0x0000#16 }) ∧
     (bitAt t.S (s.cons + z) = true → be < 1 → exec .frStep s = .next { t with
       cons := s.cons + z + 1, sub := { s.sub with w := z + 1, be := be }, fsm := .failed, res0 := 6#64
       status := 0x0804#16, fault := 0x0804#16 }) ∧
     (bitAt t.S (s.cons + z) = false → z = s.cfg.unaryMax → exec .frStep s = .next { t with
       fsm := .failed, res0 := 6#64, status := 0x0904#16, fault := 0x0904#16 }))

/-- 43_subframe.md R326, R327, R328, R329: a Constant payload gives every sample of the channel, a Verbatim one the next
sample, each in two's complement of the depth and shifted left by the wasted bits; no other sample changes; a full channel
moves on to the next one, the last to the footer. -/
def Obligations.PayloadSamples : Prop :=
  ∀ s : State, s.Accepts → s.fsm = .subframes → s.sub.ss = .S2 → (s.need s.sub.be.toNat).has s.sub.be.toNat = true →
    1 ≤ s.sub.be → s.hdr.bs ≤ 65536 →
    let n := s.sub.be.toNat
    let v := field (s.need n).S s.cons n
    let x : Int := (if 2 ^ (n - 1) ≤ v then (v : Int) - 2 ^ n else v) * 2 ^ s.sub.w
    let last := s.sub.ch + 1 = s.hdr.nch
    let next := fun (t : State) => { s.sub with ch := s.sub.ch + 1, i := 0, ss := .S0 } = t.sub ∧
      (last → t.fsm = .footerCheck ∧ t.fs = .F0) ∧ (¬last → t.fsm = .subframes ∧ t.fs = s.fs)
    (s.sub.kind = .constant → ∃ t : State, exec .frStep s = .next t ∧ next t ∧
      (∀ c j, c < 8 → j < 65536 → t.chan c j = if c = s.sub.ch ∧ j < s.hdr.bs then x else s.chan c j) ∧
      t = { s.need n with
        cons := s.cons + n, sub := t.sub, chbuf := t.chbuf, fsm := t.fsm, fs := t.fs, res0 := t.fsm.code
        status := 0x0000#16 }) ∧
    (s.sub.kind = .verbatim → s.sub.i < s.hdr.bs → ∃ t : State, exec .frStep s = .next t ∧
      (s.sub.i + 1 = s.hdr.bs → next t) ∧
      (s.sub.i + 1 ≠ s.hdr.bs → t.sub = { s.sub with i := s.sub.i + 1 } ∧ t.fsm = .subframes ∧ t.fs = s.fs) ∧
      (∀ c j, c < 8 → j < 65536 → t.chan c j = if c = s.sub.ch ∧ j = s.sub.i then x else s.chan c j) ∧
      t = { s.need n with
        cons := s.cons + n, sub := t.sub, chbuf := t.chbuf, fsm := t.fsm, fs := t.fs, res0 := t.fsm.code
        status := 0x0000#16 })

/-- 43_subframe.md R330, R331, R332, R333: one call of the predictor and what each outcome does; overproduction changes fsm, STATUS
and FAULT and nothing else of the engine, so no pull stays (60_exceptions.md R403). The model's choice: the predictor's answer
names the pulls it makes and the bits it consumes, and a call uses it up and leaves its request in `preq` (log entry 4, DESIGN
CHOICE); on overproduction (0x0905) RES0 keeps its value and the source has its answers again (log entry 7, DEDUCED). -/
def Obligations.PredictorStep : Prop :=
  ∀ (s : State) (a : PredAnswer) (more : List PredAnswer), s.Accepts → s.fsm = .subframes → s.sub.ss = .S2 →
    (s.sub.kind = .fixed ∨ s.sub.kind = .lpc) → s.predictor = some (a :: more) →
    let t := State.pulls a.pulls { s with predictor := some more, preq := some ⟨s.sub.kind, s.sub.order, s.sub.be, s.hdr.bs,
      s.sub.i, (List.range s.sub.i).map fun j => s.chan s.sub.ch j / 2 ^ s.sub.w, s.S, s.cons⟩ }
    (a.outcome = .fail → exec .frStep s = .next { t with
      fsm := .failed, res0 := 6#64, status := 0x0A04#16, fault := 0x0A04#16 }) ∧
    (a.outcome = .underrun → t.eos = false → exec .frStep s = .next { t with res0 := 2#64, status := 0x0001#16 }) ∧
    (a.outcome = .underrun → t.eos = true → exec .frStep s = .next { t with
      fsm := .failed, res0 := 6#64, status := 0x0504#16, fault := 0x0504#16 }) ∧
    (∀ bits, a.outcome = .produced [] bits → exec .frStep s = .next { t with
      fsm := .failed, res0 := 6#64, status := 0x0404#16, fault := 0x0404#16 }) ∧
    (∀ xs bits, a.outcome = .produced xs bits → xs ≠ [] → s.hdr.bs < s.sub.i + xs.length →
      exec .frStep s = .next { s with
        predictor := some more, preq := t.preq, fsm := .failed, status := 0x0905#16, fault := 0x0905#16 }) ∧
    (∀ xs bits, a.outcome = .produced xs bits → xs ≠ [] → s.sub.i + xs.length ≤ s.hdr.bs → s.hdr.bs ≤ 65536 →
      ∃ u : State, exec .frStep s = .next u ∧
        (∀ c j, c < 8 → j < 65536 → u.chan c j =
          if c = s.sub.ch ∧ s.sub.i ≤ j ∧ j < s.sub.i + xs.length then xs.getD (j - s.sub.i) 0 * 2 ^ s.sub.w
          else s.chan c j) ∧
        (s.sub.i + xs.length < s.hdr.bs →
          u.sub = { s.sub with i := s.sub.i + xs.length } ∧ u.fsm = .subframes ∧ u.fs = s.fs) ∧
        (s.sub.i + xs.length = s.hdr.bs → u.sub = { s.sub with ch := s.sub.ch + 1, i := 0, ss := .S0 } ∧
          (s.sub.ch + 1 = s.hdr.nch → u.fsm = .footerCheck ∧ u.fs = .F0) ∧
          (s.sub.ch + 1 ≠ s.hdr.nch → u.fsm = .subframes ∧ u.fs = s.fs)) ∧
        u = { t with
          cons := s.cons + min bits (t.avail - s.cons), sub := u.sub, chbuf := u.chbuf, fsm := u.fsm, fs := u.fs
          res0 := u.fsm.code, status := 0x0000#16 })

/-- 60_exceptions.md R412, 44_reconstruct.md R364: with no predictor FR.STEP at a Fixed or LPC payload is refused, so is the
FR.DECODE whose micro-steps reach one, and so is the PCM.READ that decodes so; and nothing else is refused so. -/
def Obligations.PredictorAbsent : Prop :=
  (∀ s : State, s.Accepts → (exec .frStep s = .refused .predictorAbsent ↔ s.predictor = none ∧ s.AtPayload)) ∧
  (∀ s : State, s.Accepts → s.Inv →
    (exec .frDecode s = .refused .predictorAbsent ↔ s.predictor = none ∧ ∃ t, Steps s t ∧ t.AtPayload)) ∧
  (∀ s u : State, s.Accepts → s.Inv → exec .frStep s = .next u → u.status = 0x0000#16 → u.fsm ≠ .done →
    (exec .frDecode s = .refused .predictorAbsent ↔ exec .frDecode u = .refused .predictorAbsent)) ∧
  (∀ s : State, s.Accepts → s.Inv →
    (exec .pcmRead s = .refused .predictorAbsent ↔
      s.arg0.toNat + 4 * s.arg1.toNat ≤ s.cfg.dmemBytes ∧ s.arg0.toNat % 4 = 0 ∧ s.arg1 ≠ 0#64 ∧
      (s.fpresent = false ∨ s.fcur = s.hdr.nch * s.hdr.bs) ∧ exec .frDecode s = .refused .predictorAbsent)) ∧
  (∀ (i : Instr) (s : State), exec i s = .refused .predictorAbsent → i = .frStep ∨ i = .frDecode ∨ i = .pcmRead)

/-- 42_frame_sync.md R289, R290, R292, 44_reconstruct.md R350: the zero padding before the footer, the footer CRC-16, the layout
check, and the Frame they create. -/
def Obligations.FooterCheck : Prop :=
  (∀ s : State, s.Accepts → s.fsm = .footerCheck → s.fs = .F0 →
     let r := (8 - s.cons % 8) % 8
     let t := s.need r
     t.has r = true →
     (field t.S s.cons r ≠ 0 → exec .frStep s = .next { t with
       fsm := .failed, res0 := 6#64, status := 0x0604#16, fault := 0x0604#16 }) ∧
     (field t.S s.cons r = 0 → exec .frStep s = .next { t with
       cons := s.cons + r, fs := .F1, res0 := 3#64, status := 0x0000#16 })) ∧
  (∀ s : State, s.Accepts → s.fsm = .footerCheck → s.fs = .F1 → (s.need 16).has 16 = true →
     let t := s.need 16
     let nb := (s.cons - s.base) / 8
     let c := fold16 s.bcrc ((List.range nb).map fun j => BitVec.ofNat 8 (field t.S (s.base + 8 * j) 8))
     let v := BitVec.ofNat 16 (field t.S s.cons 16)
     let x := { t with cons := s.cons + 16, bcrc := c, base := s.base + 8 * nb, fcrc := v }
     (v ≠ c → exec .frStep s = .next { x with
       fsm := .failed, res0 := 6#64, status := 0x0104#16, fault := 0x0104#16 }) ∧
     (v = c → s.siChannels ≠ 0#4 → s.hdr.nch ≠ s.siChannels.toNat → exec .frStep s = .next { x with
       fsm := .failed, res0 := 6#64, status := 0x0304#16, fault := 0x0304#16 }) ∧
     (v = c → (s.siChannels = 0#4 ∨ s.hdr.nch = s.siChannels.toNat) → exec .frStep s = .next { x with
       fpresent := true, fcur := 0, fbuf := s.interleaved, fsm := .done, res0 := 4#64, status := 0x0000#16 }))

/-- 44_reconstruct.md R351, R352, R353, R354, R355, R360, R361: the `nch·bs` values of a Frame, interleaved; what Store32 keeps;
and that mid/side reconstruction inverts the encoding, for all integers. -/
def Obligations.Reconstruction : Prop :=
  (∀ s : State, s.interleaved.length = s.hdr.nch * s.hdr.bs ∧
     ∀ c j : Nat, c < s.hdr.nch → j < s.hdr.bs → (s.hdr.asg ≠ .independent → s.hdr.nch = 2) →
       let x := fun k => s.chan k j
       let mid := 2 * x 0 + x 1 % 2
       let out : Int := match s.hdr.asg with
         | .independent => x c
         | .leftSide => if c = 0 then x 0 else x 0 - x 1
         | .rightSide => if c = 0 then x 1 + x 0 else x 1
         | .midSide => if c = 0 then (mid + x 1) / 2 else (mid - x 1) / 2
       s.interleaved[j * s.hdr.nch + c]? = some (store32 out)) ∧
  ((∀ x : Int, (store32 x).toInt = (x + 2 ^ 31) % 2 ^ 32 - 2 ^ 31) ∧
   (∀ (left right : Int) (x : Nat → Nat → Int) (j : Nat), x 0 j = (left + right) / 2 → x 1 j = left - right →
     outSample .midSide x 0 j = left ∧ outSample .midSide x 1 j = right))

/-- 42_frame_sync.md R273: FR.DECODE is FR.STEP again and again: it ends as the first step that is not OK ends, or with OK when
a Frame is there, and goes on from the state after any other step. (Not said where the rest ends in PREDICTOR_CONTRACT, 0x0905:
RES0 there, and that the completed micro-steps stay, is the model's choice: log entry 7.) -/
def Obligations.DecodeIsSteps : Prop :=
  Checked .frDecode 0x50000000#32 ∧ Busy .frDecode ∧
  ∀ s u : State, s.Inv → s.Accepts → exec .frStep s = .next u →
    (u.status ≠ 0x0000#16 → exec .frDecode s = .next u) ∧
    (u.status = 0x0000#16 → u.fsm = .done → u.res0 = 4#64 ∧
      exec .frDecode s = .next { u with res1 := BitVec.ofNat 64 (u.hdr.nch * u.hdr.bs) }) ∧
    (u.status = 0x0000#16 → u.fsm ≠ .done → ∀ t, exec .frDecode u = .next t → t.status ≠ 0x0905#16 →
      exec .frDecode s = .next t)

/-- 42_frame_sync.md R273, 70_reset_and_hazards.md R467: with a predictor and a source that does not deliver for ever, FR.DECODE
completes; with OK it leaves a Frame, whole and unread, and the result registers say so; otherwise RES1 keeps its value. The
model's choice: every source's list of answers is finite (log entry 3, DESIGN CHOICE). -/
def Obligations.DecodeCompletes : Prop :=
  ∀ s : State, s.Inv → s.Accepts → s.fsm ≠ .failed → s.predictor.isSome = true →
    ∃ t, exec .frDecode s = .next t ∧
      (t.status = 0x0000#16 → t.fsm = .done ∧ t.fpresent = true ∧ t.fcur = 0 ∧ t.fbuf.length = t.hdr.nch * t.hdr.bs ∧
        t.res0 = 4#64 ∧ t.res1 = BitVec.ofNat 64 (t.hdr.nch * t.hdr.bs)) ∧
      (t.status ≠ 0x0000#16 → t.res1 = s.res1 ∧ (t.status ≠ 0x0905#16 → t.res0 = t.fsm.code)) ∧
      t.res2 = s.res2 ∧ t.dmem = s.dmem ∧ t.rb = s.rb ∧ t.c8 = s.c8 ∧ t.c16 = s.c16

/-- 44_reconstruct.md R364: PCM.READ: its checks in order, the copy of what is left of a Frame, and the decode of the next one
first when nothing is left. DMEM outside the words copied keeps every byte. The model's choice: on PREDICTOR_CONTRACT RES0 is 0
and the completed micro-steps stay, as on every other failing status (60_exceptions.md R403 against R364: log entry 7). -/
def Obligations.PcmRead : Prop :=
  Checked .pcmRead 0x53000000#32 ∧
  (∀ s : State, s.Ready → s.cfg.dmemBytes < s.arg0.toNat + 4 * s.arg1.toNat →
    exec .pcmRead s = .next { s with status := 0x0505#16, fault := 0x0505#16 }) ∧
  (∀ s : State, s.Ready → s.arg0.toNat + 4 * s.arg1.toNat ≤ s.cfg.dmemBytes → s.arg0.toNat % 4 ≠ 0 →
    exec .pcmRead s = .next { s with status := 0x0605#16, fault := 0x0605#16 }) ∧
  (∀ s : State, s.Ready → s.arg0.toNat + 4 * s.arg1.toNat ≤ s.cfg.dmemBytes → s.arg0.toNat % 4 = 0 → s.rb.active = true →
    exec .pcmRead s = .next { s with status := 0x0705#16, fault := 0x0705#16 }) ∧
  (∀ s : State, s.Accepts → s.arg0.toNat + 4 * s.arg1.toNat ≤ s.cfg.dmemBytes → s.arg0.toNat % 4 = 0 →
    let copied := fun u : State =>
      let n := min s.arg1.toNat (u.hdr.nch * u.hdr.bs - u.fcur)
      { u with
        dmem := memWriteWords s.dmem s.arg0.toNat ((u.fbuf.drop u.fcur).take n), fcur := u.fcur + n
        res0 := BitVec.ofNat 64 n, res1 := BitVec.ofNat 64 (u.hdr.nch * u.hdr.bs - (u.fcur + n))
        res2 := BitVec.ofNat 64 u.hdr.nch, status := 0x0000#16 }
    (s.arg1 = 0#64 → exec .pcmRead s = .next { s with res0 := 0#64, status := 0x0000#16 }) ∧
    (s.arg1 ≠ 0#64 → s.fpresent = true → s.fcur ≠ s.hdr.nch * s.hdr.bs → exec .pcmRead s = .next (copied s)) ∧
    (∀ u, s.arg1 ≠ 0#64 → (s.fpresent = false ∨ s.fcur = s.hdr.nch * s.hdr.bs) → exec .frDecode s = .next u →
      (u.status = 0x0000#16 → exec .pcmRead s = .next (copied u)) ∧
      (u.status ≠ 0x0000#16 → exec .pcmRead s = .next { u with res0 := 0#64 }))) ∧
  (∀ s t : State, s.Inv → exec .pcmRead s = .next t → ∀ p,
    p < s.arg0.toNat ∨ s.arg0.toNat + 4 * s.arg1.toNat ≤ p → memByte t.dmem p = memByte s.dmem p)

/-! ## System commands, statuses and faults -/

/-- 45_system.md R380, 70_reset_and_hazards.md R451: SYS.RESET is the power-on reset but for ARG0, ARG1 and DMEM, in every
state. (The parameters, the host, the predictor and the sources to come are no engine state: log entries 2, 3, 4. The scratch
kind at reset is the model's choice: log entry 17.) -/
def Obligations.SystemReset : Prop :=
  decode 0x70000000#32 = .ok .sysReset ∧
  ∀ s : State, exec .sysReset s = .next { State.reset with
    arg0 := s.arg0, arg1 := s.arg1, dmem := s.dmem, cfg := s.cfg, predictor := s.predictor, preq := s.preq
    upstream := s.nextSources.headD [], nextSources := s.nextSources.tail, host := s.host, rdata := s.rdata }

/-- 45_system.md R382, R384, R386: SYS.DISPOSE and SYS.STATUS run in every state and leave STATUS at OK or at the sticky fault;
SYS.CFG writes the stream-info default its selector names, in the range of that default. -/
def Obligations.SystemCommands : Prop :=
  (decode 0x71000000#32 = .ok .sysDispose ∧ decode 0x73000000#32 = .ok .sysStatus ∧
   (∀ s : State, exec .sysDispose s = .next { s with
     fpresent := false, fcur := 0, fbuf := [], rb := ⟨false, 0, 0, 0, .quot, 0, 0, 0⟩, disposed := true
     status := if s.fault = 0#16 then 0x0000#16 else s.fault }) ∧
   (∀ s : State, exec .sysStatus s = .next { s with
     res0 := match s.fsm with
       | .searching => 0#64
       | .headerParse => 1#64
       | .subframes => 2#64
       | .footerCheck => 3#64
       | .done => 4#64
       | .ended => 5#64
       | .failed => 6#64
     res1 := s.fault.setWidth 64
     res2 := BitVec.ofNat 64 (s.disposed.toNat + 2 * s.rb.active.toNat + 4 * s.fpresent.toNat + 8 * s.eos.toNat)
     status := if s.fault = 0#16 then 0x0000#16 else s.fault }) ∧
   (∀ s t : State, exec .sysDispose s = .next t → exec .sysDispose t = .next t)) ∧
  ((∀ a : BitVec 8, Checked (.sysCfg a) (0x72#8 ++ (a ++ 0#16))) ∧
   ∀ s : State, s.Ready →
     (s.arg0.toNat ≤ 2 ^ 32 - 1 → exec (.sysCfg 0#8) s = .next { s with
       siRate := BitVec.ofNat 32 s.arg0.toNat, status := 0x0000#16 }) ∧
     (s.arg0.toNat ≤ 32 → exec (.sysCfg 1#8) s = .next { s with
       siBps := BitVec.ofNat 6 s.arg0.toNat, status := 0x0000#16 }) ∧
     (s.arg0.toNat ≤ 8 → exec (.sysCfg 2#8) s = .next { s with
       siChannels := BitVec.ofNat 4 s.arg0.toNat, status := 0x0000#16 }) ∧
     (∀ a : BitVec 8, (a = 0#8 ∧ 2 ^ 32 - 1 < s.arg0.toNat) ∨ (a = 1#8 ∧ 32 < s.arg0.toNat) ∨ (a = 2#8 ∧ 8 < s.arg0.toNat) →
       exec (.sysCfg a) s = .next { s with status := 0x0805#16, fault := 0x0805#16 }) ∧
     (∀ a : BitVec 8, 2 < a.toNat → exec (.sysCfg a) s = .next { s with status := 0x0A05#16, fault := 0x0A05#16 }))

/-- 60_exceptions.md R406, R407: under a sticky fault every other word, legal or not, has no effect but STATUS; the four commands
that still run leave STATUS at the fault, but for SYS.RESET; after a dispose, with no fault yet, every word but the four is a
violation. -/
def Obligations.StickyFaultAndDispose : Prop :=
  ((∀ (w : Word) (s : State), s.fault ≠ 0#16 →
     (∀ i, decode w = .ok i → i ≠ .sysReset ∧ i ≠ .sysStatus ∧ i ≠ .sysDispose ∧ i ≠ .brEos) →
     runWord w s = .next { s with cmd := w, status := s.fault }) ∧
   (∀ (i : Instr) (s t : State), s.fault ≠ 0#16 → exec i s = .next t → i ≠ .sysReset →
     t.status = s.fault ∧ t.fault = s.fault) ∧
   (∀ s t : State, exec .sysReset s = .next t → t.status = 0#16 ∧ t.fault = 0#16)) ∧
  ((∀ (w : Word) (s : State), s.fault = 0#16 → s.disposed = true →
     (∀ i, decode w = .ok i → i ≠ .sysReset ∧ i ≠ .sysStatus ∧ i ≠ .sysDispose ∧ i ≠ .brEos) →
     runWord w s = .next { s with cmd := w, status := 0x0405#16, fault := 0x0405#16 }) ∧
   (∀ (i : Instr) (s t : State), s.fault = 0#16 → s.disposed = true →
     i = .sysReset ∨ i = .sysStatus ∨ i = .sysDispose ∨ i = .brEos → exec i s = .next t → t.status = 0x0000#16))

/-- 60_exceptions.md R400, R401, R405: what a command can leave in STATUS; a status of FATAL_STREAM or CONTRACT_VIOLATION is
latched in FAULT while FAULT is 0, no other status is, and FAULT keeps the first until SYS.RESET. -/
def Obligations.StatusAndFault : Prop :=
  ∀ (w : Word) (s t : State), runWord w s = .next t → decode w ≠ .ok .sysReset →
    (s.fault ≠ 0#16 → t.fault = s.fault ∧ t.status = s.fault) ∧
    (s.fault = 0#16 →
      (t.status = 0x0000#16 ∨ t.status = 0x0001#16 ∨ t.status = 0x0002#16 ∨
        ∃ cause code : Nat, t.status = BitVec.ofNat 16 (cause * 256 + code) ∧ 1 ≤ cause ∧
          (code = 3 ∧ cause ≤ 6 ∨ code = 4 ∧ cause ≤ 10 ∨ code = 5 ∧ cause ≤ 10)) ∧
      (t.status.extractLsb' 0 8 = 4#8 ∨ t.status.extractLsb' 0 8 = 5#8 → t.fault = t.status) ∧
      (¬(t.status.extractLsb' 0 8 = 4#8 ∨ t.status.extractLsb' 0 8 = 5#8) → t.fault = 0#16))

/-! ## The whole machine -/

/-- 10_state.md R31, R45, 20_memory.md R91, 42_frame_sync.md R286, 10_state.md R32: which commands write which registers. No
command but SYS.RESET (which 45_system.md R380 says) changes a register of another unit: ARG0, ARG1 and the host's side by
none; C8 by the CRC-8 commands, C16 by the CRC-16 commands; the stream-info defaults by SYS.CFG; DMEM by BR.RICEB and PCM.READ;
the decode state machine by FR.DECODE, FR.STEP and PCM.READ. -/
def Obligations.RegisterOwners : Prop :=
  ∀ (i : Instr) (s t : State), exec i s = .next t → i ≠ .sysReset →
    t.cmd = s.cmd ∧ t.arg0 = s.arg0 ∧ t.arg1 = s.arg1 ∧ t.cfg = s.cfg ∧ t.host = s.host ∧ t.rdata = s.rdata ∧
    (family i ≠ .crc8 → t.c8 = s.c8) ∧ (family i ≠ .crc16 → t.c16 = s.c16) ∧
    ((∀ a, i ≠ .sysCfg a) → t.siRate = s.siRate ∧ t.siBps = s.siBps ∧ t.siChannels = s.siChannels) ∧
    ((∀ a, i ≠ .brRiceb a) → i ≠ .pcmRead → t.dmem = s.dmem) ∧
    (family i ≠ .frame → family i ≠ .pcm → t.fsm = s.fsm ∧ t.acc = s.acc ∧ t.accn = s.accn ∧ t.hp = s.hp ∧ t.raw = s.raw ∧
      t.hdr = s.hdr ∧ t.sub = s.sub ∧ t.chbuf = s.chbuf ∧ t.fs = s.fs ∧ t.fcrc = s.fcrc ∧
      (i ≠ .sysDispose → t.fpresent = s.fpresent ∧ t.fbuf = s.fbuf ∧ t.fcur = s.fcur)) ∧
    (i ≠ .sysDispose → t.disposed = s.disposed) ∧ ((∀ a, i ≠ .brRiceb a) → i ≠ .sysDispose → t.rb = s.rb)

/-- 20_memory.md R83, R84, R86, 10_state.md R41: no command but SYS.RESET moves the cursor back, takes a byte out of the stream
or clears the end-of-stream flag; what has arrived is what the first answers of the source brought, and after the end of the
stream nothing arrives. -/
def Obligations.StreamMonotone : Prop :=
  ∀ (i : Instr) (s t : State), exec i s = .next t → i ≠ .sysReset →
    s.cons ≤ t.cons ∧ (s.eos = true → t.eos = true ∧ t.S = s.S) ∧
    ∃ pulled : List PullAnswer, s.upstream = pulled ++ t.upstream ∧
      t.S = s.S ++ pulled.flatMap (fun a => a.bytes) ∧ t.eos = (s.eos || pulled.any fun a => a.ends)

/-- 20_memory.md R92: words stored by the engine read back, least significant byte first; no other byte changes; and DMEM keeps
its canonical form. -/
def Obligations.MemoryWords : Prop :=
  ∀ (m : Memory) (a : Nat) (vs : List Word),
    (∀ j, (h : j < vs.length) → memRead (memWriteWords m a vs) (a + 4 * j) 4 = vs[j].toNat) ∧
    (∀ (j : Nat) (h : j < vs.length),
      memByte (memWriteWords m a vs) (a + 4 * j) = vs[j].extractLsb' 0 8 ∧
      memByte (memWriteWords m a vs) (a + 4 * j + 1) = vs[j].extractLsb' 8 8 ∧
      memByte (memWriteWords m a vs) (a + 4 * j + 2) = vs[j].extractLsb' 16 8 ∧
      memByte (memWriteWords m a vs) (a + 4 * j + 3) = vs[j].extractLsb' 24 8) ∧
    (∀ p, p < a ∨ a + 4 * vs.length ≤ p → memByte (memWriteWords m a vs) p = memByte m p) ∧
    (Memory.wf m = true → Memory.wf (memWriteWords m a vs) = true)

/-- 10_state.md R30, R31: the host's accesses to the nine registers; writes to read-only registers and accesses to other offsets
are refused. The model's choice: the value a read returns is latched in `rdata` (log entry 5, DESIGN CHOICE). -/
def Obligations.HostRegisters : Prop :=
  (∀ (s : State) (v : Reg), hostAction (.write 0x08 v) s = .next { s with arg0 := v } ∧
    hostAction (.write 0x10 v) s = .next { s with arg1 := v } ∧
    ∀ off, off ∈ [0x18, 0x20, 0x28, 0x30, 0x38, 0x40] → hostAction (.write off v) s = .refused (.hostWriteReadOnly off)) ∧
  (∀ (s : State) (off : Nat) (v : Reg),
    (off, v) ∈ [(0x00, 0#64), (0x08, s.arg0), (0x10, s.arg1), (0x18, s.res0), (0x20, s.res1), (0x28, s.res2),
      (0x30, s.status.setWidth 64), (0x38, s.fault.setWidth 64), (0x40, if s.eos then 1#64 else 0#64)] →
    hostAction (.read off) s = .next { s with rdata := v }) ∧
  (∀ (s : State) (off : Nat) (v : Reg), off ∉ [0x00, 0x08, 0x10, 0x18, 0x20, 0x28, 0x30, 0x38, 0x40] →
    hostAction (.write off v) s = .refused (.hostOffsetUnmapped off) ∧
    hostAction (.read off) s = .refused (.hostOffsetUnmapped off))

/-- 20_memory.md R90, R100, 30_encoding.md R116: the host's accesses to DMEM: a write stores its one byte, a read returns the byte,
an address outside DMEM has none; and one more answer of the source. The model's choice: the fault outside DMEM (log entry 8),
`rdata` (log entry 5) and that answers join a list (log entries 2 and 3). -/
def Obligations.HostMemory : Prop :=
  (∀ (s : State) (a : Nat) (b : Byte), a < s.cfg.dmemBytes → ∃ m : Memory,
    hostAction (.dmemWrite a b) s = .next { s with dmem := m } ∧ memByte m a = b ∧
    (∀ p, p ≠ a → memByte m p = memByte s.dmem p) ∧ (Memory.wf s.dmem = true → Memory.wf m = true) ∧
    hostAction (.dmemRead a) { s with dmem := m } = .next { s with dmem := m, rdata := b.setWidth 64 }) ∧
  (∀ (s : State) (a : Nat), a < s.cfg.dmemBytes →
    hostAction (.dmemRead a) s = .next { s with rdata := (memByte s.dmem a).setWidth 64 }) ∧
  (∀ (s : State) (a : Nat) (b : Byte), s.cfg.dmemBytes ≤ a →
    hostAction (.dmemWrite a b) s = .fault (.dmemHole a) ∧ hostAction (.dmemRead a) s = .fault (.dmemHole a)) ∧
  (∀ (s : State) (x : PullAnswer), hostAction (.source x) s = .next { s with upstream := s.upstream ++ [x] })

/-- The invariant holds after reset. -/
def Obligations.InvariantAtReset : Prop := State.reset.Inv

/-- Every step keeps the invariant (10_state.md R39, R40, R51, R55, R56, 42_frame_sync.md R271, 43_subframe.md R325, 60_exceptions.md
R405): the cursors stay in order, the Rice batch and the Frame stay consistent, FAILED never stands without a FAULT, and the
memories stay canonical. -/
def Obligations.StepKeepsInvariant : Prop := ∀ s t : State, s.Inv → step s = .next t → t.Inv

/-- From a state that keeps the invariant, with a predictor, room in the stream and only legal accesses of the host pending, a
step answers a next state: it neither stops nor refuses. That FR.DECODE and PCM.READ answer rests on the model's choice that
every source gives finitely many answers (log entry 3; 70_reset_and_hazards.md R467 lets the command not complete). -/
def Obligations.StepIsSafe : Prop :=
  ∀ s : State, s.Inv → s.Room → s.predictor.isSome = true →
    (∀ h ∈ s.host, (∃ off v, h = .write off v ∧ off ∈ [0x00, 0x08, 0x10]) ∨
      (∃ off, h = .read off ∧ off ∈ [0x00, 0x08, 0x10, 0x18, 0x20, 0x28, 0x30, 0x38, 0x40]) ∨
      (∃ a b, h = .dmemWrite a b ∧ a < s.cfg.dmemBytes) ∨ (∃ a, h = .dmemRead a ∧ a < s.cfg.dmemBytes) ∨
      (∃ x, h = .source x)) →
    Safe s
end

