-- ==== Sys2Proof/Laws/State.lean ====
section
/-! SUPPORT. One lemma per field per update for the named updates of the state: what each leaves alone. -/

namespace Sys2Proof.Machine

/-! ### The end of a command -/

@[simp] theorem endWith_cmd (s : State) (st : Status) : (s.endWith st).cmd = s.cmd := rfl
@[simp] theorem endWith_arg0 (s : State) (st : Status) : (s.endWith st).arg0 = s.arg0 := rfl
@[simp] theorem endWith_arg1 (s : State) (st : Status) : (s.endWith st).arg1 = s.arg1 := rfl
@[simp] theorem endWith_res0 (s : State) (st : Status) : (s.endWith st).res0 = s.res0 := rfl
@[simp] theorem endWith_res1 (s : State) (st : Status) : (s.endWith st).res1 = s.res1 := rfl
@[simp] theorem endWith_res2 (s : State) (st : Status) : (s.endWith st).res2 = s.res2 := rfl
@[simp] theorem endWith_c8 (s : State) (st : Status) : (s.endWith st).c8 = s.c8 := rfl
@[simp] theorem endWith_c16 (s : State) (st : Status) : (s.endWith st).c16 = s.c16 := rfl
@[simp] theorem endWith_bcrc (s : State) (st : Status) : (s.endWith st).bcrc = s.bcrc := rfl
@[simp] theorem endWith_S (s : State) (st : Status) : (s.endWith st).S = s.S := rfl
@[simp] theorem endWith_cons (s : State) (st : Status) : (s.endWith st).cons = s.cons := rfl
@[simp] theorem endWith_base (s : State) (st : Status) : (s.endWith st).base = s.base := rfl
@[simp] theorem endWith_eos (s : State) (st : Status) : (s.endWith st).eos = s.eos := rfl
@[simp] theorem endWith_rb (s : State) (st : Status) : (s.endWith st).rb = s.rb := rfl
@[simp] theorem endWith_dw (s : State) (st : Status) : (s.endWith st).dw = s.dw := rfl
@[simp] theorem endWith_siRate (s : State) (st : Status) : (s.endWith st).siRate = s.siRate := rfl
@[simp] theorem endWith_siBps (s : State) (st : Status) : (s.endWith st).siBps = s.siBps := rfl
@[simp] theorem endWith_siChannels (s : State) (st : Status) : (s.endWith st).siChannels = s.siChannels := rfl
@[simp] theorem endWith_fsm (s : State) (st : Status) : (s.endWith st).fsm = s.fsm := rfl
@[simp] theorem endWith_acc (s : State) (st : Status) : (s.endWith st).acc = s.acc := rfl
@[simp] theorem endWith_accn (s : State) (st : Status) : (s.endWith st).accn = s.accn := rfl
@[simp] theorem endWith_hp (s : State) (st : Status) : (s.endWith st).hp = s.hp := rfl
@[simp] theorem endWith_raw (s : State) (st : Status) : (s.endWith st).raw = s.raw := rfl
@[simp] theorem endWith_hdr (s : State) (st : Status) : (s.endWith st).hdr = s.hdr := rfl
@[simp] theorem endWith_sub (s : State) (st : Status) : (s.endWith st).sub = s.sub := rfl
@[simp] theorem endWith_chbuf (s : State) (st : Status) : (s.endWith st).chbuf = s.chbuf := rfl
@[simp] theorem endWith_fs (s : State) (st : Status) : (s.endWith st).fs = s.fs := rfl
@[simp] theorem endWith_fcrc (s : State) (st : Status) : (s.endWith st).fcrc = s.fcrc := rfl
@[simp] theorem endWith_fpresent (s : State) (st : Status) : (s.endWith st).fpresent = s.fpresent := rfl
@[simp] theorem endWith_fbuf (s : State) (st : Status) : (s.endWith st).fbuf = s.fbuf := rfl
@[simp] theorem endWith_fcur (s : State) (st : Status) : (s.endWith st).fcur = s.fcur := rfl
@[simp] theorem endWith_disposed (s : State) (st : Status) : (s.endWith st).disposed = s.disposed := rfl
@[simp] theorem endWith_dmem (s : State) (st : Status) : (s.endWith st).dmem = s.dmem := rfl
@[simp] theorem endWith_cfg (s : State) (st : Status) : (s.endWith st).cfg = s.cfg := rfl
@[simp] theorem endWith_predictor (s : State) (st : Status) : (s.endWith st).predictor = s.predictor := rfl
@[simp] theorem endWith_preq (s : State) (st : Status) : (s.endWith st).preq = s.preq := rfl
@[simp] theorem endWith_upstream (s : State) (st : Status) : (s.endWith st).upstream = s.upstream := rfl
@[simp] theorem endWith_nextSources (s : State) (st : Status) : (s.endWith st).nextSources = s.nextSources := rfl
@[simp] theorem endWith_host (s : State) (st : Status) : (s.endWith st).host = s.host := rfl
@[simp] theorem endWith_rdata (s : State) (st : Status) : (s.endWith st).rdata = s.rdata := rfl

@[simp] theorem endWith_status (s : State) (st : Status) : (s.endWith st).status = st.word := rfl

/-! ### The end of a command that is always accepted -/

@[simp] theorem endAccepted_cmd (s : State) : (s.endAccepted).cmd = s.cmd := rfl
@[simp] theorem endAccepted_arg0 (s : State) : (s.endAccepted).arg0 = s.arg0 := rfl
@[simp] theorem endAccepted_arg1 (s : State) : (s.endAccepted).arg1 = s.arg1 := rfl
@[simp] theorem endAccepted_res0 (s : State) : (s.endAccepted).res0 = s.res0 := rfl
@[simp] theorem endAccepted_res1 (s : State) : (s.endAccepted).res1 = s.res1 := rfl
@[simp] theorem endAccepted_res2 (s : State) : (s.endAccepted).res2 = s.res2 := rfl
@[simp] theorem endAccepted_fault (s : State) : (s.endAccepted).fault = s.fault := rfl
@[simp] theorem endAccepted_c8 (s : State) : (s.endAccepted).c8 = s.c8 := rfl
@[simp] theorem endAccepted_c16 (s : State) : (s.endAccepted).c16 = s.c16 := rfl
@[simp] theorem endAccepted_bcrc (s : State) : (s.endAccepted).bcrc = s.bcrc := rfl
@[simp] theorem endAccepted_S (s : State) : (s.endAccepted).S = s.S := rfl
@[simp] theorem endAccepted_cons (s : State) : (s.endAccepted).cons = s.cons := rfl
@[simp] theorem endAccepted_base (s : State) : (s.endAccepted).base = s.base := rfl
@[simp] theorem endAccepted_eos (s : State) : (s.endAccepted).eos = s.eos := rfl
@[simp] theorem endAccepted_rb (s : State) : (s.endAccepted).rb = s.rb := rfl
@[simp] theorem endAccepted_dw (s : State) : (s.endAccepted).dw = s.dw := rfl
@[simp] theorem endAccepted_siRate (s : State) : (s.endAccepted).siRate = s.siRate := rfl
@[simp] theorem endAccepted_siBps (s : State) : (s.endAccepted).siBps = s.siBps := rfl
@[simp] theorem endAccepted_siChannels (s : State) : (s.endAccepted).siChannels = s.siChannels := rfl
@[simp] theorem endAccepted_fsm (s : State) : (s.endAccepted).fsm = s.fsm := rfl
@[simp] theorem endAccepted_acc (s : State) : (s.endAccepted).acc = s.acc := rfl
@[simp] theorem endAccepted_accn (s : State) : (s.endAccepted).accn = s.accn := rfl
@[simp] theorem endAccepted_hp (s : State) : (s.endAccepted).hp = s.hp := rfl
@[simp] theorem endAccepted_raw (s : State) : (s.endAccepted).raw = s.raw := rfl
@[simp] theorem endAccepted_hdr (s : State) : (s.endAccepted).hdr = s.hdr := rfl
@[simp] theorem endAccepted_sub (s : State) : (s.endAccepted).sub = s.sub := rfl
@[simp] theorem endAccepted_chbuf (s : State) : (s.endAccepted).chbuf = s.chbuf := rfl
@[simp] theorem endAccepted_fs (s : State) : (s.endAccepted).fs = s.fs := rfl
@[simp] theorem endAccepted_fcrc (s : State) : (s.endAccepted).fcrc = s.fcrc := rfl
@[simp] theorem endAccepted_fpresent (s : State) : (s.endAccepted).fpresent = s.fpresent := rfl
@[simp] theorem endAccepted_fbuf (s : State) : (s.endAccepted).fbuf = s.fbuf := rfl
@[simp] theorem endAccepted_fcur (s : State) : (s.endAccepted).fcur = s.fcur := rfl
@[simp] theorem endAccepted_disposed (s : State) : (s.endAccepted).disposed = s.disposed := rfl
@[simp] theorem endAccepted_dmem (s : State) : (s.endAccepted).dmem = s.dmem := rfl
@[simp] theorem endAccepted_cfg (s : State) : (s.endAccepted).cfg = s.cfg := rfl
@[simp] theorem endAccepted_predictor (s : State) : (s.endAccepted).predictor = s.predictor := rfl
@[simp] theorem endAccepted_preq (s : State) : (s.endAccepted).preq = s.preq := rfl
@[simp] theorem endAccepted_upstream (s : State) : (s.endAccepted).upstream = s.upstream := rfl
@[simp] theorem endAccepted_nextSources (s : State) : (s.endAccepted).nextSources = s.nextSources := rfl
@[simp] theorem endAccepted_host (s : State) : (s.endAccepted).host = s.host := rfl
@[simp] theorem endAccepted_rdata (s : State) : (s.endAccepted).rdata = s.rdata := rfl

/-! ### The CRC fold -/

@[simp] theorem upd_cmd (s : State) : (s.upd).cmd = s.cmd := rfl
@[simp] theorem upd_arg0 (s : State) : (s.upd).arg0 = s.arg0 := rfl
@[simp] theorem upd_arg1 (s : State) : (s.upd).arg1 = s.arg1 := rfl
@[simp] theorem upd_res0 (s : State) : (s.upd).res0 = s.res0 := rfl
@[simp] theorem upd_res1 (s : State) : (s.upd).res1 = s.res1 := rfl
@[simp] theorem upd_res2 (s : State) : (s.upd).res2 = s.res2 := rfl
@[simp] theorem upd_status (s : State) : (s.upd).status = s.status := rfl
@[simp] theorem upd_fault (s : State) : (s.upd).fault = s.fault := rfl
@[simp] theorem upd_c8 (s : State) : (s.upd).c8 = s.c8 := rfl
@[simp] theorem upd_c16 (s : State) : (s.upd).c16 = s.c16 := rfl
@[simp] theorem upd_S (s : State) : (s.upd).S = s.S := rfl
@[simp] theorem upd_cons (s : State) : (s.upd).cons = s.cons := rfl
@[simp] theorem upd_eos (s : State) : (s.upd).eos = s.eos := rfl
@[simp] theorem upd_rb (s : State) : (s.upd).rb = s.rb := rfl
@[simp] theorem upd_dw (s : State) : (s.upd).dw = s.dw := rfl
@[simp] theorem upd_siRate (s : State) : (s.upd).siRate = s.siRate := rfl
@[simp] theorem upd_siBps (s : State) : (s.upd).siBps = s.siBps := rfl
@[simp] theorem upd_siChannels (s : State) : (s.upd).siChannels = s.siChannels := rfl
@[simp] theorem upd_fsm (s : State) : (s.upd).fsm = s.fsm := rfl
@[simp] theorem upd_acc (s : State) : (s.upd).acc = s.acc := rfl
@[simp] theorem upd_accn (s : State) : (s.upd).accn = s.accn := rfl
@[simp] theorem upd_hp (s : State) : (s.upd).hp = s.hp := rfl
@[simp] theorem upd_raw (s : State) : (s.upd).raw = s.raw := rfl
@[simp] theorem upd_hdr (s : State) : (s.upd).hdr = s.hdr := rfl
@[simp] theorem upd_sub (s : State) : (s.upd).sub = s.sub := rfl
@[simp] theorem upd_chbuf (s : State) : (s.upd).chbuf = s.chbuf := rfl
@[simp] theorem upd_fs (s : State) : (s.upd).fs = s.fs := rfl
@[simp] theorem upd_fcrc (s : State) : (s.upd).fcrc = s.fcrc := rfl
@[simp] theorem upd_fpresent (s : State) : (s.upd).fpresent = s.fpresent := rfl
@[simp] theorem upd_fbuf (s : State) : (s.upd).fbuf = s.fbuf := rfl
@[simp] theorem upd_fcur (s : State) : (s.upd).fcur = s.fcur := rfl
@[simp] theorem upd_disposed (s : State) : (s.upd).disposed = s.disposed := rfl
@[simp] theorem upd_dmem (s : State) : (s.upd).dmem = s.dmem := rfl
@[simp] theorem upd_cfg (s : State) : (s.upd).cfg = s.cfg := rfl
@[simp] theorem upd_predictor (s : State) : (s.upd).predictor = s.predictor := rfl
@[simp] theorem upd_preq (s : State) : (s.upd).preq = s.preq := rfl
@[simp] theorem upd_upstream (s : State) : (s.upd).upstream = s.upstream := rfl
@[simp] theorem upd_nextSources (s : State) : (s.upd).nextSources = s.nextSources := rfl
@[simp] theorem upd_host (s : State) : (s.upd).host = s.host := rfl
@[simp] theorem upd_rdata (s : State) : (s.upd).rdata = s.rdata := rfl

/-! ### `Need` -/

@[simp] theorem need_cmd (s : State) (n : Nat) : (s.need n).cmd = s.cmd := by unfold State.need; split <;> rfl
@[simp] theorem need_arg0 (s : State) (n : Nat) : (s.need n).arg0 = s.arg0 := by unfold State.need; split <;> rfl
@[simp] theorem need_arg1 (s : State) (n : Nat) : (s.need n).arg1 = s.arg1 := by unfold State.need; split <;> rfl
@[simp] theorem need_res0 (s : State) (n : Nat) : (s.need n).res0 = s.res0 := by unfold State.need; split <;> rfl
@[simp] theorem need_res1 (s : State) (n : Nat) : (s.need n).res1 = s.res1 := by unfold State.need; split <;> rfl
@[simp] theorem need_res2 (s : State) (n : Nat) : (s.need n).res2 = s.res2 := by unfold State.need; split <;> rfl
@[simp] theorem need_status (s : State) (n : Nat) : (s.need n).status = s.status := by unfold State.need; split <;> rfl
@[simp] theorem need_fault (s : State) (n : Nat) : (s.need n).fault = s.fault := by unfold State.need; split <;> rfl
@[simp] theorem need_c8 (s : State) (n : Nat) : (s.need n).c8 = s.c8 := by unfold State.need; split <;> rfl
@[simp] theorem need_c16 (s : State) (n : Nat) : (s.need n).c16 = s.c16 := by unfold State.need; split <;> rfl
@[simp] theorem need_bcrc (s : State) (n : Nat) : (s.need n).bcrc = s.bcrc := by unfold State.need; split <;> rfl
@[simp] theorem need_cons (s : State) (n : Nat) : (s.need n).cons = s.cons := by unfold State.need; split <;> rfl
@[simp] theorem need_base (s : State) (n : Nat) : (s.need n).base = s.base := by unfold State.need; split <;> rfl
@[simp] theorem need_rb (s : State) (n : Nat) : (s.need n).rb = s.rb := by unfold State.need; split <;> rfl
@[simp] theorem need_siRate (s : State) (n : Nat) : (s.need n).siRate = s.siRate := by unfold State.need; split <;> rfl
@[simp] theorem need_siBps (s : State) (n : Nat) : (s.need n).siBps = s.siBps := by unfold State.need; split <;> rfl
@[simp] theorem need_siChannels (s : State) (n : Nat) : (s.need n).siChannels = s.siChannels := by unfold State.need; split <;> rfl
@[simp] theorem need_fsm (s : State) (n : Nat) : (s.need n).fsm = s.fsm := by unfold State.need; split <;> rfl
@[simp] theorem need_acc (s : State) (n : Nat) : (s.need n).acc = s.acc := by unfold State.need; split <;> rfl
@[simp] theorem need_accn (s : State) (n : Nat) : (s.need n).accn = s.accn := by unfold State.need; split <;> rfl
@[simp] theorem need_hp (s : State) (n : Nat) : (s.need n).hp = s.hp := by unfold State.need; split <;> rfl
@[simp] theorem need_raw (s : State) (n : Nat) : (s.need n).raw = s.raw := by unfold State.need; split <;> rfl
@[simp] theorem need_hdr (s : State) (n : Nat) : (s.need n).hdr = s.hdr := by unfold State.need; split <;> rfl
@[simp] theorem need_sub (s : State) (n : Nat) : (s.need n).sub = s.sub := by unfold State.need; split <;> rfl
@[simp] theorem need_chbuf (s : State) (n : Nat) : (s.need n).chbuf = s.chbuf := by unfold State.need; split <;> rfl
@[simp] theorem need_fs (s : State) (n : Nat) : (s.need n).fs = s.fs := by unfold State.need; split <;> rfl
@[simp] theorem need_fcrc (s : State) (n : Nat) : (s.need n).fcrc = s.fcrc := by unfold State.need; split <;> rfl
@[simp] theorem need_fpresent (s : State) (n : Nat) : (s.need n).fpresent = s.fpresent := by unfold State.need; split <;> rfl
@[simp] theorem need_fbuf (s : State) (n : Nat) : (s.need n).fbuf = s.fbuf := by unfold State.need; split <;> rfl
@[simp] theorem need_fcur (s : State) (n : Nat) : (s.need n).fcur = s.fcur := by unfold State.need; split <;> rfl
@[simp] theorem need_disposed (s : State) (n : Nat) : (s.need n).disposed = s.disposed := by unfold State.need; split <;> rfl
@[simp] theorem need_dmem (s : State) (n : Nat) : (s.need n).dmem = s.dmem := by unfold State.need; split <;> rfl
@[simp] theorem need_cfg (s : State) (n : Nat) : (s.need n).cfg = s.cfg := by unfold State.need; split <;> rfl
@[simp] theorem need_predictor (s : State) (n : Nat) : (s.need n).predictor = s.predictor := by unfold State.need; split <;> rfl
@[simp] theorem need_preq (s : State) (n : Nat) : (s.need n).preq = s.preq := by unfold State.need; split <;> rfl
@[simp] theorem need_nextSources (s : State) (n : Nat) : (s.need n).nextSources = s.nextSources := by unfold State.need; split <;> rfl
@[simp] theorem need_host (s : State) (n : Nat) : (s.need n).host = s.host := by unfold State.need; split <;> rfl
@[simp] theorem need_rdata (s : State) (n : Nat) : (s.need n).rdata = s.rdata := by unfold State.need; split <;> rfl

/-! ### `Pull` -/

@[simp] theorem pull_cmd (s : State) : (s.pull.2).cmd = s.cmd := by unfold State.pull; split <;> rfl
@[simp] theorem pull_arg0 (s : State) : (s.pull.2).arg0 = s.arg0 := by unfold State.pull; split <;> rfl
@[simp] theorem pull_arg1 (s : State) : (s.pull.2).arg1 = s.arg1 := by unfold State.pull; split <;> rfl
@[simp] theorem pull_res0 (s : State) : (s.pull.2).res0 = s.res0 := by unfold State.pull; split <;> rfl
@[simp] theorem pull_res1 (s : State) : (s.pull.2).res1 = s.res1 := by unfold State.pull; split <;> rfl
@[simp] theorem pull_res2 (s : State) : (s.pull.2).res2 = s.res2 := by unfold State.pull; split <;> rfl
@[simp] theorem pull_status (s : State) : (s.pull.2).status = s.status := by unfold State.pull; split <;> rfl
@[simp] theorem pull_fault (s : State) : (s.pull.2).fault = s.fault := by unfold State.pull; split <;> rfl
@[simp] theorem pull_c8 (s : State) : (s.pull.2).c8 = s.c8 := by unfold State.pull; split <;> rfl
@[simp] theorem pull_c16 (s : State) : (s.pull.2).c16 = s.c16 := by unfold State.pull; split <;> rfl
@[simp] theorem pull_bcrc (s : State) : (s.pull.2).bcrc = s.bcrc := by unfold State.pull; split <;> rfl
@[simp] theorem pull_cons (s : State) : (s.pull.2).cons = s.cons := by unfold State.pull; split <;> rfl
@[simp] theorem pull_base (s : State) : (s.pull.2).base = s.base := by unfold State.pull; split <;> rfl
@[simp] theorem pull_rb (s : State) : (s.pull.2).rb = s.rb := by unfold State.pull; split <;> rfl
@[simp] theorem pull_siRate (s : State) : (s.pull.2).siRate = s.siRate := by unfold State.pull; split <;> rfl
@[simp] theorem pull_siBps (s : State) : (s.pull.2).siBps = s.siBps := by unfold State.pull; split <;> rfl
@[simp] theorem pull_siChannels (s : State) : (s.pull.2).siChannels = s.siChannels := by unfold State.pull; split <;> rfl
@[simp] theorem pull_fsm (s : State) : (s.pull.2).fsm = s.fsm := by unfold State.pull; split <;> rfl
@[simp] theorem pull_acc (s : State) : (s.pull.2).acc = s.acc := by unfold State.pull; split <;> rfl
@[simp] theorem pull_accn (s : State) : (s.pull.2).accn = s.accn := by unfold State.pull; split <;> rfl
@[simp] theorem pull_hp (s : State) : (s.pull.2).hp = s.hp := by unfold State.pull; split <;> rfl
@[simp] theorem pull_raw (s : State) : (s.pull.2).raw = s.raw := by unfold State.pull; split <;> rfl
@[simp] theorem pull_hdr (s : State) : (s.pull.2).hdr = s.hdr := by unfold State.pull; split <;> rfl
@[simp] theorem pull_sub (s : State) : (s.pull.2).sub = s.sub := by unfold State.pull; split <;> rfl
@[simp] theorem pull_chbuf (s : State) : (s.pull.2).chbuf = s.chbuf := by unfold State.pull; split <;> rfl
@[simp] theorem pull_fs (s : State) : (s.pull.2).fs = s.fs := by unfold State.pull; split <;> rfl
@[simp] theorem pull_fcrc (s : State) : (s.pull.2).fcrc = s.fcrc := by unfold State.pull; split <;> rfl
@[simp] theorem pull_fpresent (s : State) : (s.pull.2).fpresent = s.fpresent := by unfold State.pull; split <;> rfl
@[simp] theorem pull_fbuf (s : State) : (s.pull.2).fbuf = s.fbuf := by unfold State.pull; split <;> rfl
@[simp] theorem pull_fcur (s : State) : (s.pull.2).fcur = s.fcur := by unfold State.pull; split <;> rfl
@[simp] theorem pull_disposed (s : State) : (s.pull.2).disposed = s.disposed := by unfold State.pull; split <;> rfl
@[simp] theorem pull_dmem (s : State) : (s.pull.2).dmem = s.dmem := by unfold State.pull; split <;> rfl
@[simp] theorem pull_cfg (s : State) : (s.pull.2).cfg = s.cfg := by unfold State.pull; split <;> rfl
@[simp] theorem pull_predictor (s : State) : (s.pull.2).predictor = s.predictor := by unfold State.pull; split <;> rfl
@[simp] theorem pull_preq (s : State) : (s.pull.2).preq = s.preq := by unfold State.pull; split <;> rfl
@[simp] theorem pull_nextSources (s : State) : (s.pull.2).nextSources = s.nextSources := by unfold State.pull; split <;> rfl
@[simp] theorem pull_host (s : State) : (s.pull.2).host = s.host := by unfold State.pull; split <;> rfl
@[simp] theorem pull_rdata (s : State) : (s.pull.2).rdata = s.rdata := by unfold State.pull; split <;> rfl

/-! ### Pulls of any kind -/

theorem State.PulledTo.cmd_eq {s t : State} (h : s.PulledTo t) : t.cmd = s.cmd := by rw [h.same]
theorem State.PulledTo.arg0_eq {s t : State} (h : s.PulledTo t) : t.arg0 = s.arg0 := by rw [h.same]
theorem State.PulledTo.arg1_eq {s t : State} (h : s.PulledTo t) : t.arg1 = s.arg1 := by rw [h.same]
theorem State.PulledTo.res0_eq {s t : State} (h : s.PulledTo t) : t.res0 = s.res0 := by rw [h.same]
theorem State.PulledTo.res1_eq {s t : State} (h : s.PulledTo t) : t.res1 = s.res1 := by rw [h.same]
theorem State.PulledTo.res2_eq {s t : State} (h : s.PulledTo t) : t.res2 = s.res2 := by rw [h.same]
theorem State.PulledTo.status_eq {s t : State} (h : s.PulledTo t) : t.status = s.status := by rw [h.same]
theorem State.PulledTo.fault_eq {s t : State} (h : s.PulledTo t) : t.fault = s.fault := by rw [h.same]
theorem State.PulledTo.c8_eq {s t : State} (h : s.PulledTo t) : t.c8 = s.c8 := by rw [h.same]
theorem State.PulledTo.c16_eq {s t : State} (h : s.PulledTo t) : t.c16 = s.c16 := by rw [h.same]
theorem State.PulledTo.bcrc_eq {s t : State} (h : s.PulledTo t) : t.bcrc = s.bcrc := by rw [h.same]
theorem State.PulledTo.cons_eq {s t : State} (h : s.PulledTo t) : t.cons = s.cons := by rw [h.same]
theorem State.PulledTo.base_eq {s t : State} (h : s.PulledTo t) : t.base = s.base := by rw [h.same]
theorem State.PulledTo.rb_eq {s t : State} (h : s.PulledTo t) : t.rb = s.rb := by rw [h.same]
theorem State.PulledTo.siRate_eq {s t : State} (h : s.PulledTo t) : t.siRate = s.siRate := by rw [h.same]
theorem State.PulledTo.siBps_eq {s t : State} (h : s.PulledTo t) : t.siBps = s.siBps := by rw [h.same]
theorem State.PulledTo.siChannels_eq {s t : State} (h : s.PulledTo t) : t.siChannels = s.siChannels := by rw [h.same]
theorem State.PulledTo.fsm_eq {s t : State} (h : s.PulledTo t) : t.fsm = s.fsm := by rw [h.same]
theorem State.PulledTo.acc_eq {s t : State} (h : s.PulledTo t) : t.acc = s.acc := by rw [h.same]
theorem State.PulledTo.accn_eq {s t : State} (h : s.PulledTo t) : t.accn = s.accn := by rw [h.same]
theorem State.PulledTo.hp_eq {s t : State} (h : s.PulledTo t) : t.hp = s.hp := by rw [h.same]
theorem State.PulledTo.raw_eq {s t : State} (h : s.PulledTo t) : t.raw = s.raw := by rw [h.same]
theorem State.PulledTo.hdr_eq {s t : State} (h : s.PulledTo t) : t.hdr = s.hdr := by rw [h.same]
theorem State.PulledTo.sub_eq {s t : State} (h : s.PulledTo t) : t.sub = s.sub := by rw [h.same]
theorem State.PulledTo.chbuf_eq {s t : State} (h : s.PulledTo t) : t.chbuf = s.chbuf := by rw [h.same]
theorem State.PulledTo.fs_eq {s t : State} (h : s.PulledTo t) : t.fs = s.fs := by rw [h.same]
theorem State.PulledTo.fcrc_eq {s t : State} (h : s.PulledTo t) : t.fcrc = s.fcrc := by rw [h.same]
theorem State.PulledTo.fpresent_eq {s t : State} (h : s.PulledTo t) : t.fpresent = s.fpresent := by rw [h.same]
theorem State.PulledTo.fbuf_eq {s t : State} (h : s.PulledTo t) : t.fbuf = s.fbuf := by rw [h.same]
theorem State.PulledTo.fcur_eq {s t : State} (h : s.PulledTo t) : t.fcur = s.fcur := by rw [h.same]
theorem State.PulledTo.disposed_eq {s t : State} (h : s.PulledTo t) : t.disposed = s.disposed := by rw [h.same]
theorem State.PulledTo.dmem_eq {s t : State} (h : s.PulledTo t) : t.dmem = s.dmem := by rw [h.same]
theorem State.PulledTo.cfg_eq {s t : State} (h : s.PulledTo t) : t.cfg = s.cfg := by rw [h.same]
theorem State.PulledTo.predictor_eq {s t : State} (h : s.PulledTo t) : t.predictor = s.predictor := by rw [h.same]
theorem State.PulledTo.preq_eq {s t : State} (h : s.PulledTo t) : t.preq = s.preq := by rw [h.same]
theorem State.PulledTo.nextSources_eq {s t : State} (h : s.PulledTo t) : t.nextSources = s.nextSources := by rw [h.same]
theorem State.PulledTo.host_eq {s t : State} (h : s.PulledTo t) : t.host = s.host := by rw [h.same]
theorem State.PulledTo.rdata_eq {s t : State} (h : s.PulledTo t) : t.rdata = s.rdata := by rw [h.same]

end Sys2Proof.Machine
end

