-- ==== Sys2Proof/Laws/Cells.lean ====
section
/-! SUPPORT. Laws of the cells by number (DMEM and CHBUF): what a read sees after a write, and that writes keep the canonical
form, in which equal contents are equal lists. -/

namespace Sys2Proof.Machine

section
variable {α : Type} (d : α)

theorem readCell_append (m m' : List (Nat × α)) (a : Nat) :
    readCell d (m ++ m') a = if a ∈ m.map Prod.fst then readCell d m a else readCell d m' a := by
  induction m with
  | nil => simp
  | cons c m ih =>
    obtain ⟨k, v⟩ := c
    by_cases h : a = k
    · simp [readCell, h]
    · have e : (a ∈ ((k, v) :: m).map Prod.fst) ↔ a ∈ m.map Prod.fst := by simp [h]
      simp only [List.cons_append, readCell, h, if_false, ih, e]

theorem readCell_of_not_mem (m : List (Nat × α)) (a : Nat) (h : a ∉ m.map Prod.fst) : readCell d m a = d := by
  induction m with
  | nil => rfl
  | cons c m ih =>
    obtain ⟨k, v⟩ := c
    simp only [List.map_cons, List.mem_cons, not_or] at h
    simp [readCell, h.1, ih h.2]

theorem readCell_filter (m : List (Nat × α)) (p : Nat → Bool) (a : Nat) :
    readCell d (m.filter fun c => p c.1) a = if p a then readCell d m a else d := by
  induction m with
  | nil => simp [readCell]
  | cons c m ih =>
    obtain ⟨k, v⟩ := c
    by_cases hp : p k <;> by_cases ha : a = k <;> simp_all [readCell]

end

variable {α : Type} [DecidableEq α] (d : α)

theorem runCells_keys (a : Nat) (xs : List α) (b : Nat) (h : b ∈ (runCells d a xs).map Prod.fst) :
    a ≤ b ∧ b < a + xs.length := by
  induction xs generalizing a with
  | nil => simp [runCells] at h
  | cons x xs ih =>
    unfold runCells at h
    split at h
    · have := ih _ h; simp; omega
    · simp only [List.map_cons, List.mem_cons] at h
      rcases h with rfl | h
      · simp
      · have := ih _ h; simp; omega

theorem readCell_runCells (a : Nat) (xs : List α) (b : Nat) :
    readCell d (runCells d a xs) b = if a ≤ b then xs.getD (b - a) d else d := by
  induction xs generalizing a with
  | nil => simp [runCells, readCell]
  | cons x xs ih =>
    unfold runCells
    rcases Nat.lt_trichotomy b a with h | rfl | h
    · split <;> simp [readCell, ih, h.ne, Nat.not_le.2 h, Nat.not_le.2 (Nat.lt_succ_of_lt h)]
    · split
      · next hx => simp [ih, hx]
      · simp [readCell]
    · have e : b - a = (b - (a + 1)) + 1 := by omega
      have h1 : a + 1 ≤ b := h
      split <;> simp [readCell, ih, h1, h.le, h.ne', e]

/-- Reading after a write: the values written where they were written, everything else as before. -/
theorem readCell_writeRun (m : List (Nat × α)) (a : Nat) (xs : List α) (b : Nat) :
    readCell d (writeRun d m a xs) b =
      if a ≤ b ∧ b < a + xs.length then xs.getD (b - a) d else readCell d m b := by
  unfold writeRun
  have hlow := readCell_filter d m (fun k => decide (k < a)) b
  have hhigh := readCell_filter d m (fun k => decide (a + xs.length ≤ k)) b
  have klow : b ∈ (m.filter fun c => decide (c.1 < a)).map Prod.fst → b < a := by
    intro h
    obtain ⟨c, hc, rfl⟩ := List.mem_map.1 h
    simpa using (List.mem_filter.1 hc).2
  rw [List.append_assoc, readCell_append]
  split
  · next h => rw [hlow]; simp [klow h, Nat.not_le.2 (klow h)]
  · next h =>
    rw [readCell_append]
    by_cases hr : a ≤ b ∧ b < a + xs.length
    · rw [if_pos hr]
      split
      · rw [readCell_runCells]; simp [hr.1]
      · next hn =>
        rw [hhigh]
        have := readCell_of_not_mem d _ _ hn
        rw [readCell_runCells, if_pos hr.1] at this
        rw [this]; simp [Nat.not_le.2 hr.2]
    · rw [if_neg hr, if_neg (fun hm => hr (runCells_keys d a xs b hm)), hhigh]
      by_cases hb : b < a
      · simp only [hb, decide_true, if_true] at hlow
        rw [← hlow, readCell_of_not_mem d _ _ h]
        simp
      · have : a + xs.length ≤ b := by omega
        simp [this]

/-- Two runs written one after the other are one run. -/
theorem writeRun_writeRun (m : List (Nat × α)) (a : Nat) (xs ys : List α) :
    writeRun d (writeRun d m a xs) (a + xs.length) ys = writeRun d m a (xs ++ ys) := by
  have hk : ∀ c ∈ runCells d a xs, a ≤ c.1 ∧ c.1 < a + xs.length := fun c hc =>
    runCells_keys d a xs c.1 (List.mem_map_of_mem hc)
  have e1 : (m.filter fun c => decide (c.1 < a)).filter (fun c => decide (c.1 < a + xs.length)) =
      m.filter fun c => decide (c.1 < a) := by
    rw [List.filter_filter]
    apply List.filter_congr
    intro c _
    simp
    omega
  have e2 : (runCells d a xs).filter (fun c => decide (c.1 < a + xs.length)) = runCells d a xs :=
    List.filter_eq_self.2 fun c hc => by simpa using (hk c hc).2
  have e3 : (m.filter fun c => decide (a + xs.length ≤ c.1)).filter (fun c => decide (c.1 < a + xs.length)) = [] := by
    rw [List.filter_filter]
    exact List.filter_eq_nil_iff.2 fun c _ => by simp
  have e4 : (m.filter fun c => decide (c.1 < a)).filter (fun c => decide (a + xs.length + ys.length ≤ c.1)) = [] := by
    rw [List.filter_filter]
    apply List.filter_eq_nil_iff.2
    intro c _
    simp
    omega
  have e5 : (runCells d a xs).filter (fun c => decide (a + xs.length + ys.length ≤ c.1)) = [] := by
    apply List.filter_eq_nil_iff.2
    intro c hc
    have := (hk c hc).2
    simp
    omega
  have e6 : (m.filter fun c => decide (a + xs.length ≤ c.1)).filter (fun c => decide (a + xs.length + ys.length ≤ c.1)) =
      m.filter fun c => decide (a + (xs ++ ys).length ≤ c.1) := by
    rw [List.filter_filter]
    apply List.filter_congr
    intro c _
    rw [Bool.eq_iff_iff]
    simp only [Bool.and_eq_true, decide_eq_true_eq, List.length_append]
    omega
  have e7 : ∀ (b : Nat) (zs : List α), runCells d b (zs ++ ys) = runCells d b zs ++ runCells d (b + zs.length) ys := by
    intro b zs
    induction zs generalizing b with
    | nil => simp [runCells]
    | cons z zs ih =>
      simp only [List.cons_append, runCells, ih, List.length_cons]
      have : b + 1 + zs.length = b + (zs.length + 1) := by omega
      rw [this]
      split <;> rfl
  unfold writeRun
  simp only [List.filter_append, e1, e2, e3, e4, e5, e6, e7, List.append_nil, List.nil_append, List.append_assoc]

theorem cellsFrom_mono {lo lo' : Nat} (m : List (Nat × α)) (h : lo' ≤ lo) (hm : cellsFrom d lo m = true) :
    cellsFrom d lo' m = true := by
  cases m with
  | nil => rfl
  | cons c m =>
    simp only [cellsFrom, Bool.and_eq_true, decide_eq_true_eq] at hm ⊢
    exact ⟨⟨h.trans hm.1.1, hm.1.2⟩, hm.2⟩

theorem cellsFrom_filter {lo : Nat} (m : List (Nat × α)) (p : Nat × α → Bool) (hm : cellsFrom d lo m = true) :
    cellsFrom d lo (m.filter p) = true := by
  induction m generalizing lo with
  | nil => rfl
  | cons c m ih =>
    simp only [cellsFrom, Bool.and_eq_true, decide_eq_true_eq] at hm
    rw [List.filter_cons]
    split
    · simp [cellsFrom, hm.1.1, hm.1.2, ih hm.2]
    · exact cellsFrom_mono d _ (hm.1.1.trans (Nat.le_succ _)) (ih hm.2)

theorem cellsFrom_runCells (a : Nat) (xs : List α) : cellsFrom d a (runCells d a xs) = true := by
  induction xs generalizing a with
  | nil => rfl
  | cons x xs ih =>
    unfold runCells
    split
    · exact cellsFrom_mono d _ (Nat.le_succ a) (ih _)
    · next h => simp [cellsFrom, h, ih]

theorem cellsFrom_append {lo mid : Nat} (m m' : List (Nat × α)) (hm : cellsFrom d lo m = true)
    (hk : ∀ c ∈ m, c.1 < mid) (hlo : lo ≤ mid) (hm' : cellsFrom d mid m' = true) :
    cellsFrom d lo (m ++ m') = true := by
  induction m generalizing lo with
  | nil => exact cellsFrom_mono d _ hlo hm'
  | cons c m ih =>
    simp only [cellsFrom, Bool.and_eq_true, decide_eq_true_eq, List.cons_append] at hm ⊢
    exact ⟨hm.1, ih hm.2 (fun e he => hk e (List.mem_cons_of_mem _ he)) (hk c List.mem_cons_self)⟩

theorem cellsFrom_filter_ge {lo b : Nat} (m : List (Nat × α)) (hm : cellsFrom d lo m = true) :
    cellsFrom d b (m.filter fun c => decide (b ≤ c.1)) = true := by
  induction m generalizing lo with
  | nil => rfl
  | cons c m ih =>
    simp only [cellsFrom, Bool.and_eq_true, decide_eq_true_eq] at hm
    rw [List.filter_cons]
    split
    · next h =>
      simp only [decide_eq_true_eq] at h
      simp [cellsFrom, h, hm.1.2, cellsFrom_filter d m _ hm.2]
    · exact ih hm.2

/-- A write keeps the canonical form. -/
theorem writeRun_canonical (m : List (Nat × α)) (a : Nat) (xs : List α) (hm : cellsFrom d 0 m = true) :
    cellsFrom d 0 (writeRun d m a xs) = true := by
  unfold writeRun
  refine cellsFrom_append d (mid := a + xs.length) _ _ (cellsFrom_append d (mid := a) _ _
    (cellsFrom_filter d m _ hm) ?_ (Nat.zero_le _) (cellsFrom_runCells d a xs)) ?_ (Nat.zero_le _)
    (cellsFrom_filter_ge d m hm)
  · intro c hc
    simpa using (List.mem_filter.1 hc).2
  · intro c hc
    rcases List.mem_append.1 hc with hc | hc
    · have : c.1 < a := by simpa using (List.mem_filter.1 hc).2
      omega
    · exact (runCells_keys d a xs c.1 (List.mem_map_of_mem hc)).2

/-- In canonical form, equal contents are equal lists. -/
theorem canonical_ext {lo : Nat} (m m' : List (Nat × α)) (hm : cellsFrom d lo m = true) (hm' : cellsFrom d lo m' = true)
    (h : ∀ a, readCell d m a = readCell d m' a) : m = m' := by
  have below : ∀ (l : List (Nat × α)) (k a : Nat), cellsFrom d k l = true → a < k → readCell d l a = d := by
    intro l
    induction l with
    | nil => intros; rfl
    | cons c l ih =>
      intro k a hl hak
      simp only [cellsFrom, Bool.and_eq_true, decide_eq_true_eq] at hl
      have hne : a ≠ c.1 := by omega
      simp [readCell, hne, ih (c.1 + 1) a hl.2 (by omega)]
  induction m generalizing m' lo with
  | nil =>
    cases m' with
    | nil => rfl
    | cons c m' =>
      simp only [cellsFrom, Bool.and_eq_true, decide_eq_true_eq] at hm'
      have := h c.1
      simp [readCell] at this
      exact absurd this.symm hm'.1.2
  | cons c m ih =>
    cases m' with
    | nil =>
      simp only [cellsFrom, Bool.and_eq_true, decide_eq_true_eq] at hm
      have := h c.1
      simp [readCell] at this
      exact absurd this hm.1.2
    | cons c' m' =>
      obtain ⟨k, v⟩ := c
      obtain ⟨k', v'⟩ := c'
      simp only [cellsFrom, Bool.and_eq_true, decide_eq_true_eq] at hm hm'
      have hk : k = k' := by
        rcases Nat.lt_trichotomy k k' with hlt | heq | hgt
        · have := h k
          simp only [readCell, if_true, Nat.ne_of_lt hlt, if_false] at this
          rw [below m' (k' + 1) k hm'.2 (by omega)] at this
          exact absurd this hm.1.2
        · exact heq
        · have := h k'
          simp only [readCell, if_true, Nat.ne_of_lt hgt, if_false] at this
          rw [below m (k + 1) k' hm.2 (by omega)] at this
          exact absurd this.symm hm'.1.2
      subst hk
      have hv : v = v' := by simpa [readCell] using h k
      subst hv
      congr 1
      refine ih m' hm.2 hm'.2 fun a => ?_
      by_cases ha : a = k
      · subst ha
        rw [below m (a + 1) a hm.2 (by omega), below m' (a + 1) a hm'.2 (by omega)]
      · simpa [readCell, ha] using h a

/-! ### DMEM -/

/-- Writing nothing changes nothing. -/
theorem memWriteWords_nil (m : Memory) (a : Nat) (h : Memory.wf m = true) : memWriteWords m a [] = m := by
  refine canonical_ext blankByte (lo := 0) _ _ (writeRun_canonical _ _ _ _ h) h fun b => ?_
  unfold memWriteWords
  rw [readCell_writeRun, if_neg]
  simp

theorem memWriteWords_canonical (m : Memory) (a : Nat) (vs : List Word) (h : Memory.wf m = true) :
    Memory.wf (memWriteWords m a vs) = true := writeRun_canonical _ _ _ _ h

@[simp] theorem flatMap_wordBytes_length (vs : List Word) : (vs.flatMap wordBytes).length = 4 * vs.length := by
  induction vs with
  | nil => rfl
  | cons v vs ih => simp [List.flatMap_cons, wordBytes] at ih ⊢; omega

/-- Words written one after the other are one write. -/
theorem memWriteWords_append (m : Memory) (a : Nat) (xs ys : List Word) :
    memWriteWords (memWriteWords m a xs) (a + 4 * xs.length) ys = memWriteWords m a (xs ++ ys) := by
  unfold memWriteWords
  rw [← flatMap_wordBytes_length, writeRun_writeRun, List.flatMap_append]

/-- A byte outside the words written reads as before. -/
theorem memByte_memWriteWords_outside (m : Memory) (a : Nat) (vs : List Word) (b : Nat)
    (h : b < a ∨ a + 4 * vs.length ≤ b) : memByte (memWriteWords m a vs) b = memByte m b := by
  unfold memByte memWriteWords
  rw [readCell_writeRun, if_neg]
  rw [flatMap_wordBytes_length]
  omega

/-- A byte of the words written is the byte of its word (R92). -/
theorem memByte_memWriteWords_inside (m : Memory) (a : Nat) (vs : List Word) (b : Nat)
    (h : a ≤ b ∧ b < a + 4 * vs.length) :
    memByte (memWriteWords m a vs) b = (vs.flatMap wordBytes).getD (b - a) blankByte := by
  unfold memByte memWriteWords
  rw [readCell_writeRun, if_pos]
  rwa [flatMap_wordBytes_length]

end Sys2Proof.Machine
end

