-- ==== Sys2Proof/Laws/Stream.lean ====
section
/-! SUPPORT. Laws of the stream: what bits and fields of a growing stream are, what pulls can do (`State.PulledTo`), and one
lemma for each of `need`, `pull`, `take` and the zero-run scan that says everything it can do. -/

namespace Sys2Proof.Machine

/-! ### Bits and fields -/

theorem bitAt_append (S R : List Byte) (p : Nat) (h : p < 8 * S.length) : bitAt (S ++ R) p = bitAt S p := by
  unfold bitAt
  have : p / 8 < S.length := by omega
  simp [List.getD_eq_getElem?_getD, List.getElem?_append_left this]

theorem field_append (S R : List Byte) (p n : Nat) (h : p + n ≤ 8 * S.length) : field (S ++ R) p n = field S p n := by
  induction n with
  | zero => rfl
  | succ n ih => simp only [field]; rw [ih (by omega), bitAt_append S R _ (by omega)]

theorem field_lt (S : List Byte) (p n : Nat) : field S p n < 2 ^ n := by
  induction n with
  | zero => simp [field]
  | succ n ih =>
    simp only [field, pow_succ]
    have : (bitAt S (p + n)).toNat ≤ 1 := Bool.toNat_le _
    omega

/-- The field of `n` then `m` bits is one field of `n + m` bits (41_bitreader.md R215). -/
theorem field_add (S : List Byte) (p n m : Nat) : field S p (n + m) = field S p n * 2 ^ m + field S (p + n) m := by
  induction m with
  | zero => simp [field]
  | succ m ih =>
    rw [← Nat.add_assoc, field, ih, field, pow_succ]
    have : p + (n + m) = p + n + m := by omega
    rw [this]
    ring

theorem field_one (S : List Byte) (p : Nat) : field S p 1 = (bitAt S p).toNat := by simp [field]

/-- The first bit read is the most significant (00_scope.md R10). -/
theorem field_testBit (S : List Byte) (p n i : Nat) (h : i < n) :
    (field S p n).testBit (n - 1 - i) = bitAt S (p + i) := by
  induction n generalizing i with
  | zero => omega
  | succ n ih =>
    rcases Nat.lt_or_eq_of_le (Nat.le_of_lt_succ h) with hi | rfl
    · have e : n + 1 - 1 - i = (n - 1 - i) + 1 := by omega
      rw [e, ← ih i hi, field, Nat.testBit_succ]
      congr 1
      have : (bitAt S (p + n)).toNat ≤ 1 := Bool.toNat_le _
      omega
    · have e : i + 1 - 1 - i = 0 := by omega
      rw [e, field]
      cases bitAt S (p + i) <;> simp

theorem octets_append (S R : List Byte) (p n : Nat) (h : p + 8 * n ≤ 8 * S.length) : octets (S ++ R) p n = octets S p n := by
  unfold octets
  apply List.map_congr_left
  intro j hj
  rw [field_append]
  have := List.mem_range.1 hj
  omega

theorem octets_add (S : List Byte) (p n m : Nat) : octets S p (n + m) = octets S p n ++ octets S (p + 8 * n) m := by
  unfold octets
  rw [List.range_add, List.map_append, List.map_map]
  congr 1
  apply List.map_congr_left
  intro j _
  simp only [Function.comp]
  congr 2
  omega

@[simp] theorem octets_length (S : List Byte) (p n : Nat) : (octets S p n).length = n := by simp [octets]

/-! ### Pulls -/

theorem State.has_iff {s : State} {n : Nat} : s.has n = true ↔ s.cons + n ≤ 8 * s.S.length := by
  simp only [State.has, decide_eq_true_eq]
  exact Iff.rfl

theorem State.has_false_iff {s : State} {n : Nat} : s.has n = false ↔ 8 * s.S.length < s.cons + n := by
  rw [← Bool.not_eq_true, State.has_iff]
  omega

theorem State.PulledTo.refl (s : State) : s.PulledTo s :=
  ⟨rfl, ⟨[], by simp⟩, fun _ => rfl, .inl rfl⟩

theorem State.PulledTo.compacted_eq {s t : State} (h : s.PulledTo t) : t.compacted = s.compacted := by
  have hc := h.cons_eq; have hb := h.base_eq; have hw := h.cfg_eq
  unfold State.compacted State.foldedBase
  rw [hc, hb, hw]
  rcases h.words with e | e <;> rw [e]
  unfold State.compacted State.foldedBase
  omega

theorem State.PulledTo.trans {s t u : State} (h : s.PulledTo t) (k : t.PulledTo u) : s.PulledTo u := by
  refine ⟨?_, ?_, ?_, ?_⟩
  · rw [k.same, h.same]
  · obtain ⟨p, hp, hS, he⟩ := h.answers
    obtain ⟨q, hq, kS, ke⟩ := k.answers
    exact ⟨p ++ q, by rw [hp, hq, List.append_assoc], by rw [kS, hS]; simp, by rw [ke, he]; simp [Bool.or_assoc]⟩
  · intro e
    have : t.eos = true := by
      obtain ⟨p, _, _, he⟩ := h.answers
      simp [he, e]
    rw [k.ended this, h.ended e]
  · rcases k.words with e | e
    · rw [e]; exact h.words
    · rw [e, h.compacted_eq]; exact .inr rfl

theorem State.PulledTo.S_eq {s t : State} (h : s.PulledTo t) : ∃ R, t.S = s.S ++ R := by
  obtain ⟨p, _, hS, _⟩ := h.answers
  exact ⟨_, hS⟩

theorem State.PulledTo.avail_le {s t : State} (h : s.PulledTo t) : s.avail ≤ t.avail := by
  obtain ⟨R, hR⟩ := h.S_eq
  simp [State.avail, hR]

theorem State.PulledTo.eos_mono {s t : State} (h : s.PulledTo t) (e : s.eos = true) : t.eos = true := by
  obtain ⟨p, _, _, he⟩ := h.answers
  simp [he, e]

theorem State.PulledTo.has {s t : State} (h : s.PulledTo t) {n : Nat} (hn : s.has n = true) : t.has n = true := by
  have := h.avail_le
  have := h.cons_eq
  simp only [State.has, decide_eq_true_eq] at *
  omega

theorem State.PulledTo.bitsAhead_eq {s t : State} (h : s.PulledTo t) : t.bitsAhead = s.bitsAhead := by
  obtain ⟨p, hp, hS, _⟩ := h.answers
  unfold State.bitsAhead
  rw [h.cons_eq, hS, hp]
  simp [List.length_flatMap]
  omega

theorem State.PulledTo.length_le {s t : State} (h : s.PulledTo t) :
    t.S.length ≤ s.S.length + (s.upstream.map fun a => a.bytes.length).sum := by
  obtain ⟨p, hp, hS, _⟩ := h.answers
  rw [hS, hp]
  simp [List.length_flatMap]

/-- Bits already there stay what they are. -/
theorem State.PulledTo.bitAt_eq {s t : State} (h : s.PulledTo t) {p : Nat} (hp : p < s.avail) : bitAt t.S p = bitAt s.S p := by
  obtain ⟨R, hR⟩ := h.S_eq
  rw [hR, bitAt_append _ _ _ hp]

theorem State.PulledTo.field_eq {s t : State} (h : s.PulledTo t) {p n : Nat} (hp : p + n ≤ s.avail) :
    field t.S p n = field s.S p n := by
  obtain ⟨R, hR⟩ := h.S_eq
  rw [hR, field_append _ _ _ _ hp]

theorem State.PulledTo.octets_eq {s t : State} (h : s.PulledTo t) {p n : Nat} (hp : p + 8 * n ≤ s.avail) :
    octets t.S p n = octets s.S p n := by
  obtain ⟨R, hR⟩ := h.S_eq
  rw [hR, octets_append _ _ _ _ hp]

/-- Room for every answer to come means no pull overflows the stream. -/
theorem State.Room.noOverflow {s t : State} (hr : s.Room) (h : s.PulledTo t) : streamOverflow s t = false := by
  have := h.length_le
  unfold State.Room at hr
  simp [streamOverflow]
  omega

theorem State.Room.pulled {s t : State} (hr : s.Room) (h : s.PulledTo t) : t.Room := by
  obtain ⟨p, hp, hS, _⟩ := h.answers
  unfold State.Room at *
  rw [hp] at hr
  rw [hS]
  simp [List.length_flatMap] at hr ⊢
  omega

/-! ### `need` -/

theorem pullUntil_spec (target : Nat) (up : List PullAnswer) (S : List Byte) (eos : Bool) :
    ∃ pre, up = pre ++ (pullUntil target up S eos).1 ∧
      (pullUntil target up S eos).2.1 = S ++ pre.flatMap (fun a => a.bytes) ∧
      (pullUntil target up S eos).2.2 = (eos || pre.any fun a => a.ends) ∧ (eos = true → pre = []) := by
  induction up generalizing S eos with
  | nil => exact ⟨[], by simp [pullUntil]⟩
  | cons a up ih =>
    unfold pullUntil
    split
    · exact ⟨[], by simp⟩
    · next h =>
      simp only [Bool.or_eq_true, decide_eq_true_eq, not_or, Bool.not_eq_true] at h
      split
      · next hb =>
        refine ⟨[a], ?_⟩
        simp [List.isEmpty_iff.1 hb, h.1]
      · obtain ⟨pre, h1, h2, h3, -⟩ := ih (S ++ a.bytes) a.ends
        refine ⟨a :: pre, ?_, ?_, ?_, by simp [h.1]⟩
        · rw [List.cons_append, ← h1]
        · rw [h2]; simp
        · rw [h3]; simp [h.1]

theorem State.need_pulledTo (s : State) (n : Nat) : s.PulledTo (s.need n) := by
  unfold State.need
  split
  · exact .refl s
  · obtain ⟨pre, h1, h2, h3, h4⟩ := pullUntil_spec (s.cons + n) s.upstream s.S s.eos
    refine ⟨rfl, ⟨pre, h1, h2, h3⟩, ?_, .inr rfl⟩
    intro e
    have := h4 e
    subst this
    exact h1.symm

theorem State.need_of_has {s : State} {n : Nat} (h : s.has n = true) : s.need n = s := by simp [State.need, h]

theorem State.has_mono {s : State} {n m : Nat} (h : m ≤ n) (hn : s.has n = true) : s.has m = true := by
  simp only [State.has, decide_eq_true_eq] at *
  omega

@[simp] theorem State.has_zero_iff (s : State) : s.has 0 = decide (s.cons ≤ s.avail) := by simp [State.has]

theorem pullUntil_reached (target : Nat) (up : List PullAnswer) (S : List Byte) (eos : Bool)
    (h : target ≤ 8 * S.length) : pullUntil target up S eos = (up, S, eos) := by
  cases up <;> simp [pullUntil, h]

/-- Pulling up to a nearer target first changes nothing, if that target is reached. -/
theorem pullUntil_pullUntil (a b : Nat) (h : a ≤ b) (up : List PullAnswer) (S : List Byte) (eos : Bool)
    (hr : a ≤ 8 * (pullUntil a up S eos).2.1.length) :
    pullUntil b (pullUntil a up S eos).1 (pullUntil a up S eos).2.1 (pullUntil a up S eos).2.2 = pullUntil b up S eos := by
  induction up generalizing S eos with
  | nil => simp [pullUntil]
  | cons x up ih =>
    by_cases hs : a ≤ 8 * S.length
    · rw [pullUntil_reached _ _ _ _ hs]
    · have hb : ¬ b ≤ 8 * S.length := by omega
      cases eos with
      | true => simp [pullUntil]
      | false =>
        by_cases hx : x.bytes.isEmpty = true
        · simp [pullUntil, hs, hx] at hr
        · simp only [pullUntil, hs, hb, hx, Bool.false_or, decide_false, Bool.false_eq_true, if_false] at hr ⊢
          exact ih _ _ hr

/-- Needing fewer bits first changes nothing, if they are there. -/
theorem State.need_need {s : State} {a b : Nat} (h : a ≤ b) (hr : (s.need a).has a = true) :
    (s.need a).need b = s.need b := by
  by_cases ha : s.has a = true
  · rw [State.need_of_has ha]
  · have hb : ¬ s.has b = true := fun hb => ha (State.has_mono h hb)
    have e : s.need a = { s with
        upstream := (pullUntil (s.cons + a) s.upstream s.S s.eos).1
        S := (pullUntil (s.cons + a) s.upstream s.S s.eos).2.1
        eos := (pullUntil (s.cons + a) s.upstream s.S s.eos).2.2, dw := s.compacted } := by
      simp [State.need, ha]
    have hr' : s.cons + a ≤ 8 * (pullUntil (s.cons + a) s.upstream s.S s.eos).2.1.length := by
      rw [e] at hr
      exact State.has_iff.1 hr
    have hp := pullUntil_pullUntil (s.cons + a) (s.cons + b) (by omega) s.upstream s.S s.eos hr'
    have hcomp : (s.need a).compacted = s.compacted := (s.need_pulledTo a).compacted_eq
    by_cases hb' : (s.need a).has b = true
    · rw [State.need_of_has hb', e]
      have hlen : s.cons + b ≤ 8 * (pullUntil (s.cons + a) s.upstream s.S s.eos).2.1.length := by
        rw [e] at hb'
        exact State.has_iff.1 hb'
      rw [pullUntil_reached _ _ _ _ hlen] at hp
      simp only [State.need, hb, if_false, Bool.false_eq_true]
      rw [← hp]
    · rw [State.need, if_neg hb', hcomp]
      conv_rhs => rw [State.need, if_neg hb]
      rw [e]
      simp only
      rw [hp]

/-! ### `pull` -/

theorem State.pull_pulledTo {s : State} (h : s.eos = false) : s.PulledTo s.pull.2 := by
  unfold State.pull
  split
  · next hu => exact ⟨by simp [hu], ⟨[], by simp [hu]⟩, fun e => by simp [hu], .inr rfl⟩
  · next a up hu =>
    exact ⟨rfl, ⟨[a], by simp [hu], by simp, by simp⟩, fun e => by simp [h] at e, .inr rfl⟩

theorem State.pulls_pulledTo (n : Nat) (s : State) : s.PulledTo (State.pulls n s) := by
  induction n generalizing s with
  | zero => exact .refl s
  | succ n ih =>
    unfold State.pulls
    split
    · exact .refl s
    · next h => exact (State.pull_pulledTo (by simpa using h)).trans (ih _)

/-! ### `take` -/

/-- `Take(n)` (41_bitreader.md R211): the field and the cursor past it, or an underrun that consumes nothing. -/
theorem State.take_spec (s : State) (n : Nat) :
    s.take n = if (s.need n).has n = true
      then ({ s.need n with cons := s.cons + n }, some (field (s.need n).S s.cons n)) else (s.need n, none) := by
  simp only [State.take, need_cons]

/-! ### The zero-run scan -/

/-- Everything the scan can do. -/
inductive ScanSpec (tooMany : Nat → Bool) (s : State) : State → Scan → Prop where
  /-- a 1 bit after `z` zeros, none of which is too many -/
  | found (z : Nat) (t : State) (pulled : s.PulledTo t) (isNeed : t = s.need (z + 1)) (there : t.has (z + 1) = true)
      (zeros : ∀ j, j < z → bitAt t.S (s.cons + j) = false) (one : bitAt t.S (s.cons + z) = true)
      (fits : ∀ j, 0 < j → j ≤ z → tooMany j = false) : ScanSpec tooMany s t (.found z)
  /-- the run is too long -/
  | tooLong (z : Nat) (t : State) (pulled : s.PulledTo t) (isNeed : t = s.need (z + 1)) (there : t.has (z + 1) = true)
      (zeros : ∀ j, j ≤ z → bitAt t.S (s.cons + j) = false) (exceeds : tooMany (z + 1) = true)
      (fits : ∀ j, 0 < j → j ≤ z → tooMany j = false) : ScanSpec tooMany s t .tooLong
  /-- the source ran dry after `z` zeros -/
  | short (z : Nat) (t : State) (pulled : s.PulledTo t) (isNeed : t = s.need (z + 1)) (dry : t.has (z + 1) = false)
      (before : z = 0 ∨ (s.need z).has z = true) (zeros : ∀ j, j < z → bitAt t.S (s.cons + j) = false)
      (fits : ∀ j, 0 < j → j ≤ z → tooMany j = false) : ScanSpec tooMany s t .short

theorem scanZeros_spec (tooMany : Nat → Bool) (s : State) (turns z : Nat) (t : State)
    (hp : s.PulledTo t) (ht : z = 0 ∧ t = s ∨ t = s.need z ∧ t.has z = true)
    (hz : ∀ j, j < z → bitAt t.S (s.cons + j) = false) (hf : ∀ j, 0 < j → j ≤ z → tooMany j = false)
    (hturns : s.bitsAhead < turns + z) :
    ScanSpec tooMany s (scanZeros tooMany turns z t).1 (scanZeros tooMany turns z t).2 := by
  induction turns generalizing z t with
  | zero =>
    exfalso
    rcases ht with ⟨rfl, rfl⟩ | ⟨_, h⟩
    · omega
    · have := hp.bitsAhead_eq
      have hc := hp.cons_eq
      rw [State.has_iff] at h
      simp only [State.bitsAhead] at this hturns
      omega
  | succ turns ih =>
    have hn : t.need (z + 1) = s.need (z + 1) := by
      rcases ht with ⟨rfl, rfl⟩ | ⟨e, h⟩
      · rfl
      · subst e; exact State.need_need (by omega) h
    have hpu : s.PulledTo (t.need (z + 1)) := hp.trans (t.need_pulledTo _)
    have hcons : (t.need (z + 1)).cons = s.cons := hpu.cons_eq
    have hzu : ∀ j, j < z → bitAt (t.need (z + 1)).S (s.cons + j) = false := by
      intro j hj
      rcases ht with ⟨rfl, _⟩ | ⟨_, h⟩
      · omega
      · rw [(t.need_pulledTo _).bitAt_eq, hz j hj]
        simp only [State.has, decide_eq_true_eq] at h
        have := hp.cons_eq
        omega
    unfold scanZeros
    simp only
    split
    · next hh =>
      split
      · next hb => exact .found z _ hpu hn hh hzu (by rw [← hcons]; exact hb) hf
      · next hb =>
        have hb' : bitAt (t.need (z + 1)).S (s.cons + z) = false := by rw [← hcons]; simpa using hb
        have hz' : ∀ j, j ≤ z → bitAt (t.need (z + 1)).S (s.cons + j) = false := by
          intro j hj
          rcases Nat.lt_or_eq_of_le hj with h | rfl
          · exact hzu j h
          · exact hb'
        split
        · next ho => exact .tooLong z _ hpu hn hh hz' ho hf
        · next ho =>
          refine ih (z + 1) _ hpu (.inr ⟨hn, hh⟩) (fun j hj => hz' j (by omega)) ?_ (by omega)
          intro j h0 hj
          rcases Nat.lt_or_eq_of_le hj with h | rfl
          · exact hf j h0 (by omega)
          · simpa using ho
    · next hh =>
      exact .short z _ hpu hn (by simpa using hh) (ht.imp And.left fun h => by rw [← h.1]; exact h.2) hzu hf

/-- The scan from the cursor does one of the three (41_bitreader.md R220, R223). -/
theorem State.scan_spec (s : State) (tooMany : Nat → Bool) :
    ScanSpec tooMany s (s.scan tooMany).1 (s.scan tooMany).2 :=
  scanZeros_spec tooMany s _ 0 s (.refl s) (.inl ⟨rfl, rfl⟩) (fun _ h => by omega) (fun _ h h' => by omega) (by omega)

theorem State.scan_pulledTo (s : State) (tooMany : Nat → Bool) : s.PulledTo (s.scan tooMany).1 := by
  have h := s.scan_spec tooMany
  generalize s.scan tooMany = r at h
  obtain ⟨t, o⟩ := r
  cases h <;> assumption

end Sys2Proof.Machine
end

