-- ==== Sys2Proof/Laws/Command.lean ====
section
/-! SUPPORT. Laws of the frame of a command (`command`, `noBatch`, `rejectWord`): what it does in each of its cases, and the
one lemma that inverts it. -/

namespace Sys2Proof.Machine

theorem streamOverflow_of_S_eq {s t : State} (h : t.S = s.S) : streamOverflow s t = false := by
  simp [streamOverflow, h]

/-- A sticky fault turns the command away (60_exceptions.md R406). -/
theorem command_of_fault {s : State} (h : s.fault ≠ 0#16) (body : State → Res) :
    command s body = .next { s with status := s.fault } := by
  simp [command, h]

/-- After a dispose the command is a violation (R407). -/
theorem command_of_disposed {s : State} (h : s.fault = 0#16) (hd : s.disposed = true) (body : State → Res) :
    command s body = .next { s with status := 0x0405#16, fault := 0x0405#16 } := by
  simp [command, h, hd, State.endWith, Status.word, Status.sticky, ViolationCause.code]

/-- A command that is ready ends as its body says. -/
theorem command_of_ready {s : State} (h : s.Ready) {body : State → Res} {t : State} {st : Status}
    (hb : body s = .next (t, st)) (ho : streamOverflow s t = false) : command s body = .next (t.endWith st) := by
  simp [command, h.noFault, h.open_, hb, ho]

theorem command_of_refused {s : State} (h : s.Ready) {body : State → Res} {r : Refusal} (hb : body s = .refused r) :
    command s body = .refused r := by
  simp [command, h.noFault, h.open_, hb]

/-- The ways a command answers a next state. -/
inductive CommandSpec (s : State) (body : State → Res) : State → Prop where
  | sticky (h : s.fault ≠ 0#16) : CommandSpec s body { s with status := s.fault }
  | disposed (h : s.fault = 0#16) (hd : s.disposed = true) :
      CommandSpec s body { s with status := 0x0405#16, fault := 0x0405#16 }
  | ran (h : s.Ready) (t : State) (st : Status) (hb : body s = .next (t, st)) (ho : streamOverflow s t = false) :
      CommandSpec s body (t.endWith st)

/-- Everything a command that answers a next state can have done. -/
theorem command_next {s u : State} {body : State → Res} (h : command s body = .next u) : CommandSpec s body u := by
  by_cases hf : s.fault = 0#16
  · cases hd : s.disposed
    · cases hb : body s with
      | next p =>
        obtain ⟨t, st⟩ := p
        simp only [command, hf, hd, hb, if_true, Bool.false_eq_true, if_false] at h
        split at h
        · cases h
        · next ho =>
          cases h
          exact .ran ⟨hf, hd⟩ t st hb (by simpa using ho)
      | fault f => simp [command, hf, hd, hb] at h
      | refused r => simp [command, hf, hd, hb] at h
    · rw [command_of_disposed hf hd] at h
      cases h
      exact .disposed hf hd
  · rw [command_of_fault hf] at h
    cases h
    exact .sticky hf

/-- A body that keeps the stream does not overflow it, whatever its command does. -/
theorem command_ready_same {s : State} (h : s.Ready) {body : State → Res} {t : State} {st : Status}
    (hb : body s = .next (t, st)) (hS : t.S = s.S) : command s body = .next (t.endWith st) :=
  command_of_ready h hb (streamOverflow_of_S_eq hS)

/-- A body that only pulls does not overflow a stream with room. -/
theorem command_ready_room {s : State} (h : s.Ready) (hr : s.Room) {body : State → Res} {t u : State} {st : Status}
    (hb : body s = .next (t, st)) (hp : s.PulledTo u) (hS : t.S = u.S) : command s body = .next (t.endWith st) := by
  refine command_of_ready h hb ?_
  have := hr.noOverflow hp
  simpa [streamOverflow, hS] using this

theorem endWith_ok (s : State) : s.endWith .ok = { s with status := 0x0000#16 } := by
  simp [State.endWith, Status.sticky, Status.word]

theorem endWith_underrun (s : State) : s.endWith .underrun = { s with status := 0x0001#16 } := by
  simp [State.endWith, Status.sticky, Status.word]

theorem endWith_endOfStream (s : State) : s.endWith .endOfStream = { s with status := 0x0002#16 } := by
  simp [State.endWith, Status.sticky, Status.word]

theorem endWith_invalid (s : State) (c : InvalidCause) :
    s.endWith (.invalid c) = { s with status := BitVec.ofNat 16 (c.code * 256 + 3) } := by
  simp [State.endWith, Status.sticky, Status.word]

theorem endWith_sticky {s : State} {st : Status} (hs : st.sticky = true) (h : s.fault = 0#16) :
    s.endWith st = { s with status := st.word, fault := st.word } := by
  simp [State.endWith, hs, h]

/-- No status word of another status than OK is 0. -/
theorem word_eq_zero (st : Status) : st.word = 0#16 ↔ st = .ok := by
  cases st with
  | ok => decide
  | underrun => decide
  | endOfStream => decide
  | invalid c => cases c <;> decide
  | fatal c => cases c <;> decide
  | violation c => cases c <;> decide

theorem word_sticky_ne {st : Status} (h : st.sticky = true) : st.word ≠ 0#16 := by
  rw [Ne, word_eq_zero]
  rintro rfl
  cases h

/-- A command that is refused was refused by its body, or pulled too much. -/
theorem command_refused {s : State} {body : State → Res} {r : Refusal} (hr : r ≠ .streamTooLong)
   (h : command s body = .refused r) : s.Ready ∧ body s = .refused r := by
  by_cases hf : s.fault = 0#16
  · cases hd : s.disposed
    · refine ⟨⟨hf, hd⟩, ?_⟩
      cases hb : body s with
      | next p =>
        obtain ⟨t, st⟩ := p
        simp only [command, hf, hd, hb, if_true, Bool.false_eq_true, if_false] at h
        split at h
        · cases h; exact absurd rfl hr
        · cases h
      | fault f => simp [command, hf, hd, hb] at h
      | refused r => simpa [command, hf, hd, hb] using h
    · rw [command_of_disposed hf hd] at h; cases h
  · rw [command_of_fault hf] at h; cases h

end Sys2Proof.Machine
end

