-- ==== Sys2Proof/Laws/Advance.lean ====
section
/-! SUPPORT. What the body of a command can do to the stream and to the fields it has no business with (`State.Advance`), for
every body that reads the stream: pulls only at the front of the answers, cursors only forward, and the rest kept. -/

namespace Sys2Proof.Machine

/-- The engine moved on within its session: answers were pulled from the front, no cursor moved back, and the host's
registers, STATUS, FAULT, C8, C16, the configuration registers and the world outside are as they were. -/
structure State.Advance (s t : State) : Prop where
  kept : t = { s with
    res0 := t.res0, res1 := t.res1, res2 := t.res2, bcrc := t.bcrc, S := t.S, cons := t.cons, base := t.base, eos := t.eos
    rb := t.rb, dw := t.dw, fsm := t.fsm, acc := t.acc, accn := t.accn, hp := t.hp, raw := t.raw, hdr := t.hdr, sub := t.sub
    chbuf := t.chbuf, fs := t.fs, fcrc := t.fcrc, fpresent := t.fpresent, fbuf := t.fbuf, fcur := t.fcur, dmem := t.dmem
    predictor := t.predictor, preq := t.preq, upstream := t.upstream }
  answers : ∃ pre : List PullAnswer, s.upstream = pre ++ t.upstream ∧
    t.S = s.S ++ pre.flatMap (fun a => a.bytes) ∧ t.eos = (s.eos || pre.any fun a => a.ends)
  ended : s.eos = true → t.upstream = s.upstream
  consMono : s.cons ≤ t.cons
  consLe : s.cons ≤ s.avail → t.cons ≤ t.avail
  baseMono : s.base ≤ s.cons → s.base ≤ t.base
  baseLe : s.base ≤ s.cons → t.base ≤ t.cons
  wordsLe : s.base ≤ s.cons → s.dw * s.cfg.W ≤ s.foldedBase → t.dw * s.cfg.W ≤ t.foldedBase

theorem State.Advance.refl (s : State) : s.Advance s :=
  ⟨rfl, ⟨[], by simp⟩, fun _ => rfl, le_rfl, id, fun _ => le_rfl, id, fun _ h => h⟩

theorem State.Advance.cfg_eq {s t : State} (h : s.Advance t) : t.cfg = s.cfg := by rw [h.kept]
theorem State.Advance.fault_eq {s t : State} (h : s.Advance t) : t.fault = s.fault := by rw [h.kept]
theorem State.Advance.disposed_eq {s t : State} (h : s.Advance t) : t.disposed = s.disposed := by rw [h.kept]

theorem State.Advance.trans {s t u : State} (h : s.Advance t) (k : t.Advance u) : s.Advance u := by
  refine ⟨?_, ?_, ?_, h.consMono.trans k.consMono, fun e => k.consLe (h.consLe e),
    fun e => (h.baseMono e).trans (k.baseMono (h.baseLe e)), fun e => k.baseLe (h.baseLe e), ?_⟩
  · rw [k.kept, h.kept]
  · obtain ⟨p, hp, hS, he⟩ := h.answers
    obtain ⟨q, hq, kS, ke⟩ := k.answers
    exact ⟨p ++ q, by rw [hp, hq, List.append_assoc], by rw [kS, hS]; simp, by rw [ke, he]; simp [Bool.or_assoc]⟩
  · intro e
    have : t.eos = true := by
      obtain ⟨p, _, _, he⟩ := h.answers
      simp [he, e]
    rw [k.ended this, h.ended e]
  · intro e w
    have := k.wordsLe (h.baseLe e) (by rw [h.cfg_eq]; exact h.wordsLe e w)
    rwa [h.cfg_eq] at this

theorem State.foldedBase_le {s : State} (hb : s.base ≤ s.cons) : s.foldedBase ≤ s.cons := by
  unfold State.foldedBase; omega

theorem State.foldedBase_eq {s t : State} (hb : t.base = s.base) (hc : t.cons = s.cons) : t.foldedBase = s.foldedBase := by
  unfold State.foldedBase; rw [hb, hc]

theorem State.compacted_le {s : State} (hb : s.base ≤ s.cons) (hw : s.dw * s.cfg.W ≤ s.foldedBase) :
    s.compacted * s.cfg.W ≤ s.foldedBase := by
  unfold State.compacted
  rcases Nat.le_total s.dw (min s.foldedBase s.cons / s.cfg.W) with h | h
  · rw [max_eq_right h, min_eq_left (State.foldedBase_le hb)]
    exact Nat.div_mul_le_self _ _
  · rw [max_eq_left h]; exact hw

theorem State.PulledTo.advance {s t : State} (h : s.PulledTo t) : s.Advance t where
  kept := by rw [h.same]
  answers := h.answers
  ended := h.ended
  consMono := h.cons_eq.ge
  consLe e := by rw [h.cons_eq]; exact e.trans h.avail_le
  baseMono _ := h.base_eq.ge
  baseLe e := by rw [h.base_eq, h.cons_eq]; exact e
  wordsLe e w := by
    rw [State.foldedBase_eq h.base_eq h.cons_eq]
    rcases h.words with k | k <;> rw [k]
    · exact w
    · exact State.compacted_le e w

/-- Fields that are neither the stream's nor the host's may change. -/
theorem State.Advance.of_stream_eq {s t : State} (kept : t = { s with
      res0 := t.res0, res1 := t.res1, res2 := t.res2, bcrc := t.bcrc, rb := t.rb, fsm := t.fsm, acc := t.acc
      accn := t.accn, hp := t.hp, raw := t.raw, hdr := t.hdr, sub := t.sub, chbuf := t.chbuf, fs := t.fs, fcrc := t.fcrc
      fpresent := t.fpresent, fbuf := t.fbuf, fcur := t.fcur, dmem := t.dmem, predictor := t.predictor, preq := t.preq }) :
    s.Advance t := by
  have hS : t.S = s.S := by rw [kept]
  have hc : t.cons = s.cons := by rw [kept]
  have hb : t.base = s.base := by rw [kept]
  have hd : t.dw = s.dw := by rw [kept]
  have hu : t.upstream = s.upstream := by rw [kept]
  have he : t.eos = s.eos := by rw [kept]
  refine ⟨?_, ⟨[], by simp [hS, hu, he]⟩, fun _ => hu, hc.ge, ?_, fun _ => hb.ge, ?_, ?_⟩
  · rw [kept]
  · simp only [State.avail, hS, hc]; exact id
  · rw [hb, hc]; exact id
  · rw [State.foldedBase_eq hb hc, hd]; exact fun _ h => h

/-- Bits that are there may be consumed. -/
theorem State.Advance.of_consume (s : State) (n : Nat) (h : s.cons + n ≤ s.avail ∨ n = 0) :
    s.Advance { s with cons := s.cons + n } where
  kept := rfl
  answers := ⟨[], by simp⟩
  ended _ := rfl
  consMono := Nat.le_add_right _ _
  consLe e := by rcases h with h | rfl <;> [exact h; exact e]
  baseMono _ := le_rfl
  baseLe e := by simp only; omega
  wordsLe _ w := by simp only [State.foldedBase] at *; omega

theorem State.upd_advance (s : State) : s.Advance s.upd where
  kept := rfl
  answers := ⟨[], by simp [State.upd]⟩
  ended _ := rfl
  consMono := le_rfl
  consLe := id
  baseMono _ := by simp only [State.upd]; omega
  baseLe e := by simp only [State.upd]; omega
  wordsLe _ w := by simp only [State.upd, State.foldedBase] at *; omega

/-- The baseline may be set to the cursor. -/
theorem State.Advance.of_baseline (s : State) : s.Advance { s with base := s.cons } where
  kept := rfl
  answers := ⟨[], by simp⟩
  ended _ := rfl
  consMono := le_rfl
  consLe := id
  baseMono e := e
  baseLe _ := le_rfl
  wordsLe e w := by simp only [State.foldedBase] at *; omega

/-- Every next state of a body is an advance. -/
def Res.Advances (s : State) (r : Res) : Prop := ∀ t st, r = .next (t, st) → s.Advance t

theorem Res.Advances.done {s t : State} {st : Status} (h : s.Advance t) : Res.Advances s (Res.done t st) := by
  rintro t' st' ⟨⟩
  exact h

theorem Res.Advances.violation (s : State) (c : ViolationCause) : Res.Advances s (Res.violation s c) := by
  rintro t' st' ⟨⟩
  exact .refl s

theorem Res.Advances.after {s t : State} {r : Res} (h : s.Advance t) (k : Res.Advances t r) : Res.Advances s r :=
  fun u st e => h.trans (k u st e)

/-- The state after a successful `Take(n)`. -/
theorem State.take_advance (s : State) (n : Nat) (h : (s.need n).has n = true) :
    s.Advance { s.need n with cons := s.cons + n } := by
  have hp := s.need_pulledTo n
  have := State.Advance.of_consume (s.need n) n (.inl (by simpa [State.has] using h))
  rw [hp.cons_eq] at this
  exact hp.advance.trans this

end Sys2Proof.Machine
end

