-- ==== Sys2Proof/Laws/Encoding.lean ====
section
/-! SUPPORT. Laws of the encoding (30_encoding.md R110 to R115): the fields of a word, and that every command decodes from its word. -/

namespace Sys2Proof

@[simp] theorem opcOf_wordOf (o a : BitVec 8) (b : BitVec 16) : opcOf (wordOf o a b) = o := by
  unfold opcOf wordOf
  ext i hi
  simp
  grind

@[simp] theorem aOf_wordOf (o a : BitVec 8) (b : BitVec 16) : aOf (wordOf o a b) = a := by
  unfold aOf wordOf
  ext i hi
  simp
  grind

@[simp] theorem bOf_wordOf (o a : BitVec 8) (b : BitVec 16) : bOf (wordOf o a b) = b := by
  unfold bOf wordOf
  ext i hi
  simp
  grind

/-- A word is its three fields. -/
theorem wordOf_fields (w : Word) : wordOf (opcOf w) (aOf w) (bOf w) = w := by
  unfold opcOf aOf bOf wordOf
  ext i hi
  simp
  grind

/-- The low byte of a B field whose high byte is 0. -/
theorem bField_low (b : BitVec 8) : ((0#8 ++ b : BitVec 16)).setWidth 8 = b := by
  ext i hi
  simp
  grind

/-- The high byte of such a B field. -/
theorem bField_high (b : BitVec 8) : ((0#8 ++ b : BitVec 16)).extractLsb' 8 8 = 0#8 := by
  ext i hi
  simp
  grind

/-- A B field with a zero high byte is its low byte. -/
theorem bField_of_high (b : BitVec 16) (h : b.extractLsb' 8 8 = 0#8) : 0#8 ++ b.setWidth 8 = b := by
  ext i hi
  have := congrArg (fun v => v.getLsbD (i - 8)) h
  simp [BitVec.getLsbD_extractLsb'] at this
  simp
  grind

/-- Every command decodes from its word. -/
theorem decode_encode (i : Instr) : decode (encode i) = .ok i := by
  cases i <;> simp [decode, encode, opcodeMap, reservedZero, bField_low, bField_high]

end Sys2Proof
end

