-- ==== Sys2Proof/Laws/Frame.lean ====
section
/-! SUPPORT. Laws of the micro-steps of the frame decode: one structure `MicroOk` that says everything a micro-step that
answers a next state can do to the state, proved for every sub-step, and the measure that bounds FR.DECODE. -/

namespace Sys2Proof.Machine

/-- The invariant's clauses about the decode state machine and the Frame. -/
structure State.FrameInv (s : State) : Prop where
  accnLe : s.accn ≤ 16
  frameDone : s.fpresent = true → s.fsm = .done
  frameLen : s.fpresent = true → s.fbuf.length = s.frameLen
  frameCur : s.fpresent = true → s.fcur ≤ s.frameLen
  depth : s.fsm = .subframes → s.sub.ss = .S2 → 1 ≤ s.sub.be
  chbufWf : cellsFrom (0 : Int) 0 s.chbuf = true

theorem State.Inv.frame {s : State} (h : s.Inv) : s.FrameInv :=
  ⟨h.accnLe, h.frameDone, h.frameLen, h.frameCur, h.depth, h.chbufWf⟩

theorem State.FrameInv.absent {s : State} (h : s.FrameInv) (hf : s.fsm ≠ .done) : s.fpresent = false := by
  cases hp : s.fpresent
  · rfl
  · exact absurd (h.frameDone hp) hf

/-- How many micro-steps that read no bit can still follow before one that does. -/
def State.phase (s : State) : Nat :=
  match s.fsm with
  | .done => 1
  | .headerParse =>
    match s.hp with
    | .H2 => 2
    | .H3 => 1
    | _ => 0
  | .footerCheck =>
    match s.fs with
    | .F0 => 1
    | .F1 => 0
  | _ => 0

theorem State.phase_le (s : State) : s.phase ≤ 2 := by
  unfold State.phase
  split <;> (try split) <;> omega

/-- The measure that every micro-step with status OK lowers. -/
def State.measure (s : State) : Nat := 4 * s.bitsAhead + 2 * (s.predictor.getD []).length + s.phase

theorem State.measure_lt_turns (s : State) : s.measure < s.decodeTurns := by
  have := s.phase_le
  unfold State.measure State.decodeTurns
  omega

theorem State.Advance.total {s t : State} (h : s.Advance t) :
    t.S.length + (t.upstream.map fun a => a.bytes.length).sum = s.S.length + (s.upstream.map fun a => a.bytes.length).sum := by
  obtain ⟨p, hp, hS, _⟩ := h.answers
  rw [hS, hp]
  simp [List.length_flatMap]
  omega

theorem State.Advance.bitsAhead_le {s t : State} (h : s.Advance t) : t.bitsAhead ≤ s.bitsAhead := by
  have := h.total
  have := h.consMono
  unfold State.bitsAhead
  omega

theorem State.Advance.bitsAhead_lt {s t : State} (h : s.Advance t) (hc : s.cons < t.cons) (ha : t.cons ≤ t.avail) :
    t.bitsAhead < s.bitsAhead := by
  have := h.total
  unfold State.avail at ha
  unfold State.bitsAhead
  omega

/-- Consumed bits lower the measure. -/
theorem State.Advance.measure_lt {s t : State} (h : s.Advance t) (hc : s.cons < t.cons) (ha : t.cons ≤ t.avail)
    (hp : (t.predictor.getD []).length ≤ (s.predictor.getD []).length) : t.measure < s.measure := by
  have := h.bitsAhead_lt hc ha
  have := t.phase_le
  unfold State.measure
  omega

/-- Everything a micro-step that ends with status `st` in state `t` can have done. -/
structure MicroOk (s t : State) (st : Status) : Prop where
  adv : s.Advance t
  res0 : t.res0 = s.res0
  res1 : t.res1 = s.res1
  res2 : t.res2 = s.res2
  rb : t.rb = s.rb
  dmem : t.dmem = s.dmem
  present : t.predictor.isSome = s.predictor.isSome
  inv : s.FrameInv → t.FrameInv
  failed : t.fsm = .failed → s.fsm = .failed ∨ st.sticky = true
  shape : ∀ c, st ≠ .invalid c
  contract : ∀ c, st = .violation c → c = .predictorContract
  created : st = .ok → t.fsm = .done → t.fpresent = true ∧ t.fcur = 0
  progress : s.FrameInv → st = .ok → t.measure < s.measure

/-- Every next state of a micro-step is as `MicroOk` says. -/
def MicroRes (s : State) (r : Res) : Prop := ∀ t st, r = .next (t, st) → MicroOk s t st

theorem MicroRes.done {s t : State} {st : Status} (h : MicroOk s t st) : MicroRes s (Res.done t st) := by
  rintro t' st' ⟨⟩
  exact h

theorem MicroRes.refused (s : State) (r : Refusal) : MicroRes s (.refused r) := by rintro t st ⟨⟩

theorem MicroRes.fault (s : State) (r : Fault) : MicroRes s (.fault r) := by rintro t st ⟨⟩

/-- The frame fields of two states that differ by pulls and consumption are the same. -/
theorem State.PulledTo.frameInv {s u : State} (h : s.PulledTo u) (hi : s.FrameInv) : u.FrameInv := by
  obtain ⟨h1, h2, h3, h4, h5, h6⟩ := hi
  refine ⟨?_, ?_, ?_, ?_, ?_, ?_⟩ <;>
    simp only [State.frameLen, h.accn_eq, h.fpresent_eq, h.fsm_eq, h.fbuf_eq, h.hdr_eq, h.fcur_eq, h.sub_eq, h.chbuf_eq] <;>
    assumption

theorem State.PulledTo.measure_eq {s u : State} (h : s.PulledTo u) : u.measure = s.measure := by
  unfold State.measure State.phase
  rw [h.bitsAhead_eq, h.predictor_eq, h.fsm_eq, h.hp_eq, h.fs_eq]

/-- A micro-step after pulls is a micro-step. -/
theorem MicroOk.after_pulls {s u t : State} {st : Status} (h : s.PulledTo u) (k : MicroOk u t st) : MicroOk s t st where
  adv := h.advance.trans k.adv
  res0 := k.res0.trans h.res0_eq
  res1 := k.res1.trans h.res1_eq
  res2 := k.res2.trans h.res2_eq
  rb := k.rb.trans h.rb_eq
  dmem := k.dmem.trans h.dmem_eq
  present := by rw [k.present, h.predictor_eq]
  inv hi := k.inv (h.frameInv hi)
  failed e := by rw [← h.fsm_eq]; exact k.failed e
  shape := k.shape
  contract := k.contract
  created := k.created
  progress hi e := by rw [← h.measure_eq]; exact k.progress (h.frameInv hi) e

theorem MicroRes.after_pulls {s u : State} {r : Res} (h : s.PulledTo u) (k : MicroRes u r) : MicroRes s r :=
  fun t st e => (k t st e).after_pulls h

/-- A step to FAILED with a fatal status. -/
theorem fatalStep_ok {s u : State} (c : FatalCause) (h : s.Advance u) (hk : u.res0 = s.res0 ∧ u.res1 = s.res1 ∧
    u.res2 = s.res2 ∧ u.rb = s.rb ∧ u.dmem = s.dmem ∧ u.predictor.isSome = s.predictor.isSome)
    (hi : s.FrameInv → u.accn ≤ 16 ∧ u.fpresent = false ∧ cellsFrom (0 : Int) 0 u.chbuf = true) :
    MicroRes s (fatalStep u c) := by
  refine MicroRes.done ⟨h.trans (.of_stream_eq rfl), hk.1, hk.2.1, hk.2.2.1, hk.2.2.2.1, hk.2.2.2.2.1, hk.2.2.2.2.2, ?_,
    fun _ => .inr rfl, by simp, by simp, by simp, by simp⟩
  intro i
  obtain ⟨a, p, w⟩ := hi i
  exact ⟨a, by simp [p], by simp [p], by simp [p], by simp, w⟩

/-- An underrun in a micro-step (42_frame_sync.md R279). -/
theorem underrunStep_ok (s : State) : MicroRes s (underrunStep s) := by
  have keep : MicroRes s (Res.done s .underrun) :=
    .done ⟨.refl s, rfl, rfl, rfl, rfl, rfl, rfl, id, .inl, by simp, by simp, by simp, by simp⟩
  have endd : s.fsm ≠ .done → MicroRes s (Res.done { s with fsm := .ended, raw := [], hp := .H0 } .endOfStream) := by
    intro hd
    refine .done ⟨.of_stream_eq rfl, rfl, rfl, rfl, rfl, rfl, rfl, ?_, by simp, by simp, by simp, by simp, by simp⟩
    intro i
    have := i.absent hd
    exact ⟨i.accnLe, by simp [this], by simp [this], by simp [this], by simp, i.chbufWf⟩
  have fat : s.fsm ≠ .done → MicroRes s (fatalStep s .truncated) := fun hd =>
    fatalStep_ok _ (.refl s) ⟨rfl, rfl, rfl, rfl, rfl, rfl⟩ fun i => ⟨i.accnLe, i.absent hd, i.chbufWf⟩
  unfold underrunStep
  split
  · split <;> rename_i hf <;> first
      | exact endd (by simp [hf])
      | exact fat (by simp [hf])
      | exact keep
  · exact keep

/-- The state after `n` bits have been taken. -/
def State.consumed (s : State) (n : Nat) : State := { s.need n with cons := s.cons + n }

/-- A micro-step that takes a field first. -/
theorem takeStep_ok {s : State} {n : Nat} {rest : Nat → State → Res}
    (h : (s.need n).has n = true → MicroRes s (rest (field (s.need n).S s.cons n) (s.consumed n))) :
    MicroRes s (takeStep n s rest) := by
  unfold takeStep
  rw [State.take_spec]
  split
  · next hh =>
    split at hh
    · next hb => cases hh; exact h hb
    · cases hh
  · next hh =>
    split at hh
    · cases hh
    · cases hh
      exact (underrunStep_ok _).after_pulls (s.need_pulledTo n)

/-- A micro-step that has consumed bits, then changed fields of the decode state machine and the Frame only. -/
theorem MicroOk.of_frame {s u t : State} {st : Status} (h : s.Advance u)
    (hk : u.res0 = s.res0 ∧ u.res1 = s.res1 ∧ u.res2 = s.res2 ∧ u.rb = s.rb ∧ u.dmem = s.dmem ∧ u.predictor = s.predictor)
    (ht : t = { u with bcrc := t.bcrc, fsm := t.fsm, acc := t.acc, accn := t.accn, hp := t.hp, raw := t.raw, hdr := t.hdr, sub := t.sub
                       chbuf := t.chbuf, fs := t.fs, fcrc := t.fcrc, fpresent := t.fpresent, fbuf := t.fbuf, fcur := t.fcur })
    (hi : s.FrameInv → t.FrameInv)
    (hf : t.fsm ≠ .failed ∧ (t.fsm = .done → t.fpresent = true ∧ t.fcur = 0)) (hs : st = .ok)
    (hc : s.FrameInv → (s.cons < u.cons ∧ u.cons ≤ u.avail) ∨ t.phase < s.phase) : MicroOk s t st := by
  have hp : t.predictor = s.predictor := by rw [ht]; exact hk.2.2.2.2.2
  have ha : s.Advance t := h.trans (.of_stream_eq (by rw [ht]))
  subst hs
  refine ⟨ha, ?_, ?_, ?_, ?_, ?_, by rw [hp], hi, fun e => absurd e hf.1, by simp, by simp,
    fun _ => hf.2, ?_⟩
  · rw [ht]; exact hk.1
  · rw [ht]; exact hk.2.1
  · rw [ht]; exact hk.2.2.1
  · rw [ht]; exact hk.2.2.2.1
  · rw [ht]; exact hk.2.2.2.2.1
  · intro i _
    rcases hc i with ⟨c1, c2⟩ | c
    · refine ha.measure_lt ?_ ?_ (by rw [hp])
      · rw [ht]; exact c1
      · rw [ht]; exact c2
    · have := ha.bitsAhead_le
      unfold State.measure
      rw [hp]
      omega

@[simp] theorem consumed_fsm (s : State) (n : Nat) : (s.consumed n).fsm = s.fsm := by simp [State.consumed]
@[simp] theorem consumed_hdr (s : State) (n : Nat) : (s.consumed n).hdr = s.hdr := by simp [State.consumed]
@[simp] theorem consumed_sub (s : State) (n : Nat) : (s.consumed n).sub = s.sub := by simp [State.consumed]
@[simp] theorem consumed_accn (s : State) (n : Nat) : (s.consumed n).accn = s.accn := by simp [State.consumed]
@[simp] theorem consumed_acc (s : State) (n : Nat) : (s.consumed n).acc = s.acc := by simp [State.consumed]
@[simp] theorem consumed_raw (s : State) (n : Nat) : (s.consumed n).raw = s.raw := by simp [State.consumed]
@[simp] theorem consumed_hp (s : State) (n : Nat) : (s.consumed n).hp = s.hp := by simp [State.consumed]
@[simp] theorem consumed_fs (s : State) (n : Nat) : (s.consumed n).fs = s.fs := by simp [State.consumed]
@[simp] theorem consumed_chbuf (s : State) (n : Nat) : (s.consumed n).chbuf = s.chbuf := by simp [State.consumed]
@[simp] theorem consumed_fpresent (s : State) (n : Nat) : (s.consumed n).fpresent = s.fpresent := by simp [State.consumed]
@[simp] theorem consumed_fbuf (s : State) (n : Nat) : (s.consumed n).fbuf = s.fbuf := by simp [State.consumed]
@[simp] theorem consumed_fcur (s : State) (n : Nat) : (s.consumed n).fcur = s.fcur := by simp [State.consumed]
@[simp] theorem consumed_cfg (s : State) (n : Nat) : (s.consumed n).cfg = s.cfg := by simp [State.consumed]
@[simp] theorem consumed_cons (s : State) (n : Nat) : (s.consumed n).cons = s.cons + n := rfl
@[simp] theorem consumed_S (s : State) (n : Nat) : (s.consumed n).S = (s.need n).S := rfl

theorem State.consumed_advance {s : State} {n : Nat} (h : (s.need n).has n = true) : s.Advance (s.consumed n) :=
  s.take_advance n h

theorem State.consumed_keeps (s : State) (n : Nat) :
    (s.consumed n).res0 = s.res0 ∧ (s.consumed n).res1 = s.res1 ∧ (s.consumed n).res2 = s.res2 ∧
      (s.consumed n).rb = s.rb ∧ (s.consumed n).dmem = s.dmem ∧ (s.consumed n).predictor = s.predictor := by
  simp [State.consumed]

theorem State.consumed_le {s : State} {n : Nat} (h : (s.need n).has n = true) : (s.consumed n).cons ≤ (s.consumed n).avail := by
  have := State.has_iff.1 h
  simpa [State.consumed, State.avail] using this

/-- A micro-step that takes `n ≥ 1` bits and then changes frame fields only. -/
theorem MicroOk.of_consumed {s t : State} {n : Nat} (h : (s.need n).has n = true) (hn : s.FrameInv → 1 ≤ n)
    (ht : t = { s.consumed n with
                  bcrc := t.bcrc, fsm := t.fsm, acc := t.acc, accn := t.accn, hp := t.hp, raw := t.raw, hdr := t.hdr, sub := t.sub
                  chbuf := t.chbuf, fs := t.fs, fcrc := t.fcrc, fpresent := t.fpresent, fbuf := t.fbuf, fcur := t.fcur })
    (hi : s.FrameInv → t.FrameInv)
    (hf : t.fsm ≠ .failed ∧ (t.fsm = .done → t.fpresent = true ∧ t.fcur = 0)) : MicroOk s t .ok :=
  .of_frame (State.consumed_advance h) (s.consumed_keeps n) ht hi hf rfl fun i =>
    .inl ⟨by have := hn i; simp; omega, State.consumed_le h⟩

/-! ### Sync search and the release of a Frame -/

theorem releaseStep_ok {s : State} (h : s.fsm = .done) : MicroRes s (releaseStep s) :=
  .done (.of_frame (.refl s) ⟨rfl, rfl, rfl, rfl, rfl, rfl⟩ rfl
    (fun i => ⟨by simp, by simp, by simp, by simp, by simp, i.chbufWf⟩) (by simp) rfl
    fun _ => .inr (by simp [State.phase, h]))


/-- Outside DONE a change of the header, search or subframe fields keeps the invariant. -/
theorem State.FrameInv.moved {s t : State} (i : s.FrameInv) (hs : s.fsm ≠ .done) (hp : t.fpresent = s.fpresent)
    (ha : t.accn ≤ 16) (hd : t.fsm = .subframes → t.sub.ss = .S2 → 1 ≤ t.sub.be)
    (hc : cellsFrom (0 : Int) 0 t.chbuf = true) : t.FrameInv := by
  have : t.fpresent = false := by rw [hp, i.absent hs]
  exact ⟨ha, by simp [this], by simp [this], by simp [this], hd, hc⟩

theorem searchStep_ok {s : State} (h : s.fsm = .searching) : MicroRes s (searchStep s) := by
  refine takeStep_ok fun hh => ?_
  simp only
  split
  · refine .done ?_
    have hadv : s.Advance { s.consumed 1 with base := s.cons + 1 } :=
      (State.consumed_advance hh).trans (.of_baseline _)
    refine .of_frame hadv ?_ rfl ?_ (by simp [syncFound]) rfl fun _ => .inl ⟨by simp, ?_⟩
    · simpa using s.consumed_keeps 1
    · intro i
      exact i.moved (by simp [h]) (by simp [syncFound]) (by simp [syncFound]) (by simp [syncFound])
        (by simpa [syncFound] using i.chbufWf)
    · exact State.consumed_le hh
  · refine .done (.of_consumed hh (fun _ => le_rfl) rfl ?_ (by simp [h]))
    intro i
    exact i.moved (by simp [h]) (by simp) (by simp) (by simp [h]) (by simpa using i.chbufWf)

/-! ### Header parse -/

/-- A resync after pulls and consumption (42_frame_sync.md R278). -/
theorem resyncStep_ok {s u : State} (h : s.Advance u) (hs : s.fsm = .headerParse)
    (hk : u.res0 = s.res0 ∧ u.res1 = s.res1 ∧ u.res2 = s.res2 ∧ u.rb = s.rb ∧ u.dmem = s.dmem ∧ u.predictor = s.predictor)
    (hp : u.fpresent = s.fpresent) (hc : u.chbuf = s.chbuf)
    (hl : (s.cons < u.cons ∧ u.cons ≤ u.avail) ∨ 0 < s.phase) : MicroRes s (resyncStep u) := by
  refine .done (.of_frame h hk rfl ?_ (by simp [resync]) rfl fun _ => hl.imp id (by simp [State.phase, resync]))
  intro i
  exact i.moved (by simp [hs]) (by simpa [resync]) (by simp [resync]) (by simp [resync]) (by simpa [resync, hc] using i.chbufWf)

theorem fixedStep_ok {s : State} (h : s.fsm = .headerParse) : MicroRes s (fixedStep s) := by
  refine takeStep_ok fun hh => ?_
  simp only
  split
  · exact resyncStep_ok ((State.consumed_advance hh).trans (.of_stream_eq rfl)) h (by simpa using s.consumed_keeps 16)
      (by simp) (by simp) (.inl ⟨by simp, State.consumed_le hh⟩)
  · refine .done (.of_consumed hh (fun _ => by omega) rfl ?_ (by simp [h]))
    intro i
    exact i.moved (by simp [h]) (by simp) (by simpa using i.accnLe) (by simp [h]) (by simpa using i.chbufWf)


/-- What a varint's value or failure reports of its raw bytes. -/
def Varint.raw : Varint → List Byte
  | .value _ r => r
  | .bad _ r => r
  | .short => []

theorem varintTail_raw (S : List Byte) (left p v : Nat) (raw : List Byte) :
    varintTail S left p v raw ≠ .short ∧ raw.length ≤ (varintTail S left p v raw).raw.length ∧
      (varintTail S left p v raw).raw.length ≤ raw.length + left := by
  induction left generalizing p v raw with
  | zero => simp [varintTail, Varint.raw]
  | succ left ih =>
    unfold varintTail
    simp only
    split
    · obtain ⟨h1, h2, h3⟩ := ih (p + 8) (v * 64 + field S p 8 % 64) (BitVec.ofNat 8 (field S p 8) :: raw)
      simp only [List.length_cons] at h2 h3
      exact ⟨h1, by omega, by omega⟩
    · simp [Varint.raw]

/-- `Utf8` (41_bitreader.md R228) either underruns with nothing consumed or consumes exactly the raw bytes it returns. -/
theorem State.utf8_cases (s : State) (wd : Nat) : ∃ u, s.PulledTo u ∧
    (s.utf8 wd = (u, .short) ∨
      ((s.utf8 wd).2 ≠ .short ∧ 1 ≤ (s.utf8 wd).2.raw.length ∧ u.has (8 * (s.utf8 wd).2.raw.length) = true ∧
        (s.utf8 wd).1 = { u with cons := s.cons + 8 * (s.utf8 wd).2.raw.length })) := by
  have h8 := s.need_pulledTo 8
  unfold State.utf8
  simp only
  split
  · next hh =>
    split
    · exact ⟨_, h8, .inr ⟨by simp, by simp [Varint.raw], by simpa [Varint.raw] using hh, by simp [Varint.raw]⟩⟩
    · split
      · exact ⟨_, h8, .inr ⟨by simp, by simp [Varint.raw], by simpa [Varint.raw] using hh, by simp [Varint.raw]⟩⟩
      · split
        · exact ⟨_, h8, .inr ⟨by simp, by simp [Varint.raw], by simpa [Varint.raw] using hh, by simp [Varint.raw]⟩⟩
        · generalize leadingOnes 8 (field (s.need 8).S (s.need 8).cons 8) = k at *
          have hk := h8.trans ((s.need 8).need_pulledTo (8 * k))
          refine ⟨_, hk, ?_⟩
          split
          · next hu =>
            refine .inr ?_
            have hr := varintTail_raw ((s.need 8).need (8 * k)).S (k - 1) (((s.need 8).need (8 * k)).cons + 8)
              (field (s.need 8).S (s.need 8).cons 8 % 2 ^ (7 - k)) [BitVec.ofNat 8 (field (s.need 8).S (s.need 8).cons 8)]
            generalize varintTail ((s.need 8).need (8 * k)).S (k - 1) (((s.need 8).need (8 * k)).cons + 8)
              (field (s.need 8).S (s.need 8).cons 8 % 2 ^ (7 - k))
              [BitVec.ofNat 8 (field (s.need 8).S (s.need 8).cons 8)] = r at hr
            obtain ⟨r1, r2, r3⟩ := hr
            simp only [List.length_cons, List.length_nil] at r2 r3
            cases r with
            | short => exact absurd rfl r1
            | value v raw =>
              simp only [Varint.raw] at r2 r3
              exact ⟨by simp, by simpa [Varint.raw] using r2, State.has_mono (by simp [Varint.raw]; omega) hu, by simp [Varint.raw]⟩
            | bad c raw =>
              simp only [Varint.raw] at r2 r3
              exact ⟨by simp, by simpa [Varint.raw] using r2, State.has_mono (by simp [Varint.raw]; omega) hu, by simp [Varint.raw]⟩
          · exact .inl rfl
  · exact ⟨_, h8, .inl rfl⟩

/-- Consuming bits that pulls have brought. -/
theorem State.PulledTo.consume {s u : State} (h : s.PulledTo u) {n : Nat} (hn : u.has n = true) :
    s.Advance { u with cons := s.cons + n } := by
  have := State.Advance.of_consume u n (.inl (by simpa [State.has] using hn))
  rw [h.cons_eq] at this
  exact h.advance.trans this

theorem State.PulledTo.keeps {s u : State} (h : s.PulledTo u) :
    u.res0 = s.res0 ∧ u.res1 = s.res1 ∧ u.res2 = s.res2 ∧ u.rb = s.rb ∧ u.dmem = s.dmem ∧ u.predictor = s.predictor :=
  ⟨h.res0_eq, h.res1_eq, h.res2_eq, h.rb_eq, h.dmem_eq, h.predictor_eq⟩

theorem State.PulledTo.consumed_le {s u : State} (h : s.PulledTo u) {n : Nat} (hn : u.has n = true) :
    s.cons + n ≤ u.avail := by
  have := State.has_iff.1 hn
  rw [h.cons_eq] at this
  simpa [State.avail] using this

theorem numberStep_ok {s : State} (h : s.fsm = .headerParse) : MicroRes s (numberStep s) := by
  obtain ⟨u, hu, hc⟩ := s.utf8_cases s.numWidth
  unfold numberStep
  rcases hc with e | ⟨hns, hl, hh, e⟩
  · rw [e]
    exact (underrunStep_ok u).after_pulls hu
  · generalize s.utf8 s.numWidth = r at *
    obtain ⟨t, v⟩ := r
    simp only at hns hl hh e
    subst e
    have hadv := hu.consume hh
    have hlt : s.cons < s.cons + 8 * v.raw.length := by omega
    have hle := hu.consumed_le hh
    cases v with
    | short => exact absurd rfl hns
    | bad c raw =>
      exact resyncStep_ok hadv h hu.keeps hu.fpresent_eq hu.chbuf_eq (.inl ⟨hlt, hle⟩)
    | value v raw =>
      simp only
      split
      · exact resyncStep_ok hadv h hu.keeps hu.fpresent_eq hu.chbuf_eq (.inl ⟨hlt, hle⟩)
      · refine .done (.of_frame hadv hu.keeps rfl ?_ (by simp [hu.fsm_eq, h]) rfl fun _ => .inl ⟨hlt, hle⟩)
        intro i
        exact i.moved (by simp [h]) (by simp [hu.fpresent_eq]) (by simpa [hu.accn_eq] using i.accnLe)
          (by simp [hu.fsm_eq, h]) (by simpa [hu.chbuf_eq] using i.chbufWf)

/-- A header sub-step that takes `n ≥ 1` bits and stays in the header, or moves on to the subframes at `S0`. -/
theorem headerField_ok {s t : State} {n : Nat} (h : s.fsm = .headerParse) (hh : (s.need n).has n = true) (hn : 1 ≤ n)
    (ht : t = { s.consumed n with fsm := t.fsm, hp := t.hp, raw := t.raw, hdr := t.hdr, sub := t.sub })
    (hf : t.fsm = .headerParse ∨ t.fsm = .subframes ∧ t.sub.ss = .S0) : MicroRes s (Res.done t .ok) := by
  refine .done (.of_consumed hh (fun _ => hn) (by rw [ht]) ?_ (by rcases hf with e | e <;> simp [e]))
  intro i
  refine i.moved (by simp [h]) (by rw [ht]; simp) (by rw [ht]; simpa using i.accnLe) ?_ (by rw [ht]; simpa using i.chbufWf)
  rcases hf with e | e <;> simp [e]

/-- A header sub-step that reads nothing. -/
theorem headerMove_ok {s t : State} (h : s.fsm = .headerParse)
    (ht : t = { s with hp := t.hp, raw := t.raw, hdr := t.hdr }) (hp : t.phase < s.phase) : MicroRes s (Res.done t .ok) := by
  have hf : t.fsm = s.fsm := by rw [ht]
  refine .done (.of_frame (.refl s) ⟨rfl, rfl, rfl, rfl, rfl, rfl⟩ (by rw [ht]) ?_ (by simp [hf, h]) rfl fun _ => .inr hp)
  intro i
  exact i.moved (by simp [h]) (by rw [ht]) (by rw [ht]; exact i.accnLe) (by simp [hf, h]) (by rw [ht]; exact i.chbufWf)

theorem blockSizeStep_ok {s : State} (h : s.fsm = .headerParse) (hp : s.hp = .H2) : MicroRes s (blockSizeStep s) := by
  unfold blockSizeStep
  split
  · exact takeStep_ok fun hh => headerField_ok h hh (by omega) rfl (.inl (by simp [State.setBlockSize, h]))
  · exact takeStep_ok fun hh => headerField_ok h hh (by omega) rfl (.inl (by simp [State.setBlockSize, h]))
  · exact headerMove_ok h rfl (by simp [State.phase, State.setBlockSize, h, hp])
  · exact resyncStep_ok (.refl s) h ⟨rfl, rfl, rfl, rfl, rfl, rfl⟩ rfl rfl (.inr (by simp [State.phase, h, hp]))

theorem rateStep_ok {s : State} (h : s.fsm = .headerParse) (hp : s.hp = .H3) : MicroRes s (rateStep s) := by
  unfold rateStep
  repeat' split
  · exact takeStep_ok fun hh => headerField_ok h hh (by omega) rfl (.inl (by simp [State.setRate, h]))
  · exact takeStep_ok fun hh => headerField_ok h hh (by omega) rfl (.inl (by simp [State.setRate, h]))
  · exact takeStep_ok fun hh => headerField_ok h hh (by omega) rfl (.inl (by simp [State.setRate, h]))
  · exact headerMove_ok h rfl (by simp [State.phase, State.setRate, h, hp])
  · exact headerMove_ok h rfl (by simp [State.phase, State.setRate, h, hp])
  · exact resyncStep_ok (.refl s) h ⟨rfl, rfl, rfl, rfl, rfl, rfl⟩ rfl rfl (.inr (by simp [State.phase, h, hp]))

theorem headerCrcStep_ok {s : State} (h : s.fsm = .headerParse) : MicroRes s (headerCrcStep s) := by
  refine takeStep_ok fun hh => ?_
  have res : ∀ x : Header, MicroRes s (resyncStep { s.consumed 8 with hdr := x }) := fun x =>
    resyncStep_ok ((State.consumed_advance hh).trans (.of_stream_eq rfl)) h (by simpa using s.consumed_keeps 8)
      (by simp) (by simp) (.inl ⟨by simp, State.consumed_le hh⟩)
  simp only
  split
  · unfold acceptStep
    split
    · exact headerField_ok h hh (by omega) rfl (.inr ⟨rfl, rfl⟩)
    · exact res _
  · exact res _

theorem headerStep_ok {s : State} (h : s.fsm = .headerParse) : MicroRes s (headerStep s) := by
  unfold headerStep
  split
  · exact fixedStep_ok h
  · exact numberStep_ok h
  · next hp => exact blockSizeStep_ok h hp
  · next hp => exact rateStep_ok h hp
  · exact headerCrcStep_ok h


/-! ### Subframes -/

/-- A fatal failure in the subframes or the footer, after pulls and consumption. -/
theorem fatalStep_moved {s u : State} (c : FatalCause) (h : s.Advance u) (hs : s.fsm ≠ .done)
    (hk : u.res0 = s.res0 ∧ u.res1 = s.res1 ∧ u.res2 = s.res2 ∧ u.rb = s.rb ∧ u.dmem = s.dmem ∧
      u.predictor.isSome = s.predictor.isSome)
    (ha : u.accn = s.accn) (hp : u.fpresent = s.fpresent) (hc : u.chbuf = s.chbuf) : MicroRes s (fatalStep u c) :=
  fatalStep_ok c h hk fun i => ⟨by rw [ha]; exact i.accnLe, by rw [hp]; exact i.absent hs, by rw [hc]; exact i.chbufWf⟩

/-- The depth check after at least one consumed bit (43_subframe.md R325). -/
theorem depthStep_ok {s u t : State} (h : s.fsm = .subframes) (hu : s.Advance u) (hlt : s.cons < u.cons)
    (hle : u.cons ≤ u.avail)
    (hk : u.res0 = s.res0 ∧ u.res1 = s.res1 ∧ u.res2 = s.res2 ∧ u.rb = s.rb ∧ u.dmem = s.dmem ∧ u.predictor = s.predictor)
    (ha : u.accn = s.accn) (hp : u.fpresent = s.fpresent) (hc : u.chbuf = s.chbuf) (hf : u.fsm = s.fsm)
    (ht : t = { u with sub := t.sub }) : MicroRes s (depthStep t) := by
  have hadv : s.Advance t := hu.trans (.of_stream_eq (by rw [ht]))
  unfold depthStep
  simp only
  split
  · refine fatalStep_moved _ (hadv.trans (.of_stream_eq rfl)) (by simp [h]) ?_ ?_ ?_ ?_
    · rw [ht]; exact ⟨hk.1, hk.2.1, hk.2.2.1, hk.2.2.2.1, hk.2.2.2.2.1, by simp [hk.2.2.2.2.2]⟩
    · rw [ht]; exact ha
    · rw [ht]; exact hp
    · rw [ht]; exact hc
  · next hd =>
    refine .done (.of_frame hu hk (by rw [ht]) ?_ (by rw [ht]; simp [hf, h]) rfl fun _ => .inl ⟨hlt, hle⟩)
    intro i
    refine i.moved (by simp [h]) (by rw [ht]; exact hp) (by rw [ht]; simpa [ha] using i.accnLe) ?_
      (by rw [ht]; simpa [hc] using i.chbufWf)
    intro _ _
    simp only
    omega

theorem subHeaderStep_ok {s : State} (h : s.fsm = .subframes) : MicroRes s (subHeaderStep s) := by
  refine takeStep_ok fun hh => ?_
  have hadv := State.consumed_advance hh
  have hk := s.consumed_keeps 8
  have hk' : (s.consumed 8).res0 = s.res0 ∧ (s.consumed 8).res1 = s.res1 ∧ (s.consumed 8).res2 = s.res2 ∧
      (s.consumed 8).rb = s.rb ∧ (s.consumed 8).dmem = s.dmem ∧ (s.consumed 8).predictor.isSome = s.predictor.isSome :=
    ⟨hk.1, hk.2.1, hk.2.2.1, hk.2.2.2.1, hk.2.2.2.2.1, by rw [hk.2.2.2.2.2]⟩
  simp only
  split
  · exact fatalStep_moved _ hadv (by simp [h]) hk' (by simp) (by simp) (by simp)
  · split
    · exact fatalStep_moved _ (hadv.trans (.of_stream_eq rfl)) (by simp [h]) hk' (by simp) (by simp) (by simp)
    · split
      · refine .done (.of_consumed hh (fun _ => by omega) rfl ?_ (by simp [h]))
        intro i
        exact i.moved (by simp [h]) (by simp) (by simpa using i.accnLe) (by simp) (by simpa using i.chbufWf)
      · exact depthStep_ok h hadv (by simp) (State.consumed_le hh) hk (by simp) (by simp) (by simp) (by simp) rfl

theorem wastedStep_ok {s : State} (h : s.fsm = .subframes) : MicroRes s (wastedStep s) := by
  have hsc := s.scan_spec (unaryOver s.cfg)
  unfold wastedStep
  generalize s.scan (unaryOver s.cfg) = r at hsc
  obtain ⟨t, o⟩ := r
  simp only at hsc
  cases hsc with
  | found z t pulled isNeed there zeros one fits =>
    have hadv := pulled.consume there
    refine depthStep_ok h hadv (by simp only; omega) (pulled.consumed_le there) pulled.keeps pulled.accn_eq
      pulled.fpresent_eq pulled.chbuf_eq pulled.fsm_eq ?_
    rw [pulled.cons_eq, Nat.add_assoc]
  | tooLong z t pulled isNeed there zeros exceeds fits =>
    have hk := pulled.keeps
    exact fatalStep_moved _ pulled.advance (by simp [h])
      ⟨hk.1, hk.2.1, hk.2.2.1, hk.2.2.2.1, hk.2.2.2.2.1, by rw [hk.2.2.2.2.2]⟩ pulled.accn_eq pulled.fpresent_eq pulled.chbuf_eq
  | short z t pulled isNeed dry before zeros fits => exact (underrunStep_ok t).after_pulls pulled

theorem putChan_canonical (s : State) (i : Nat) (xs : List Int) (h : cellsFrom (0 : Int) 0 s.chbuf = true) :
    cellsFrom (0 : Int) 0 (s.putChan i xs).chbuf = true := writeRun_canonical _ _ _ _ h

/-- `ChannelDone()` only moves the subframe and footer scratch and the state machine. -/
theorem channelDone_frame (u : State) :
    channelDone u = { u with sub := (channelDone u).sub, fsm := (channelDone u).fsm, fs := (channelDone u).fs } := by
  unfold channelDone
  simp only
  split <;> rfl

theorem channelDone_ss (u : State) : (channelDone u).sub.ss = .S0 := by
  unfold channelDone
  simp only
  split <;> rfl

theorem channelDone_fsm (u : State) (h : u.fsm = .subframes) :
    (channelDone u).fsm = .subframes ∨ (channelDone u).fsm = .footerCheck := by
  unfold channelDone
  simp only
  split
  · exact .inr rfl
  · exact .inl h

theorem produce_frame (u : State) (xs : List Int) :
    produce u xs = { u with
      sub := (produce u xs).sub, fsm := (produce u xs).fsm, fs := (produce u xs).fs, chbuf := (produce u xs).chbuf } := by
  unfold produce
  simp only
  split
  · rw [channelDone_frame]; rfl
  · rfl

theorem produce_fsm (u : State) (xs : List Int) (h : u.fsm = .subframes) :
    (produce u xs).fsm = .subframes ∨ (produce u xs).fsm = .footerCheck := by
  unfold produce
  simp only
  split
  · exact channelDone_fsm _ h
  · exact .inl h

/-- Producing samples keeps the invariant and stays in the subframes or moves to the footer. -/
theorem produce_ok (u : State) (xs : List Int) (h : u.fsm = .subframes) (i : u.FrameInv) :
    (produce u xs).FrameInv ∧ ((produce u xs).fsm = .subframes ∨ (produce u xs).fsm = .footerCheck) := by
  have hfr := produce_frame u xs
  have hc : cellsFrom (0 : Int) 0 (produce u xs).chbuf = true := by
    unfold produce
    simp only
    split
    · rw [channelDone_frame]; exact putChan_canonical _ _ _ i.chbufWf
    · exact putChan_canonical _ _ _ i.chbufWf
  have hfsm := produce_fsm u xs h
  refine ⟨i.moved (by simp [h]) (by rw [hfr]) (by rw [hfr]; exact i.accnLe) ?_ hc, hfsm⟩
  intro _ hss
  unfold produce at hss ⊢
  simp only at hss ⊢
  split
  · next hb => rw [if_pos hb, channelDone_ss] at hss; cases hss
  · next hb => rw [if_neg hb] at hss; exact i.depth h hss

theorem State.consumed_frameInv {s : State} (n : Nat) (i : s.FrameInv) : (s.consumed n).FrameInv :=
  ⟨by simpa using i.accnLe, by simpa using i.frameDone, by simpa [State.frameLen] using i.frameLen,
    by simpa [State.frameLen] using i.frameCur, by simpa using i.depth, by simpa using i.chbufWf⟩

theorem constantStep_ok {s : State} (h : s.fsm = .subframes) (hss : s.sub.ss = .S2) : MicroRes s (constantStep s) := by
  refine takeStep_ok fun hh => ?_
  simp only
  refine .done (.of_consumed hh ?_ ?_ ?_ ?_)
  · intro i
    have := i.depth h hss
    omega
  · rw [channelDone_frame]; rfl
  · intro i
    refine i.moved (by simp [h]) (by rw [channelDone_frame]; simp [State.putChan])
      (by rw [channelDone_frame]; simpa [State.putChan] using i.accnLe) (fun _ hs => by rw [channelDone_ss] at hs; cases hs) ?_
    rw [channelDone_frame]
    exact putChan_canonical _ _ _ (by simpa using i.chbufWf)
  · rcases channelDone_fsm (State.putChan (s.consumed s.sub.be.toNat) 0 (List.replicate (s.consumed s.sub.be.toNat).hdr.bs
      (sextInt (s.consumed s.sub.be.toNat).sub.be.toNat (field (s.need s.sub.be.toNat).S s.cons s.sub.be.toNat) *
        2 ^ (s.consumed s.sub.be.toNat).sub.w))) (by simp [State.putChan, h]) with e | e <;> rw [e] <;> simp

theorem verbatimStep_ok {s : State} (h : s.fsm = .subframes) (hss : s.sub.ss = .S2) : MicroRes s (verbatimStep s) := by
  refine takeStep_ok fun hh => ?_
  show MicroRes s (Res.done _ _)
  have hf := fun i : s.FrameInv => produce_ok (s.consumed s.sub.be.toNat)
    [sextInt (s.consumed s.sub.be.toNat).sub.be.toNat (field (s.need s.sub.be.toNat).S s.cons s.sub.be.toNat)]
    (by simp [h]) (State.consumed_frameInv _ i)
  refine .done (.of_consumed hh ?_ ?_ (fun i => (hf i).1) ?_)
  · intro i
    have := i.depth h hss
    omega
  · rw [produce_frame]
  · rcases produce_fsm (s.consumed s.sub.be.toNat)
      [sextInt (s.consumed s.sub.be.toNat).sub.be.toNat (field (s.need s.sub.be.toNat).S s.cons s.sub.be.toNat)]
      (by simp [h]) with e | e <;> rw [e] <;> simp

theorem predictorStep_ok {s : State} (h : s.fsm = .subframes) : MicroRes s (predictorStep s) := by
  unfold predictorStep State.calling
  split
  · exact .refused _ _
  · next hp =>
    -- no answer left
    have hadv : s.Advance { s with preq := some s.predRequest } := .of_stream_eq rfl
    intro t st e
    have k := underrunStep_ok { s with preq := some s.predRequest } t st e
    exact ⟨hadv.trans k.adv, k.res0, k.res1, k.res2, k.rb, k.dmem, k.present,
      fun i => k.inv ⟨i.accnLe, i.frameDone, i.frameLen, i.frameCur, i.depth, i.chbufWf⟩, k.failed, k.shape, k.contract, k.created,
      fun i e => k.progress ⟨i.accnLe, i.frameDone, i.frameLen, i.frameCur, i.depth, i.chbufWf⟩ e⟩
  · next a more hp =>
    have hadv : s.Advance { s with preq := some s.predRequest, predictor := some more } := .of_stream_eq rfl
    have hpl := State.pulls_pulledTo a.pulls { s with preq := some s.predRequest, predictor := some more }
    generalize State.pulls a.pulls { s with preq := some s.predRequest, predictor := some more } = u at hpl
    have hu := hadv.trans hpl.advance
    have hk := hpl.keeps
    have hfi : s.FrameInv → u.FrameInv := fun i =>
      hpl.frameInv ⟨i.accnLe, i.frameDone, i.frameLen, i.frameCur, i.depth, i.chbufWf⟩
    have hfsm : u.fsm = .subframes := hpl.fsm_eq.trans h
    have hpred : u.predictor = some more := hk.2.2.2.2.2
    have hfat : ∀ c, MicroRes s (fatalStep u c) := fun c =>
      fatalStep_moved _ hu (by simp [h]) ⟨hk.1, hk.2.1, hk.2.2.1, hk.2.2.2.1, hk.2.2.2.2.1, by rw [hpred, hp]; rfl⟩ hpl.accn_eq
        hpl.fpresent_eq hpl.chbuf_eq
    unfold predOutcomeStep
    split
    · -- underrun
      intro t st e
      have k := underrunStep_ok u t st e
      have hne : st ≠ .ok := by
        unfold underrunStep at e
        rw [hfsm] at e
        split at e <;> cases e <;> simp
      exact ⟨hu.trans k.adv, k.res0.trans hk.1, k.res1.trans hk.2.1, k.res2.trans hk.2.2.1, k.rb.trans hk.2.2.2.1,
        k.dmem.trans hk.2.2.2.2.1, by rw [k.present, hpred, hp]; rfl, fun i => k.inv (hfi i),
        fun e => (k.failed e).imp (fun x => by rw [hfsm] at x; cases x) id, k.shape, k.contract,
        fun e => absurd e hne, fun _ e => absurd e hne⟩
    · exact hfat _
    · split
      · exact hfat _
      · split
        · split
          · exact .refused _ _
          · exact .done ⟨.of_stream_eq rfl, rfl, rfl, rfl, rfl, rfl, by simp [hp],
              fun i => i.moved (by simp [h]) rfl i.accnLe (by simp) i.chbufWf,
              by simp [Status.sticky], by simp, by simp, by simp, by simp⟩
        · next xs bits _ _ _ =>
          have hc : u.Advance { u with cons := u.cons + min bits (u.avail - u.cons) } :=
            .of_consume u _ (by omega)
          have hpr := produce_frame { u with cons := u.cons + min bits (u.avail - u.cons) } xs
          have hok := fun i : s.FrameInv => produce_ok { u with cons := u.cons + min bits (u.avail - u.cons) } xs hfsm
            (by have hi := hfi i; exact ⟨hi.accnLe, hi.frameDone, hi.frameLen, hi.frameCur, hi.depth, hi.chbufWf⟩)
          have hff : (produce { u with cons := u.cons + min bits (u.avail - u.cons) } xs).fsm ≠ .failed ∧
              (produce { u with cons := u.cons + min bits (u.avail - u.cons) } xs).fsm ≠ .done := by
            rcases produce_fsm { u with cons := u.cons + min bits (u.avail - u.cons) } xs hfsm with e | e <;> rw [e] <;> simp
          have ha : s.Advance (produce { u with cons := u.cons + min bits (u.avail - u.cons) } xs) :=
            (hu.trans hc).trans (.of_stream_eq (by rw [hpr]))
          refine .done ⟨ha, ?_, ?_, ?_, ?_, ?_, ?_, fun i => (hok i).1, fun e => absurd e hff.1, by simp, by simp,
            fun _ e => absurd e hff.2, ?_⟩
          · rw [hpr]; exact hk.1
          · rw [hpr]; exact hk.2.1
          · rw [hpr]; exact hk.2.2.1
          · rw [hpr]; exact hk.2.2.2.1
          · rw [hpr]; exact hk.2.2.2.2.1
          · rw [hpr]; simp [hpred, hp]
          · intro i _
            have hb := ha.bitsAhead_le
            have hph : (produce { u with cons := u.cons + min bits (u.avail - u.cons) } xs).phase ≤ 1 := by
              unfold State.phase
              rcases (hok i).2 with e | e <;> rw [e]
              · simp
              · simp only; split <;> omega
            have hpd : (produce { u with cons := u.cons + min bits (u.avail - u.cons) } xs).predictor = some more := by
              rw [hpr]; exact hpred
            unfold State.measure
            rw [hpd, hp]
            simp only [Option.getD_some, List.length_cons]
            omega

theorem subframeStep_ok {s : State} (h : s.fsm = .subframes) : MicroRes s (subframeStep s) := by
  unfold subframeStep
  split
  · exact subHeaderStep_ok h
  · exact wastedStep_ok h
  · next hss =>
    split
    · exact constantStep_ok h hss
    · exact verbatimStep_ok h hss
    · exact predictorStep_ok h
    · exact predictorStep_ok h

/-! ### Footer -/

theorem paddingStep_ok {s : State} (h : s.fsm = .footerCheck) (hf : s.fs = .F0) : MicroRes s (paddingStep s) := by
  have hp := s.need_pulledTo s.padding
  have hk := hp.keeps
  unfold paddingStep
  simp only
  split
  · next hh =>
    split
    · have hc : s.Advance { s.need s.padding with cons := (s.need s.padding).cons + s.padding } := by
        have := hp.consume hh
        rwa [← hp.cons_eq] at this
      refine .done (.of_frame hc hk rfl ?_ (by simp [h]) rfl fun _ => .inr (by simp [State.phase, h, hf]))
      intro i
      exact i.moved (by simp [h]) (by simp) (by simpa using i.accnLe) (by simp [h]) (by simpa using i.chbufWf)
    · exact fatalStep_moved _ hp.advance (by simp [h]) ⟨hk.1, hk.2.1, hk.2.2.1, hk.2.2.2.1, hk.2.2.2.2.1, by rw [hk.2.2.2.2.2]⟩
        hp.accn_eq hp.fpresent_eq hp.chbuf_eq
  · exact (underrunStep_ok _).after_pulls hp

theorem interleaved_length (s : State) : s.interleaved.length = s.frameLen := by simp [State.interleaved]

theorem footerCrcStep_ok {s : State} (h : s.fsm = .footerCheck) : MicroRes s (footerCrcStep s) := by
  have hp := s.need_pulledTo 16
  have hk := hp.keeps
  unfold footerCrcStep
  simp only
  split
  · next hh =>
    have hadv : s.Advance { (s.need 16).upd with cons := (s.need 16).upd.cons + 16 } := by
      refine (hp.advance.trans (State.upd_advance _)).trans (.of_consume _ 16 (.inl ?_))
      simpa [State.avail] using State.has_iff.1 hh
    have hk' : ((s.need 16).upd).res0 = s.res0 ∧ ((s.need 16).upd).res1 = s.res1 ∧ ((s.need 16).upd).res2 = s.res2 ∧
        ((s.need 16).upd).rb = s.rb ∧ ((s.need 16).upd).dmem = s.dmem ∧ ((s.need 16).upd).predictor = s.predictor := by
      simp
    have hk'' : ((s.need 16).upd).res0 = s.res0 ∧ ((s.need 16).upd).res1 = s.res1 ∧ ((s.need 16).upd).res2 = s.res2 ∧
        ((s.need 16).upd).rb = s.rb ∧ ((s.need 16).upd).dmem = s.dmem ∧
        ((s.need 16).upd).predictor.isSome = s.predictor.isSome :=
      ⟨hk'.1, hk'.2.1, hk'.2.2.1, hk'.2.2.2.1, hk'.2.2.2.2.1, by rw [hk'.2.2.2.2.2]⟩
    split
    · split
      · refine .done (.of_frame hadv hk' rfl ?_ (by simp [createFrame]) rfl fun _ => .inl ⟨by simp, ?_⟩)
        · intro i
          refine ⟨by simpa [createFrame] using i.accnLe, by simp [createFrame], fun _ => ?_, by simp [createFrame],
            by simp [createFrame], by simpa [createFrame] using i.chbufWf⟩
          exact interleaved_length _
        · simpa [State.avail] using (State.has_iff.1 hh)
      · exact fatalStep_moved _ (hadv.trans (.of_stream_eq rfl)) (by simp [h]) hk'' (by simp) (by simp) (by simp)
    · exact fatalStep_moved _ (hadv.trans (.of_stream_eq rfl)) (by simp [h]) hk'' (by simp) (by simp) (by simp)
  · exact (underrunStep_ok _).after_pulls hp

/-- Everything a micro-step can do. -/
theorem microStep_ok (s : State) : MicroRes s (microStep s) := by
  unfold microStep
  split <;> rename_i h
  · exact searchStep_ok h
  · exact headerStep_ok h
  · exact subframeStep_ok h
  · unfold footerStep
    split
    · next hf => exact paddingStep_ok h hf
    · exact footerCrcStep_ok h
  · exact releaseStep_ok h
  · exact .done ⟨.refl s, rfl, rfl, rfl, rfl, rfl, rfl, id, .inl, by simp, by simp, by simp, by simp⟩
  · exact .fault _ _

end Sys2Proof.Machine
end

