-- ==== Sys2Proof/Laws/FrameDecode.lean ====
section
/-! SUPPORT. Laws of the FR.DECODE loop (42_frame_sync.md R273): what it can do, that its micro-step budget is enough, and
that it is the loop the spec writes, whatever the budget. -/

namespace Sys2Proof.Machine

/-- An underrun always answers. -/
theorem underrunStep_next (u : State) : ∃ t st, underrunStep u = .next (t, st) := by
  unfold underrunStep fatalStep Res.done
  split
  · split <;> exact ⟨_, _, rfl⟩
  · exact ⟨_, _, rfl⟩

/-- Room for every answer to come means no pull overflows the stream that a call of the predictor starts from. -/
theorem State.Room.pulls_noOverflow {s : State} (hr : s.Room) (n : Nat) : streamOverflow s (State.pulls n s) = false :=
  hr.noOverflow (State.pulls_pulledTo n s)

/-- The predictor's micro-step answers a next state, unless there is no predictor (60_exceptions.md R412) or its pulls make the
stream too long (41_bitreader.md R218). -/
theorem predictorStep_cases (s : State) : (∃ t st, predictorStep s = .next (t, st)) ∨
    s.predictor = none ∧ predictorStep s = .refused .predictorAbsent ∨
    s.predictor.isSome = true ∧ ¬s.Room ∧ predictorStep s = .refused .streamTooLong := by
  unfold predictorStep
  split
  · next h => exact .inr (.inl ⟨h, rfl⟩)
  · exact .inl (underrunStep_next _)
  · next a more h =>
    unfold predOutcomeStep
    split
    · exact .inl (underrunStep_next _)
    · exact .inl ⟨_, _, rfl⟩
    · split
      · exact .inl ⟨_, _, rfl⟩
      · split
        · split
          · next ho =>
            refine .inr (.inr ⟨by rw [h]; rfl, fun hr => ?_, rfl⟩)
            have := State.Room.pulls_noOverflow (s := s.calling more) hr a.pulls
            simp [this] at ho
          · exact .inl ⟨_, _, rfl⟩
        · exact .inl ⟨_, _, rfl⟩

/-- At a Fixed or LPC payload the micro-step is the predictor's. -/
theorem microStep_atPayload {s : State} (h : s.AtPayload) : microStep s = predictorStep s := by
  obtain ⟨h1, h2, hk⟩ := h
  rcases hk with hk | hk <;> simp only [microStep, h1, h2, hk, subframeStep]

/-- The micro-step answers a next state, but in the state R271 says is never reached and where the predictor's does not. -/
theorem microStep_answers {s : State} (hf : s.fsm ≠ .failed)
    (hp : (∃ t st, predictorStep s = .next (t, st)) ∨ ¬s.AtPayload) :
    ∃ t st, microStep s = .next (t, st) := by
  have under := underrunStep_next
  have take : ∀ (u : State) n (rest : Nat → State → Res), (∀ v w, ∃ t st, rest v w = .next (t, st)) →
      ∃ t st, takeStep n u rest = .next (t, st) := by
    intro u n rest h
    unfold takeStep
    split
    · exact h _ _
    · exact under _
  have depth : ∀ u : State, ∃ t st, depthStep u = .next (t, st) := by
    intro u
    unfold depthStep fatalStep Res.done
    simp only
    split <;> exact ⟨_, _, rfl⟩
  unfold microStep
  split
  · refine take _ _ _ fun v w => ?_
    simp only
    split <;> exact ⟨_, _, rfl⟩
  · unfold headerStep
    split
    · refine take _ _ _ fun v w => ?_
      simp only
      split <;> exact ⟨_, _, rfl⟩
    · unfold numberStep
      split
      · split <;> exact ⟨_, _, rfl⟩
      · exact ⟨_, _, rfl⟩
      · exact under _
    · unfold blockSizeStep
      split
      · exact take _ _ _ fun v w => ⟨_, _, rfl⟩
      · exact take _ _ _ fun v w => ⟨_, _, rfl⟩
      · exact ⟨_, _, rfl⟩
      · exact ⟨_, _, rfl⟩
    · unfold rateStep
      repeat' split
      all_goals first
        | exact take _ _ _ fun v w => ⟨_, _, rfl⟩
        | exact ⟨_, _, rfl⟩
    · refine take _ _ _ fun v w => ?_
      simp only
      split
      · unfold acceptStep
        split <;> exact ⟨_, _, rfl⟩
      · exact ⟨_, _, rfl⟩
  · unfold subframeStep
    split
    · refine take _ _ _ fun v w => ?_
      simp only
      split
      · exact ⟨_, _, rfl⟩
      · split
        · exact ⟨_, _, rfl⟩
        · split
          · exact ⟨_, _, rfl⟩
          · exact depth _
    · unfold wastedStep
      split
      · exact depth _
      · exact ⟨_, _, rfl⟩
      · exact under _
    · split
      · exact take _ _ _ fun v w => ⟨_, _, rfl⟩
      · exact take _ _ _ fun v w => ⟨_, _, rfl⟩
      · exact hp.elim id fun hn => absurd ⟨‹_›, ‹_›, .inl ‹_›⟩ hn
      · exact hp.elim id fun hn => absurd ⟨‹_›, ‹_›, .inr ‹_›⟩ hn
  · unfold footerStep
    split
    · unfold paddingStep
      simp only
      split
      · split <;> exact ⟨_, _, rfl⟩
      · exact under _
    · unfold footerCrcStep
      simp only
      split
      · split
        · split <;> exact ⟨_, _, rfl⟩
        · exact ⟨_, _, rfl⟩
      · exact under _
  · exact ⟨_, _, rfl⟩
  · exact ⟨_, _, rfl⟩
  · next h => exact absurd h hf

/-- With a predictor and room in the stream the micro-step answers a next state. -/
theorem microStep_next {s : State} (hf : s.fsm ≠ .failed) (hr : s.Room) (hp : s.predictor.isSome = true ∨ ¬s.AtPayload) :
    ∃ t st, microStep s = .next (t, st) := by
  refine microStep_answers hf (hp.imp_left fun hp => ?_)
  rcases predictorStep_cases s with h | h | h
  · exact h
  · rw [h.1] at hp; cases hp
  · exact absurd hr h.2.1

/-- Everything the loop that ends with status `st` in state `t` can have done. -/
structure DecodeOk (s t : State) (st : Status) : Prop where
  adv : s.Advance t
  res0 : t.res0 = s.res0
  res1 : t.res1 = s.res1
  res2 : t.res2 = s.res2
  rb : t.rb = s.rb
  dmem : t.dmem = s.dmem
  inv : s.FrameInv → t.FrameInv
  failed : t.fsm = .failed → s.fsm = .failed ∨ st.sticky = true
  shape : ∀ c, st ≠ .invalid c
  contract : ∀ c, st = .violation c → c = .predictorContract
  done : st = .ok → t.fsm = .done ∧ t.fpresent = true ∧ t.fcur = 0

theorem MicroOk.decode {s t : State} {st : Status} (h : MicroOk s t st) (hd : st = .ok → t.fsm = .done) : DecodeOk s t st :=
  ⟨h.adv, h.res0, h.res1, h.res2, h.rb, h.dmem, h.inv, h.failed, h.shape, h.contract,
    fun e => ⟨hd e, h.created e (hd e)⟩⟩

theorem DecodeOk.after {s t u : State} {st : Status} (h : MicroOk s t .ok) (k : DecodeOk t u st) : DecodeOk s u st :=
  ⟨h.adv.trans k.adv, k.res0.trans h.res0, k.res1.trans h.res1, k.res2.trans h.res2, k.rb.trans h.rb, k.dmem.trans h.dmem,
    fun i => k.inv (h.inv i),
    fun e => (k.failed e).elim (fun f => (h.failed f).imp id (fun x => by cases x)) .inr, k.shape, k.contract, k.done⟩

/-- Everything the FR.DECODE loop can do. -/
theorem decodeLoop_ok (turns : Nat) (s t : State) (st : Status) (h : decodeLoop turns s = .next (t, st)) : DecodeOk s t st := by
  induction turns generalizing s with
  | zero => cases h
  | succ turns ih =>
    unfold decodeLoop at h
    split at h
    · next u e =>
      have k := microStep_ok s _ _ e
      split at h
      · next hd =>
        cases h
        exact k.decode fun _ => hd
      · exact DecodeOk.after k (ih _ h)
    · next h' =>
      refine (microStep_ok s _ _ h).decode ?_
      rintro rfl
      exact absurd h (h' _)

/-- The loop with turns to spare is the loop of the spec: one micro-step, then the loop again. -/
theorem decodeLoop_turns {s : State} (hi : s.FrameInv) (n m : Nat) (hn : s.measure < n) (hm : s.measure < m) :
    decodeLoop n s = decodeLoop m s := by
  induction n generalizing s m with
  | zero => omega
  | succ n ih =>
    cases m with
    | zero => omega
    | succ m =>
      unfold decodeLoop
      split
      · next u e =>
        split
        · rfl
        · have k := microStep_ok s _ _ e
          have := k.progress hi rfl
          exact ih (k.inv hi) m (by omega) (by omega)
      · rfl

/-- R273: a micro-step with another status than OK ends the loop. -/
theorem decodeRun_stop {s : State} (h : ∀ t, microStep s ≠ .next (t, .ok)) : decodeRun s = microStep s := by
  unfold decodeRun
  obtain ⟨n, e⟩ : ∃ n, s.decodeTurns = n + 1 := ⟨s.decodeTurns - 1, by unfold State.decodeTurns; omega⟩
  rw [e, decodeLoop]
  split
  · next t ht => exact absurd ht (h t)
  · rfl

/-- R273: a micro-step that makes a Frame ends the loop with OK. -/
theorem decodeRun_frame {s t : State} (h : microStep s = .next (t, .ok)) (hd : t.fsm = .done) :
    decodeRun s = .next (t, .ok) := by
  unfold decodeRun
  obtain ⟨n, e⟩ : ∃ n, s.decodeTurns = n + 1 := ⟨s.decodeTurns - 1, by unfold State.decodeTurns; omega⟩
  rw [e, decodeLoop, h]
  simp [hd, Res.done]

/-- R273: after any other micro-step the loop goes on. -/
theorem decodeRun_loop {s t : State} (hi : s.FrameInv) (h : microStep s = .next (t, .ok)) (hd : t.fsm ≠ .done) :
    decodeRun s = decodeRun t := by
  have k := microStep_ok s _ _ h
  have := k.progress hi rfl
  have h1 := s.measure_lt_turns
  have h2 := t.measure_lt_turns
  unfold decodeRun
  obtain ⟨n, e⟩ : ∃ n, s.decodeTurns = n + 1 := ⟨s.decodeTurns - 1, by omega⟩
  rw [e, decodeLoop, h]
  simp only [hd, if_false]
  exact decodeLoop_turns (k.inv hi) _ _ (by omega) h2

/-- An advance leaves room for the answers still to come. -/
theorem State.Room.advance {s t : State} (hr : s.Room) (h : s.Advance t) : t.Room := by
  have := h.total
  unfold State.Room at *
  omega

/-- With a predictor and room in the stream the loop always completes. -/
theorem decodeLoop_next {s : State} (hi : s.FrameInv) (hf : s.fsm ≠ .failed) (hr : s.Room) (hp : s.predictor.isSome = true) (n : Nat)
    (hn : s.measure < n) : ∃ t st, decodeLoop n s = .next (t, st) := by
  induction n generalizing s with
  | zero => omega
  | succ n ih =>
    obtain ⟨t, st, e⟩ := microStep_next hf hr (.inl hp)
    have k := microStep_ok s _ _ e
    unfold decodeLoop
    rw [e]
    cases st with
    | ok =>
      simp only
      split
      · exact ⟨_, _, rfl⟩
      · have := k.progress hi rfl
        refine ih (k.inv hi) ?_ (hr.advance k.adv) (by rw [k.present, hp]) (by omega)
        intro hf'
        rcases k.failed hf' with h | h
        · exact hf h
        · cases h
    | underrun => exact ⟨_, _, rfl⟩
    | endOfStream => exact ⟨_, _, rfl⟩
    | invalid c => exact ⟨_, _, rfl⟩
    | fatal c => exact ⟨_, _, rfl⟩
    | violation c => exact ⟨_, _, rfl⟩

theorem decodeRun_next {s : State} (hi : s.FrameInv) (hf : s.fsm ≠ .failed) (hr : s.Room) (hp : s.predictor.isSome = true) :
    ∃ t st, decodeRun s = .next (t, st) := decodeLoop_next hi hf hr hp _ s.measure_lt_turns

/-- Room for every answer to come means no advance overflows the stream. -/
theorem State.Room.noOverflow_advance {s t : State} (hr : s.Room) (h : s.Advance t) : streamOverflow s t = false := by
  have := h.total
  unfold State.Room at hr
  simp [streamOverflow]
  omega

/-- When a micro-step is refused for want of a predictor (60_exceptions.md R412). -/
theorem microStep_predictorAbsent {s : State} : microStep s = .refused .predictorAbsent ↔ s.predictor = none ∧ s.AtPayload := by
  constructor
  · intro e
    have hf : s.fsm ≠ .failed := fun hf => by simp [microStep, hf] at e
    have hk : s.AtPayload := by
      by_contra hk
      obtain ⟨t, st, h⟩ := microStep_answers hf (.inr hk)
      rw [e] at h; cases h
    rw [microStep_atPayload hk] at e
    rcases predictorStep_cases s with ⟨t, st, h⟩ | h | ⟨-, -, h⟩
    · rw [e] at h; cases h
    · exact ⟨h.1, hk⟩
    · rw [e] at h; cases h
  · rintro ⟨hp, hk⟩
    rw [microStep_atPayload hk, predictorStep, hp]

end Sys2Proof.Machine
end

