-- ==== Sys2Proof/Laws/Rice.lean ====
section
/-! SUPPORT. Laws of the Rice decoders (41_bitreader.md R222 to R234): the zigzag inverse, what `Rice(k)` and the loop of
BR.RICEB can do, that the loop's budget is enough, and that a batch decodes what single decodes would. -/

namespace Sys2Proof.Machine

/-! ### Zigzag -/

/-- R222 in ℤ: halves of even codes, minus halves of odd ones. -/
theorem zigzag_toInt (v : Word) :
    (zigzag v).toInt = if v.toNat % 2 = 0 then (v.toNat / 2 : Int) else -((v.toNat + 1) / 2 : Int) := by
  have hv := v.isLt
  have h1 : (v >>> 1).toNat = v.toNat / 2 := by simp [BitVec.toNat_ushiftRight, Nat.shiftRight_eq_div_pow]
  have h2 : (v &&& 1#32).toNat = v.toNat % 2 := by simp [BitVec.toNat_and, Nat.and_one_is_mod]
  rcases Nat.mod_two_eq_zero_or_one v.toNat with e | e
  · have hz : v &&& 1#32 = 0#32 := by apply BitVec.eq_of_toNat_eq; rw [h2, e]; rfl
    rw [if_pos e, zigzag, hz]
    have : (v >>> 1) ^^^ (0#32 - 0#32) = v >>> 1 := by simp
    rw [this, BitVec.toInt_eq_toNat_of_lt (by rw [h1]; omega), h1]
    omega
  · have hz : v &&& 1#32 = 1#32 := by apply BitVec.eq_of_toNat_eq; rw [h2, e]; rfl
    rw [if_neg (by omega), zigzag, hz]
    have : (v >>> 1) ^^^ (0#32 - 1#32) = ~~~ (v >>> 1) := by
      have : (0#32 - 1#32) = BitVec.allOnes 32 := by decide
      rw [this, BitVec.xor_allOnes]
    have h3 : (~~~ (v >>> 1)).toNat = 2 ^ 32 - 1 - v.toNat / 2 := by rw [BitVec.toNat_not, h1]
    rw [this, BitVec.toInt_eq_toNat_cond, h3]
    split <;> push_cast <;> omega

/-- An address below 2^64 is what the register holds. -/
theorem addressReg_of_lt {n : Nat} (h : n < 2 ^ 64) : addressReg n = BitVec.ofNat 64 n := if_pos h

/-! ### One bit, one value -/

/-- Everything the loop of BR.RICEB that ends with status `st` in state `t` can have done. -/
structure RiceOk (s t : State) (st : Status) : Prop where
  adv : s.Advance t
  kept : t = { s with
    res0 := t.res0, res1 := t.res1, res2 := t.res2, S := t.S, cons := t.cons, eos := t.eos, rb := t.rb, dw := t.dw
    dmem := t.dmem, upstream := t.upstream }
  status : st = .ok ∨ st = .underrun ∨ st = .invalid .riceOverflow
  batch : (s.rb.active = true ∨ s.rb.remaining = 0) → s.rb.k ≤ 31 → s.rb.rn ≤ s.rb.k →
    t.rb.active = decide (0 < t.rb.remaining) ∧ t.rb.k ≤ 31 ∧ t.rb.rn ≤ t.rb.k
  dmemWf : Memory.wf s.dmem = true → Memory.wf t.dmem = true
  outside : ∀ a, a < s.rb.dst ∨ s.rb.dst + 4 * s.rb.remaining ≤ a → memByte t.dmem a = memByte s.dmem a

theorem riceEmit_outside (s : State) (a : Nat) (h : a < s.rb.dst ∨ s.rb.dst + 4 ≤ a) :
    memByte s.riceEmit.dmem a = memByte s.dmem a :=
  memByte_memWriteWords_outside _ _ _ _ (by simpa using h)

/-- A loop turn that changes the stream and the batch record only. -/
theorem RiceOk.turn {s u t : State} {st : Status} (h : s.Advance u)
    (hk : u = { s with S := u.S, cons := u.cons, eos := u.eos, rb := u.rb, dw := u.dw, upstream := u.upstream })
    (hb : u.rb.active = s.rb.active ∧ u.rb.remaining = s.rb.remaining ∧ u.rb.k = s.rb.k ∧ u.rb.dst = s.rb.dst ∧
      (s.rb.rn ≤ s.rb.k → u.rb.rn ≤ s.rb.k))
    (k : RiceOk u t st) : RiceOk s t st := by
  obtain ⟨b1, b2, b3, b4, b5⟩ := hb
  have hd : u.dmem = s.dmem := by rw [hk]
  refine ⟨h.trans k.adv, by rw [k.kept, hk], k.status, ?_, fun w => k.dmemWf (by rw [hd]; exact w), ?_⟩
  · intro a c d
    exact k.batch (by rw [b1, b2]; exact a) (by rw [b3]; exact c) (by rw [b3]; exact b5 d)
  · intro a ha
    rw [k.outside a (by rw [b4, b2]; exact ha), hd]

/-- The loop's last act: result registers and perhaps the batch record. -/
theorem RiceOk.last {s u : State} {st : Status} (n : Nat) (rb : RiceBatch) (hp : s.PulledTo u)
    (hs : st = .ok ∨ st = .underrun ∨ st = .invalid .riceOverflow)
    (hb : (s.rb.active = true ∨ s.rb.remaining = 0) → s.rb.k ≤ 31 → s.rb.rn ≤ s.rb.k →
      rb.active = decide (0 < rb.remaining) ∧ rb.k ≤ 31 ∧ rb.rn ≤ rb.k) :
    RiceOk s { u.riceResults n with rb := rb } st :=
  ⟨hp.advance.trans (.of_stream_eq rfl), by rw [hp.same]; rfl, hs, hb,
    fun w => by simpa [State.riceResults, hp.dmem_eq] using w, fun a _ => by simp [State.riceResults, hp.dmem_eq]⟩

theorem riceQuotBit_kept (u : State) : u.riceQuotBit = { u with cons := u.riceQuotBit.cons, rb := u.riceQuotBit.rb } := by
  unfold State.riceQuotBit
  split <;> rfl

theorem State.PulledTo.turn {s u v : State} (hp : s.PulledTo u) (hv : v = { u with cons := v.cons, rb := v.rb }) :
    v = { s with S := u.S, cons := v.cons, eos := u.eos, rb := v.rb, dw := u.dw, upstream := u.upstream } := by
  conv_lhs => rw [hv, hp.same]

theorem riceQuotBit_adv (s : State) (h : s.has 1 = true) : s.Advance s.riceQuotBit := by
  have hc := State.Advance.of_consume s 1 (.inl (by simpa [State.has] using h))
  unfold State.riceQuotBit
  split <;> exact hc.trans (.of_stream_eq rfl)

theorem riceRemBit_adv (s : State) (h : s.has 1 = true) : s.Advance s.riceRemBit :=
  (State.Advance.of_consume s 1 (.inl (by simpa [State.has] using h))).trans (.of_stream_eq rfl)

/-- Turns of the loop of BR.RICEB still to come, at most. -/
def State.riceMeasure (s : State) : Nat := 2 * s.bitsAhead + (if s.rb.phase = .rem then 1 else 0)

theorem State.riceMeasure_lt (s : State) : s.riceMeasure < 2 * s.bitsAhead + 3 := by
  unfold State.riceMeasure
  split <;> omega

theorem bitsAhead_bit {s u : State} (hp : s.PulledTo u) (hh : u.has 1 = true) :
    8 * (u.S.length + (u.upstream.map fun a => a.bytes.length).sum) - (u.cons + 1) < s.bitsAhead := by
  have := hp.bitsAhead_eq
  have := State.has_iff.1 hh
  unfold State.bitsAhead at *
  omega

theorem riceQuotBit_measure {s u : State} (hp : s.PulledTo u) (hh : u.has 1 = true) :
    u.riceQuotBit.riceMeasure < 2 * s.bitsAhead := by
  have := bitsAhead_bit hp hh
  unfold State.riceQuotBit State.riceMeasure State.bitsAhead at *
  split <;> simp only <;> split <;> omega

theorem riceRemBit_measure {s u : State} (hp : s.PulledTo u) (hh : u.has 1 = true) :
    u.riceRemBit.riceMeasure < 2 * s.bitsAhead := by
  have := bitsAhead_bit hp hh
  unfold State.riceRemBit State.riceMeasure State.bitsAhead at *
  simp only
  split <;> omega

theorem riceEmit_measure {s : State} (h : s.rb.phase = .rem) : s.riceEmit.riceMeasure < s.riceMeasure := by
  simp [State.riceMeasure, State.riceEmit, State.bitsAhead, h]

/-- Everything the loop of R232 can do. -/
theorem riceLoop_ok (turns n : Nat) (s t : State) (st : Status) (hm : s.riceMeasure < turns)
    (h : riceLoop turns n s = .next (t, st)) : RiceOk s t st := by
  induction turns generalizing n s with
  | zero => omega
  | succ turns ih =>
    unfold riceLoop at h
    split at h
    · next hr =>
      cases h
      exact .last n _ (.refl s) (.inl rfl) fun _ a b => ⟨by simp [hr], a, b⟩
    · next hr =>
      have hact : (s.rb.active = true ∨ s.rb.remaining = 0) → s.rb.active = true := fun a => a.resolve_right hr
      split at h
      · next hph =>
        -- a quotient bit
        have hp := s.need_pulledTo 1
        simp only at h
        split at h
        · next hh =>
          have hq := riceQuotBit_adv _ hh
          have hadv := hp.advance.trans hq
          have hkq : (s.need 1).riceQuotBit = { s with
              S := (s.need 1).S, cons := (s.need 1).riceQuotBit.cons, eos := (s.need 1).eos
              rb := (s.need 1).riceQuotBit.rb, dw := (s.need 1).dw, upstream := (s.need 1).upstream } :=
            hp.turn (riceQuotBit_kept _)
          split at h
          · cases h
            refine ⟨hadv.trans (.of_stream_eq rfl), ?_, .inr (.inr rfl), fun _ _ _ => by simp [RiceBatch.inactive], ?_, ?_⟩
            · conv_lhs => rw [hkq]
              rw [hkq]; rfl
            · intro w; rw [hkq]; exact w
            · intro a _; rw [hkq]; rfl
          · have hq' := riceQuotBit_measure hp hh
            have hm' : s.riceMeasure = 2 * s.bitsAhead := by simp [State.riceMeasure, hph]
            refine .turn hadv (by rw [hkq]) ?_ (ih _ _ (by omega) h)
            rw [State.riceQuotBit]
            split <;> simp
        · cases h
          exact .last n _ hp (.inr (.inl rfl)) fun a b c => by
            rw [hp.rb_eq]
            exact ⟨by rw [hact a]; simp; omega, b, c⟩
      · next hph =>
        have hm' : s.riceMeasure = 2 * s.bitsAhead + 1 := by simp [State.riceMeasure, hph]
        split at h
        · next hrn =>
          have hp := s.need_pulledTo 1
          simp only at h
          split at h
          · next hh =>
            have hq' := riceRemBit_measure hp hh
            refine .turn (hp.advance.trans (riceRemBit_adv _ hh)) ?_ ?_ (ih _ _ (by omega) h)
            · exact hp.turn rfl
            · simp [State.riceRemBit]
              omega
          · cases h
            exact .last n _ hp (.inr (.inl rfl)) fun a b c => by
              rw [hp.rb_eq]
              exact ⟨by rw [hact a]; simp; omega, b, c⟩
        · have he := riceEmit_measure hph
          have k := ih _ _ (by omega) h
          refine ⟨(State.Advance.of_stream_eq rfl).trans k.adv, by rw [k.kept]; rfl, k.status, ?_, ?_, ?_⟩
          · intro a b c
            exact k.batch (.inl (hact a)) b (by simp [State.riceEmit])
          · intro w
            exact k.dmemWf (memWriteWords_canonical _ _ _ w)
          · intro a ha
            rw [k.outside a (by simp only [State.riceEmit]; omega), riceEmit_outside]
            omega


/-! ### The loop does not depend on its budget -/

theorem riceLoop_turns (a b n : Nat) (s : State) (ha : s.riceMeasure < a) (hb : s.riceMeasure < b) :
    riceLoop a n s = riceLoop b n s := by
  induction a generalizing b n s with
  | zero => omega
  | succ a ih =>
    cases b with
    | zero => omega
    | succ b =>
      unfold riceLoop
      split
      · rfl
      · have hp := s.need_pulledTo 1
        split
        · next hph =>
          have hm : s.riceMeasure = 2 * s.bitsAhead := by simp [State.riceMeasure, hph]
          simp only
          split
          · next hh =>
            have := riceQuotBit_measure hp hh
            split
            · rfl
            · exact ih _ _ _ (by omega) (by omega)
          · rfl
        · next hph =>
          have hm : s.riceMeasure = 2 * s.bitsAhead + 1 := by simp [State.riceMeasure, hph]
          split
          · simp only
            split
            · next hh =>
              have := riceRemBit_measure hp hh
              exact ih _ _ _ (by omega) (by omega)
            · rfl
          · have := riceEmit_measure hph
            exact ih _ _ _ (by omega) (by omega)

/-- The loop of R232 from any point on; `n` values have been written. -/
def riceFrom (n : Nat) (s : State) : Res := riceLoop (2 * s.bitsAhead + 3) n s

theorem riceRun_eq (s : State) : riceRun s = riceFrom 0 s := rfl

theorem riceFrom_ok {n : Nat} {s t : State} {st : Status} (h : riceFrom n s = .next (t, st)) : RiceOk s t st :=
  riceLoop_ok _ _ _ _ _ s.riceMeasure_lt h

theorem riceLoop_eq_from {a n : Nat} {s : State} (h : s.riceMeasure < a) : riceLoop a n s = riceFrom n s :=
  riceLoop_turns _ _ _ _ h s.riceMeasure_lt

/-- R232: no value is left. -/
theorem riceFrom_end {n : Nat} {s : State} (h : s.rb.remaining = 0) :
    riceFrom n s = .next (State.riceResults { s with rb := { s.rb with active := false } } n, .ok) := by
  unfold riceFrom
  rw [riceLoop, if_pos h]
  rfl

/-- R232: a quotient bit is due and there is none. -/
theorem riceFrom_quot_dry {n : Nat} {s : State} (h : s.rb.remaining ≠ 0) (hp : s.rb.phase = .quot)
    (hh : (s.need 1).has 1 = false) : riceFrom n s = .next ((s.need 1).riceResults n, .underrun) := by
  unfold riceFrom
  rw [riceLoop, if_neg h]
  simp [hp, hh, Res.done]

/-- R232: a quotient bit. -/
theorem riceFrom_quot {n : Nat} {s : State} (h : s.rb.remaining ≠ 0) (hp : s.rb.phase = .quot)
    (hh : (s.need 1).has 1 = true)
    (ho : ¬((s.need 1).riceQuotBit.rb.phase = .quot ∧
      riceOver (s.need 1).riceQuotBit.rb.k (s.need 1).riceQuotBit.rb.q = true)) :
    riceFrom n s = riceFrom n (s.need 1).riceQuotBit := by
  have hm := riceQuotBit_measure (s.need_pulledTo 1) hh
  rw [riceFrom, riceLoop, if_neg h]
  simp only [hp, hh, if_true]
  rw [if_neg ho]
  exact riceLoop_eq_from (by omega)

/-- R232: a remainder bit is due and there is none. -/
theorem riceFrom_rem_dry {n : Nat} {s : State} (h : s.rb.remaining ≠ 0) (hp : s.rb.phase = .rem)
    (hr : s.rb.rn < s.rb.k) (hh : (s.need 1).has 1 = false) :
    riceFrom n s = .next ((s.need 1).riceResults n, .underrun) := by
  unfold riceFrom
  rw [riceLoop, if_neg h]
  simp [hp, hh, hr, Res.done]

/-- R232: a remainder bit. -/
theorem riceFrom_rem {n : Nat} {s : State} (h : s.rb.remaining ≠ 0) (hp : s.rb.phase = .rem)
    (hr : s.rb.rn < s.rb.k) (hh : (s.need 1).has 1 = true) : riceFrom n s = riceFrom n (s.need 1).riceRemBit := by
  have hm := riceRemBit_measure (s.need_pulledTo 1) hh
  rw [riceFrom, riceLoop, if_neg h]
  simp only [hp, hh, hr, if_true]
  exact riceLoop_eq_from (by omega)

/-- R232: a value is complete. -/
theorem riceFrom_emit {n : Nat} {s : State} (h : s.rb.remaining ≠ 0) (hp : s.rb.phase = .rem)
    (hr : ¬ s.rb.rn < s.rb.k) : riceFrom n s = riceFrom (n + 1) s.riceEmit := by
  have hm := riceEmit_measure hp
  have := s.riceMeasure_lt
  rw [riceFrom, riceLoop, if_neg h]
  simp only [hp, hr, if_false]
  exact riceLoop_eq_from (by omega)

/-- The loop always completes. -/
theorem riceLoop_next (turns n : Nat) (s : State) : ∃ t st, riceLoop turns n s = .next (t, st) := by
  induction turns generalizing n s with
  | zero => exact ⟨_, _, rfl⟩
  | succ turns ih =>
    unfold riceLoop
    split
    · exact ⟨_, _, rfl⟩
    · split
      · simp only
        split
        · split
          · exact ⟨_, _, rfl⟩
          · exact ih _ _
        · exact ⟨_, _, rfl⟩
      · split
        · simp only
          split
          · exact ih _ _
          · exact ⟨_, _, rfl⟩
        · exact ih _ _

/-! ### `need` further on in the stream -/

/-- Needing `m` bits at a cursor `j` bits ahead is needing `j + m` bits, but for the words compaction discards: so the lemmas of
this section speak of a machine with no buffer words (`W = 0`); the `ww` lemmas of
Laws/Congruence.lean take them to every machine. -/
theorem State.need_ahead (s : State) (j m : Nat) (r : RiceBatch) (d : Memory) (hW : s.cfg.W = 0) :
    State.need { s with cons := s.cons + j, rb := r, dmem := d } m =
      { s.need (j + m) with cons := s.cons + j, rb := r, dmem := d } := by
  have hh : State.has { s with cons := s.cons + j, rb := r, dmem := d } m = s.has (j + m) := by
    rw [Bool.eq_iff_iff, State.has_iff, State.has_iff, Nat.add_assoc]
  unfold State.need
  rw [hh]
  split
  · rfl
  · have hc : State.compacted { s with cons := s.cons + j, rb := r, dmem := d } = s.compacted := by
      simp only [State.compacted, hW, Nat.div_zero]
    rw [hc]
    simp only [Nat.add_assoc]

theorem pullUntil_shorter (a b : Nat) (h : a ≤ b) (up : List PullAnswer) (S : List Byte) (eos : Bool)
    (hr : b ≤ 8 * (pullUntil b up S eos).2.1.length) : a ≤ 8 * (pullUntil a up S eos).2.1.length := by
  induction up generalizing S eos with
  | nil => simp [pullUntil] at *; omega
  | cons x up ih =>
    by_cases ha : a ≤ 8 * S.length
    · rw [pullUntil_reached _ _ _ _ ha]; exact ha
    · have hb : ¬ b ≤ 8 * S.length := by omega
      cases eos with
      | true => simp [pullUntil] at hr; omega
      | false =>
        by_cases hx : x.bytes.isEmpty = true
        · simp [pullUntil, hb, hx] at hr
        · simp only [pullUntil, ha, hb, hx, Bool.false_or, decide_false, Bool.false_eq_true, if_false] at hr ⊢
          exact ih _ _ hr

/-- If `b` bits can be had, so can fewer. -/
theorem State.need_has_mono {s : State} {a b : Nat} (h : a ≤ b) (hb : (s.need b).has b = true) :
    (s.need a).has a = true := by
  by_cases ha : s.has a = true
  · rw [State.need_of_has ha]; exact ha
  · have hb' : ¬ s.has b = true := fun x => ha (State.has_mono h x)
    rw [State.has_iff] at hb ⊢
    simp only [State.need, ha, hb', if_false, Bool.false_eq_true] at hb ⊢
    exact pullUntil_shorter _ _ (by omega) _ _ _ hb

theorem State.need_pulledTo_need {s : State} {a b : Nat} (h : a ≤ b) (ha : (s.need a).has a = true) :
    (s.need a).PulledTo (s.need b) := by
  rw [← State.need_need h ha]
  exact State.need_pulledTo _ _

/-! ### One value of a batch is one `Rice(k)` -/

/-- Everything `Rice(k)` (R223) can do. -/
theorem State.rice_value {s t : State} {k : Nat} {x : Word} (h : s.rice k = (t, .value x)) : ∃ q,
    (s.need (q + 1 + k)).has (q + 1 + k) = true ∧
    (∀ j, j < q → bitAt (s.need (q + 1)).S (s.cons + j) = false) ∧ bitAt (s.need (q + 1)).S (s.cons + q) = true ∧
    (∀ j, 0 < j → j ≤ q → riceOver k j = false) ∧
    x = zigzag (BitVec.ofNat 32 (q * 2 ^ k + field (s.need (q + 1 + k)).S (s.cons + q + 1) k)) ∧
    t = { s.need (q + 1 + k) with cons := s.cons + q + 1 + k } := by
  have hs := s.scan_spec (riceOver k)
  unfold State.rice at h
  generalize s.scan (riceOver k) = r at h hs
  obtain ⟨u, o⟩ := r
  simp only at hs
  cases hs with
  | found q u pulled isNeed there zeros one fits =>
    simp only at h
    have hn : u.need (q + 1 + k) = s.need (q + 1 + k) := by
      rw [isNeed]
      exact State.need_need (by omega) (by rw [← isNeed]; exact there)
    rw [hn] at h
    split at h
    · next hh =>
      cases h
      subst isNeed
      exact ⟨q, hh, zeros, one, fits, by simp, by simp⟩
    · cases h
  | tooLong z u pulled isNeed there zeros exceeds fits => cases h
  | short z u pulled isNeed dry before zeros fits => cases h

/-- The zero bits of the quotient, as the loop of a batch counts them. -/
theorem riceFrom_zeros {n q : Nat} {s : State} (hW : s.cfg.W = 0) (ha : s.cons ≤ s.avail) (hr : s.rb.remaining ≠ 0)
    (hp : s.rb.phase = .quot) (hq : s.rb.q = 0) (hh : (s.need (q + 1)).has (q + 1) = true)
    (hz : ∀ j, j < q → bitAt (s.need (q + 1)).S (s.cons + j) = false)
    (hf : ∀ j, 0 < j → j ≤ q → riceOver s.rb.k j = false) (j : Nat) (hj : j ≤ q) :
    riceFrom n s = riceFrom n { s.need j with cons := s.cons + j, rb := { s.rb with q := j }, dmem := s.dmem } := by
  induction j with
  | zero =>
    have e : s.rb = { s.rb with q := 0 } := by conv_rhs => rw [← hq]
    rw [State.need_of_has (by simpa using ha), ← e]
    rfl
  | succ j ih =>
    rw [ih (by omega)]
    have hj' := State.need_has_mono (show j ≤ q + 1 by omega) hh
    have hj1 := State.need_has_mono (show j + 1 ≤ q + 1 by omega) hh
    have hn : State.need { s.need j with cons := s.cons + j, rb := { s.rb with q := j }, dmem := s.dmem } 1 =
        { s.need (j + 1) with cons := s.cons + j, rb := { s.rb with q := j }, dmem := s.dmem } := by
      have := State.need_ahead (s.need j) j 1 { s.rb with q := j } s.dmem (by simpa using hW)
      rw [State.need_need (by omega) hj', need_cons] at this
      exact this
    have hb1 : bitAt (s.need (j + 1)).S (s.cons + j) = false := by
      rw [← (State.need_pulledTo_need (show j + 1 ≤ q + 1 by omega) hj1).bitAt_eq, hz j (by omega)]
      have := State.has_iff.1 hj1
      rw [need_cons] at this
      simp only [State.avail]
      omega
    have hbit : State.riceQuotBit { s.need (j + 1) with cons := s.cons + j, rb := { s.rb with q := j }, dmem := s.dmem } =
        { s.need (j + 1) with cons := s.cons + (j + 1), rb := { s.rb with q := j + 1 }, dmem := s.dmem } := by
      unfold State.riceQuotBit
      simp only
      rw [if_neg (by simp [hb1])]
      rfl
    have hhas : State.has { s.need (j + 1) with cons := s.cons + j, rb := { s.rb with q := j }, dmem := s.dmem } 1 = true := by
      rw [State.has_iff] at hj1 ⊢
      rw [need_cons] at hj1
      simp only
      omega
    rw [riceFrom_quot (by simpa using hr) (by simpa using hp) (by rw [hn]; exact hhas), hn, hbit]
    rw [hn, hbit]
    simp only [not_and, hp]
    intro _
    simp [hf (j + 1) (by omega) hj]

/-- The remainder bits, as the loop of a batch reads them. -/
theorem riceFrom_remBits {n p k : Nat} {s : State} (r : RiceBatch) (hW : s.cfg.W = 0) (hr : r.remaining ≠ 0)
    (hp : r.phase = .rem) (hk : r.k = k) (hh : (s.need (p + k)).has (p + k) = true) (i : Nat) (hi : i ≤ k) :
    riceFrom n { s.need p with cons := s.cons + p, rb := { r with rn := 0, r := 0 }, dmem := s.dmem } =
      riceFrom n { s.need (p + i) with
        cons := s.cons + p + i, rb := { r with rn := i, r := field (s.need (p + k)).S (s.cons + p) i }, dmem := s.dmem } := by
  induction i with
  | zero => rfl
  | succ i ih =>
    rw [ih (by omega)]
    have hj' := State.need_has_mono (show p + i ≤ p + k by omega) hh
    have hj1 := State.need_has_mono (show p + (i + 1) ≤ p + k by omega) hh
    generalize hR : ({ r with rn := i, r := field (s.need (p + k)).S (s.cons + p) i } : RiceBatch) = R
    have hn : State.need { s.need (p + i) with cons := s.cons + p + i, rb := R, dmem := s.dmem } 1 =
        { s.need (p + (i + 1)) with cons := s.cons + p + i, rb := R, dmem := s.dmem } := by
      have := State.need_ahead (s.need (p + i)) (p + i) 1 R s.dmem (by simpa using hW)
      rw [State.need_need (by omega) hj', need_cons, ← Nat.add_assoc] at this
      exact this
    have hbit : State.riceRemBit { s.need (p + (i + 1)) with cons := s.cons + p + i, rb := R, dmem := s.dmem } =
        { s.need (p + (i + 1)) with
          cons := s.cons + p + (i + 1)
          rb := { r with rn := i + 1, r := field (s.need (p + k)).S (s.cons + p) (i + 1) }, dmem := s.dmem } := by
      have hb1 : bitAt (s.need (p + (i + 1))).S (s.cons + p + i) = bitAt (s.need (p + k)).S (s.cons + p + i) := by
        rw [← (State.need_pulledTo_need (show p + (i + 1) ≤ p + k by omega) hj1).bitAt_eq]
        have := State.has_iff.1 hj1
        rw [need_cons] at this
        simp only [State.avail]
        omega
      unfold State.riceRemBit
      simp only [hb1]
      subst hR
      rfl
    have hhas : State.has { s.need (p + (i + 1)) with cons := s.cons + p + i, rb := R, dmem := s.dmem } 1 = true := by
      rw [State.has_iff] at hj1 ⊢
      rw [need_cons] at hj1
      simp only
      omega
    rw [riceFrom_rem (by subst hR; exact hr) (by subst hR; exact hp) (by subst hR; simp only; omega)
      (by rw [hn]; exact hhas), hn, hbit]

/-- One value of a batch is one `Rice(k)`, written to DMEM (R234). -/
theorem riceFrom_value {n : Nat} {s t : State} {x : Word} (hW : s.cfg.W = 0) (ha : s.cons ≤ s.avail)
    (hr : s.rb.remaining ≠ 0) (hp : s.rb.phase = .quot) (hq : s.rb.q = 0) (hn : s.rb.rn = 0) (h0 : s.rb.r = 0)
    (h : s.rice s.rb.k = (t, .value x)) :
    riceFrom n s = riceFrom (n + 1) { t with
      dmem := memWriteWords s.dmem s.rb.dst [x]
      rb := { s.rb with dst := s.rb.dst + 4, remaining := s.rb.remaining - 1 } } := by
  obtain ⟨q, hh, hz, h1, hf, hx, ht⟩ := State.rice_value h
  have hh1 := State.need_has_mono (show q + 1 ≤ q + 1 + s.rb.k by omega) hh
  have hhq := State.need_has_mono (show q ≤ q + 1 by omega) hh1
  rw [riceFrom_zeros hW ha hr hp hq hh1 hz hf q le_rfl]
  -- the 1 bit
  have hn1 : State.need { s.need q with cons := s.cons + q, rb := { s.rb with q := q }, dmem := s.dmem } 1 =
      { s.need (q + 1) with cons := s.cons + q, rb := { s.rb with q := q }, dmem := s.dmem } := by
    have := State.need_ahead (s.need q) q 1 { s.rb with q := q } s.dmem (by simpa using hW)
    rw [State.need_need (by omega) hhq, need_cons] at this
    exact this
  have hbit : State.riceQuotBit { s.need (q + 1) with cons := s.cons + q, rb := { s.rb with q := q }, dmem := s.dmem } =
      { s.need (q + 1) with
        cons := s.cons + (q + 1), rb := { { s.rb with q := q, phase := .rem } with rn := 0, r := 0 }, dmem := s.dmem } := by
    unfold State.riceQuotBit
    simp only
    rw [if_pos h1]
    rw [hn, h0]
    rfl
  have hhas : State.has { s.need (q + 1) with cons := s.cons + q, rb := { s.rb with q := q }, dmem := s.dmem } 1 = true := by
    rw [State.has_iff] at hh1 ⊢
    rw [need_cons] at hh1
    simp only
    omega
  rw [riceFrom_quot (by simpa using hr) (by simpa using hp) (by rw [hn1]; exact hhas) (by rw [hn1, hbit]; simp), hn1, hbit]
  -- the remainder
  rw [riceFrom_remBits { s.rb with q := q, phase := .rem } hW hr rfl rfl hh s.rb.k le_rfl]
  -- the value
  rw [riceFrom_emit (by simpa using hr) rfl (by simp)]
  congr 1
  rw [ht, hx]
  unfold State.riceEmit
  simp only [Nat.add_assoc, hp, hq, hn, h0]


/-! ### A batch is as many single decodes (R234) -/

/-- `need` does not look at the batch record, DMEM, the result registers or STATUS. -/
theorem State.need_update (s : State) (n : Nat) (rb : RiceBatch) (d : Memory) (r0 r1 r2 : Reg) (st : Half) :
    State.need { s with rb := rb, dmem := d, res0 := r0, res1 := r1, res2 := r2, status := st } n =
      { s.need n with rb := rb, dmem := d, res0 := r0, res1 := r1, res2 := r2, status := st } := by
  unfold State.need
  split <;> split <;> first
    | rfl
    | (rename_i h1 h2; exact absurd h1 h2)
    | (rename_i h1 h2; exact absurd h2 h1)

theorem scanZeros_update (tooMany : Nat → Bool) (turns z : Nat) (s : State) (rb : RiceBatch) (d : Memory) (r0 r1 r2 : Reg)
    (st : Half) :
    scanZeros tooMany turns z { s with rb := rb, dmem := d, res0 := r0, res1 := r1, res2 := r2, status := st } =
      ({ (scanZeros tooMany turns z s).1 with rb := rb, dmem := d, res0 := r0, res1 := r1, res2 := r2, status := st },
        (scanZeros tooMany turns z s).2) := by
  induction turns generalizing z s with
  | zero => rfl
  | succ turns ih =>
    unfold scanZeros
    simp only [State.need_update]
    have hh : State.has { s.need (z + 1) with rb := rb, dmem := d, res0 := r0, res1 := r1, res2 := r2, status := st } (z + 1) =
        (s.need (z + 1)).has (z + 1) := rfl
    rw [hh]
    by_cases h1 : (s.need (z + 1)).has (z + 1) = true
    · simp only [h1, if_true]
      by_cases h2 : bitAt (s.need (z + 1)).S ((s.need (z + 1)).cons + z) = true
      · simp only [h2, if_true]
      · simp only [h2, if_false, Bool.false_eq_true]
        by_cases h3 : tooMany (z + 1) = true
        · simp only [h3, if_true]
        · simp only [h3, if_false, Bool.false_eq_true]
          exact ih _ _
    · simp only [h1, if_false, Bool.false_eq_true]

/-- `Rice(k)` does not look at them either. -/
theorem State.rice_update (s : State) (k : Nat) (rb : RiceBatch) (d : Memory) (r0 r1 r2 : Reg) (st : Half) :
    State.rice { s with rb := rb, dmem := d, res0 := r0, res1 := r1, res2 := r2, status := st } k =
      ({ (s.rice k).1 with rb := rb, dmem := d, res0 := r0, res1 := r1, res2 := r2, status := st }, (s.rice k).2) := by
  have hs : State.scan { s with rb := rb, dmem := d, res0 := r0, res1 := r1, res2 := r2, status := st } (riceOver k) =
      ({ (s.scan (riceOver k)).1 with rb := rb, dmem := d, res0 := r0, res1 := r1, res2 := r2, status := st },
        (s.scan (riceOver k)).2) := scanZeros_update _ _ _ _ _ _ _ _ _ _
  unfold State.rice
  rw [hs]
  generalize s.scan (riceOver k) = r
  obtain ⟨u, o⟩ := r
  cases o with
  | found q =>
    simp only [State.need_update]
    have hh : State.has { u.need (q + 1 + k) with rb := rb, dmem := d, res0 := r0, res1 := r1, res2 := r2, status := st }
        (q + 1 + k) = (u.need (q + 1 + k)).has (q + 1 + k) := rfl
    rw [hh]
    split <;> rfl
  | short => rfl
  | tooLong => rfl

/-- Successive decodes of the values `xs`; between two of them RES0 and STATUS change. -/
inductive RiceSingles (k : Nat) : State → List Word → State → Prop where
  | nil (s : State) : RiceSingles k s [] s
  | cons (s u t : State) (x : Word) (xs : List Word) (r0 : Reg) (st : Half) (h : s.rice k = (u, .value x))
      (rest : RiceSingles k { u with res0 := r0, status := st } xs t) : RiceSingles k s (x :: xs) t

/-- The batch decodes what successive single decodes do, and ends in the same place (R234). -/
theorem riceFrom_singles {k n : Nat} {s t : State} {xs : List Word} (hk : RiceSingles k s xs t) (hW : s.cfg.W = 0)
    (ha : s.cons ≤ s.avail) (dst : Nat) (d : Memory) (hd : Memory.wf d = true) (r0 r1 r2 : Reg) (st : Half) (act : Bool) :
    riceFrom n { s with
        rb := ⟨act, k, dst, xs.length, .quot, 0, 0, 0⟩, dmem := d, res0 := r0, res1 := r1, res2 := r2, status := st } =
      .next ({ t with
        rb := ⟨false, k, dst + 4 * xs.length, 0, .quot, 0, 0, 0⟩, dmem := memWriteWords d dst xs
        res0 := natReg (n + xs.length), res1 := addressReg (dst + 4 * xs.length), res2 := natReg 0, status := st }, .ok) := by
  induction hk generalizing n dst d with
  | nil s =>
    rw [riceFrom_end rfl, memWriteWords_nil _ _ hd]
    rfl
  | cons s u t x xs r0' st' h rest ih =>
    obtain ⟨q, hh, -, -, -, -, hu⟩ := State.rice_value h
    have hcons : s.cons + q + 1 + k ≤ u.avail := by
      have := State.has_iff.1 hh
      rw [need_cons] at this
      rw [hu]
      simp only [State.avail]
      omega
    have hr := State.rice_update s k ⟨act, k, dst, (x :: xs).length, .quot, 0, 0, 0⟩ d r0 r1 r2 st
    rw [h] at hr
    rw [riceFrom_value (s := { s with
      rb := ⟨act, k, dst, (x :: xs).length, .quot, 0, 0, 0⟩, dmem := d, res0 := r0, res1 := r1, res2 := r2, status := st })
      hW ha (by simp) rfl rfl rfl rfl hr]
    have := ih (n := n + 1) (by rw [hu]; simpa using hW) (by rw [hu] at hcons ⊢; exact hcons) (dst + 4)
      (memWriteWords d dst [x]) (memWriteWords_canonical _ _ _ hd)
    simp only [List.length_cons, Nat.add_sub_cancel] at this ⊢
    have hm := memWriteWords_append d dst [x] xs
    simp only [List.length_singleton, Nat.mul_one, List.singleton_append] at hm
    rw [this, hm]
    have e1 : dst + 4 + 4 * xs.length = dst + 4 * (xs.length + 1) := by omega
    have e2 : n + 1 + xs.length = n + (xs.length + 1) := by omega
    rw [e1, e2]

/-! ### A suspended batch continued is the batch with all bits there (R234) -/

theorem bitAt_of_prefix {S R : List Byte} (h : S <+: R) {p : Nat} (hp : p < 8 * S.length) : bitAt R p = bitAt S p := by
  obtain ⟨T, rfl⟩ := h
  exact bitAt_append _ _ _ hp

/-- A run of the loop, replayed on a stream that already holds its bits. -/
theorem riceLoop_replay (turns n m : Nat) (a t b : State) (st : Status) (hm : a.riceMeasure < turns)
    (h : riceLoop turns n a = .next (t, st)) (hc : b.cons = a.cons) (hr : b.rb = a.rb) (hd : b.dmem = a.dmem)
    (hS : t.S <+: b.S) :
    (st = .ok → ∃ t', riceFrom m b = .next (t', .ok) ∧ t'.cons = t.cons ∧ t'.dmem = t.dmem ∧ t'.rb = t.rb ∧ t'.S = b.S) ∧
    (st = .underrun → ∃ b' m', riceFrom m b = riceFrom m' b' ∧ b'.cons = t.cons ∧ b'.rb = t.rb ∧ b'.dmem = t.dmem ∧
      b'.S = b.S) := by
  induction turns generalizing n m a b with
  | zero => omega
  | succ turns ih =>
    have hok := riceLoop_ok _ _ _ _ _ hm h
    unfold riceLoop at h
    split at h
    · next hrem =>
      cases h
      refine ⟨fun _ => ⟨_, riceFrom_end (by rw [hr]; exact hrem), hc, hd, ?_, rfl⟩, fun e => by cases e⟩
      simp [State.riceResults, hr]
    · next hrem =>
      have hrem' : b.rb.remaining ≠ 0 := by rw [hr]; exact hrem
      have hp := a.need_pulledTo 1
      -- a bit the run has read is there in `b`
      have there : ∀ u v : State, a.need 1 = u → u.has 1 = true → u.Advance v → v.S = u.S → v.Advance t →
          b.has 1 = true ∧ bitAt b.S b.cons = bitAt u.S u.cons := by
        intro u v hu h1 _ hvS hvt
        subst hu
        obtain ⟨pre, _, hts, _⟩ := hvt.answers
        have hpre : (a.need 1).S <+: b.S := (show (a.need 1).S <+: t.S from ⟨_, by rw [hts, hvS]⟩).trans hS
        have h1' := State.has_iff.1 h1
        have hle := hpre.length_le
        rw [need_cons] at h1'
        refine ⟨State.has_iff.2 (by rw [hc]; omega), ?_⟩
        rw [need_cons, hc]
        exact bitAt_of_prefix hpre (by omega)
      split at h
      · next hph =>
        have hmm : a.riceMeasure = 2 * a.bitsAhead := by simp [State.riceMeasure, hph]
        simp only at h
        split at h
        · next hh =>
          have hq := riceQuotBit_measure hp hh
          have hqa := riceQuotBit_adv _ hh
          split at h
          · cases h
            exact ⟨fun e => (by cases e), fun e => (by cases e)⟩
          · next ho =>
            have hk := riceLoop_ok _ _ _ _ _ (show (a.need 1).riceQuotBit.riceMeasure < turns by omega) h
            obtain ⟨h1, hbit⟩ := there _ _ rfl hh hqa (by rw [riceQuotBit_kept]) hk.adv
            have hbq : b.riceQuotBit.cons = (a.need 1).riceQuotBit.cons ∧ b.riceQuotBit.rb = (a.need 1).riceQuotBit.rb := by
              unfold State.riceQuotBit
              rw [hbit]
              split <;> simp [hc, hr]
            have hn : b.need 1 = b := State.need_of_has h1
            rw [riceFrom_quot hrem' (by rw [hr]; exact hph) (by rw [hn]; exact h1) (by rw [hn, hbq.2]; exact ho), hn]
            have := ih n m (a.need 1).riceQuotBit b.riceQuotBit (by omega) h hbq.1 hbq.2
              (by rw [riceQuotBit_kept, riceQuotBit_kept (a.need 1)]; simp [hd]) (by rw [riceQuotBit_kept]; exact hS)
            have hSb : b.riceQuotBit.S = b.S := by rw [riceQuotBit_kept]
            rw [hSb] at this
            exact this
        · cases h
          refine ⟨fun e => (by cases e), fun _ => ⟨b, m, rfl, ?_, ?_, ?_, rfl⟩⟩
          · simp [State.riceResults, hc]
          · simp [State.riceResults, hr]
          · simp [State.riceResults, hd]
      · next hph =>
        have hmm : a.riceMeasure = 2 * a.bitsAhead + 1 := by simp [State.riceMeasure, hph]
        split at h
        · next hrn =>
          simp only at h
          split at h
          · next hh =>
            have hq := riceRemBit_measure hp hh
            have hqa := riceRemBit_adv _ hh
            have hk := riceLoop_ok _ _ _ _ _ (show (a.need 1).riceRemBit.riceMeasure < turns by omega) h
            obtain ⟨h1, hbit⟩ := there _ _ rfl hh hqa rfl hk.adv
            have hn : b.need 1 = b := State.need_of_has h1
            rw [riceFrom_rem hrem' (by rw [hr]; exact hph) (by rw [hr]; exact hrn) (by rw [hn]; exact h1), hn]
            exact ih n m (a.need 1).riceRemBit b.riceRemBit (by omega) h (by simp [State.riceRemBit, hc])
              (by simp [State.riceRemBit, hr, hbit]) (by simp [State.riceRemBit, hd]) hS
          · cases h
            refine ⟨fun e => (by cases e), fun _ => ⟨b, m, rfl, ?_, ?_, ?_, rfl⟩⟩
            · simp [State.riceResults, hc]
            · simp [State.riceResults, hr]
            · simp [State.riceResults, hd]
        · next hrn =>
          have he := riceEmit_measure hph
          rw [riceFrom_emit hrem' (by rw [hr]; exact hph) (by rw [hr]; exact hrn)]
          exact ih (n + 1) (m + 1) a.riceEmit b.riceEmit (by omega) h hc (by simp [State.riceEmit, hr])
            (by simp [State.riceEmit, hr, hd]) hS

end Sys2Proof.Machine
end

