-- ==== Sys2Proof/Laws/Exec.lean ====
section
/-! SUPPORT. What each command's body can do: one lemma per body of the BitReader, and one structure `BodyOk` that says for
every command that passes the common checks what it changes and what it keeps. -/

namespace Sys2Proof.Machine

/-! ### BitReader bodies other than BR.RICEB's -/

/-- The body read the stream and wrote result registers, nothing else. -/
structure ReaderOk (s u : State) : Prop where
  adv : s.Advance u
  kept : u = { s with
    res0 := u.res0, res1 := u.res1, res2 := u.res2, S := u.S, cons := u.cons, base := u.base, bcrc := u.bcrc, eos := u.eos
    dw := u.dw, upstream := u.upstream }

def ReaderRes (s : State) (r : Res) : Prop := ∀ u st, r = .next (u, st) → ReaderOk s u

theorem ReaderRes.done {s u : State} {st : Status} (h : ReaderOk s u) : ReaderRes s (Res.done u st) := by
  rintro u' st' ⟨⟩
  exact h

theorem ReaderOk.pulled {s u v : State} (h : s.PulledTo u)
    (hv : v = { u with res0 := v.res0, res1 := v.res1, res2 := v.res2 }) : ReaderOk s v :=
  ⟨h.advance.trans (.of_stream_eq (by rw [hv])), by rw [hv, h.same]⟩

theorem ReaderOk.consumed {s u v : State} {n : Nat} (h : s.PulledTo u) (hn : u.has n = true)
    (hv : v = { u with cons := s.cons + n, res0 := v.res0, res1 := v.res1, res2 := v.res2 }) : ReaderOk s v :=
  ⟨(h.consume hn).trans (.of_stream_eq (by rw [hv])), by rw [hv, h.same]⟩

theorem ReaderRes.violation (s : State) (c : ViolationCause) : ReaderRes s (Res.violation s c) :=
  .done (.pulled (.refl s) rfl)

theorem ReaderRes.noBatch {s : State} {r : Res} (h : ReaderRes s r) : ReaderRes s (noBatch s r) := by
  unfold Machine.noBatch
  split
  · exact .violation _ _
  · exact h

theorem readField_ok (n : Nat) (s : State) : ReaderRes s (readField n s) := by
  unfold readField
  rw [State.take_spec]
  split
  · next hh =>
    split at hh
    · next hb =>
      cases hh
      exact .done (.consumed (s.need_pulledTo n) hb rfl)
    · cases hh
  · next hh =>
    split at hh
    · cases hh
    · cases hh
      exact .done (.pulled (s.need_pulledTo n) rfl)

theorem unaryBody_ok (s : State) : ReaderRes s (unaryBody s) := by
  have hs := s.scan_spec (unaryOver s.cfg)
  unfold unaryBody
  generalize s.scan (unaryOver s.cfg) = r at hs
  obtain ⟨t, o⟩ := r
  simp only at hs
  cases hs with
  | found z t pulled isNeed there zeros one fits =>
    exact .done (.consumed pulled there (by rw [pulled.cons_eq, Nat.add_assoc]))
  | tooLong z t pulled isNeed there zeros exceeds fits => exact .done (.pulled pulled rfl)
  | short z t pulled isNeed dry before zeros fits => exact .done (.pulled pulled rfl)

/-- Everything `Rice(k)` does to the state. -/
theorem State.rice_state (s : State) (k : Nat) : (∃ x, (s.rice k).2 = .value x ∧ ∃ n u, s.PulledTo u ∧ u.has n = true ∧
      (s.rice k).1 = { u with cons := s.cons + n }) ∨ ((∀ x, (s.rice k).2 ≠ .value x) ∧ s.PulledTo (s.rice k).1) := by
  have hs := s.scan_spec (riceOver k)
  unfold State.rice
  generalize s.scan (riceOver k) = r at hs
  obtain ⟨t, o⟩ := r
  simp only at hs
  cases hs with
  | found q t pulled isNeed there zeros one fits =>
    simp only
    have hp := pulled.trans (t.need_pulledTo (q + 1 + k))
    split
    · next hh => exact .inl ⟨_, rfl, _, _, hp, hh, by simp [pulled.cons_eq, Nat.add_assoc]⟩
    · exact .inr ⟨by simp, hp⟩
  | tooLong z t pulled isNeed there zeros exceeds fits => exact .inr ⟨by simp, pulled⟩
  | short z t pulled isNeed dry before zeros fits => exact .inr ⟨by simp, pulled⟩

theorem riceBody_ok (k : Nat) (s : State) : ReaderRes s (riceBody k s) := by
  have hs := s.rice_state k
  unfold riceBody
  generalize s.rice k = r at hs
  obtain ⟨t, o⟩ := r
  rcases hs with ⟨x, rfl, n, u, hp, hh, rfl⟩ | ⟨hn, hp⟩
  · exact .done (.consumed hp hh rfl)
  · cases o with
    | value x => exact absurd rfl (hn x)
    | tooLong => exact .done (.pulled hp rfl)
    | short => exact .done (.pulled hp rfl)

theorem utf8Body_ok (wd : Nat) (s : State) : ReaderRes s (utf8Body wd s) := by
  obtain ⟨u, hu, hc⟩ := s.utf8_cases wd
  unfold utf8Body
  rcases hc with e | ⟨hns, hl, hh, e⟩
  · rw [e]
    exact .done (.pulled hu rfl)
  · generalize s.utf8 wd = r at *
    obtain ⟨t, v⟩ := r
    simp only at hns hl hh e
    subst e
    cases v with
    | short => exact absurd rfl hns
    | bad c raw => exact .done (.consumed hu hh rfl)
    | value v raw => exact .done (.consumed hu hh rfl)

theorem zpadBody_ok (s : State) : ReaderRes s (zpadBody s) := by
  have hp := s.need_pulledTo s.padding
  unfold zpadBody
  simp only
  split
  · next hh =>
    split
    · exact .done (.consumed hp hh (by rw [hp.cons_eq]))
    · exact .done (.pulled hp rfl)
  · exact .done (.pulled hp rfl)

theorem skipBody_ok (n : Nat) (s : State) : ReaderRes s (skipBody n s) := by
  have hp := s.need_pulledTo n
  unfold skipBody
  simp only
  split
  · next hh =>
    have h1 : s.Advance { (s.need n).upd with cons := (s.need n).upd.cons + n } :=
      (hp.advance.trans (State.upd_advance _)).trans (.of_consume _ n (.inl (by simpa [State.has, State.avail] using hh)))
    have h2 := h1.trans (.of_baseline _)
    refine .done ⟨h2, ?_⟩
    conv_lhs => rw [State.upd, hp.same]
    simp [State.upd]
  · exact .done (.pulled hp rfl)

theorem refillBody_ok (s : State) : ReaderRes s (refillBody s) := by
  unfold refillBody
  split
  · exact .done (.pulled (.refl s) rfl)
  · next h => exact .done (.pulled (State.pull_pulledTo (by simpa using h)) rfl)

theorem updBody_ok (s : State) : ReaderRes s (Res.done s.upd .ok) := .done ⟨s.upd_advance, rfl⟩

theorem getcrcBody_ok (s : State) : ReaderRes s (Res.done { s.upd with res0 := s.upd.bcrc.setWidth 64 } .ok) :=
  .done ⟨s.upd_advance.trans (.of_stream_eq rfl), rfl⟩

theorem setcrcBody_ok (s : State) (b : Half) : ReaderRes s (Res.done { s with bcrc := b, base := s.cons } .ok) :=
  .done ⟨(State.Advance.of_baseline s).trans (.of_stream_eq rfl), rfl⟩


/-! ### Every command that passes the common checks -/

/-- What the body of command `i` that ends with status `st` in state `u` has changed and kept. -/
structure BodyOk (i : Instr) (s u : State) (st : Status) : Prop where
  adv : State.Advance { s with
    c8 := u.c8, c16 := u.c16, siRate := u.siRate, siBps := u.siBps, siChannels := u.siChannels } u
  crc8 : family i ≠ .crc8 → u.c8 = s.c8
  crc16 : family i ≠ .crc16 → u.c16 = s.c16
  cfg : (∀ a, i ≠ .sysCfg a) → u.siRate = s.siRate ∧ u.siBps = s.siBps ∧ u.siChannels = s.siChannels
  decode : family i ≠ .frame → family i ≠ .pcm → u = { s with
    c8 := u.c8, c16 := u.c16, siRate := u.siRate, siBps := u.siBps, siChannels := u.siChannels, res0 := u.res0
    res1 := u.res1, res2 := u.res2, bcrc := u.bcrc, S := u.S, cons := u.cons, base := u.base, eos := u.eos, rb := u.rb
    dw := u.dw, dmem := u.dmem, upstream := u.upstream }
  batch : (∀ a, i ≠ .brRiceb a) → u.rb = s.rb
  dmem : (∀ a, i ≠ .brRiceb a) → i ≠ .pcmRead → u.dmem = s.dmem
  inv : s.Inv → u.FrameInv ∧ (u.rb.active = decide (0 < u.rb.remaining) ∧ u.rb.k ≤ 31 ∧ u.rb.rn ≤ u.rb.k) ∧
    Memory.wf u.dmem = true
  failed : u.fsm = .failed → s.fsm = .failed ∨ st.sticky = true

/-- A body that changes registers of the CRC units, configuration registers and result registers only. -/
theorem BodyOk.of_regs {i : Instr} {s u : State} {st : Status}
    (hu : u = { s with c8 := u.c8, c16 := u.c16, siRate := u.siRate, siBps := u.siBps, siChannels := u.siChannels
                       res0 := u.res0, res1 := u.res1, res2 := u.res2 })
    (h8 : family i ≠ .crc8 → u.c8 = s.c8) (h16 : family i ≠ .crc16 → u.c16 = s.c16)
    (hc : (∀ a, i ≠ .sysCfg a) → u.siRate = s.siRate ∧ u.siBps = s.siBps ∧ u.siChannels = s.siChannels) : BodyOk i s u st where
  adv := .of_stream_eq (by rw [hu])
  crc8 := h8
  crc16 := h16
  cfg := hc
  decode _ _ := by rw [hu]
  batch _ := by rw [hu]
  dmem _ _ := by rw [hu]
  inv i := by
    rw [hu]
    exact ⟨⟨i.accnLe, i.frameDone, i.frameLen, i.frameCur, i.depth, i.chbufWf⟩, ⟨i.batch, i.batchK, i.batchRn⟩, i.dmemWf⟩
  failed e := .inl (by rw [hu] at e; exact e)

theorem BodyOk.of_reader {i : Instr} {s u : State} {st : Status} (h : ReaderOk s u) : BodyOk i s u st where
  adv := by
    have h8 : u.c8 = s.c8 := by rw [h.kept]
    have h16 : u.c16 = s.c16 := by rw [h.kept]
    have h1 : u.siRate = s.siRate := by rw [h.kept]
    have h2 : u.siBps = s.siBps := by rw [h.kept]
    have h3 : u.siChannels = s.siChannels := by rw [h.kept]
    rw [h8, h16, h1, h2, h3]
    exact h.adv
  crc8 _ := by rw [h.kept]
  crc16 _ := by rw [h.kept]
  cfg _ := by rw [h.kept]; simp
  decode _ _ := by rw [h.kept]
  batch _ := by rw [h.kept]
  dmem _ _ := by rw [h.kept]
  inv i := by
    rw [h.kept]
    exact ⟨⟨i.accnLe, i.frameDone, i.frameLen, i.frameCur, i.depth, i.chbufWf⟩, ⟨i.batch, i.batchK, i.batchRn⟩, i.dmemWf⟩
  failed e := .inl (by rw [h.kept] at e; exact e)

theorem BodyOk.of_rice {a : BitVec 8} {s u : State} {st : Status} (h : RiceOk s u st)
    (hb : s.Inv → (s.rb.active = true ∨ s.rb.remaining = 0)) (hi : s.Inv → s.rb.k ≤ 31 ∧ s.rb.rn ≤ s.rb.k) :
    BodyOk (.brRiceb a) s u st where
  adv := by
    have h8 : u.c8 = s.c8 := by rw [h.kept]
    have h16 : u.c16 = s.c16 := by rw [h.kept]
    have h1 : u.siRate = s.siRate := by rw [h.kept]
    have h2 : u.siBps = s.siBps := by rw [h.kept]
    have h3 : u.siChannels = s.siChannels := by rw [h.kept]
    rw [h8, h16, h1, h2, h3]
    exact h.adv
  crc8 _ := by rw [h.kept]
  crc16 _ := by rw [h.kept]
  cfg _ := by rw [h.kept]; simp
  decode _ _ := by rw [h.kept]
  batch e := absurd rfl (e a)
  dmem e := absurd rfl (e a)
  inv i := by
    refine ⟨?_, h.batch (hb i) (hi i).1 (hi i).2, h.dmemWf i.dmemWf⟩
    rw [h.kept]
    exact ⟨i.accnLe, i.frameDone, i.frameLen, i.frameCur, i.depth, i.chbufWf⟩
  failed e := .inl (by rw [h.kept] at e; exact e)

/-- What micro-steps, one or many, have in common. -/
structure FrameOk (s t : State) (st : Status) : Prop where
  adv : s.Advance t
  rb : t.rb = s.rb
  dmem : t.dmem = s.dmem
  inv : s.FrameInv → t.FrameInv
  failed : t.fsm = .failed → s.fsm = .failed ∨ st.sticky = true

theorem MicroOk.frame {s t : State} {st : Status} (h : MicroOk s t st) : FrameOk s t st :=
  ⟨h.adv, h.rb, h.dmem, h.inv, h.failed⟩

theorem DecodeOk.frame {s t : State} {st : Status} (h : DecodeOk s t st) : FrameOk s t st :=
  ⟨h.adv, h.rb, h.dmem, h.inv, h.failed⟩

theorem BodyOk.of_decode {i : Instr} {s t u : State} {st : Status} (hf : family i = .frame ∨ family i = .pcm)
    (h : FrameOk s t st) (hu : u = { t with res0 := u.res0, res1 := u.res1, res2 := u.res2 }) : BodyOk i s u st where
  adv := by
    have hk := h.adv.kept
    have h8 : u.c8 = s.c8 := by rw [hu, hk]
    have h16 : u.c16 = s.c16 := by rw [hu, hk]
    have h1 : u.siRate = s.siRate := by rw [hu, hk]
    have h2 : u.siBps = s.siBps := by rw [hu, hk]
    have h3 : u.siChannels = s.siChannels := by rw [hu, hk]
    rw [h8, h16, h1, h2, h3]
    exact h.adv.trans (.of_stream_eq (by rw [hu]))
  crc8 _ := by rw [hu, h.adv.kept]
  crc16 _ := by rw [hu, h.adv.kept]
  cfg _ := by rw [hu, h.adv.kept]; simp
  decode e1 e2 := by rcases hf with e | e <;> simp_all
  batch _ := by rw [hu]; exact h.rb
  dmem _ _ := by rw [hu]; exact h.dmem
  inv i := by
    have k := h.inv i.frame
    rw [hu]
    refine ⟨⟨k.accnLe, k.frameDone, k.frameLen, k.frameCur, k.depth, k.chbufWf⟩, ?_, ?_⟩
    · simp only [h.rb]; exact ⟨i.batch, i.batchK, i.batchRn⟩
    · simp only [h.dmem]; exact i.dmemWf
  failed e := h.failed (by rw [hu] at e; exact e)

/-- The copy of PCM.READ after a decode, or after none. -/
theorem pcmCopy_ok {s t : State} {st : Status} (h : DecodeOk s t st) (hs : s.Inv → t.fcur ≤ t.frameLen)
    (hf : t.fsm = .failed → s.fsm = .failed) :
    BodyOk .pcmRead s (pcmCopy t) .ok where
  adv := by
    have hk := h.adv.kept
    have h8 : (pcmCopy t).c8 = s.c8 := by unfold pcmCopy; rw [hk]
    have h16 : (pcmCopy t).c16 = s.c16 := by unfold pcmCopy; rw [hk]
    have h1 : (pcmCopy t).siRate = s.siRate := by unfold pcmCopy; rw [hk]
    have h2 : (pcmCopy t).siBps = s.siBps := by unfold pcmCopy; rw [hk]
    have h3 : (pcmCopy t).siChannels = s.siChannels := by unfold pcmCopy; rw [hk]
    rw [h8, h16, h1, h2, h3]
    exact h.adv.trans (.of_stream_eq rfl)
  crc8 _ := by unfold pcmCopy; rw [h.adv.kept]
  crc16 _ := by unfold pcmCopy; rw [h.adv.kept]
  cfg _ := by unfold pcmCopy; rw [h.adv.kept]; simp
  decode _ e := absurd rfl e
  batch _ := h.rb
  dmem _ e := absurd rfl e
  inv i := by
    have k := h.inv i.frame
    have hc := hs i
    refine ⟨⟨k.accnLe, k.frameDone, k.frameLen, ?_, k.depth, k.chbufWf⟩, ?_, ?_⟩
    · intro _
      simp only [pcmCopy, State.frameLen] at hc ⊢
      omega
    · simp only [pcmCopy, h.rb]; exact ⟨i.batch, i.batchK, i.batchRn⟩
    · exact memWriteWords_canonical _ _ _ (by rw [h.dmem]; exact i.dmemWf)
  failed e := .inl (hf e)


theorem BodyOk.violation {i : Instr} (s : State) (c : ViolationCause) {u : State} {st : Status}
    (h : Res.violation s c = .next (u, st)) : BodyOk i s u st := by
  cases h
  exact .of_regs rfl (fun _ => rfl) (fun _ => rfl) (fun _ => ⟨rfl, rfl, rfl⟩)

theorem BodyOk.noBatch {i : Instr} {s u : State} {st : Status} {r : Res}
    (k : ∀ u st, r = .next (u, st) → BodyOk i s u st) (h : noBatch s r = .next (u, st)) : BodyOk i s u st := by
  unfold Machine.noBatch at h
  split at h
  · exact .violation s _ h
  · exact k _ _ h

theorem DecodeOk.same (s : State) : DecodeOk s s .underrun :=
  ⟨.refl s, rfl, rfl, rfl, rfl, rfl, id, .inl, by simp, by simp, by simp⟩

theorem frameResult_regs (t : State) (st : Status) : frameResult t st = { t with res0 := (frameResult t st).res0 } := by
  unfold frameResult
  split <;> rfl

/-- The commands that pass the common checks first (60_exceptions.md R406, R407). -/
def checked : Instr → Bool
  | .brEos => false
  | .sysReset => false
  | .sysDispose => false
  | .sysStatus => false
  | _ => true

/-! ### Every body ends -/

theorem noBatch_next {s : State} {r : Res} (h : ∃ p, r = .next p) : ∃ p, noBatch s r = .next p := by
  unfold noBatch
  split
  · exact ⟨_, rfl⟩
  · exact h

theorem readField_next (n : Nat) (s : State) : ∃ p, readField n s = .next p := by
  unfold readField
  split <;> exact ⟨_, rfl⟩

theorem unaryBody_next (s : State) : ∃ p, unaryBody s = .next p := by
  unfold unaryBody
  split <;> exact ⟨_, rfl⟩

theorem riceBody_next (k : Nat) (s : State) : ∃ p, riceBody k s = .next p := by
  unfold riceBody
  split <;> exact ⟨_, rfl⟩

theorem utf8Body_next (wd : Nat) (s : State) : ∃ p, utf8Body wd s = .next p := by
  unfold utf8Body
  split <;> exact ⟨_, rfl⟩

theorem zpadBody_next (s : State) : ∃ p, zpadBody s = .next p := by
  unfold zpadBody
  simp only
  split
  · split <;> exact ⟨_, rfl⟩
  · exact ⟨_, rfl⟩

theorem skipBody_next (n : Nat) (s : State) : ∃ p, skipBody n s = .next p := by
  unfold skipBody
  simp only
  split <;> exact ⟨_, rfl⟩

theorem refillBody_next (s : State) : ∃ p, refillBody s = .next p := by
  unfold refillBody
  split <;> exact ⟨_, rfl⟩

theorem riceRun_next (s : State) : ∃ p, riceRun s = .next p := by
  obtain ⟨t, st, e⟩ := riceLoop_next (2 * s.bitsAhead + 3) 0 s
  exact ⟨_, e⟩

theorem State.Inv.moves {s : State} (h : s.Inv) (hf : s.fault = 0#16) : s.fsm ≠ .failed := fun e => h.failed e hf

/-- Every checked command is a body after the common checks, its body is as `BodyOk` says, and it ends; of the three that decode
frames that is said where there is a predictor and room in the stream. -/
theorem exec_body (i : Instr) (hi : checked i = true) : ∃ body : State → Res, (∀ s, exec i s = command s body) ∧
    (∀ s u st, body s = .next (u, st) → BodyOk i s u st) ∧
    ∀ s, (i = .frStep ∨ i = .frDecode ∨ i = .pcmRead → s.Inv ∧ s.fault = 0#16 ∧ s.Room ∧ s.predictor.isSome = true) →
      ∃ p, body s = .next p := by
  have reader : ∀ (j : Instr) (s : State) (r : Res), ReaderRes s r → ∀ u st, r = .next (u, st) → BodyOk j s u st :=
    fun j s r h u st e => .of_reader (h u st e)
  cases i with
  | crc8Set b =>
    refine ⟨fun s => Res.done { s with c8 := b } .ok, fun _ => rfl, ?_, fun s _ => ⟨_, rfl⟩⟩
    rintro s u st ⟨⟩
    exact .of_regs rfl (fun e => absurd rfl e) (fun _ => rfl) (fun _ => ⟨rfl, rfl, rfl⟩)
  | crc8Get =>
    refine ⟨fun s => Res.done { s with res0 := s.c8.setWidth 64 } .ok, fun _ => rfl, ?_, fun s _ => ⟨_, rfl⟩⟩
    rintro s u st ⟨⟩
    exact .of_regs rfl (fun e => absurd rfl e) (fun _ => rfl) (fun _ => ⟨rfl, rfl, rfl⟩)
  | crc8Byte b =>
    refine ⟨fun s => Res.done { s with c8 := a8 s.c8 b, res0 := (a8 s.c8 b).setWidth 64 } .ok, fun _ => rfl, ?_, fun s _ => ⟨_, rfl⟩⟩
    rintro s u st ⟨⟩
    exact .of_regs rfl (fun e => absurd rfl e) (fun _ => rfl) (fun _ => ⟨rfl, rfl, rfl⟩)
  | crc8Span =>
    refine ⟨_, fun _ => rfl, ?_, ?_⟩
    on_goal 2 =>
      intro s _
      split <;> exact ⟨_, rfl⟩
    intro s u st h
    split at h
    · cases h
      exact .of_regs rfl (fun e => absurd rfl e) (fun _ => rfl) (fun _ => ⟨rfl, rfl, rfl⟩)
    · exact .violation s _ h
  | crc16Set b =>
    refine ⟨fun s => Res.done { s with c16 := b } .ok, fun _ => rfl, ?_, fun s _ => ⟨_, rfl⟩⟩
    rintro s u st ⟨⟩
    exact .of_regs rfl (fun _ => rfl) (fun e => absurd rfl e) (fun _ => ⟨rfl, rfl, rfl⟩)
  | crc16Get =>
    refine ⟨fun s => Res.done { s with res0 := s.c16.setWidth 64 } .ok, fun _ => rfl, ?_, fun s _ => ⟨_, rfl⟩⟩
    rintro s u st ⟨⟩
    exact .of_regs rfl (fun _ => rfl) (fun e => absurd rfl e) (fun _ => ⟨rfl, rfl, rfl⟩)
  | crc16Byte b =>
    refine ⟨fun s => Res.done { s with c16 := a16 s.c16 b, res0 := (a16 s.c16 b).setWidth 64 } .ok, fun _ => rfl, ?_, fun s _ => ⟨_, rfl⟩⟩
    rintro s u st ⟨⟩
    exact .of_regs rfl (fun _ => rfl) (fun e => absurd rfl e) (fun _ => ⟨rfl, rfl, rfl⟩)
  | crc16Span =>
    refine ⟨_, fun _ => rfl, ?_, ?_⟩
    on_goal 2 =>
      intro s _
      split <;> exact ⟨_, rfl⟩
    intro s u st h
    split at h
    · cases h
      exact .of_regs rfl (fun _ => rfl) (fun e => absurd rfl e) (fun _ => ⟨rfl, rfl, rfl⟩)
    · exact .violation s _ h
  | crc16Spanb =>
    refine ⟨_, fun _ => rfl, ?_, ?_⟩
    on_goal 2 =>
      intro s _
      split <;> exact ⟨_, rfl⟩
    intro s u st h
    split at h
    · cases h
      exact .of_regs rfl (fun _ => rfl) (fun e => absurd rfl e) (fun _ => ⟨rfl, rfl, rfl⟩)
    · exact .violation s _ h
  | brRead32 a =>
    refine ⟨_, fun _ => rfl, fun s => reader _ s _ ?_, ?_⟩
    on_goal 2 =>
      intro s _
      split
      · exact noBatch_next (readField_next _ s)
      · exact ⟨_, rfl⟩
    split
    · exact (readField_ok _ s).noBatch
    · exact .violation s _
  | brRead64 a =>
    refine ⟨_, fun _ => rfl, fun s => reader _ s _ ?_, ?_⟩
    on_goal 2 =>
      intro s _
      split
      · exact noBatch_next (readField_next _ s)
      · exact ⟨_, rfl⟩
    split
    · exact (readField_ok _ s).noBatch
    · exact .violation s _
  | brReadbyte => exact ⟨_, fun _ => rfl, fun s => reader _ s _ (readField_ok _ s).noBatch,
      fun s _ => noBatch_next (readField_next _ s)⟩
  | brUnary => exact ⟨_, fun _ => rfl, fun s => reader _ s _ (unaryBody_ok s).noBatch,
      fun s _ => noBatch_next (unaryBody_next s)⟩
  | brRice a =>
    refine ⟨_, fun _ => rfl, fun s => reader _ s _ ?_, ?_⟩
    on_goal 2 =>
      intro s _
      split
      · exact noBatch_next (riceBody_next _ s)
      · exact ⟨_, rfl⟩
    split
    · exact (riceBody_ok _ s).noBatch
    · exact .violation s _
  | brRiceb a =>
    refine ⟨_, fun _ => rfl, ?_, ?_⟩
    on_goal 2 =>
      intro s _
      split
      · unfold riceContinue
        split
        · exact riceRun_next s
        · exact ⟨_, rfl⟩
      · unfold riceStart
        split
        · split
          · split
            · exact riceRun_next _
            · exact ⟨_, rfl⟩
          · exact ⟨_, rfl⟩
        · exact ⟨_, rfl⟩
    intro s u st h
    split at h
    · next hact =>
      unfold riceContinue at h
      split at h
      · rw [riceRun_eq] at h
        exact .of_rice (riceFrom_ok h) (fun _ => .inl hact) (fun i => ⟨i.batchK, i.batchRn⟩)
      · exact .violation s _ h
    · unfold riceStart at h
      split at h
      · next hk =>
        split at h
        · split at h
          · rw [riceRun_eq] at h
            have k := riceFrom_ok h
            have hk' : a.toNat ≤ 31 := by simpa [riceOk] using hk
            have adv := (State.Advance.of_stream_eq (s := s) rfl).trans k.adv
            have b := k.batch (by simp only; by_cases e : s.arg1.toNat = 0 <;> simp [e]; omega) hk' (Nat.zero_le _)
            have hkept := k.kept
            refine ⟨?_, fun _ => by rw [hkept], fun _ => by rw [hkept], fun _ => by rw [hkept]; simp,
              fun _ _ => by rw [hkept], fun e => absurd rfl (e a), fun e => absurd rfl (e a), ?_, ?_⟩
            · have h8 : u.c8 = s.c8 := by rw [hkept]
              have h16 : u.c16 = s.c16 := by rw [hkept]
              have h1 : u.siRate = s.siRate := by rw [hkept]
              have h2 : u.siBps = s.siBps := by rw [hkept]
              have h3 : u.siChannels = s.siChannels := by rw [hkept]
              rw [h8, h16, h1, h2, h3]
              exact adv
            · intro i
              refine ⟨?_, b, k.dmemWf i.dmemWf⟩
              rw [hkept]
              exact ⟨i.accnLe, i.frameDone, i.frameLen, i.frameCur, i.depth, i.chbufWf⟩
            · intro e
              rw [hkept] at e
              exact .inl e
          · exact .violation s _ h
        · exact .violation s _ h
      · exact .violation s _ h
  | brUtf8x32 => exact ⟨_, fun _ => rfl, fun s => reader _ s _ (utf8Body_ok _ s).noBatch,
      fun s _ => noBatch_next (utf8Body_next _ s)⟩
  | brUtf8x64 => exact ⟨_, fun _ => rfl, fun s => reader _ s _ (utf8Body_ok _ s).noBatch,
      fun s _ => noBatch_next (utf8Body_next _ s)⟩
  | brAligned =>
    refine ⟨fun s => Res.done { s with res0 := boolReg (s.cons % 8 == 0) } .ok, fun _ => rfl, ?_, fun s _ => ⟨_, rfl⟩⟩
    rintro s u st ⟨⟩
    exact .of_regs rfl (fun _ => rfl) (fun _ => rfl) (fun _ => ⟨rfl, rfl, rfl⟩)
  | brZpad => exact ⟨_, fun _ => rfl, fun s => reader _ s _ (zpadBody_ok s).noBatch,
      fun s _ => noBatch_next (zpadBody_next s)⟩
  | brSkipbits => exact ⟨_, fun _ => rfl, fun s => reader _ s _ (skipBody_ok _ s).noBatch,
      fun s _ => noBatch_next (skipBody_next _ s)⟩
  | brSkipbytes => exact ⟨_, fun _ => rfl, fun s => reader _ s _ (skipBody_ok _ s).noBatch,
      fun s _ => noBatch_next (skipBody_next _ s)⟩
  | brGetcrc => exact ⟨_, fun _ => rfl, fun s => reader _ s _ (getcrcBody_ok s).noBatch,
      fun s _ => noBatch_next ⟨_, rfl⟩⟩
  | brSetcrc b => exact ⟨_, fun _ => rfl, fun s => reader _ s _ (setcrcBody_ok s b).noBatch,
      fun s _ => noBatch_next ⟨_, rfl⟩⟩
  | brUpdcrc => exact ⟨_, fun _ => rfl, fun s => reader _ s _ (updBody_ok s).noBatch,
      fun s _ => noBatch_next ⟨_, rfl⟩⟩
  | brRefill => exact ⟨_, fun _ => rfl, fun s => reader _ s _ (refillBody_ok s), fun s _ => refillBody_next s⟩
  | brEos => cases hi
  | brPos =>
    refine ⟨fun s => Res.done { s with res0 := natReg s.cons, res1 := natReg s.avail, res2 := natReg s.base } .ok, fun _ => rfl, ?_, fun s _ => ⟨_, rfl⟩⟩
    rintro s u st ⟨⟩
    exact .of_regs rfl (fun _ => rfl) (fun _ => rfl) (fun _ => ⟨rfl, rfl, rfl⟩)
  | frDecode =>
    refine ⟨_, fun _ => rfl, fun s u st h => .noBatch (fun u st h => ?_) h, ?_⟩
    on_goal 2 =>
      intro s h
      obtain ⟨hi, hf, hr, hp⟩ := h (by simp)
      refine noBatch_next ?_
      obtain ⟨t, st, e⟩ := decodeRun_next hi.frame (hi.moves hf) hr hp
      rw [e]
      cases st <;> exact ⟨_, rfl⟩
    split at h
    · next t e =>
      cases h
      exact .of_decode (.inl rfl) (decodeLoop_ok _ _ _ _ e).frame rfl
    · next t st' hne e =>
      cases h
      exact .of_decode (.inl rfl) (decodeLoop_ok _ _ _ _ e).frame (by rw [frameResult_regs])
    · cases h
    · cases h
  | frStep =>
    refine ⟨_, fun _ => rfl, fun s u st h => .noBatch (fun u st h => ?_) h, ?_⟩
    on_goal 2 =>
      intro s h
      obtain ⟨hi, hf, hr, hp⟩ := h (by simp)
      refine noBatch_next ?_
      obtain ⟨t, st, e⟩ := microStep_next (hi.moves hf) hr (.inl hp)
      rw [e]
      exact ⟨_, rfl⟩
    split at h
    · next t st' e =>
      cases h
      exact .of_decode (.inl rfl) (microStep_ok s _ _ e).frame (by rw [frameResult_regs])
    · cases h
    · cases h
  | frInfo a =>
    refine ⟨_, fun _ => rfl, ?_, ?_⟩
    on_goal 2 =>
      intro s _
      split
      · split <;> exact ⟨_, rfl⟩
      · exact ⟨_, rfl⟩
    intro s u st h
    split at h
    · split at h
      · cases h
        exact .of_regs rfl (fun _ => rfl) (fun _ => rfl) (fun _ => ⟨rfl, rfl, rfl⟩)
      · cases h
        exact .of_regs rfl (fun _ => rfl) (fun _ => rfl) (fun _ => ⟨rfl, rfl, rfl⟩)
    · exact .violation s _ h
  | pcmRead =>
    refine ⟨_, fun _ => rfl, ?_, ?_⟩
    on_goal 2 =>
      intro s h
      obtain ⟨hi, hf, hr, hp⟩ := h (by simp)
      split
      · split
        · refine noBatch_next ?_
          unfold pcmBody
          split
          · exact ⟨_, rfl⟩
          · split
            · exact ⟨_, rfl⟩
            · obtain ⟨t, st, e⟩ := decodeRun_next hi.frame (hi.moves hf) hr hp
              rw [e]
              cases st <;> exact ⟨_, rfl⟩
        · exact ⟨_, rfl⟩
      · exact ⟨_, rfl⟩
    intro s u st h
    split at h
    · split at h
      · refine .noBatch (fun u st h => ?_) h
        unfold pcmBody at h
        split at h
        · cases h
          exact .of_regs rfl (fun _ => rfl) (fun _ => rfl) (fun _ => ⟨rfl, rfl, rfl⟩)
        · split at h
          · next hc =>
            cases h
            exact pcmCopy_ok (.same s) (fun i => i.frameCur hc.1) id
          · split at h
            · next t e =>
              cases h
              have k := decodeLoop_ok _ _ _ _ e
              obtain ⟨d1, d2, d3⟩ := k.done rfl
              exact pcmCopy_ok k (fun _ => by rw [d3]; exact Nat.zero_le _) (fun e => by rw [d1] at e; cases e)
            · next t st' hne e =>
              cases h
              exact .of_decode (.inr rfl) (decodeLoop_ok _ _ _ _ e).frame rfl
            · cases h
            · cases h
      · exact .violation s _ h
    · exact .violation s _ h
  | sysReset => cases hi
  | sysDispose => cases hi
  | sysCfg a =>
    refine ⟨_, fun _ => rfl, ?_, ?_⟩
    on_goal 2 =>
      intro s _
      unfold cfgBody
      split
      · split <;> exact ⟨_, rfl⟩
      · split <;> exact ⟨_, rfl⟩
      · split <;> exact ⟨_, rfl⟩
      · exact ⟨_, rfl⟩
    intro s u st h
    have done : ∀ v : State, v = { s with siRate := v.siRate, siBps := v.siBps, siChannels := v.siChannels } →
        BodyOk (.sysCfg a) s v .ok := fun v e =>
      .of_regs (by rw [e]) (fun _ => by rw [e]) (fun _ => by rw [e]) (fun n => absurd rfl (n a))
    unfold cfgBody at h
    split at h
    · split at h
      · cases h; exact done _ rfl
      · exact .violation s _ h
    · split at h
      · cases h; exact done _ rfl
      · exact .violation s _ h
    · split at h
      · cases h; exact done _ rfl
      · exact .violation s _ h
    · exact .violation s _ h
  | sysStatus => cases hi

end Sys2Proof.Machine
end

