-- ==== Sys2Proof/Laws/Bodies.lean ====
section
/-! SUPPORT. What the provers cite of a command: its body after the common checks (60_exceptions.md R408), and the ends of a
body. -/

namespace Sys2Proof.Machine

/-- A command with a checked body passes the common checks first. -/
theorem Checked.of_body {i : Instr} {w : Word} (hw : w = encode i) (hi : checked i = true) : Checked i w where
  word := hw ▸ decode_encode i
  sticky s h := by
    obtain ⟨body, e, -⟩ := exec_body i hi
    rw [e, command_of_fault h]
  disposed s h hd := by
    obtain ⟨body, e, -⟩ := exec_body i hi
    rw [e, command_of_disposed h hd]

/-- A body that raises a violation: STATUS and FAULT say so and nothing else changes. -/
theorem command_violation {s : State} {body : State → Res} (h : s.Ready)
    {c : ViolationCause} {w : Half} (hb : body s = Res.violation s c) (hw : w = BitVec.ofNat 16 (c.code * 256 + 5)) :
    command s body = .next { s with status := w, fault := w } := by
  rw [command_ready_same h hb rfl, endWith_sticky rfl h.noFault, hw]
  rfl

/-- A body that ends with a fatal failure. -/
theorem command_fatal {s : State} {body : State → Res} (h : s.Ready)
    {c : FatalCause} {w : Half} {t u : State} (hb : body s = .next (t, .fatal c)) (ho : streamOverflow s t = false)
    (hf : t.fault = 0#16) (hw : w = BitVec.ofNat 16 (c.code * 256 + 4)) (hu : u = { t with status := w, fault := w }) :
    command s body = .next u := by
  rw [command_of_ready h hb ho, endWith_sticky rfl hf, hu, hw]
  rfl

/-- A body that ends with OK and leaves the stream as it is. -/
theorem command_done {s : State} {body : State → Res} (h : s.Ready)
    {t u : State} (hb : body s = .next (t, .ok)) (hS : t.S = s.S) (hu : u = { t with status := 0x0000#16 }) :
    command s body = .next u := by
  rw [command_ready_same h hb hS, endWith_ok, hu]

/-- A body that starts with the batch check is turned away during a batch. -/
theorem Busy.of_noBatch {i : Instr} {body : State → State → Res} (he : ∀ s, exec i s = command s (body s))
    (hb : ∀ s, s.rb.active = true → body s s = Res.violation s .batchInProgress) : Busy i := by
  intro s h ha
  rw [he]
  exact command_violation h (hb s ha) rfl

/-- With no batch in progress the batch check passes. -/
theorem noBatch_accepts {s : State} (h : s.Accepts) (r : Res) : noBatch s r = r := by simp [noBatch, h.noBatch]

/-- A read whose bits are there or come. -/
theorem readField_has {s : State} {n : Nat} (h : (s.need n).has n = true) :
    readField n s = .next ({ s.need n with cons := s.cons + n, res0 := natReg (field (s.need n).S s.cons n) }, .ok) := by
  simp [readField, State.take_spec, h, Res.done]

/-- A read whose bits do not come. -/
theorem readField_dry {s : State} {n : Nat} (h : (s.need n).has n = false) :
    readField n s = .next (s.need n, .underrun) := by
  simp [readField, State.take_spec, h, Res.done]

/-- A body whose stream is what some pulls give never overflows it. -/
theorem command_pulled {s t u : State} {body : State → Res} (h : s.Accepts) {st : Status}
    (hp : s.PulledTo t) (hb : body s = .next (u, st)) (hS : u.S = t.S) : command s body = .next (u.endWith st) :=
  command_ready_room h.ready h.room hb hp hS

/-- The reads are one body with different widths. -/
theorem exec_read {s : State} {i : Instr} {a : BitVec 8} (h : s.Accepts)
    (hi : (i = .brRead32 a ∧ 1 ≤ a.toNat ∧ a.toNat ≤ 32) ∨ (i = .brRead64 a ∧ 1 ≤ a.toNat ∧ a.toNat ≤ 64) ∨
      (i = .brReadbyte ∧ a = 8#8)) : exec i s = command s (readField a.toNat) := by
  rcases hi with ⟨rfl, h1, h2⟩ | ⟨rfl, h1, h2⟩ | ⟨rfl, rfl⟩
  · simp only [exec, execBrRead32, readCommand]
    simp [command, widthOk, h1, h2, noBatch_accepts h]
  · simp only [exec, execBrRead64, readCommand]
    simp [command, widthOk, h1, h2, noBatch_accepts h]
  · simp only [exec, execBrReadbyte]
    simp [command, noBatch_accepts h]

/-- BR.RICE with a legal parameter is its body. -/
theorem exec_rice {s : State} {a : BitVec 8} (h : s.Accepts) (ha : a.toNat ≤ 31) : exec (.brRice a) s = command s (riceBody a.toNat) := by
  simp only [exec, execBrRice]; simp [command, riceOk, ha, noBatch_accepts h]

/-- A BitReader body that ends is answered with a next state. -/
theorem reader_answers {s : State} (h : s.Accepts) {body : State → Res} (hb : ∃ u st, body s = .next (u, st))
    (hr : ReaderRes s (body s)) : ∃ t, command s body = .next t := by
  obtain ⟨u, st, e⟩ := hb
  refine ⟨_, command_of_ready h.ready e ?_⟩
  have := (hr u st e).adv.total
  have := h.room
  unfold State.Room at this
  simp [streamOverflow]; omega

/-- Every command but the four of R406 is checked. -/
theorem checked_of {i : Instr} (h : i ≠ .sysReset ∧ i ≠ .sysStatus ∧ i ≠ .sysDispose ∧ i ≠ .brEos) : checked i = true := by
  obtain ⟨h1, h2, h3, h4⟩ := h
  cases i <;> first | rfl | contradiction

/-- A command is checked or one of the four of R406. -/
theorem checked_cases (i : Instr) : checked i = true ∨ i = .sysReset ∨ i = .sysStatus ∨ i = .sysDispose ∨ i = .brEos := by
  cases i <;> simp [checked]

/-- The end of the four commands of R406. -/
theorem endAccepted_eq (s : State) : s.endAccepted = { s with status := if s.fault = 0#16 then 0x0000#16 else s.fault } := by
  unfold State.endAccepted
  by_cases h : s.fault = 0#16 <;> simp [h, Status.word]

/-- The words of the statuses (60_exceptions.md R400, R401). -/
theorem word_cases (st : Status) : (st.word = 0x0000#16 ∨ st.word = 0x0001#16 ∨ st.word = 0x0002#16 ∨
        ∃ cause code : Nat, st.word = BitVec.ofNat 16 (cause * 256 + code) ∧ 1 ≤ cause ∧
          (code = 3 ∧ cause ≤ 6 ∨ code = 4 ∧ cause ≤ 10 ∨ code = 5 ∧ cause ≤ 10)) := by
  cases st with
  | ok => simp [Status.word]
  | underrun => simp [Status.word]
  | endOfStream => simp [Status.word]
  | invalid c => exact .inr (.inr (.inr ⟨c.code, 3, rfl, by cases c <;> decide, .inl ⟨rfl, by cases c <;> decide⟩⟩))
  | fatal c => exact .inr (.inr (.inr ⟨c.code, 4, rfl, by cases c <;> decide, .inr (.inl ⟨rfl, by cases c <;> decide⟩)⟩))
  | violation c => exact .inr (.inr (.inr ⟨c.code, 5, rfl, by cases c <;> decide, .inr (.inr ⟨rfl, by cases c <;> decide⟩)⟩))

/-- A sticky status by its low byte. -/
theorem sticky_word (st : Status) : st.sticky = true ↔ (st.word.extractLsb' 0 8 = 4#8 ∨ st.word.extractLsb' 0 8 = 5#8) := by
  cases st with
  | ok => decide
  | underrun => decide
  | endOfStream => decide
  | invalid c => cases c <;> decide
  | fatal c => cases c <;> decide
  | violation c => cases c <;> decide

/-- No other status is the word of OK. -/
theorem word_ne {st : Status} (h : st ≠ .ok) : st.word ≠ 0#16 := fun k => h ((word_eq_zero st).1 k)

/-- No body touches FAULT. -/
theorem body_fault {i : Instr} {s u : State} {st : Status} (h : BodyOk i s u st) : u.fault = s.fault := h.adv.fault_eq

end Sys2Proof.Machine
end

