-- ==== Sys2Proof/Laws/Scan.lean ====
section
/-! SUPPORT. The zero-run scan decided by the stream (41_bitreader.md R220, R223): the three ways it ends, each from what the
stream holds. -/

namespace Sys2Proof.Machine

/-- Every byte that is there or still to come. -/
def State.allBytes (s : State) : List Byte := s.S ++ s.upstream.flatMap fun a => a.bytes

/-- Pulls bring a prefix of it. -/
theorem State.PulledTo.prefix_all {s t : State} (h : s.PulledTo t) : t.S <+: s.allBytes := by
  obtain ⟨p, hp, hS, -⟩ := h.answers
  rw [State.allBytes, hS, hp]
  simp [List.flatMap_append]

theorem State.PulledTo.allBytes_eq {s t : State} (h : s.PulledTo t) : t.allBytes = s.allBytes := by
  obtain ⟨p, hp, hS, -⟩ := h.answers
  rw [State.allBytes, State.allBytes, hS, hp]
  simp [List.flatMap_append]

theorem State.PulledTo.bitAt_all {s t : State} (h : s.PulledTo t) {p : Nat} (hp : p < 8 * t.S.length) :
    bitAt t.S p = bitAt s.allBytes p := (bitAt_of_prefix h.prefix_all hp).symm

theorem field_of_prefix {S R : List Byte} (h : S <+: R) {p n : Nat} (hp : p + n ≤ 8 * S.length) :
    field R p n = field S p n := by
  obtain ⟨T, rfl⟩ := h
  exact field_append _ _ _ _ hp

theorem State.PulledTo.field_all {s t : State} (h : s.PulledTo t) {p n : Nat} (hp : p + n ≤ 8 * t.S.length) :
    field t.S p n = field s.allBytes p n := (field_of_prefix h.prefix_all hp).symm

/-- Bits of a state that has `n` of them ahead. -/
theorem State.PulledTo.bitAt_has {s t : State} (h : s.PulledTo t) {n j : Nat} (hh : t.has n = true) (hj : j < n) :
    bitAt t.S (s.cons + j) = bitAt s.allBytes (s.cons + j) := by
  refine h.bitAt_all ?_
  have := State.has_iff.1 hh
  rw [h.cons_eq] at this
  omega

/-- The scan finds a 1 bit after `z` zeros. -/
theorem State.scan_found {s : State} {tooMany : Nat → Bool} {z : Nat} (hh : (s.need (z + 1)).has (z + 1) = true)
    (hz : ∀ j, j < z → bitAt (s.need (z + 1)).S (s.cons + j) = false) (h1 : bitAt (s.need (z + 1)).S (s.cons + z) = true)
    (hf : ∀ j, 0 < j → j ≤ z → tooMany j = false) : s.scan tooMany = (s.need (z + 1), .found z) := by
  have hp := s.need_pulledTo (z + 1)
  have hz' : ∀ j, j < z → bitAt s.allBytes (s.cons + j) = false := fun j hj => by
    rw [← hp.bitAt_has hh (by omega)]; exact hz j hj
  have h1' : bitAt s.allBytes (s.cons + z) = true := by rw [← hp.bitAt_has hh (by omega)]; exact h1
  have hs := s.scan_spec tooMany
  generalize s.scan tooMany = r at hs
  obtain ⟨t, o⟩ := r
  simp only at hs
  cases hs with
  | found y t pulled isNeed there zeros one fits =>
    rw [pulled.bitAt_has there (by omega)] at one
    have : y = z := by
      rcases Nat.lt_trichotomy y z with h | h | h
      · rw [hz' y h] at one; cases one
      · exact h
      · have := zeros z h
        rw [pulled.bitAt_has there (by omega), h1'] at this; cases this
    subst this
    rw [isNeed]
  | tooLong y t pulled isNeed there zeros exceeds fits =>
    exfalso
    rcases Nat.lt_or_ge y z with h | h
    · rw [hf (y + 1) (by omega) (by omega)] at exceeds; cases exceeds
    · have := zeros z h
      rw [pulled.bitAt_has there (by omega), h1'] at this; cases this
  | short y t pulled isNeed dry before zeros fits =>
    exfalso
    rcases Nat.lt_or_ge z y with h | h
    · have hb := zeros z h
      have hl : ¬ s.cons + z < 8 * t.S.length := fun hl => by
        rw [pulled.bitAt_all hl, h1'] at hb; cases hb
      have hd := State.has_false_iff.1 dry
      have : (s.need (z + 1)).PulledTo t := by
        rw [isNeed]
        exact State.need_pulledTo_need (by omega) hh
      have := this.has hh
      have := State.has_iff.1 this
      rw [pulled.cons_eq] at this
      omega
    · have := State.need_has_mono (s := s) (a := y + 1) (b := z + 1) (by omega) hh
      rw [← isNeed, dry] at this; cases this

/-- The run is too long. -/
theorem State.scan_tooLong {s : State} {tooMany : Nat → Bool} {z : Nat} (hh : (s.need (z + 1)).has (z + 1) = true)
    (hz : ∀ j, j ≤ z → bitAt (s.need (z + 1)).S (s.cons + j) = false) (ho : tooMany (z + 1) = true)
    (hf : ∀ j, 0 < j → j ≤ z → tooMany j = false) : s.scan tooMany = (s.need (z + 1), .tooLong) := by
  have hp := s.need_pulledTo (z + 1)
  have hz' : ∀ j, j ≤ z → bitAt s.allBytes (s.cons + j) = false := fun j hj => by
    rw [← hp.bitAt_has hh (by omega)]; exact hz j hj
  have hs := s.scan_spec tooMany
  generalize s.scan tooMany = r at hs
  obtain ⟨t, o⟩ := r
  simp only at hs
  cases hs with
  | found y t pulled isNeed there zeros one fits =>
    exfalso
    rw [pulled.bitAt_has there (by omega)] at one
    rcases Nat.lt_or_ge z y with h | h
    · rw [fits (z + 1) (by omega) (by omega)] at ho; cases ho
    · rw [hz' y h] at one; cases one
  | tooLong y t pulled isNeed there zeros exceeds fits =>
    have : y = z := by
      rcases Nat.lt_trichotomy y z with h | h | h
      · rw [hf (y + 1) (by omega) (by omega)] at exceeds; cases exceeds
      · exact h
      · rw [fits (z + 1) (by omega) (by omega)] at ho; cases ho
    subst this
    rw [isNeed]
  | short y t pulled isNeed dry before zeros fits =>
    exfalso
    rcases Nat.lt_or_ge z y with h | h
    · rw [fits (z + 1) (by omega) (by omega)] at ho; cases ho
    · have := State.need_has_mono (s := s) (a := y + 1) (b := z + 1) (by omega) hh
      rw [← isNeed, dry] at this; cases this

/-- The source runs dry after `z` zeros. -/
theorem State.scan_short {s : State} {tooMany : Nat → Bool} {z : Nat} (hh : (s.need (z + 1)).has (z + 1) = false)
    (hb : z = 0 ∨ (s.need z).has z = true) (hz : ∀ j, j < z → bitAt (s.need (z + 1)).S (s.cons + j) = false)
    (hf : ∀ j, 0 < j → j ≤ z → tooMany j = false) : s.scan tooMany = (s.need (z + 1), .short) := by
  have hp := s.need_pulledTo (z + 1)
  have hz' : ∀ j, j < z → bitAt s.allBytes (s.cons + j) = false := fun j hj => by
    rcases hb with rfl | hb
    · omega
    · have hq := State.need_pulledTo_need (by omega : z ≤ z + 1) hb
      rw [← hp.bitAt_has (hq.has hb) hj]
      exact hz j hj
  have hs := s.scan_spec tooMany
  generalize s.scan tooMany = r at hs
  obtain ⟨t, o⟩ := r
  simp only at hs
  cases hs with
  | found y t pulled isNeed there zeros one fits =>
    exfalso
    rcases Nat.lt_or_ge y z with h | h
    · rw [pulled.bitAt_has there (by omega), hz' y h] at one; cases one
    · have := State.need_has_mono (s := s) (a := z + 1) (b := y + 1) (by omega) (by rw [← isNeed]; exact there)
      rw [hh] at this; cases this
  | tooLong y t pulled isNeed there zeros exceeds fits =>
    exfalso
    rcases Nat.lt_or_ge y z with h | h
    · rw [hf (y + 1) (by omega) (by omega)] at exceeds; cases exceeds
    · have := State.need_has_mono (s := s) (a := z + 1) (b := y + 1) (by omega) (by rw [← isNeed]; exact there)
      rw [hh] at this; cases this
  | short y t pulled isNeed dry before zeros fits =>
    have : y = z := by
      rcases Nat.lt_trichotomy y z with h | h | h
      · exfalso
        have := State.need_has_mono (s := s) (a := y + 1) (b := z) (by omega) (by rcases hb with rfl | hb <;> [omega; exact hb])
        rw [← isNeed, dry] at this; cases this
      · exact h
      · exfalso
        have := before.resolve_left (by omega)
        have := State.need_has_mono (s := s) (a := z + 1) (b := y) (by omega) this
        rw [hh] at this; cases this
    subst this
    rw [isNeed]

end Sys2Proof.Machine
end

