-- ==== Sys2Proof/Laws/Batch.lean ====
section
/-! SUPPORT. Laws of BR.RICE and BR.RICEB as commands (41_bitreader.md R223, R232, R234): how they end and what they report. -/

namespace Sys2Proof.Machine

/-- `Rice(k)` decided by the stream: a value, two underruns, the overflow. -/
theorem State.rice_cases {s : State} {k q : Nat} (hq : q * 2 ^ k < 2 ^ 32)
    (hz : ∀ j, j < q → bitAt (s.need (q + 1)).S (s.cons + j) = false) :
    ((s.need (q + 1 + k)).has (q + 1 + k) = true → bitAt (s.need (q + 1)).S (s.cons + q) = true →
      s.rice k = ({ s.need (q + 1 + k) with cons := s.cons + q + 1 + k },
        .value (zigzag (BitVec.ofNat 32 (q * 2 ^ k + field (s.need (q + 1 + k)).S (s.cons + q + 1) k))))) ∧
    ((s.need (q + 1)).has (q + 1) = true → bitAt (s.need (q + 1)).S (s.cons + q) = true → (s.need (q + 1 + k)).has (q + 1 + k) = false →
      s.rice k = (s.need (q + 1 + k), .short)) ∧
    ((s.need (q + 1)).has (q + 1) = true → bitAt (s.need (q + 1)).S (s.cons + q) = false → 2 ^ 32 ≤ (q + 1) * 2 ^ k →
      s.rice k = (s.need (q + 1), .tooLong)) ∧
    ((s.need (q + 1)).has (q + 1) = false → (q = 0 ∨ (s.need q).has q = true) → s.rice k = (s.need (q + 1), .short)) := by
  have fits : ∀ j, 0 < j → j ≤ q → riceOver k j = false := by
    intro j _ hj
    simp only [riceOver, decide_eq_false_iff_not, not_le]
    exact (Nat.mul_le_mul_right _ hj).trans_lt hq
  refine ⟨fun hh h1 => ?_, fun hh h1 hd => ?_, fun hh h0 hm => ?_, fun hh hb => ?_⟩
  · have hh' := State.need_has_mono (s := s) (a := q + 1) (b := q + 1 + k) (by omega) hh
    rw [State.rice, State.scan_found hh' hz h1 fits]
    simp only [State.need_need (by omega : q + 1 ≤ q + 1 + k) hh', hh, if_true]
    simp
  · rw [State.rice, State.scan_found hh hz h1 fits]
    simp only [State.need_need (by omega : q + 1 ≤ q + 1 + k) hh, hd]
    simp
  · rw [State.rice, State.scan_tooLong (tooMany := riceOver k) hh (fun j hj => by
          rcases Nat.lt_or_eq_of_le hj with hj | rfl
          · exact hz j hj
          · exact h0) (by simpa [riceOver] using hm) fits]
  · rw [State.rice, State.scan_short (tooMany := riceOver k) hh hb hz fits]

/-- What the loop of BR.RICEB reports after `m` more values. -/
structure RiceEnd (s t : State) (st : Status) (n m : Nat) : Prop where
  r0 : t.res0 = natReg (n + m)
  le : m ≤ s.rb.remaining
  r1 : t.res1 = addressReg (s.rb.dst + 4 * m)
  r2 : t.res2 = natReg (s.rb.remaining - m)
  outside : ∀ a, a < s.rb.dst ∨ s.rb.dst + 4 * m ≤ a → memByte t.dmem a = memByte s.dmem a
  ends : st = .ok ∧ m = s.rb.remaining ∧ t.rb.active = false ∨
    st = .underrun ∧ m < s.rb.remaining ∧ t.rb.active = s.rb.active ∧ t.rb.k = s.rb.k ∧ t.rb.dst = s.rb.dst + 4 * m ∧
      t.rb.remaining = s.rb.remaining - m ∨
    st = .invalid .riceOverflow ∧ m < s.rb.remaining ∧ t.rb = RiceBatch.inactive

/-- However it ends, the loop reports the values it wrote. -/
theorem riceLoop_end (turns n : Nat) (s t : State) (st : Status) (hm : s.riceMeasure < turns)
    (h : riceLoop turns n s = .next (t, st)) : ∃ m, RiceEnd s t st n m := by
  induction turns generalizing n s with
  | zero => omega
  | succ turns ih =>
    unfold riceLoop at h
    split at h
    · next hr =>
      cases h
      exact ⟨0, rfl, by omega, by simp [State.riceResults], by simp [State.riceResults],
        fun _ _ => rfl, .inl ⟨rfl, hr.symm, rfl⟩⟩
    · next hr =>
      split at h
      · next hph =>
        have hm' : s.riceMeasure = 2 * s.bitsAhead := by simp [State.riceMeasure, hph]
        have hp := s.need_pulledTo 1
        simp only at h
        have qb : (s.need 1).riceQuotBit.rb.dst = s.rb.dst ∧ (s.need 1).riceQuotBit.rb.remaining = s.rb.remaining ∧
            (s.need 1).riceQuotBit.rb.active = s.rb.active ∧ (s.need 1).riceQuotBit.rb.k = s.rb.k := by
          unfold State.riceQuotBit
          split <;> simp [hp.rb_eq]
        obtain ⟨q1, q2, q3, q4⟩ := qb
        have qd : (s.need 1).riceQuotBit.dmem = s.dmem := by rw [riceQuotBit_kept]; simp
        split at h
        · next hh =>
          split at h
          · cases h
            exact ⟨0, rfl, by omega, by simp [State.riceResults, q1], by simp [State.riceResults, q2],
              fun _ _ => by rw [← qd]; rfl, .inr (.inr ⟨rfl, by omega, rfl⟩)⟩
          · have := riceQuotBit_measure hp hh
            obtain ⟨m, a, b, c, d, o, e⟩ := ih _ _ (by omega) h
            simp only [q1, q2, q3, q4, qd] at b c d o e
            exact ⟨m, a, by omega, c, d, o, e⟩
        · cases h
          exact ⟨0, rfl, by omega, by simp [State.riceResults, hp.rb_eq], by simp [State.riceResults, hp.rb_eq],
            fun _ _ => by simp [State.riceResults], .inr (.inl ⟨rfl, by omega, by simp [State.riceResults, hp.rb_eq], by simp [State.riceResults, hp.rb_eq], by simp [State.riceResults, hp.rb_eq], by simp [State.riceResults, hp.rb_eq]⟩)⟩
      · next hph =>
        have hm' : s.riceMeasure = 2 * s.bitsAhead + 1 := by simp [State.riceMeasure, hph]
        split at h
        · have hp := s.need_pulledTo 1
          simp only at h
          split at h
          · next hh =>
            have := riceRemBit_measure hp hh
            obtain ⟨m, a, b, c, d, o, e⟩ := ih _ _ (by omega) h
            have qd : (s.need 1).riceRemBit.dmem = s.dmem := by simp [State.riceRemBit]
            have q1 : (s.need 1).riceRemBit.rb.dst = s.rb.dst := by simp [State.riceRemBit, hp.rb_eq]
            have q2 : (s.need 1).riceRemBit.rb.remaining = s.rb.remaining := by simp [State.riceRemBit, hp.rb_eq]
            have q3 : (s.need 1).riceRemBit.rb.active = s.rb.active := by simp [State.riceRemBit, hp.rb_eq]
            have q4 : (s.need 1).riceRemBit.rb.k = s.rb.k := by simp [State.riceRemBit, hp.rb_eq]
            simp only [q1, q2, q3, q4, qd] at b c d o e
            exact ⟨m, a, by omega, c, d, o, e⟩
          · cases h
            exact ⟨0, rfl, by omega, by simp [State.riceResults, hp.rb_eq], by simp [State.riceResults, hp.rb_eq],
            fun _ _ => by simp [State.riceResults], .inr (.inl ⟨rfl, by omega, by simp [State.riceResults, hp.rb_eq], by simp [State.riceResults, hp.rb_eq], by simp [State.riceResults, hp.rb_eq], by simp [State.riceResults, hp.rb_eq]⟩)⟩
        · have := riceEmit_measure hph
          obtain ⟨m, a, b, c, d, o, e⟩ := ih _ _ (by omega) h
          simp only [State.riceEmit] at a b c d e
          refine ⟨m + 1, by rw [a]; congr 1; omega, by omega, by rw [c]; congr 1; omega, by rw [d]; congr 1; omega,
            fun x hx => ?_, ?_⟩
          · rw [o x (by simp only [State.riceEmit]; omega), riceEmit_outside _ _ (by omega)]
          rcases e with ⟨e1, e2, e3⟩ | ⟨e1, e2, e3, e4, e5, e6⟩ | ⟨e1, e2, e3⟩
          · exact .inl ⟨e1, by omega, e3⟩
          · exact .inr (.inl ⟨e1, by omega, e3, e4, by omega, by omega⟩)
          · exact .inr (.inr ⟨e1, by omega, e3⟩)

/-- RES0 of BR.RICE gives the int32 back. -/
theorem signExtend_setWidth (x : BitVec 32) : (x.signExtend 64).setWidth 32 = x := by
  ext i hi
  simp [BitVec.getLsbD_signExtend]
  grind

/-- Successive BR.RICE commands are successive decodes. -/
theorem riceSingles_of_run (a : BitVec 8) (n : Nat) (s t : State) (xs : List Word) (h : s.Accepts) (ha : a.toNat ≤ 31)
    (hr : runRice a n s = some (t, xs)) : RiceSingles a.toNat s xs t ∧ xs.length = n ∧ s.S.length ≤ t.S.length ∧ t.S.length ≤ s.S.length + (s.upstream.map fun a => a.bytes.length).sum := by
  induction n generalizing s xs with
  | zero => simp [runRice] at hr; obtain ⟨rfl, rfl⟩ := hr; exact ⟨.nil _, rfl, by omega, by omega⟩
  | succ n ih =>
    unfold runRice at hr
    rw [exec_rice h ha] at hr
    have rs := s.rice_state a.toNat
    obtain ⟨u, v, e⟩ : ∃ u v, s.rice a.toNat = (u, v) := ⟨_, _, rfl⟩
    rw [e] at rs
    have bo := riceBody_ok a.toNat s
    cases v with
    | value x =>
      have hb : riceBody a.toNat s = Res.done { u with res0 := x.signExtend 64 } .ok := by rw [riceBody, e]
      have adv : s.Advance { u with res0 := x.signExtend 64 } := (bo _ _ hb).adv
      have hroom := h.room
      have tot := adv.total
      simp only at tot
      have hov : streamOverflow s { u with res0 := x.signExtend 64 } = false := by
        unfold State.Room at hroom
        simp only [streamOverflow, Bool.and_eq_false_iff, decide_eq_false_iff_not]; omega
      rw [command_of_ready h.ready hb hov, endWith_ok] at hr
      simp only [if_true] at hr
      split at hr
      · next u' xs' hrec =>
        cases hr
        have hu : State.Accepts { u with res0 := x.signExtend 64, status := 0x0000#16 } := by
          refine ⟨⟨?_, ?_⟩, ?_, ?_⟩
          · have := adv.fault_eq; simp only at this ⊢; rw [this]; exact h.ready.noFault
          · have := adv.disposed_eq; simp only at this ⊢; rw [this]; exact h.ready.open_
          · have := (bo _ _ hb).kept
            have : ({ u with res0 := x.signExtend 64 } : State).rb = s.rb := by rw [this]
            simp only at this ⊢; rw [this]; exact h.noBatch
          · unfold State.Room at *; simp only at tot ⊢; omega
        obtain ⟨k1, k2, k3, k4⟩ := ih _ _ hu hrec
        have hle : s.S.length ≤ u.S.length := by
          obtain ⟨p, _, hS, _⟩ := adv.answers
          have := congrArg List.length hS
          simp at this; omega
        refine ⟨?_, by simp [k2], by simp only at k3; omega, by simp only at k4; omega⟩
        · have hx := signExtend_setWidth x
          rw [show BitVec.setWidth 32 ({ u with res0 := x.signExtend 64, status := 0x0000#16 } : State).res0 = x from hx]
          exact .cons s u _ x xs' (x.signExtend 64) _ e k1
      · cases hr
    | tooLong =>
      have hb : riceBody a.toNat s = Res.done u (.invalid .riceOverflow) := by rw [riceBody, e]
      have tot := (bo _ _ hb).adv.total
      have hroom := h.room
      have hov : streamOverflow s u = false := by
        unfold State.Room at hroom
        simp only [streamOverflow, Bool.and_eq_false_iff, decide_eq_false_iff_not]; omega
      rw [command_of_ready h.ready hb hov, endWith_invalid] at hr
      simp [InvalidCause.code] at hr
    | short =>
      have hb : riceBody a.toNat s = Res.done u .underrun := by rw [riceBody, e]
      have tot := (bo _ _ hb).adv.total
      have hroom := h.room
      have hov : streamOverflow s u = false := by
        unfold State.Room at hroom
        simp only [streamOverflow, Bool.and_eq_false_iff, decide_eq_false_iff_not]; omega
      rw [command_of_ready h.ready hb hov, endWith_underrun] at hr
      simp at hr

/-- A new legal batch is the loop from its record. -/
theorem rice_start {s : State} {a : BitVec 8} (h : s.Accepts) (ha : a.toNat ≤ 31) (hr : s.arg0.toNat + 4 * s.arg1.toNat ≤ s.cfg.dmemBytes) (hal : s.arg0.toNat % 4 = 0) (S : List Byte) :
    exec (.brRiceb a) { s with S := S } = command { s with S := S } fun _ => riceFrom 0 { s with S := S, rb := { active := decide (0 < s.arg1.toNat), k := a.toNat, dst := s.arg0.toNat, remaining := s.arg1.toNat, phase := .quot, q := 0, rn := 0, r := 0 } } := by
  simp only [exec, execBrRiceb]
  simp [command, h.noBatch, riceStart, riceOk, ha, rangeOk, hr, alignOk, hal, riceRun_eq]

end Sys2Proof.Machine
end

