-- ==== Sys2Proof/Laws/FrameStep.lean ====
section
/-! SUPPORT. Laws of FR.STEP and FR.DECODE as commands (42_frame_sync.md R271 to R273): the end of a step, every way a
micro-step ends, and what the samples of a payload do. -/

namespace Sys2Proof.Machine

/-- FR.STEP is a micro-step, its result and its end. -/
theorem frStep_next {s t : State} {st : Status} (h : s.Accepts) (e : microStep s = .next (t, st)) :
    exec .frStep s = .next ((frameResult t st).endWith st) := by
  simp only [exec, execFrStep]
  have ok := microStep_ok s t st e
  have tot := ok.adv.total
  have hroom := h.room
  refine command_of_ready h.ready (by rw [noBatch_accepts h, e]; rfl) ?_
  unfold State.Room at hroom
  rw [frameResult_regs]
  simp only [streamOverflow, Bool.and_eq_false_iff, decide_eq_false_iff_not]; omega

/-- What FR.STEP answered is what a micro-step gave. -/
theorem frStep_inv {s u : State} (h : s.Accepts) (e : exec .frStep s = .next u) :
    ∃ t st, microStep s = .next (t, st) ∧ u = (frameResult t st).endWith st := by
  cases hm : microStep s with
  | next p => 
    obtain ⟨t, st⟩ := p
    rw [frStep_next h hm] at e
    cases e
    exact ⟨t, st, rfl, rfl⟩
  | fault f => simp [exec, execFrStep, command, h.ready.noFault, h.ready.open_, noBatch_accepts h, hm] at e
  | refused r => simp [exec, execFrStep, command, h.ready.noFault, h.ready.open_, noBatch_accepts h, hm] at e

/-- FR.STEP after a micro-step with OK. -/
theorem frStep_ok {s t u : State} (h : s.Accepts) (e : microStep s = .next (t, .ok)) (hu : u = { t with res0 := t.fsm.code, status := 0x0000#16 }) :
    exec .frStep s = .next u := by
  rw [frStep_next h e, endWith_ok, hu]; rfl

/-- A micro-step does not touch FAULT. -/
theorem micro_fault {s t : State} {st : Status} (h : s.Accepts) (e : microStep s = .next (t, st)) : t.fault = 0#16 := by
  rw [(microStep_ok s t st e).adv.fault_eq]; exact h.ready.noFault

/-- FR.STEP after a fatal micro-step. -/
theorem frStep_fatal {s t u : State} {c : FatalCause} (h : s.Accepts) (e : microStep s = .next (t, .fatal c))
    (hu : u = { t with res0 := t.fsm.code, status := BitVec.ofNat 16 (c.code * 256 + 4), fault := BitVec.ofNat 16 (c.code * 256 + 4) }) :
    exec .frStep s = .next u := by
  have hf := micro_fault h e
  rw [frStep_next h e, endWith_sticky rfl, hu]
  · rfl
  · exact hf

/-- FR.STEP after a micro-step that ran dry. -/
theorem frStep_under {s t u : State} (h : s.Accepts) (e : microStep s = .next (t, .underrun)) (hu : u = { t with res0 := t.fsm.code, status := 0x0001#16 }) :
    exec .frStep s = .next u := by
  rw [frStep_next h e, endWith_underrun, hu]; rfl

/-- FR.STEP after a micro-step at the end of the stream. -/
theorem frStep_eos {s t u : State} (h : s.Accepts) (e : microStep s = .next (t, .endOfStream)) (hu : u = { t with res0 := t.fsm.code, status := 0x0002#16 }) :
    exec .frStep s = .next u := by
  rw [frStep_next h e, endWith_endOfStream, hu]; rfl

/-- FR.STEP after the predictor broke its contract. -/
theorem frStep_contract {s t u : State} (h : s.Accepts) (e : microStep s = .next (t, .violation .predictorContract)) (hu : u = { t with status := 0x0905#16, fault := 0x0905#16 }) :
    exec .frStep s = .next u := by
  have hf := micro_fault h e
  rw [frStep_next h e, endWith_sticky rfl, hu]
  · rfl
  · exact hf

/-- A field that is there or comes. -/
theorem takeStep_has {s : State} {n : Nat} (h : (s.need n).has n = true) (rest : Nat → State → Res) :
    takeStep n s rest = rest (field (s.need n).S s.cons n) { s.need n with cons := s.cons + n } := by
  simp [takeStep, State.take_spec, h]

/-- A field that does not come. -/
theorem takeStep_dry {s : State} {n : Nat} (h : (s.need n).has n = false) (rest : Nat → State → Res) :
    takeStep n s rest = underrunStep (s.need n) := by
  simp [takeStep, State.take_spec, h]

/-- The effective depth with the side channel written out. -/
theorem effDepth_eq (s : State) : s.effDepth = s.hdr.bps + (if s.hdr.asg = .leftSide ∧ s.sub.ch = 1 ∨ s.hdr.asg = .rightSide ∧ s.sub.ch = 0 ∨
       s.hdr.asg = .midSide ∧ s.sub.ch = 1 then 1 else 0) - s.sub.w := by
  unfold State.effDepth sideBit
  cases s.hdr.asg <;> simp

/-- Every way a header micro-step ends (42_frame_sync.md R278 to R287). -/
inductive HeaderOut (s t : State) : Status → Prop
  | resync : t.fsm = .searching → HeaderOut s t .ok
  | stay : t.fsm = .headerParse → t.hp ≠ s.hp → HeaderOut s t .ok
  | accept : s.hp = .H4 → t.fsm = .subframes → t.sub.ch = 0 → t.sub.ss = .S0 → HeaderOut s t .ok
  | under : s.PulledTo t → t.eos = false → HeaderOut s t .underrun
  | ended : t.fsm = .ended → t.eos = true → HeaderOut s t .endOfStream

/-- An underrun in a header. -/
theorem HeaderOut.of_underrun {s u t : State} {st : Status} (h : s.fsm = .headerParse) (hp : s.PulledTo u) (e : underrunStep u = .next (t, st)) : HeaderOut s t st := by
  unfold underrunStep at e
  rw [hp.fsm_eq, h] at e
  split at e
  · next he => cases e; exact .ended rfl he
  · next he => cases e; exact .under hp (by simpa using he)

/-- A field of a header. -/
theorem HeaderOut.of_take {s t : State} {st : Status} {n : Nat} {rest : Nat → State → Res} (h : s.fsm = .headerParse)
    (k : (s.need n).has n = true → rest (field (s.need n).S s.cons n) { s.need n with cons := s.cons + n } = .next (t, st) → HeaderOut s t st)
    (e : takeStep n s rest = .next (t, st)) : HeaderOut s t st := by
  cases hh : (s.need n).has n with
  | true => rw [takeStep_has hh] at e; exact k hh e
  | false => rw [takeStep_dry hh] at e; exact HeaderOut.of_underrun h (s.need_pulledTo n) e

/-- A header micro-step ends in one of those ways. -/
theorem header_out {s t : State} {st : Status} (h : s.fsm = .headerParse) (e : microStep s = .next (t, st)) : HeaderOut s t st := by
  simp only [microStep, h, headerStep] at e
  split at e
  · next hp =>
    refine HeaderOut.of_take h ?_ e
    intro hh e
    simp only at e
    split at e
    · cases e; exact .resync rfl
    · cases e; exact .stay (by simp [h]) (by simp [hp])
  · next hp =>
    unfold numberStep at e
    obtain ⟨u, hu, hc⟩ := s.utf8_cases s.numWidth
    split at e
    · next e2 =>
      split at e
      · cases e; exact .resync rfl
      · cases e
        rcases hc with hc | ⟨-, -, -, hs⟩
        · rw [hc] at e2; cases e2
        · refine .stay ?_ (by simp [hp])
          simp only [e2] at hs
          rw [hs]
          exact hu.fsm_eq.trans h
    · cases e; exact .resync rfl
    · next e2 =>
      refine HeaderOut.of_underrun h ?_ e
      rcases hc with hc | ⟨hc, -⟩
      · rw [hc] at e2; cases e2; exact hu
      · rw [e2] at hc; exact absurd rfl hc
  · next hp =>
    unfold blockSizeStep at e
    split at e
    · refine HeaderOut.of_take h ?_ e
      intro hh e; cases e; exact .stay (by simp [State.setBlockSize, h]) (by simp [State.setBlockSize, hp])
    · refine HeaderOut.of_take h ?_ e
      intro hh e; cases e; exact .stay (by simp [State.setBlockSize, h]) (by simp [State.setBlockSize, hp])
    · cases e; exact .stay (by simp [State.setBlockSize, h]) (by simp [State.setBlockSize, hp])
    · cases e; exact .resync rfl
  · next hp =>
    unfold rateStep at e
    repeat' split at e
    all_goals first
      | (refine HeaderOut.of_take h ?_ e
         intro hh e; cases e; exact .stay (by simp [State.setRate, h]) (by simp [State.setRate, hp]))
      | (cases e; exact .stay (by simp [State.setRate, h]) (by simp [State.setRate, hp]))
      | (cases e; exact .resync rfl)
  · next hp =>
    refine HeaderOut.of_take h ?_ e
    intro hh e
    simp only at e
    split at e
    · unfold acceptStep at e
      split at e
      · cases e; exact .accept hp rfl rfl rfl
      · cases e; exact .resync rfl
    · cases e; exact .resync rfl

/-- Every way a subframe micro-step ends (43_subframe.md R320 to R335). -/
inductive SubframeOut (s t : State) : Status → Prop
  | stay : t.fsm = .subframes → SubframeOut s t .ok
  | footer : t.fsm = .footerCheck → t.fs = .F0 → t.sub.ch = t.hdr.nch → SubframeOut s t .ok
  | under : ({ s with predictor := t.predictor, preq := t.preq } : State).PulledTo t → t.eos = false → SubframeOut s t .underrun
  | fatal (c : FatalCause) : c ≠ .crc16Mismatch → c ≠ .nonzeroPadding → c ≠ .unsupportedLayout → t.fsm = .failed → SubframeOut s t (.fatal c)
  | contract (p : Option (List PredAnswer)) (q : Option PredRequest) : t = { s with fsm := .failed, predictor := p, preq := q } →
    SubframeOut s t (.violation .predictorContract)

/-- An underrun in a subframe. -/
theorem SubframeOut.of_underrun {s u t : State} {st : Status} (h : u.fsm = .subframes) (hp : ({ s with predictor := u.predictor, preq := u.preq } : State).PulledTo u) (e : underrunStep u = .next (t, st)) : SubframeOut s t st := by
  unfold underrunStep at e
  rw [h] at e
  split at e
  · next he => cases e; exact .fatal _ (by decide) (by decide) (by decide) rfl
  · next he => cases e; exact .under hp (by simpa using he)

/-- Pulls leave the predictor's side alone. -/
theorem State.PulledTo.withPredictor {s u : State} (hp : s.PulledTo u) : ({ s with predictor := u.predictor, preq := u.preq } : State).PulledTo u := by
  have h1 := hp.predictor_eq
  have h2 := hp.preq_eq
  rw [h1, h2]; exact hp

/-- A field of a subframe. -/
theorem SubframeOut.of_take {s t : State} {st : Status} {n : Nat} {rest : Nat → State → Res} (h : s.fsm = .subframes)
    (k : (s.need n).has n = true → rest (field (s.need n).S s.cons n) { s.need n with cons := s.cons + n } = .next (t, st) → SubframeOut s t st)
    (e : takeStep n s rest = .next (t, st)) : SubframeOut s t st := by
  cases hh : (s.need n).has n with
  | true => rw [takeStep_has hh] at e; exact k hh e
  | false => rw [takeStep_dry hh] at e; exact SubframeOut.of_underrun (by simp [h]) (State.PulledTo.withPredictor (s.need_pulledTo n)) e

/-- The depth check. -/
theorem SubframeOut.of_depth {s u t : State} {st : Status} (h : u.fsm = .subframes) (e : depthStep u = .next (t, st)) : SubframeOut s t st := by
  unfold depthStep at e
  simp only at e
  split at e
  · cases e; exact .fatal _ (by decide) (by decide) (by decide) rfl
  · cases e; exact .stay h

/-- A channel that is full. -/
theorem SubframeOut.of_channelDone {s u : State} (h : u.fsm = .subframes) : SubframeOut s (channelDone u) .ok := by
  unfold channelDone
  simp only
  split
  · next k => exact .footer rfl rfl k
  · exact .stay h

/-- Samples that were produced. -/
theorem SubframeOut.of_produce {s u : State} {xs : List Int} (h : u.fsm = .subframes) : SubframeOut s (produce u xs) .ok := by
  unfold produce
  simp only
  split
  · exact SubframeOut.of_channelDone h
  · exact .stay h

/-- A subframe micro-step ends in one of those ways. -/
theorem subframe_out {s t : State} {st : Status} (h : s.fsm = .subframes) (e : microStep s = .next (t, st)) : SubframeOut s t st := by
  have pred : predictorStep s = .next (t, st) → SubframeOut s t st := by
    intro e
    unfold predictorStep State.calling at e
    split at e
    · cases e
    · refine SubframeOut.of_underrun ?_ ?_ e
      · exact h
      · have := State.PulledTo.refl { s with preq := some s.predRequest }
        exact this
    · next a more hpr =>
      have hpl := State.pulls_pulledTo a.pulls { s with preq := some s.predRequest, predictor := some more }
      generalize State.pulls a.pulls { s with preq := some s.predRequest, predictor := some more } = u at *
      have hf : u.fsm = .subframes := by rw [hpl.fsm_eq]; exact h
      unfold predOutcomeStep at e
      split at e
      · refine SubframeOut.of_underrun hf ?_ e
        have h1 := hpl.predictor_eq
        have h2 := hpl.preq_eq
        rw [h1, h2]; exact hpl
      · cases e; exact .fatal _ (by decide) (by decide) (by decide) rfl
      · split at e
        · cases e; exact .fatal _ (by decide) (by decide) (by decide) rfl
        · split at e
          · split at e
            · cases e
            · cases e; exact .contract _ _ rfl
          · cases e; exact SubframeOut.of_produce hf
  simp only [microStep, h, subframeStep] at e
  split at e
  · refine SubframeOut.of_take h ?_ e
    intro hh e
    simp only at e
    split at e
    · cases e; exact .fatal _ (by decide) (by decide) (by decide) rfl
    · split at e
      · cases e; exact .fatal _ (by decide) (by decide) (by decide) rfl
      · split at e
        · cases e; exact .stay (by simp [h])
        · exact SubframeOut.of_depth (by simp [h]) e
  · unfold wastedStep at e
    have hsp := s.scan_pulledTo (unaryOver s.cfg)
    split at e
    · next e2 => rw [e2] at hsp; refine SubframeOut.of_depth ?_ e; exact hsp.fsm_eq.trans h
    · cases e; exact .fatal _ (by decide) (by decide) (by decide) rfl
    · next e2 => rw [e2] at hsp; exact SubframeOut.of_underrun (hsp.fsm_eq.trans h) (State.PulledTo.withPredictor hsp) e
  · split at e
    · refine SubframeOut.of_take h ?_ e
      intro hh e; cases e; exact SubframeOut.of_channelDone (by simp [State.putChan, h])
    · refine SubframeOut.of_take h ?_ e
      intro hh e; cases e; exact SubframeOut.of_produce (by simp [h])
    · exact pred e
    · exact pred e

/-- Every way a footer micro-step ends (42_frame_sync.md R289, R290). -/
inductive FooterOut (s t : State) : Status → Prop
  | pad : s.fs = .F0 → t.fs = .F1 → t.fsm = .footerCheck → FooterOut s t .ok
  | made : t.fsm = .done → t.fpresent = true → FooterOut s t .ok
  | under : s.PulledTo t → t.eos = false → FooterOut s t .underrun
  | fatal (c : FatalCause) : t.fsm = .failed → FooterOut s t (.fatal c)

/-- An underrun in a footer. -/
theorem FooterOut.of_underrun {s u t : State} {st : Status} (h : s.fsm = .footerCheck) (hp : s.PulledTo u) (e : underrunStep u = .next (t, st)) : FooterOut s t st := by
  unfold underrunStep at e
  rw [hp.fsm_eq, h] at e
  split at e
  · next he => cases e; exact .fatal _ rfl
  · next he => cases e; exact .under hp (by simpa using he)

/-- A footer micro-step ends in one of those ways. -/
theorem footer_out {s t : State} {st : Status} (h : s.fsm = .footerCheck) (e : microStep s = .next (t, st)) : FooterOut s t st := by
  simp only [microStep, h, footerStep] at e
  split at e
  · next hp =>
    unfold paddingStep at e
    simp only at e
    split at e
    · split at e
      · cases e; exact .pad hp rfl (by simp [h])
      · cases e; exact .fatal _ rfl
    · exact FooterOut.of_underrun h (s.need_pulledTo _) e
  · unfold footerCrcStep at e
    simp only at e
    split at e
    · split at e
      · split at e
        · cases e; exact .made rfl rfl
        · cases e; exact .fatal _ rfl
      · cases e; exact .fatal _ rfl
    · exact FooterOut.of_underrun h (s.need_pulledTo _) e

/-- Every way a search micro-step ends (R275). -/
inductive SearchOut (s t : State) : Status → Prop
  | stay : t.fsm = .searching → SearchOut s t .ok
  | sync : t.fsm = .headerParse → t.hp = .H0 → SearchOut s t .ok
  | under : s.PulledTo t → t.eos = false → SearchOut s t .underrun
  | ended : t.fsm = .ended → t.eos = true → SearchOut s t .endOfStream

/-- A search micro-step ends in one of those ways. -/
theorem search_out {s t : State} {st : Status} (h : s.fsm = .searching) (e : microStep s = .next (t, st)) : SearchOut s t st := by
  simp only [microStep, h, searchStep] at e
  cases hh : (s.need 1).has 1 with
  | true =>
    rw [takeStep_has hh] at e
    simp only at e
    split at e
    · cases e; exact .sync rfl rfl
    · cases e; exact .stay (by simp [h])
  | false =>
    rw [takeStep_dry hh] at e
    unfold underrunStep at e
    rw [need_fsm, h] at e
    split at e
    · next he => cases e; exact .ended rfl he
    · next he => cases e; exact .under (s.need_pulledTo 1) (by simpa using he)

/-- The low byte of a fatal status. -/
theorem fatal_word (c : FatalCause) : (Status.fatal c).word.extractLsb' 0 8 = 4#8 := by cases c <;> rfl

/-- A fatal status is not UNDERRUN. -/
theorem fatal_word_ne (c : FatalCause) : (Status.fatal c).word ≠ 1#16 := by cases c <;> decide

/-- What CHBUF reads as after a run of samples is stored. -/
theorem chan_putChan (s : State) (i : Nat) (xs : List Int) (hi : i + xs.length ≤ 65536) (c j : Nat) (hj : j < 65536) :
    (s.putChan i xs).chan c j = if c = s.sub.ch ∧ i ≤ j ∧ j < i + xs.length then xs.getD (j - i) 0 else s.chan c j := by
  unfold State.chan State.putChan
  simp only [readCell_writeRun, chanKey]
  by_cases hc : c = s.sub.ch ∧ i ≤ j ∧ j < i + xs.length
  · obtain ⟨rfl, h1, h2⟩ := hc
    rw [if_pos (by omega), if_pos ⟨rfl, h1, h2⟩]
    congr 1; omega
  · rw [if_neg hc, if_neg]
    rintro ⟨h1, h2⟩
    apply hc
    have : c = s.sub.ch := by
      rcases Nat.lt_trichotomy c s.sub.ch with h | h | h
      · have : (c + 1) * 65536 ≤ s.sub.ch * 65536 := Nat.mul_le_mul_right _ h
        omega
      · exact h
      · have : (s.sub.ch + 1) * 65536 ≤ c * 65536 := Nat.mul_le_mul_right _ h
        omega
    subst this
    omega

/-- `ChannelDone()` leaves CHBUF alone. -/
theorem chan_channelDone (s : State) (c j : Nat) : (channelDone s).chan c j = s.chan c j := by
  unfold channelDone; simp only; split <;> rfl

/-- What `ChannelDone()` does. -/
theorem channelDone_facts (s : State) (hf : s.fsm = .subframes) : (channelDone s).sub = { s.sub with ch := s.sub.ch + 1, i := 0, ss := .S0 } ∧
   (s.sub.ch + 1 = s.hdr.nch → (channelDone s).fsm = .footerCheck ∧ (channelDone s).fs = .F0) ∧
   (¬ s.sub.ch + 1 = s.hdr.nch → (channelDone s).fsm = .subframes ∧ (channelDone s).fs = s.fs) := by
  unfold channelDone
  simp only
  refine ⟨?_, ?_, ?_⟩
  · split <;> rfl
  · intro h; simp [h]
  · intro h; simp [h, hf]

/-- `ChannelDone()` changes nothing else. -/
theorem channelDone_regs (u : State) :
    channelDone u = { u with sub := (channelDone u).sub, fsm := (channelDone u).fsm, fs := (channelDone u).fs, chbuf := (channelDone u).chbuf } := by
  unfold channelDone; simp only; split <;> rfl

/-- Two's complement written with a comparison. -/
theorem sextInt_eq (n v : Nat) (h1 : 1 ≤ n) (hv : v < 2 ^ n) : sextInt n v = if 2 ^ (n - 1) ≤ v then (v : Int) - 2 ^ n else v := by
  unfold sextInt
  have : v.testBit (n - 1) = decide (2 ^ (n - 1) ≤ v) := by
    obtain ⟨m, rfl⟩ : ∃ m, n = m + 1 := ⟨n - 1, by omega⟩
    simp only [Nat.add_sub_cancel]
    rw [Nat.testBit_eq_decide_div_mod_eq]
    rw [pow_succ] at hv
    by_cases hm : 2 ^ m ≤ v
    · rw [decide_eq_true hm]
      have h2 : v / 2 ^ m = 1 := Nat.div_eq_of_lt_le (by omega) (by omega)
      simp [h2]
    · rw [decide_eq_false hm, Nat.div_eq_of_lt (by omega)]; simp
  simp [this]

/-- A mapped list with a mapped default. -/
theorem getD_map (xs : List Int) (f : Int → Int) (hf : f 0 = 0) (k : Nat) : (xs.map f).getD k 0 = f (xs.getD k 0) := by
  induction xs generalizing k with
  | nil => simp [hf]
  | cons x xs ih => cases k with
    | zero => simp
    | succ k => simpa using ih k

/-- What `produce` does to CHBUF, to the scratch and to the state machine. -/
theorem produce_facts (u : State) (xs : List Int) (hf : u.fsm = .subframes) (hb : u.hdr.bs ≤ 65536) (hl : u.sub.i + xs.length ≤ u.hdr.bs) :
    (∀ c j, j < 65536 → (produce u xs).chan c j = if c = u.sub.ch ∧ u.sub.i ≤ j ∧ j < u.sub.i + xs.length then xs.getD (j - u.sub.i) 0 * 2 ^ u.sub.w else u.chan c j) ∧
    (u.sub.i + xs.length = u.hdr.bs → (produce u xs).sub = { u.sub with ch := u.sub.ch + 1, i := 0, ss := .S0 } ∧
      (u.sub.ch + 1 = u.hdr.nch → (produce u xs).fsm = .footerCheck ∧ (produce u xs).fs = .F0) ∧
      (¬ u.sub.ch + 1 = u.hdr.nch → (produce u xs).fsm = .subframes ∧ (produce u xs).fs = u.fs)) ∧
    (u.sub.i + xs.length ≠ u.hdr.bs → (produce u xs).sub = { u.sub with i := u.sub.i + xs.length } ∧ (produce u xs).fsm = .subframes ∧ (produce u xs).fs = u.fs) := by
  have hp : produce u xs = (if u.sub.i + xs.length = u.hdr.bs then channelDone { u.putChan u.sub.i (xs.map fun x => x * 2 ^ u.sub.w) with sub := { u.sub with i := u.sub.i + xs.length } } else
      { u.putChan u.sub.i (xs.map fun x => x * 2 ^ u.sub.w) with sub := { u.sub with i := u.sub.i + xs.length } }) := by
    rfl
  have hch : ∀ c j, j < 65536 → (u.putChan u.sub.i (xs.map fun x => x * 2 ^ u.sub.w)).chan c j = if c = u.sub.ch ∧ u.sub.i ≤ j ∧ j < u.sub.i + xs.length then xs.getD (j - u.sub.i) 0 * 2 ^ u.sub.w else u.chan c j := by
    intro c j hj
    rw [chan_putChan _ _ _ (by simp; omega) _ _ hj]
    simp only [List.length_map]
    congr 1
    exact getD_map xs (fun x => x * 2 ^ u.sub.w) (by simp) _
  refine ⟨?_, ?_, ?_⟩
  · intro c j hj
    rw [← hch c j hj, hp]
    split
    · rw [chan_channelDone]; rfl
    · rfl
  · intro k
    rw [hp, if_pos k]
    exact channelDone_facts _ hf
  · intro k
    rw [hp, if_neg k]
    exact ⟨rfl, hf, rfl⟩

/-- A stream that fits does not overflow. -/
theorem noOverflow_advance {s t u : State} (h : s.Accepts) (a : s.Advance t) (hS : u.S = t.S) : streamOverflow s u = false := by
  have := h.room.noOverflow_advance a
  unfold streamOverflow at *
  rw [hS]; exact this

/-- FR.DECODE after a loop that ends with a Frame. -/
theorem frDecode_ok {s t : State} (h : s.Accepts) (e : decodeRun s = .next (t, .ok)) :
    exec .frDecode s = .next { t with res0 := t.fsm.code, res1 := natReg t.frameLen, status := 0x0000#16 } := by
  have ok := decodeLoop_ok _ _ _ _ e
  simp only [exec, execFrDecode]
  rw [command_of_ready (t := { t with res0 := t.fsm.code, res1 := natReg t.frameLen }) (st := .ok) h.ready (by rw [noBatch_accepts h, e]; rfl) (noOverflow_advance h ok.adv rfl), endWith_ok]

/-- FR.DECODE after a loop that ends otherwise. -/
theorem frDecode_other {s t : State} {st : Status} (h : s.Accepts) (hst : st ≠ .ok) (e : decodeRun s = .next (t, st)) :
    exec .frDecode s = .next ((frameResult t st).endWith st) := by
  have ok := decodeLoop_ok _ _ _ _ e
  simp only [exec, execFrDecode]
  refine command_of_ready h.ready ?_ (noOverflow_advance h ok.adv (by rw [frameResult_regs]))
  rw [noBatch_accepts h, e]
  cases st <;> first | rfl | exact absurd rfl hst

/-- What FR.DECODE answered is what its loop gave. -/
theorem frDecode_inv {s u : State} (h : s.Accepts) (e : exec .frDecode s = .next u) : ∃ t st, decodeRun s = .next (t, st) := by
  cases hm : decodeRun s with
  | next p => exact ⟨p.1, p.2, rfl⟩
  | fault f => simp [exec, execFrDecode, command, h.ready.noFault, h.ready.open_, noBatch_accepts h, hm] at e
  | refused r => simp [exec, execFrDecode, command, h.ready.noFault, h.ready.open_, noBatch_accepts h, hm] at e

/-- After an FR.STEP with OK the next command is accepted. -/
theorem accepts_after {s t : State} (h : s.Accepts) (ok : MicroOk s t .ok) : State.Accepts { t with res0 := t.fsm.code, status := 0x0000#16 } := by
  refine ⟨⟨?_, ?_⟩, ?_, ?_⟩
  · exact ok.adv.fault_eq.trans h.ready.noFault
  · exact ok.adv.disposed_eq.trans h.ready.open_
  · show t.rb.active = false
    rw [ok.rb]; exact h.noBatch
  · have := h.room; unfold State.Room at *
    have := ok.adv.total
    simp only; omega

/-- FR.STEP is refused for want of a predictor exactly when its micro-step is. -/
theorem frStep_absent {s : State} (h : s.Accepts) : exec .frStep s = .refused .predictorAbsent ↔ microStep s = .refused .predictorAbsent := by
  simp only [exec, execFrStep]
  constructor
  · intro e
    have := (command_refused (by decide) e).2
    rw [noBatch_accepts h] at this
    split at this
    · cases this
    · cases this
    · next r hr => cases this; exact hr
  · intro e
    refine command_of_refused h.ready ?_
    rw [noBatch_accepts h, e]

/-- FR.DECODE is refused for want of a predictor exactly when its loop is. -/
theorem frDecode_absent {s : State} (h : s.Accepts) : exec .frDecode s = .refused .predictorAbsent ↔ decodeRun s = .refused .predictorAbsent := by
  simp only [exec, execFrDecode]
  constructor
  · intro e
    have := (command_refused (by decide) e).2
    rw [noBatch_accepts h] at this
    split at this
    · cases this
    · cases this
    · cases this
    · next r hr => cases this; exact hr
  · intro e
    refine command_of_refused h.ready ?_
    rw [noBatch_accepts h, e]

end Sys2Proof.Machine
end

