-- ==== Sys2Proof/Laws/Congruence.lean ====
section
/-! SUPPORT. What does not depend on what: micro-steps and the FR.DECODE loop do not look at RES0 and STATUS, and the bodies of
the BitReader do not look at the word width or at the count of discarded words (10_state.md R44, 41_bitreader.md R214). -/

namespace Sys2Proof.Machine

/-- The state with another RES0 and STATUS. -/
def State.with0 (s : State) (r : Reg) (x : Half) : State := { s with res0 := r, status := x }
/-- A result with another RES0 and STATUS. -/
def Res.with0 : Res → Reg → Half → Res
  | .next (t, st), r, x => .next (t.with0 r x, st)
  | .fault f, _, _ => .fault f
  | .refused e, _, _ => .refused e
@[simp] theorem with0_cmd (s : State) (r : Reg) (x : Half) : (s.with0 r x).cmd = s.cmd := (rfl)
@[simp] theorem with0_arg0 (s : State) (r : Reg) (x : Half) : (s.with0 r x).arg0 = s.arg0 := (rfl)
@[simp] theorem with0_arg1 (s : State) (r : Reg) (x : Half) : (s.with0 r x).arg1 = s.arg1 := (rfl)
@[simp] theorem with0_res1 (s : State) (r : Reg) (x : Half) : (s.with0 r x).res1 = s.res1 := (rfl)
@[simp] theorem with0_res2 (s : State) (r : Reg) (x : Half) : (s.with0 r x).res2 = s.res2 := (rfl)
@[simp] theorem with0_fault (s : State) (r : Reg) (x : Half) : (s.with0 r x).fault = s.fault := (rfl)
@[simp] theorem with0_c8 (s : State) (r : Reg) (x : Half) : (s.with0 r x).c8 = s.c8 := (rfl)
@[simp] theorem with0_c16 (s : State) (r : Reg) (x : Half) : (s.with0 r x).c16 = s.c16 := (rfl)
@[simp] theorem with0_bcrc (s : State) (r : Reg) (x : Half) : (s.with0 r x).bcrc = s.bcrc := (rfl)
@[simp] theorem with0_S (s : State) (r : Reg) (x : Half) : (s.with0 r x).S = s.S := (rfl)
@[simp] theorem with0_cons (s : State) (r : Reg) (x : Half) : (s.with0 r x).cons = s.cons := (rfl)
@[simp] theorem with0_base (s : State) (r : Reg) (x : Half) : (s.with0 r x).base = s.base := (rfl)
@[simp] theorem with0_eos (s : State) (r : Reg) (x : Half) : (s.with0 r x).eos = s.eos := (rfl)
@[simp] theorem with0_rb (s : State) (r : Reg) (x : Half) : (s.with0 r x).rb = s.rb := (rfl)
@[simp] theorem with0_dw (s : State) (r : Reg) (x : Half) : (s.with0 r x).dw = s.dw := (rfl)
@[simp] theorem with0_siRate (s : State) (r : Reg) (x : Half) : (s.with0 r x).siRate = s.siRate := (rfl)
@[simp] theorem with0_siBps (s : State) (r : Reg) (x : Half) : (s.with0 r x).siBps = s.siBps := (rfl)
@[simp] theorem with0_siChannels (s : State) (r : Reg) (x : Half) : (s.with0 r x).siChannels = s.siChannels := (rfl)
@[simp] theorem with0_fsm (s : State) (r : Reg) (x : Half) : (s.with0 r x).fsm = s.fsm := (rfl)
@[simp] theorem with0_acc (s : State) (r : Reg) (x : Half) : (s.with0 r x).acc = s.acc := (rfl)
@[simp] theorem with0_accn (s : State) (r : Reg) (x : Half) : (s.with0 r x).accn = s.accn := (rfl)
@[simp] theorem with0_hp (s : State) (r : Reg) (x : Half) : (s.with0 r x).hp = s.hp := (rfl)
@[simp] theorem with0_raw (s : State) (r : Reg) (x : Half) : (s.with0 r x).raw = s.raw := (rfl)
@[simp] theorem with0_hdr (s : State) (r : Reg) (x : Half) : (s.with0 r x).hdr = s.hdr := (rfl)
@[simp] theorem with0_sub (s : State) (r : Reg) (x : Half) : (s.with0 r x).sub = s.sub := (rfl)
@[simp] theorem with0_chbuf (s : State) (r : Reg) (x : Half) : (s.with0 r x).chbuf = s.chbuf := (rfl)
@[simp] theorem with0_fs (s : State) (r : Reg) (x : Half) : (s.with0 r x).fs = s.fs := (rfl)
@[simp] theorem with0_fcrc (s : State) (r : Reg) (x : Half) : (s.with0 r x).fcrc = s.fcrc := (rfl)
@[simp] theorem with0_fpresent (s : State) (r : Reg) (x : Half) : (s.with0 r x).fpresent = s.fpresent := (rfl)
@[simp] theorem with0_fbuf (s : State) (r : Reg) (x : Half) : (s.with0 r x).fbuf = s.fbuf := (rfl)
@[simp] theorem with0_fcur (s : State) (r : Reg) (x : Half) : (s.with0 r x).fcur = s.fcur := (rfl)
@[simp] theorem with0_disposed (s : State) (r : Reg) (x : Half) : (s.with0 r x).disposed = s.disposed := (rfl)
@[simp] theorem with0_dmem (s : State) (r : Reg) (x : Half) : (s.with0 r x).dmem = s.dmem := (rfl)
@[simp] theorem with0_cfg (s : State) (r : Reg) (x : Half) : (s.with0 r x).cfg = s.cfg := (rfl)
@[simp] theorem with0_predictor (s : State) (r : Reg) (x : Half) : (s.with0 r x).predictor = s.predictor := (rfl)
@[simp] theorem with0_preq (s : State) (r : Reg) (x : Half) : (s.with0 r x).preq = s.preq := (rfl)
@[simp] theorem with0_upstream (s : State) (r : Reg) (x : Half) : (s.with0 r x).upstream = s.upstream := (rfl)
@[simp] theorem with0_nextSources (s : State) (r : Reg) (x : Half) : (s.with0 r x).nextSources = s.nextSources := (rfl)
@[simp] theorem with0_host (s : State) (r : Reg) (x : Half) : (s.with0 r x).host = s.host := (rfl)
@[simp] theorem with0_rdata (s : State) (r : Reg) (x : Half) : (s.with0 r x).rdata = s.rdata := (rfl)
@[simp] theorem with0_has (s : State) (r : Reg) (x : Half) (n : Nat) : (s.with0 r x).has n = s.has n := (rfl)
@[simp] theorem with0_bitsAhead (s : State) (r : Reg) (x : Half) : (s.with0 r x).bitsAhead = s.bitsAhead := (rfl)
@[simp] theorem with0_compacted (s : State) (r : Reg) (x : Half) : (s.with0 r x).compacted = s.compacted := (rfl)
@[simp] theorem with0_effDepth (s : State) (r : Reg) (x : Half) : (s.with0 r x).effDepth = s.effDepth := (rfl)
@[simp] theorem with0_numWidth (s : State) (r : Reg) (x : Half) : (s.with0 r x).numWidth = s.numWidth := (rfl)
@[simp] theorem with0_padding (s : State) (r : Reg) (x : Half) : (s.with0 r x).padding = s.padding := (rfl)
@[simp] theorem with0_depthEntry (s : State) (r : Reg) (x : Half) : (s.with0 r x).depthEntry = s.depthEntry := (rfl)
@[simp] theorem with0_frameLen (s : State) (r : Reg) (x : Half) : (s.with0 r x).frameLen = s.frameLen := (rfl)
@[simp] theorem with0_done (s : State) (st : Status) (r : Reg) (x : Half) : (Res.done s st).with0 r x = Res.done (s.with0 r x) st := (rfl)


@[simp] theorem need_with0 (s : State) (n : Nat) (r : Reg) (x : Half) : (s.with0 r x).need n = (s.need n).with0 r x := by
  simp only [State.need, with0_has]; ((repeat' split) <;> try contradiction) <;> rfl

@[simp] theorem pull_with0 (s : State) (r : Reg) (x : Half) : (s.with0 r x).pull.2 = s.pull.2.with0 r x := by
  simp only [State.pull, with0_upstream]; cases s.upstream <;> rfl

@[simp] theorem pulls_with0 (n : Nat) (s : State) (r : Reg) (x : Half) : State.pulls n (s.with0 r x) = (State.pulls n s).with0 r x := by
  induction n generalizing s with
  | zero => rfl
  | succ n ih => simp only [State.pulls, with0_eos, pull_with0, ih]; ((repeat' split) <;> try contradiction) <;> rfl

theorem fatalStep_with0 (s : State) (c : FatalCause) (r : Reg) (x : Half) : fatalStep (s.with0 r x) c = (fatalStep s c).with0 r x := rfl

theorem underrunStep_with0 (s : State) (r : Reg) (x : Half) : underrunStep (s.with0 r x) = (underrunStep s).with0 r x := by
  simp only [underrunStep, with0_eos, with0_fsm]; by_cases h : s.eos = true
  · rw [if_pos h, if_pos h]; cases s.fsm <;> rfl
  · rw [if_neg h, if_neg h]; rfl

theorem takeStep_with0 (n : Nat) (s : State) (r : Reg) (x : Half) (rest : Nat → State → Res)
    (h : ∀ v t, rest v (t.with0 r x) = (rest v t).with0 r x) : takeStep n (s.with0 r x) rest = (takeStep n s rest).with0 r x := by
  cases hh : (s.need n).has n with
  | true =>
    rw [takeStep_has hh, takeStep_has (by simpa using hh)]
    simp only [need_with0, with0_S, with0_cons]
    exact h _ { s.need n with cons := s.cons + n }
  | false =>
    rw [takeStep_dry hh, takeStep_dry (by simpa using hh), need_with0, underrunStep_with0]

theorem scanZeros_with0 (tooMany : Nat → Bool) (turns z : Nat) (s : State) (r : Reg) (x : Half) :
    scanZeros tooMany turns z (s.with0 r x) = ((scanZeros tooMany turns z s).1.with0 r x, (scanZeros tooMany turns z s).2) := by
  induction turns generalizing z s with
  | zero => rfl
  | succ n ih =>
    simp only [scanZeros, need_with0, with0_has, with0_S, with0_cons, ih]
    ((repeat' split) <;> try contradiction) <;> rfl

theorem utf8_with0 (s : State) (wd : Nat) (r : Reg) (x : Half) : (s.with0 r x).utf8 wd = ((s.utf8 wd).1.with0 r x, (s.utf8 wd).2) := by
  simp only [State.utf8, need_with0, with0_has, with0_S, with0_cons]
  ((repeat' split) <;> try contradiction) <;> rfl

theorem depthStep_with0 (s : State) (r : Reg) (x : Half) : depthStep (s.with0 r x) = (depthStep s).with0 r x := by
  simp only [depthStep, with0_effDepth]; ((repeat' split) <;> try contradiction) <;> rfl

theorem channelDone_with0 (s : State) (r : Reg) (x : Half) : channelDone (s.with0 r x) = (channelDone s).with0 r x := by
  simp only [channelDone, with0_sub, with0_hdr]; ((repeat' split) <;> try contradiction) <;> rfl

theorem produce_eq (u : State) (xs : List Int) : produce u xs = (if u.sub.i + xs.length = u.hdr.bs then channelDone { u.putChan u.sub.i (xs.map fun x => x * 2 ^ u.sub.w) with sub := { u.sub with i := u.sub.i + xs.length } } else
      { u.putChan u.sub.i (xs.map fun x => x * 2 ^ u.sub.w) with sub := { u.sub with i := u.sub.i + xs.length } }) := by
    rfl

theorem produce_with0 (s : State) (xs : List Int) (r : Reg) (x : Half) : produce (s.with0 r x) xs = (produce s xs).with0 r x := by
  rw [produce_eq, produce_eq]
  by_cases hx : s.sub.i + xs.length = s.hdr.bs
  · rw [if_pos hx, if_pos (by exact hx)]
    exact channelDone_with0 { s.putChan s.sub.i (xs.map fun x => x * 2 ^ s.sub.w) with sub := { s.sub with i := s.sub.i + xs.length } } r x
  · rw [if_neg hx, if_neg (by exact hx)]; rfl

theorem headerStep_with0 (s : State) (r : Reg) (x : Half) : headerStep (s.with0 r x) = (headerStep s).with0 r x := by
  simp only [headerStep, with0_hp]
  split
  · refine takeStep_with0 _ _ _ _ _ fun v t => ?_
    simp only [with0_hdr, with0_raw, State.fixedInvalid, with0_cfg, with0_siBps]
    ((repeat' split) <;> try contradiction) <;> rfl
  · simp only [numberStep, with0_numWidth, utf8_with0]
    generalize s.utf8 s.numWidth = q
    obtain ⟨t, v⟩ := q
    cases v with
    | value v raw => simp only; ((repeat' split) <;> try contradiction) <;> rfl
    | bad c raw => rfl
    | short => exact underrunStep_with0 t r x
  · simp only [blockSizeStep, with0_cfg, with0_hdr]
    split
    · exact takeStep_with0 _ _ _ _ _ fun v t => rfl
    · exact takeStep_with0 _ _ _ _ _ fun v t => rfl
    · rfl
    · rfl
  · simp only [rateStep, with0_cfg, with0_hdr]
    ((repeat' split) <;> try contradiction)
    · exact takeStep_with0 _ _ _ _ _ fun v t => rfl
    · exact takeStep_with0 _ _ _ _ _ fun v t => rfl
    · exact takeStep_with0 _ _ _ _ _ fun v t => rfl
    · rfl
    · rfl
    · rfl
  · refine takeStep_with0 _ _ _ _ _ fun v t => ?_
    simp only [with0_raw, with0_hdr]
    ((repeat' split) <;> try contradiction)
    · unfold acceptStep
      simp only [State.depthEntry, with0_hdr, with0_siBps, with0_cfg]
      split <;> rfl
    · rfl

@[simp] theorem streamOverflow_with0 (s t : State) (r : Reg) (x : Half) :
    streamOverflow (s.with0 r x) (t.with0 r x) = streamOverflow s t := rfl

theorem calling_with0 (s : State) (more : List PredAnswer) (r : Reg) (x : Half) :
    (s.with0 r x).calling more = (s.calling more).with0 r x := rfl

theorem subframeStep_with0 (s : State) (r : Reg) (x : Half) : subframeStep (s.with0 r x) = (subframeStep s).with0 r x := by
  have pred : predictorStep (s.with0 r x) = (predictorStep s).with0 r x := by
    simp only [predictorStep, with0_predictor]
    split
    · rfl
    · exact underrunStep_with0 { s with preq := some s.predRequest } r x
    · next a more h =>
      rw [calling_with0, pulls_with0]
      generalize State.pulls a.pulls (s.calling more) = t
      generalize s.calling more = call
      unfold predOutcomeStep
      split
      · exact underrunStep_with0 _ _ _
      · rfl
      · simp only [with0_sub, with0_hdr, streamOverflow_with0]
        ((repeat' split) <;> try contradiction)
        · rfl
        · rfl
        · rfl
        · next xs bits _ _ _ => 
          have := produce_with0 { t with cons := t.cons + min bits (t.avail - t.cons) } xs r x
          exact congrArg (fun u => Res.done u .ok) this
  simp only [subframeStep, with0_sub]
  split
  · refine takeStep_with0 _ _ _ _ _ fun v t => ?_
    simp only [with0_sub]
    ((repeat' split) <;> try contradiction)
    · rfl
    · rfl
    · rfl
    · next k o _ _ => exact depthStep_with0 { t with sub := { ch := t.sub.ch, ss := t.sub.ss, kind := k, order := o, wf := v.testBit 0, w := 0, be := t.sub.be, i := 0 } } r x
  · simp only [wastedStep, State.scan, with0_bitsAhead, with0_cfg, scanZeros_with0]
    generalize scanZeros (unaryOver s.cfg) (s.bitsAhead + 1) 0 s = q
    obtain ⟨t, v⟩ := q
    cases v with
    | found u => exact depthStep_with0 { t with cons := t.cons + u + 1, sub := { t.sub with w := u + 1 } } r x
    | tooLong => rfl
    | short => exact underrunStep_with0 t r x
  · split
    · refine takeStep_with0 _ _ _ _ _ fun v t => ?_
      exact congrArg (fun u => Res.done u .ok) (channelDone_with0 (t.putChan 0 (List.replicate t.hdr.bs (sextInt t.sub.be.toNat v * 2 ^ t.sub.w))) r x)
    · refine takeStep_with0 _ _ _ _ _ fun v t => ?_
      exact congrArg (fun u => Res.done u .ok) (produce_with0 t _ r x)
    · exact pred
    · exact pred

theorem microStep_with0 (s : State) (r : Reg) (x : Half) : microStep (s.with0 r x) = (microStep s).with0 r x := by
  simp only [microStep, with0_fsm]
  split
  · refine takeStep_with0 _ _ _ _ _ fun v t => ?_
    simp only [with0_acc, with0_accn]
    ((repeat' split) <;> try contradiction) <;> rfl
  · exact headerStep_with0 s r x
  · exact subframeStep_with0 s r x
  · simp only [footerStep, with0_fs]
    split
    · simp only [paddingStep, with0_padding, need_with0, with0_has, with0_S, with0_cons]
      ((repeat' split) <;> try contradiction)
      · rfl
      · rfl
      · exact underrunStep_with0 _ r x
    · unfold footerCrcStep
      simp only [need_with0]
      by_cases hh : (s.need 16).has 16 = true
      · rw [if_pos hh, if_pos (by exact hh)]
        generalize s.need 16 = t
        by_cases hv : BitVec.ofNat 16 (field t.upd.S t.upd.cons 16) = t.upd.bcrc
        · rw [if_pos hv, if_pos (by exact hv)]
          by_cases hl : State.layoutOk { t.upd with cons := t.upd.cons + 16, fcrc := BitVec.ofNat 16 (field t.upd.S t.upd.cons 16) } = true
          · rw [if_pos hl, if_pos (by exact hl)]; rfl
          · rw [if_neg hl, if_neg (by exact hl)]; rfl
        · rw [if_neg hv, if_neg (by exact hv)]; rfl
      · rw [if_neg hh, if_neg (by exact hh)]; exact underrunStep_with0 _ r x
  · rfl
  · rfl
  · rfl

theorem decodeLoop_with0 (n : Nat) (s : State) (r : Reg) (x : Half) : decodeLoop n (s.with0 r x) = (decodeLoop n s).with0 r x := by
  induction n generalizing s with
  | zero => rfl
  | succ n ih =>
    unfold decodeLoop
    rw [microStep_with0]
    cases hm : microStep s with
    | next p =>
      obtain ⟨t, st⟩ := p
      cases st with
      | ok =>
        simp only [Res.with0, with0_fsm]
        by_cases hd : t.fsm = .done
        · rw [if_pos hd, if_pos hd]; rfl
        · rw [if_neg hd, if_neg hd]; exact ih t
      | _ => rfl
    | fault f => rfl
    | refused e => rfl

theorem decodeRun_with0 (s : State) (r : Reg) (x : Half) : decodeRun (s.with0 r x) = (decodeRun s).with0 r x :=
  decodeLoop_with0 _ _ _ _

theorem with0_refused {r : Res} {x : Reg} {y : Half} {e : Refusal} : r.with0 x y = .refused e ↔ r = .refused e := by
  cases r with
  | next p => obtain ⟨t, st⟩ := p; simp [Res.with0]
  | fault f => simp [Res.with0]
  | refused f => simp [Res.with0]

/-- The state with another word width and another count of discarded words. -/
def State.ww (s : State) (w d : Nat) : State := { s with cfg := { s.cfg with W := w }, dw := d }
/-- A result with another word width and count of discarded words. -/
def Res.ww : Res → Nat → Nat → Res
  | .next (t, st), w, d => .next (t.ww w d, st)
  | .fault f, _, _ => .fault f
  | .refused e, _, _ => .refused e


theorem need_ww (s : State) (w d n : Nat) : ∃ d', (s.ww w d).need n = (s.need n).ww w d' := by
  unfold State.need
  by_cases h : s.has n = true
  · rw [if_pos h, if_pos (by exact h)]; exact ⟨d, rfl⟩
  · rw [if_neg h, if_neg (by exact h)]; exact ⟨_, rfl⟩

theorem pull_ww (s : State) (w d : Nat) : ∃ d', (s.ww w d).pull = (s.pull.1, s.pull.2.ww w d') := by
  unfold State.pull
  cases h : s.upstream with
  | nil => rw [show (s.ww w d).upstream = [] from h]; exact ⟨_, rfl⟩
  | cons a up => rw [show (s.ww w d).upstream = a :: up from h]; exact ⟨_, rfl⟩

theorem scan_ww (f : Nat → Bool) (turns z : Nat) (s : State) (w d : Nat) :
    ∃ d', scanZeros f turns z (s.ww w d) = ((scanZeros f turns z s).1.ww w d', (scanZeros f turns z s).2) := by
  induction turns generalizing z s d with
  | zero => exact ⟨d, rfl⟩
  | succ n ih =>
    obtain ⟨d1, h1⟩ := need_ww s w d (z + 1)
    unfold scanZeros
    simp only [h1]
    by_cases h : (s.need (z + 1)).has (z + 1) = true
    · rw [if_pos h, if_pos (by exact h)]
      by_cases hb : bitAt (s.need (z + 1)).S ((s.need (z + 1)).cons + z) = true
      · rw [if_pos hb, if_pos (by exact hb)]; exact ⟨d1, rfl⟩
      · rw [if_neg hb, if_neg (by exact hb)]
        by_cases ht : f (z + 1) = true
        · rw [if_pos ht, if_pos ht]; exact ⟨d1, rfl⟩
        · rw [if_neg ht, if_neg ht]; exact ih _ _ _
    · rw [if_neg h, if_neg (by exact h)]; exact ⟨d1, rfl⟩

theorem readField_ww (n : Nat) (s : State) (w d : Nat) : ∃ d', readField n (s.ww w d) = (readField n s).ww w d' := by
  obtain ⟨d1, h1⟩ := need_ww s w d n
  refine ⟨d1, ?_⟩
  cases hh : (s.need n).has n with
  | true => rw [readField_has hh, readField_has (by rw [h1]; exact hh), h1]; rfl
  | false => rw [readField_dry hh, readField_dry (by rw [h1]; exact hh), h1]; rfl

theorem unary_ww (s : State) (w d : Nat) : ∃ d', unaryBody (s.ww w d) = (unaryBody s).ww w d' := by
  obtain ⟨d1, h1⟩ := scan_ww (unaryOver s.cfg) (s.bitsAhead + 1) 0 s w d
  refine ⟨d1, ?_⟩
  have h1' : (s.ww w d).scan (unaryOver (s.ww w d).cfg) = ((s.scan (unaryOver s.cfg)).1.ww w d1, (s.scan (unaryOver s.cfg)).2) := h1
  unfold unaryBody
  rw [h1']
  generalize s.scan (unaryOver s.cfg) = q
  obtain ⟨t, v⟩ := q
  cases v <;> rfl

theorem rice_ww (s : State) (k w d : Nat) : ∃ d', (s.ww w d).rice k = ((s.rice k).1.ww w d', (s.rice k).2) := by
  obtain ⟨d1, h1⟩ := scan_ww (riceOver k) (s.bitsAhead + 1) 0 s w d
  have h1' : (s.ww w d).scan (riceOver k) = ((s.scan (riceOver k)).1.ww w d1, (s.scan (riceOver k)).2) := h1
  unfold State.rice
  rw [h1']
  generalize s.scan (riceOver k) = q
  obtain ⟨t, v⟩ := q
  cases v with
  | found q =>
    simp only
    obtain ⟨d2, h2⟩ := need_ww t w d1 (q + 1 + k)
    rw [h2]
    by_cases h : (t.need (q + 1 + k)).has (q + 1 + k) = true
    · rw [if_pos h, if_pos (by exact h)]; exact ⟨d2, rfl⟩
    · rw [if_neg h, if_neg (by exact h)]; exact ⟨d2, rfl⟩
  | short => exact ⟨d1, rfl⟩
  | tooLong => exact ⟨d1, rfl⟩

theorem riceBody_ww (k : Nat) (s : State) (w d : Nat) : ∃ d', riceBody k (s.ww w d) = (riceBody k s).ww w d' := by
  obtain ⟨d1, h1⟩ := rice_ww s k w d
  refine ⟨d1, ?_⟩
  unfold riceBody
  rw [h1]
  generalize s.rice k = q
  obtain ⟨t, v⟩ := q
  cases v <;> rfl

theorem quot_ww (s : State) (w d : Nat) : (s.ww w d).riceQuotBit = s.riceQuotBit.ww w d := by
  unfold State.riceQuotBit
  by_cases h : bitAt s.S s.cons = true
  · rw [if_pos h, if_pos (by exact h)]; rfl
  · rw [if_neg h, if_neg (by exact h)]; rfl

theorem riceLoop_ww (turns n : Nat) (s : State) (w d : Nat) : ∃ d', riceLoop turns n (s.ww w d) = (riceLoop turns n s).ww w d' := by
  induction turns generalizing n s d with
  | zero => exact ⟨d, rfl⟩
  | succ m ih =>
    unfold riceLoop
    by_cases h0 : s.rb.remaining = 0
    · rw [if_pos h0, if_pos (by exact h0)]; exact ⟨d, rfl⟩
    · rw [if_neg h0, if_neg (by exact h0)]
      obtain ⟨d1, h1⟩ := need_ww s w d 1
      cases hp : s.rb.phase with
      | quot =>
        rw [show (s.ww w d).rb.phase = .quot from hp]
        simp only [h1]
        by_cases hh : (s.need 1).has 1 = true
        · rw [if_pos hh, if_pos (by exact hh), quot_ww]
          by_cases hv : (s.need 1).riceQuotBit.rb.phase = .quot ∧ riceOver (s.need 1).riceQuotBit.rb.k (s.need 1).riceQuotBit.rb.q = true
          · rw [if_pos hv, if_pos (by exact hv)]; exact ⟨d1, rfl⟩
          · rw [if_neg hv, if_neg (by exact hv)]; exact ih _ _ _
        · rw [if_neg hh, if_neg (by exact hh)]; exact ⟨d1, rfl⟩
      | rem =>
        rw [show (s.ww w d).rb.phase = .rem from hp]
        simp only [h1]
        by_cases hr : s.rb.rn < s.rb.k
        · rw [if_pos hr, if_pos (by exact hr)]
          by_cases hh : (s.need 1).has 1 = true
          · rw [if_pos hh, if_pos (by exact hh)]; exact ih n (s.need 1).riceRemBit d1
          · rw [if_neg hh, if_neg (by exact hh)]; exact ⟨d1, rfl⟩
        · rw [if_neg hr, if_neg (by exact hr)]; exact ih (n + 1) s.riceEmit d

theorem utf8_ww (s : State) (wd w d : Nat) : ∃ d', (s.ww w d).utf8 wd = ((s.utf8 wd).1.ww w d', (s.utf8 wd).2) := by
  obtain ⟨d1, h1⟩ := need_ww s w d 8
  unfold State.utf8
  simp only [h1]
  by_cases hh : (s.need 8).has 8 = true
  · rw [if_pos hh, if_pos (by exact hh)]
    generalize hk : leadingOnes 8 (field (s.need 8).S (s.need 8).cons 8) = k
    have hk' : leadingOnes 8 (field ((s.need 8).ww w d1).S ((s.need 8).ww w d1).cons 8) = k := hk
    rw [hk']
    by_cases h0 : k = 0
    · rw [if_pos h0, if_pos h0]; exact ⟨d1, rfl⟩
    by_cases ho : k = 1
    · rw [if_neg h0, if_neg h0, if_pos ho, if_pos ho]; exact ⟨d1, rfl⟩
    by_cases h7 : 7 ≤ k
    · rw [if_neg h0, if_neg h0, if_neg ho, if_neg ho, if_pos h7, if_pos h7]; exact ⟨d1, rfl⟩
    rw [if_neg h0, if_neg h0, if_neg ho, if_neg ho, if_neg h7, if_neg h7]
    obtain ⟨d2, h2⟩ := need_ww (s.need 8) w d1 (8 * k)
    rw [h2]
    generalize ht : (s.need 8).need (8 * k) = t
    by_cases hu : t.has (8 * k) = true
    · rw [if_pos hu, if_pos (by exact hu)]
      refine ⟨d2, ?_⟩
      have : varintTail (t.ww w d2).S (k - 1) ((t.ww w d2).cons + 8)
            (field ((s.need 8).ww w d1).S ((s.need 8).ww w d1).cons 8 % 2 ^ (7 - k))
            [BitVec.ofNat 8 (field ((s.need 8).ww w d1).S ((s.need 8).ww w d1).cons 8)] = varintTail t.S (k - 1) (t.cons + 8)
            (field (s.need 8).S (s.need 8).cons 8 % 2 ^ (7 - k))
            [BitVec.ofNat 8 (field (s.need 8).S (s.need 8).cons 8)] := rfl
      rw [this]
      generalize varintTail t.S (k - 1) (t.cons + 8)
            (field (s.need 8).S (s.need 8).cons 8 % 2 ^ (7 - k))
            [BitVec.ofNat 8 (field (s.need 8).S (s.need 8).cons 8)] = q
      cases q <;> rfl
    · rw [if_neg hu, if_neg (by exact hu)]; exact ⟨d2, rfl⟩
  · rw [if_neg hh, if_neg (by exact hh)]; exact ⟨d1, rfl⟩

theorem utf8Body_ww (wd : Nat) (s : State) (w d : Nat) : ∃ d', utf8Body wd (s.ww w d) = (utf8Body wd s).ww w d' := by
  obtain ⟨d1, h1⟩ := utf8_ww s wd w d
  refine ⟨d1, ?_⟩
  unfold utf8Body
  rw [h1]
  generalize s.utf8 wd = q
  obtain ⟨t, v⟩ := q
  cases v <;> rfl

theorem zpad_ww (s : State) (w d : Nat) : ∃ d', zpadBody (s.ww w d) = (zpadBody s).ww w d' := by
  obtain ⟨d1, h1⟩ := need_ww s w d s.padding
  refine ⟨d1, ?_⟩
  unfold zpadBody
  have hp : (s.ww w d).padding = s.padding := rfl
  simp only [hp, h1]
  generalize s.need s.padding = t
  by_cases hh : t.has s.padding = true
  · rw [if_pos hh, if_pos (by exact hh)]
    by_cases hz : field t.S t.cons s.padding = 0
    · rw [if_pos hz, if_pos (by exact hz)]; rfl
    · rw [if_neg hz, if_neg (by exact hz)]; rfl
  · rw [if_neg hh, if_neg (by exact hh)]; rfl

theorem skip_ww (n : Nat) (s : State) (w d : Nat) : ∃ d', skipBody n (s.ww w d) = (skipBody n s).ww w d' := by
  obtain ⟨d1, h1⟩ := need_ww s w d n
  refine ⟨d1, ?_⟩
  unfold skipBody
  simp only [h1]
  generalize s.need n = t
  by_cases hh : t.has n = true
  · rw [if_pos hh, if_pos (by exact hh)]; rfl
  · rw [if_neg hh, if_neg (by exact hh)]; rfl

theorem refill_ww (s : State) (w d : Nat) : ∃ d', refillBody (s.ww w d) = (refillBody s).ww w d' := by
  unfold refillBody
  by_cases he : s.eos = true
  · rw [if_pos he, if_pos (by exact he)]; exact ⟨d, rfl⟩
  · rw [if_neg he, if_neg (by exact he)]
    obtain ⟨d1, h1⟩ := pull_ww s w d
    refine ⟨d1, ?_⟩
    rw [h1]; rfl

theorem noBatch_ww {s : State} {w d : Nat} {r r' : Res} (h : ∃ d', r' = r.ww w d') : ∃ d', noBatch (s.ww w d) r' = (noBatch s r).ww w d' := by
  unfold noBatch
  by_cases hb : s.rb.active = true
  · rw [if_pos hb, if_pos (by exact hb)]; exact ⟨d, rfl⟩
  · rw [if_neg hb, if_neg (by exact hb)]; exact h

theorem command_ww {s t : State} {w d : Nat} {body : State → Res} (h : ∃ d', body (s.ww w d) = (body s).ww w d')
    (e : command s body = .next t) : ∃ d', command (s.ww w d) body = .next (t.ww w d') := by
  cases command_next e with
  | sticky h => exact ⟨d, command_of_fault (s := s.ww w d) h _⟩
  | disposed h hd => exact ⟨d, command_of_disposed (s := s.ww w d) h hd _⟩
  | ran hr u st hb ho =>
    obtain ⟨d', h⟩ := h
    rw [hb] at h
    exact ⟨d', command_of_ready (s := s.ww w d) ⟨hr.noFault, hr.open_⟩ h ho⟩

theorem riceb_ww (a : BitVec 8) (s : State) (w d : Nat) : ∃ d', (if (s.ww w d).rb.active then riceContinue a (s.ww w d) else riceStart a (s.ww w d)) = (if s.rb.active then riceContinue a s else riceStart a s).ww w d' := by
  by_cases hb : s.rb.active = true
  · rw [if_pos hb, if_pos (by exact hb)]
    unfold riceContinue
    by_cases hm : a.toNat = s.rb.k ∧ s.arg0.toNat = s.rb.dst ∧ s.arg1.toNat = s.rb.remaining
    · rw [if_pos hm, if_pos (by exact hm)]; exact riceLoop_ww _ _ _ _ _
    · rw [if_neg hm, if_neg (by exact hm)]; exact ⟨d, rfl⟩
  · rw [if_neg hb, if_neg (by exact hb)]
    unfold riceStart
    by_cases h1 : riceOk a = true
    · rw [if_pos h1, if_pos h1]
      by_cases h2 : rangeOk s.cfg s.arg0.toNat (4 * s.arg1.toNat) = true
      · rw [if_pos h2, if_pos (by exact h2)]
        by_cases h3 : alignOk s.arg0.toNat = true
        · rw [if_pos h3, if_pos (by exact h3)]
          exact riceLoop_ww _ _ { s with
          rb := { active := decide (0 < s.arg1.toNat), k := a.toNat, dst := s.arg0.toNat, remaining := s.arg1.toNat,
                  phase := .quot, q := 0, rn := 0, r := 0 } } _ _
        · rw [if_neg h3, if_neg (by exact h3)]; exact ⟨d, rfl⟩
      · rw [if_neg h2, if_neg (by exact h2)]; exact ⟨d, rfl⟩
    · rw [if_neg h1, if_neg h1]; exact ⟨d, rfl⟩

end Sys2Proof.Machine
end

