-- ==== Sys2Proof/Laws/Crc.lean ====
section
/-! SUPPORT. Laws of the CRC engines: the tables tabulate their procedures, folds split at any point, and a fold is the
remainder of a polynomial division (40_crc.md R171, R173, R179, R181, R182, R184, R186). -/

namespace Sys2Proof.Machine

/-! ### Folds -/

theorem fold8_append (c : Byte) (m m' : List Byte) : fold8 c (m ++ m') = fold8 (fold8 c m) m' := by
  induction m generalizing c with
  | nil => rfl
  | cons b m ih => exact ih _

theorem fold16_append (c : Half) (m m' : List Byte) : fold16 c (m ++ m') = fold16 (fold16 c m) m' := by
  induction m generalizing c with
  | nil => rfl
  | cons b m ih => exact ih _

/-! ### Division over GF(2) -/

theorem gf2Rem_xor (poly deg n x y : Nat) : gf2Rem poly deg n (x ^^^ y) = gf2Rem poly deg n x ^^^ gf2Rem poly deg n y := by
  induction n generalizing x y with
  | zero => rfl
  | succ n ih =>
    unfold gf2Rem
    rw [← ih]
    congr 1
    rw [Nat.testBit_xor]
    cases x.testBit (deg + n) <;> cases y.testBit (deg + n) <;>
      simp [Nat.xor_comm, Nat.xor_left_comm]

theorem gf2Rem_of_lt (poly deg n x : Nat) (h : x < 2 ^ deg) : gf2Rem poly deg n x = x := by
  induction n with
  | zero => rfl
  | succ n ih =>
    unfold gf2Rem
    rw [Nat.testBit_lt_two_pow (lt_of_lt_of_le h (Nat.pow_le_pow_right (by decide) (by omega)))]
    simpa using ih

/-- The division of the leading bits goes first and does not look at the trailing ones. -/
theorem gf2Rem_shift (poly deg j n y z : Nat) (hz : z < 2 ^ (deg + n)) :
    gf2Rem poly deg (j + n) ((y <<< n) ^^^ z) = gf2Rem poly deg n (((gf2Rem poly deg j y) <<< n) ^^^ z) := by
  induction j generalizing y with
  | zero => simp [gf2Rem]
  | succ j ih =>
    have e : j + 1 + n = (j + n) + 1 := by omega
    rw [e, gf2Rem, gf2Rem, ← ih]
    congr 1
    have hb : ((y <<< n) ^^^ z).testBit (deg + (j + n)) = y.testBit (deg + j) := by
      rw [Nat.testBit_xor, Nat.testBit_shiftLeft,
        Nat.testBit_lt_two_pow (lt_of_lt_of_le hz (Nat.pow_le_pow_right (by decide) (by omega)))]
      have : deg + (j + n) - n = deg + j := by omega
      simp [this]
      omega
    rw [hb]
    split
    · rw [Nat.shiftLeft_xor_distrib, Nat.shiftLeft_add, Nat.xor_assoc, Nat.xor_comm z, ← Nat.xor_assoc]
    · rfl

theorem bytesNat_shift (v : Nat) (m : List Byte) : bytesNat v m = v * 2 ^ (8 * m.length) + bytesNat 0 m := by
  induction m generalizing v with
  | nil => simp [bytesNat]
  | cons b m ih =>
    have e : 8 * (b :: m).length = 8 * m.length + 8 := by simp; omega
    rw [bytesNat, ih, bytesNat, ih (0 * 256 + b.toNat), e, pow_add]
    ring

theorem bytesNat_lt (m : List Byte) : bytesNat 0 m < 2 ^ (8 * m.length) := by
  induction m with
  | nil => simp [bytesNat]
  | cons b m ih =>
    have e : 8 * (b :: m).length = 8 + 8 * m.length := by simp; omega
    rw [bytesNat, bytesNat_shift, e, pow_add]
    have hb := b.isLt
    have : (0 * 256 + b.toNat + 1) * 2 ^ (8 * m.length) ≤ 2 ^ 8 * 2 ^ (8 * m.length) := by
      apply Nat.mul_le_mul_right; omega
    rw [Nat.add_mul] at this
    omega

theorem shiftLeft_add_eq_xor (a b i : Nat) (h : b < 2 ^ i) : a * 2 ^ i + b = (a <<< i) ^^^ b := by
  rw [← Nat.shiftLeft_eq, Nat.shiftLeft_add_eq_or_of_lt h]
  apply Nat.eq_of_testBit_eq
  intro k
  simp only [Nat.testBit_or, Nat.testBit_xor, Nat.testBit_shiftLeft]
  by_cases hk : i ≤ k
  · rw [Nat.testBit_lt_two_pow (lt_of_lt_of_le h (Nat.pow_le_pow_right (by decide) hk))]
    simp
  · simp [hk]

/-- The first byte of a message divided out. -/
theorem rem_cons (poly deg c : Nat) (b : Byte) (m : List Byte) :
    gf2Rem poly deg (8 * (b :: m).length) ((c <<< (8 * (b :: m).length)) ^^^ (bytesNat 0 (b :: m) <<< deg)) =
      gf2Rem poly deg (8 * m.length)
        ((gf2Rem poly deg 8 ((c <<< 8) ^^^ (b.toNat <<< deg)) <<< (8 * m.length)) ^^^ (bytesNat 0 m <<< deg)) := by
  have hl := bytesNat_lt m
  have e1 : bytesNat 0 (b :: m) = (b.toNat <<< (8 * m.length)) ^^^ bytesNat 0 m := by
    rw [bytesNat, bytesNat_shift, ← shiftLeft_add_eq_xor _ _ _ hl]
    simp
  have e2 : 8 * (b :: m).length = 8 + 8 * m.length := by simp; omega
  rw [e1, e2, ← gf2Rem_shift]
  · congr 1
    rw [Nat.shiftLeft_xor_distrib, Nat.shiftLeft_xor_distrib, ← Nat.shiftLeft_add, ← Nat.shiftLeft_add,
      ← Nat.shiftLeft_add, Nat.xor_assoc, Nat.add_comm (8 * m.length) deg]
  · rw [Nat.shiftLeft_eq, pow_add, Nat.mul_comm]
    exact Nat.mul_lt_mul_of_pos_left hl (by positivity)

/-! ### The tables -/

theorem t8_procedure : ∀ i : Byte, t8 i = crcShift8 8 i := by decide +kernel

theorem t16_procedure : ∀ i : Byte, t16 i = crcShift16 8 (i ++ 0#8) := by decide +kernel

theorem t8_rem : ∀ i : Byte, gf2Rem poly8 8 8 (i.toNat <<< 8) = (t8 i).toNat := by decide +kernel

theorem t16_rem : ∀ i : Byte, gf2Rem poly16 16 8 (i.toNat <<< 16) = (t16 i).toNat := by decide +kernel

/-- One byte of CRC-8 is one step of polynomial division. -/
theorem a8_rem (c b : Byte) : gf2Rem poly8 8 8 ((c.toNat <<< 8) ^^^ (b.toNat <<< 8)) = (a8 c b).toNat := by
  rw [← Nat.shiftLeft_xor_distrib, ← BitVec.toNat_xor, t8_rem]
  rfl

/-- One byte of CRC-16 is one step of polynomial division (R181). -/
theorem a16_rem (c : Half) (b : Byte) :
    gf2Rem poly16 16 8 ((c.toNat <<< 8) ^^^ (b.toNat <<< 16)) = (a16 c b).toNat := by
  have hc : c.toNat <<< 8 = ((c.extractLsb' 8 8).toNat <<< 16) ^^^ ((c <<< 8 : Half)).toNat := by
    apply Nat.eq_of_testBit_eq
    intro k
    simp only [Nat.testBit_shiftLeft, Nat.testBit_xor, BitVec.testBit_toNat, BitVec.getLsbD_extractLsb',
      BitVec.getLsbD_shiftLeft]
    by_cases h1 : k < 8
    · simp [h1, show ¬ 8 ≤ k by omega, show ¬ 16 ≤ k by omega]
    · by_cases h2 : k < 16
      · simp [h1, h2, show 8 ≤ k by omega, show ¬ 16 ≤ k by omega]
      · simp only [h1, h2, show 8 ≤ k by omega, show 16 ≤ k by omega, decide_true, decide_false, Bool.true_and,
          Bool.false_and, Bool.xor_false]
        by_cases h3 : k < 24
        · simp [show 8 + (k - 16) = k - 8 by omega, show k - 16 < 8 by omega]
        · simp [show ¬ k - 16 < 8 by omega, BitVec.getLsbD_of_ge c (k - 8) (by omega)]
  rw [hc, Nat.xor_assoc, Nat.xor_comm (BitVec.toNat _), ← Nat.xor_assoc, ← Nat.shiftLeft_xor_distrib, ← BitVec.toNat_xor,
    gf2Rem_xor, t16_rem, gf2Rem_of_lt _ _ _ _ (BitVec.isLt _), a16, BitVec.toNat_xor, Nat.xor_comm]

/-- A CRC-8 fold is the remainder of a polynomial division (R173). -/
theorem fold8_eq_rem8 (c : Byte) (m : List Byte) : fold8 c m = rem8 c m := by
  induction m generalizing c with
  | nil => simp [fold8, rem8, gf2Rem, bytesNat]
  | cons b m ih =>
    rw [fold8, ih, rem8, rem8, rem_cons, a8_rem]

/-- A CRC-16 fold is the remainder of a polynomial division (R182). -/
theorem fold16_eq_rem16 (c : Half) (m : List Byte) : fold16 c m = rem16 c m := by
  induction m generalizing c with
  | nil => simp [fold16, rem16, gf2Rem, bytesNat]
  | cons b m ih =>
    rw [fold16, ih, rem16, rem16, rem_cons, a16_rem]

/-- Both paths of CRC16.SPANB compute the fold (R186). -/
theorem bulkFold16_eq (c : Config) (v : Half) (m : List Byte) : bulkFold16 c v m = fold16 v m := by
  unfold bulkFold16
  split
  · exact (fold16_eq_rem16 v m).symm
  · rfl

theorem memSpan_eq_map (m : Memory) (a n : Nat) : memSpan m a n = (List.range n).map fun j => memByte m (a + j) := by
  induction n generalizing a with
  | zero => rfl
  | succ n ih =>
    rw [memSpan, ih, List.range_succ_eq_map, List.map_cons, List.map_map]
    congr 1
    apply List.map_congr_left
    intro j _
    simp only [Function.comp]
    congr 1
    omega

theorem memSpan_add (m : Memory) (a n k : Nat) : memSpan m a (n + k) = memSpan m a n ++ memSpan m (a + n) k := by
  induction n generalizing a with
  | zero => simp [memSpan]
  | succ n ih =>
    rw [Nat.succ_add, memSpan, ih, memSpan, List.cons_append]
    congr 3
    omega

end Sys2Proof.Machine
end

