-- ==== Sys2Proof/Laws/Invariant.lean ====
section
/-! SUPPORT. The invariant of the state (Safety.lean) through the end of a command, and that commands end. -/

namespace Sys2Proof.Machine

/-- STATUS and a first FAULT may change. -/
theorem inv_status {s : State} (h : s.Inv) (x : Half) (f : Half) (hf : f = s.fault ∨ ∃ st : Status, st.sticky = true ∧ f = st.word ∧ s.fault = 0#16)
   : State.Inv { s with status := x, fault := f } := by
  obtain ⟨h1, h2, h3, h4, h5, h6, h7, h8, h9, h10, h11, h12, h13, h14, h15⟩ := h
  refine ⟨h1, h2, h3, h4, h5, h6, h7, h8, h9, h10, ?_, h12, ?_, h14, h15⟩
  · intro k
    rcases hf with rfl | ⟨st, hs, rfl, -⟩
    · exact h11 k
    · exact word_sticky_ne hs
  · rcases hf with rfl | ⟨st, hs, rfl, -⟩
    · exact h13
    · exact .inr ⟨st, hs, rfl⟩

/-- CMD may change. -/
theorem inv_cmd {s : State} (h : s.Inv) (w : Word) : State.Inv { s with cmd := w } := by
  obtain ⟨h1, h2, h3, h4, h5, h6, h7, h8, h9, h10, h11, h12, h13, h14, h15⟩ := h
  exact ⟨h1, h2, h3, h4, h5, h6, h7, h8, h9, h10, h11, h12, h13, h14, h15⟩

/-- What the host writes may change. -/
theorem inv_host {s : State} (h : s.Inv) (l : List HostAction) (a0 a1 : Reg) (up : List PullAnswer) (rd : Reg) (m : Memory) (hm : Memory.wf m = true) :
    State.Inv { s with host := l, arg0 := a0, arg1 := a1, upstream := up, rdata := rd, dmem := m } := by
  obtain ⟨h1, h2, h3, h4, h5, h6, h7, h8, h9, h10, h11, h12, h13, h14, h15⟩ := h
  exact ⟨h1, h2, h3, h4, h5, h6, h7, h8, h9, h10, h11, h12, h13, hm, h15⟩

/-- A command keeps the invariant if its body does. -/
theorem command_inv {s t : State} {body : State → Res} (hi : s.Inv)
    (hb : s.Ready → ∀ u st, body s = .next (u, st) → State.Inv (u.endWith st)) (e : command s body = .next t) : t.Inv := by
  cases command_next e with
  | sticky h => exact inv_status hi _ _ (.inl rfl)
  | disposed h hd => exact inv_status hi _ _ (.inr ⟨.violation .disposed, rfl, rfl, h⟩)
  | ran h u st hb' ho => exact hb h u st hb'

/-- Every body keeps the invariant. -/
theorem body_inv {i : Instr} {s u : State} {st : Status} (hi : s.Inv) (hr : s.Ready) (ok : BodyOk i s u st) : State.Inv (u.endWith st) := by
  obtain ⟨fi, ⟨r1, r2, r3⟩, dm⟩ := ok.inv hi
  have hf : u.fault = 0#16 := ok.adv.fault_eq.trans hr.noFault
  have hcfg : u.cfg = s.cfg := ok.adv.cfg_eq
  refine ⟨ok.adv.baseLe hi.baseLe, ok.adv.consLe hi.consLe, ?_, r1, r2, r3, fi.accnLe, fi.frameDone, fi.frameLen, fi.frameCur, ?_, fi.depth, ?_, dm, fi.chbufWf⟩
  · have := ok.adv.wordsLe hi.baseLe hi.wordsLe
    show u.dw * u.cfg.W ≤ u.foldedBase
    rw [hcfg]; exact this
  · intro k
    have k2 : s.fsm = .failed ∨ st.sticky = true := ok.failed k
    rcases k2 with k2 | k2
    · exact absurd hr.noFault (hi.failed k2)
    · simp [State.endWith, k2, hf, word_sticky_ne k2]
  · unfold State.FaultSticky
    by_cases hs : st.sticky = true
    · exact .inr ⟨st, hs, by simp [State.endWith, hs, hf]⟩
    · exact .inl (by simp [State.endWith, hs, hf])

/-- A command answers a next state if its body does and the stream fits. -/
theorem command_safe {s : State} {body : State → Res} (h : s.Ready → ∃ t st, body s = .next (t, st) ∧ streamOverflow s t = false) :
    ∃ t, command s body = .next t := by
  by_cases hf : s.fault = 0#16
  · cases hd : s.disposed with
    | true => exact ⟨_, command_of_disposed hf hd _⟩
    | false =>
      obtain ⟨t, st, hb, ho⟩ := h ⟨hf, hd⟩
      exact ⟨_, command_of_ready ⟨hf, hd⟩ hb ho⟩
  · exact ⟨_, command_of_fault hf _⟩

end Sys2Proof.Machine
end

