-- ==== Sys2Proof/Laws/PerInstr.lean ====
section
/-! SUPPORT. One lemma per command about its word (30_encoding.md R110, R111, R113): the map finds the command at its opcode with
its own operands, and no bit its format reserves is set. -/

namespace Sys2Proof.Laws.Fields

open Sys2Proof

/-- The word of a command has its opcode, its operands and nothing else. -/
def Statement (i : Instr) : Prop :=
  ∃ f : Format, opcodeMap (opcOf (encode i)).toNat (aOf (encode i)) (bOf (encode i)) = some (f, i) ∧
    reservedZero f (aOf (encode i)) (bOf (encode i)) = true

/-- What a command's word decodes to says what its fields are. -/
theorem of_decode (i : Instr) : Statement i := by
  have h := decode_encode i
  unfold decode at h
  split at h
  · cases h
  · rename_i f j hm
    split at h
    · cases h
      exact ⟨f, hm, ‹_›⟩
    · cases h

theorem crc8Set (b : BitVec 8) : Statement (.crc8Set b) := of_decode _

theorem crc8Get : Statement .crc8Get := of_decode _

theorem crc8Byte (b : BitVec 8) : Statement (.crc8Byte b) := of_decode _

theorem crc8Span : Statement .crc8Span := of_decode _

theorem crc16Set (b : BitVec 16) : Statement (.crc16Set b) := of_decode _

theorem crc16Get : Statement .crc16Get := of_decode _

theorem crc16Byte (b : BitVec 8) : Statement (.crc16Byte b) := of_decode _

theorem crc16Span : Statement .crc16Span := of_decode _

theorem crc16Spanb : Statement .crc16Spanb := of_decode _

theorem brRead32 (a : BitVec 8) : Statement (.brRead32 a) := of_decode _

theorem brRead64 (a : BitVec 8) : Statement (.brRead64 a) := of_decode _

theorem brReadbyte : Statement .brReadbyte := of_decode _

theorem brUnary : Statement .brUnary := of_decode _

theorem brRice (a : BitVec 8) : Statement (.brRice a) := of_decode _

theorem brRiceb (a : BitVec 8) : Statement (.brRiceb a) := of_decode _

theorem brUtf8x32 : Statement .brUtf8x32 := of_decode _

theorem brUtf8x64 : Statement .brUtf8x64 := of_decode _

theorem brAligned : Statement .brAligned := of_decode _

theorem brZpad : Statement .brZpad := of_decode _

theorem brSkipbits : Statement .brSkipbits := of_decode _

theorem brSkipbytes : Statement .brSkipbytes := of_decode _

theorem brGetcrc : Statement .brGetcrc := of_decode _

theorem brSetcrc (b : BitVec 16) : Statement (.brSetcrc b) := of_decode _

theorem brUpdcrc : Statement .brUpdcrc := of_decode _

theorem brRefill : Statement .brRefill := of_decode _

theorem brEos : Statement .brEos := of_decode _

theorem brPos : Statement .brPos := of_decode _

theorem frDecode : Statement .frDecode := of_decode _

theorem frStep : Statement .frStep := of_decode _

theorem frInfo (a : BitVec 8) : Statement (.frInfo a) := of_decode _

theorem pcmRead : Statement .pcmRead := of_decode _

theorem sysReset : Statement .sysReset := of_decode _

theorem sysDispose : Statement .sysDispose := of_decode _

theorem sysCfg (a : BitVec 8) : Statement (.sysCfg a) := of_decode _

theorem sysStatus : Statement .sysStatus := of_decode _

end Sys2Proof.Laws.Fields
end

