-- ==== Sys2Proof/Laws/RiceRun.lean ====
section
/-! SUPPORT. A batch of Rice values as a reading of the stream (41_bitreader.md R232, R234): what stands between two positions,
how far into a value a suspended batch is, what the loop of BR.RICEB finds however it ends, and what BR.RICE finds there. -/

namespace Sys2Proof.Machine

/-- A Rice code with parameter `k` stands at `p` and ends at `p'`; it decodes to `x` (R223). -/
def RiceValueAt (S : List Byte) (k p : Nat) (x : Word) (p' : Nat) : Prop :=
  ∃ q, p' = p + q + 1 + k ∧ p' ≤ 8 * S.length ∧ (∀ j, j < q → bitAt S (p + j) = false) ∧ bitAt S (p + q) = true ∧
    (∀ j, 0 < j → j ≤ q → riceOver k j = false) ∧ x = zigzag (BitVec.ofNat 32 (q * 2 ^ k + field S (p + q + 1) k))

/-- The values `xs` stand one after another from `p` to `p'`. -/
inductive RiceCoded (S : List Byte) (k : Nat) : Nat → List Word → Nat → Prop where
  | nil (p : Nat) : RiceCoded S k p [] p
  | cons (p p' p'' : Nat) (x : Word) (xs : List Word) (h : RiceValueAt S k p x p') (rest : RiceCoded S k p' xs p'') :
      RiceCoded S k p (x :: xs) p''

theorem RiceCoded.snoc {S : List Byte} {k p p' p'' : Nat} {x : Word} {xs : List Word} (h : RiceCoded S k p xs p')
    (hx : RiceValueAt S k p' x p'') : RiceCoded S k p (xs ++ [x]) p'' := by
  induction h with
  | nil p => exact .cons _ _ _ _ _ hx (.nil _)
  | cons p p' q x xs h rest ih => exact .cons _ _ _ _ _ h (ih hx)

/-- The batch record of `s` holds what it has read of the value that begins at `p` (10_state.md R40). -/
structure RicePart (S : List Byte) (s : State) (p : Nat) : Prop where
  zeros : ∀ j, j < s.rb.q → bitAt S (p + j) = false
  fits : ∀ j, 0 < j → j ≤ s.rb.q → riceOver s.rb.k j = false
  inside : s.cons ≤ 8 * S.length
  rnLe : s.rb.rn ≤ s.rb.k
  quot : s.rb.phase = .quot → s.cons = p + s.rb.q ∧ s.rb.rn = 0 ∧ s.rb.r = 0
  rem : s.rb.phase = .rem → s.cons = p + s.rb.q + 1 + s.rb.rn ∧ bitAt S (p + s.rb.q) = true ∧
    s.rb.r = field S (p + s.rb.q + 1) s.rb.rn

theorem RicePart.congr {S : List Byte} {s t : State} {p : Nat} (h : RicePart S s p) (hc : t.cons = s.cons) (hr : t.rb = s.rb) :
    RicePart S t p := by
  obtain ⟨h1, h2, h3, h4, h5, h6⟩ := h
  exact ⟨by rw [hr]; exact h1, by rw [hr]; exact h2, by rw [hc]; exact h3, by rw [hr]; exact h4, by rw [hr, hc]; exact h5,
    by rw [hr, hc]; exact h6⟩

/-- The record of a new value. -/
theorem RicePart.new {S : List Byte} {s : State} (hi : s.cons ≤ 8 * S.length) (hp : s.rb.phase = .quot) (hq : s.rb.q = 0)
    (hn : s.rb.rn = 0) (hr : s.rb.r = 0) : RicePart S s s.cons :=
  ⟨fun j h => by omega, fun j h h' => by omega, hi, by omega, fun _ => ⟨by omega, hn, hr⟩, fun h => by rw [hp] at h; cases h⟩

/-- How the loop of R232 ends: with every value written, in the middle of the value at `p'`, or before a quotient too long. -/
inductive RiceStop (S : List Byte) (t : State) (k left p' : Nat) : Status → Prop where
  | all (h : left = 0) (hc : t.cons = p') : RiceStop S t k left p' .ok
  | dry (h : 0 < left) (hp : RicePart S t p') (ha : t.rb.active = true) (hk : t.rb.k = k) (hr : t.rb.remaining = left)
      (hd : 8 * t.S.length < t.cons + 1) (hn : t.rb.phase = .rem → t.rb.rn < t.rb.k) : RiceStop S t k left p' .underrun
  | tooLong (h : 0 < left) (z : Nat) (hz : ∀ j, j ≤ z → bitAt S (p' + j) = false) (hi : p' + z + 1 ≤ 8 * S.length)
      (exceeds : riceOver k (z + 1) = true) (fits : ∀ j, 0 < j → j ≤ z → riceOver k j = false) :
      RiceStop S t k left p' (.invalid .riceOverflow)

theorem RicePart.quotZero {S : List Byte} {s t : State} {p : Nat} (h : RicePart S s p) (hp : s.rb.phase = .quot)
    (hi : s.cons + 1 ≤ 8 * S.length) (hb : bitAt S s.cons = false) (ho : riceOver s.rb.k (s.rb.q + 1) = false)
    (hc : t.cons = s.cons + 1) (hr : t.rb = { s.rb with q := s.rb.q + 1 }) : RicePart S t p := by
  obtain ⟨hcons, hn, h0⟩ := h.quot hp
  refine ⟨?_, ?_, by omega, by rw [hr]; exact h.rnLe, fun _ => by rw [hr]; exact ⟨by simp only; omega, hn, h0⟩,
    fun k => by rw [hr, hp] at k; cases k⟩
  · rw [hr]
    intro j hj
    rcases Nat.lt_or_eq_of_le (Nat.le_of_lt_succ hj) with hj | rfl
    · exact h.zeros j hj
    · rw [← hcons]; exact hb
  · rw [hr]
    intro j h1 h2
    rcases Nat.lt_or_eq_of_le h2 with h2 | rfl
    · exact h.fits j h1 (by simp only at h2; omega)
    · exact ho

theorem RicePart.quotOne {S : List Byte} {s t : State} {p : Nat} (h : RicePart S s p) (hp : s.rb.phase = .quot)
    (hi : s.cons + 1 ≤ 8 * S.length) (hb : bitAt S s.cons = true)
    (hc : t.cons = s.cons + 1) (hr : t.rb = { s.rb with phase := .rem }) : RicePart S t p := by
  obtain ⟨hcons, hn, h0⟩ := h.quot hp
  refine ⟨by rw [hr]; exact h.zeros, by rw [hr]; exact h.fits, by omega, by rw [hr]; exact h.rnLe,
    fun k => (by rw [hr] at k; cases k), fun _ => ?_⟩
  rw [hr]
  exact ⟨by simp only; omega, by rw [← hcons]; exact hb, by simp only [h0, hn]; rfl⟩

theorem RicePart.remBit {S : List Byte} {s t : State} {p : Nat} (h : RicePart S s p) (hp : s.rb.phase = .rem)
    (hlt : s.rb.rn < s.rb.k) (hi : s.cons + 1 ≤ 8 * S.length) (hc : t.cons = s.cons + 1)
    (hr : t.rb = { s.rb with r := 2 * s.rb.r + (bitAt S s.cons).toNat, rn := s.rb.rn + 1 }) : RicePart S t p := by
  obtain ⟨hcons, h1, h2⟩ := h.rem hp
  refine ⟨by rw [hr]; exact h.zeros, by rw [hr]; exact h.fits, by omega, by rw [hr]; exact hlt,
    fun k => (by rw [hr, hp] at k; cases k), fun _ => ?_⟩
  rw [hr]
  exact ⟨by simp only; omega, h1, by simp only [field]; rw [h2, ← hcons]⟩

/-- A value whose remainder is read in full stands there. -/
theorem RicePart.value {S : List Byte} {s : State} {p : Nat} (h : RicePart S s p) (hp : s.rb.phase = .rem)
    (hr : ¬ s.rb.rn < s.rb.k) :
    RiceValueAt S s.rb.k p (zigzag (BitVec.ofNat 32 (s.rb.q * 2 ^ s.rb.k + s.rb.r))) s.cons := by
  obtain ⟨hcons, h1, h2⟩ := h.rem hp
  have e : s.rb.rn = s.rb.k := by have := h.rnLe; omega
  rw [e] at hcons h2
  exact ⟨s.rb.q, hcons, h.inside, h.zeros, h1, h.fits, by rw [h2]⟩

/-- However the loop of R232 ends, the words it has written are the values the stream holds (R232, R234). -/
theorem riceLoop_decodes (turns n : Nat) (a t : State) (st : Status) (S : List Byte) (k dst p0 p : Nat) (d : Memory) (xs : List Word)
    (hm : a.riceMeasure < turns) (h : riceLoop turns n a = .next (t, st)) (hS : t.S <+: S) (hk : a.rb.k = k)
    (ha : 0 < a.rb.remaining → a.rb.active = true) (h0 : a.rb.remaining = 0 → a.cons = p) (hd : Memory.wf d = true)
    (hp : RicePart S a p) (hx : RiceCoded S k p0 xs p)
    (hmem : a.dmem = memWriteWords d dst xs) (hdst : a.rb.dst = dst + 4 * xs.length) :
    ∃ ys p' left, RiceCoded S k p0 ys p' ∧ t.dmem = memWriteWords d dst ys ∧ ys.length + left = xs.length + a.rb.remaining ∧
      t.res1 = addressReg (dst + 4 * ys.length) ∧ t.res2 = natReg left ∧
      (st = .underrun → t.rb.dst = dst + 4 * ys.length) ∧ RiceStop S t k left p' st := by
  induction turns generalizing n a p xs with
  | zero => omega
  | succ turns ih =>
    unfold riceLoop at h
    split at h
    · next hrem =>
      cases h
      exact ⟨xs, p, 0, hx, hmem, by omega, by simp [State.riceResults, hdst], by simp [State.riceResults, hrem],
        fun e => (by cases e), .all rfl (h0 hrem)⟩
    · next hrem =>
      have hpos : 0 < a.rb.remaining := by omega
      have hn := a.need_pulledTo 1
      -- a bit the run has read is there in `S`
      have there : (a.need 1).has 1 = true → (a.need 1).S <+: S →
          a.cons + 1 ≤ 8 * S.length ∧ bitAt (a.need 1).S a.cons = bitAt S a.cons := by
        intro h1 hpre
        have h1' := State.has_iff.1 h1
        rw [need_cons] at h1'
        exact ⟨h1'.trans (Nat.mul_le_mul_left _ hpre.length_le), (bitAt_of_prefix hpre (by omega)).symm⟩
      -- no bit is left
      have dry : (a.rb.phase = .rem → a.rb.rn < a.rb.k) → (a.need 1).has 1 = false → t = (a.need 1).riceResults n → st = .underrun →
          ∃ ys p' left, RiceCoded S k p0 ys p' ∧ t.dmem = memWriteWords d dst ys ∧
            ys.length + left = xs.length + a.rb.remaining ∧ t.res1 = addressReg (dst + 4 * ys.length) ∧ t.res2 = natReg left ∧
            (st = .underrun → t.rb.dst = dst + 4 * ys.length) ∧ RiceStop S t k left p' st := by
        rintro hrn hh rfl rfl
        refine ⟨xs, p, a.rb.remaining, hx, by simpa [State.riceResults] using hmem, rfl, by simp [State.riceResults, hdst],
          by simp [State.riceResults], fun _ => by simp [State.riceResults, hdst], .dry hpos (hp.congr ?_ ?_) ?_ ?_ ?_ ?_ ?_⟩
        · simp [State.riceResults]
        · simp [State.riceResults]
        · simp [State.riceResults, ha hpos]
        · simp [State.riceResults, hk]
        · simp [State.riceResults]
        · have := State.has_false_iff.1 hh
          simpa [State.riceResults] using this
        · simpa [State.riceResults] using hrn
      split at h
      · next hph =>
        have hmm : a.riceMeasure = 2 * a.bitsAhead := by simp [State.riceMeasure, hph]
        simp only at h
        split at h
        · next hh =>
          have hq := riceQuotBit_measure hn hh
          have hqS : (a.need 1).riceQuotBit.S = (a.need 1).S := by rw [riceQuotBit_kept]
          have hqD : (a.need 1).riceQuotBit.dmem = a.dmem := by rw [riceQuotBit_kept]; simp
          split at h
          · next ho =>
            cases h
            have hpre : (a.need 1).S <+: S := by
              have : State.S { (a.need 1).riceQuotBit.riceResults n with rb := RiceBatch.inactive } = (a.need 1).S := hqS
              rwa [this] at hS
            obtain ⟨hi, hb⟩ := there hh hpre
            obtain ⟨hcons, -, -⟩ := hp.quot hph
            cases hbit : bitAt (a.need 1).S a.cons with
            | true =>
              exfalso
              have := ho.1
              simp [State.riceQuotBit, hbit] at this
            | false =>
              have e : (a.need 1).riceQuotBit.rb = { a.rb with q := a.rb.q + 1 } := by simp [State.riceQuotBit, hbit]
              refine ⟨xs, p, a.rb.remaining, hx, hqD.trans hmem, rfl, ?_, ?_, fun e => (by cases e), .tooLong hpos a.rb.q ?_ ?_ ?_ ?_⟩
              · simp [State.riceResults, e, hdst]
              · simp [State.riceResults, e]
              · intro j hj
                rcases Nat.lt_or_eq_of_le hj with hj | rfl
                · exact hp.zeros j hj
                · rw [← hcons, ← hb]; exact hbit
              · omega
              · have := ho.2
                rw [e] at this
                rw [← hk]; exact this
              · rw [← hk]; exact hp.fits
          · next ho =>
            have hk' := riceLoop_ok _ _ _ _ _ (show (a.need 1).riceQuotBit.riceMeasure < turns by omega) h
            obtain ⟨pre, -, hts, -⟩ := hk'.adv.answers
            have hpre : (a.need 1).S <+: S := (show (a.need 1).S <+: t.S from ⟨_, by rw [hts, hqS]⟩).trans hS
            obtain ⟨hi, hb⟩ := there hh hpre
            cases hbit : bitAt (a.need 1).S a.cons with
            | true =>
              have e : (a.need 1).riceQuotBit.rb = { a.rb with phase := .rem } := by simp [State.riceQuotBit, hbit]
              have ec : (a.need 1).riceQuotBit.cons = a.cons + 1 := by simp [State.riceQuotBit, hbit]
              have := ih n _ p xs (by omega) h (by rw [e]; exact hk) (by rw [e]; exact ha)
                (by rw [e]; simp only; omega) (hp.quotOne hph hi (hb ▸ hbit) ec e) hx (hqD.trans hmem) (by rw [e]; exact hdst)
              rw [e] at this
              exact this
            | false =>
              have e : (a.need 1).riceQuotBit.rb = { a.rb with q := a.rb.q + 1 } := by simp [State.riceQuotBit, hbit]
              have ec : (a.need 1).riceQuotBit.cons = a.cons + 1 := by simp [State.riceQuotBit, hbit]
              have hov : riceOver a.rb.k (a.rb.q + 1) = false := by
                rw [e] at ho
                simpa [hph] using ho
              have := ih n _ p xs (by omega) h (by rw [e]; exact hk) (by rw [e]; exact ha)
                (by rw [e]; simp only; omega) (hp.quotZero hph hi (hb ▸ hbit) hov ec e) hx (hqD.trans hmem) (by rw [e]; exact hdst)
              rw [e] at this
              exact this
        · next hh => cases h; exact dry (fun k => by rw [hph] at k; cases k) (by simpa using hh) rfl rfl
      · next hph =>
        have hmm : a.riceMeasure = 2 * a.bitsAhead + 1 := by simp [State.riceMeasure, hph]
        split at h
        · next hrn =>
          simp only at h
          split at h
          · next hh =>
            have hq := riceRemBit_measure hn hh
            have hk' := riceLoop_ok _ _ _ _ _ (show (a.need 1).riceRemBit.riceMeasure < turns by omega) h
            obtain ⟨pre, -, hts, -⟩ := hk'.adv.answers
            have hpre : (a.need 1).S <+: S := (show (a.need 1).S <+: t.S from ⟨_, by rw [hts]; rfl⟩).trans hS
            obtain ⟨hi, hb⟩ := there hh hpre
            have e : (a.need 1).riceRemBit.rb = { a.rb with
                r := 2 * a.rb.r + (bitAt S a.cons).toNat, rn := a.rb.rn + 1 } := by simp [State.riceRemBit, ← hb]
            have := ih n (a.need 1).riceRemBit p xs (by omega) h (by rw [e]; exact hk) (by rw [e]; exact ha)
              (by rw [e]; simp only; omega) (hp.remBit hph hrn hi (by simp [State.riceRemBit]) e) hx
              (by simpa [State.riceRemBit] using hmem) (by rw [e]; exact hdst)
            rw [e] at this
            exact this
          · next hh => cases h; exact dry (fun _ => hrn) (by simpa using hh) rfl rfl
        · next hrn =>
          have he := riceEmit_measure hph
          have hv := hp.value hph hrn
          rw [hk] at hv
          have hxs := hx.snoc hv
          obtain ⟨ys, p', left, y1, y2, y3, y4⟩ := ih (n + 1) a.riceEmit a.cons _ (by omega) h (by simp [State.riceEmit, hk])
            (fun _ => by simp [State.riceEmit, ha hpos]) (fun _ => rfl)
            (.new hp.inside rfl rfl rfl rfl) hxs
            (by
              simp only [State.riceEmit, hmem, hdst]
              rw [← hk, memWriteWords_append])
            (by simp [State.riceEmit, hdst]; omega)
          exact ⟨ys, p', left, y1, y2, by simp [State.riceEmit] at y3; omega, y4⟩

/-! ### BR.RICE where the bits are there -/

/-- `Rice(k)` decodes the value that stands at the cursor (R223). -/
theorem State.rice_of_value {s : State} {k p' : Nat} {x : Word} (h : RiceValueAt s.S k s.cons x p') :
    s.rice k = ({ s with cons := p' }, .value x) := by
  obtain ⟨q, rfl, hi, hz, h1, hf, rfl⟩ := h
  have hh : s.has (q + 1 + k) = true := State.has_iff.2 (by omega)
  have hh1 : s.has (q + 1) = true := State.has_iff.2 (by omega)
  have hn := State.need_of_has hh
  have hn1 := State.need_of_has hh1
  rw [State.rice, State.scan_found (by rw [hn1]; exact hh1) (by rw [hn1]; exact hz) (by rw [hn1]; exact h1) hf, hn1]
  simp only [hn, hh, if_true]

/-- BR.RICE commands decode the values that stand at the cursor, and change nothing but it, RES0 and STATUS. -/
theorem runRice_of_coded {s : State} {a : BitVec 8} {p' : Nat} {xs : List Word} (ha : a.toNat ≤ 31) (hr : s.Ready)
    (hb : s.rb.active = false) (h : RiceCoded s.S a.toNat s.cons xs p') :
    ∃ v, runRice a xs.length s = some (v, xs) ∧ v = { s with cons := p', res0 := v.res0, status := v.status } := by
  generalize hp : s.cons = p at h
  generalize hS : s.S = S at h
  induction h generalizing s with
  | nil p => subst hp hS; exact ⟨s, rfl, rfl⟩
  | cons p p1 p2 x xs hx rest ih =>
    subst hp hS
    have he : exec (.brRice a) s = .next { s with cons := p1, res0 := x.signExtend 64, status := 0x0000#16 } := by
      have hbd : riceBody a.toNat s = .next ({ s with cons := p1, res0 := x.signExtend 64 }, .ok) := by
        rw [riceBody, State.rice_of_value hx]
        rfl
      have : exec (.brRice a) s = command s (fun s => noBatch s (riceBody a.toNat s)) := by
        simp [exec, execBrRice, command, riceOk, ha]
      rw [this, command_of_ready hr (t := { s with cons := p1, res0 := x.signExtend 64 }) (st := .ok)
        (by simp only [noBatch, hb, Bool.false_eq_true, if_false]; exact hbd) (streamOverflow_of_S_eq rfl), endWith_ok]
    obtain ⟨v, h1, h2⟩ := ih (s := { s with cons := p1, res0 := x.signExtend 64, status := 0x0000#16 })
      ⟨hr.noFault, hr.open_⟩ hb rfl rfl
    refine ⟨v, ?_, h2⟩
    rw [List.length_cons, runRice, he]
    simp only [if_true, h1, signExtend_setWidth]

/-- `Rice(k)` runs dry where a batch did, when nothing more is to come (R223, R232). -/
theorem State.rice_of_dry {s t : State} {k : Nat} (hu : s.upstream = []) (hp : RicePart s.S t s.cons) (hk : t.rb.k = k)
    (hd : 8 * s.S.length < t.cons + 1) (hn : t.rb.phase = .rem → t.rb.rn < t.rb.k) : ∃ u, s.PulledTo u ∧ s.rice k = (u, .short) := by
  subst hk
  have hS : ∀ n, (s.need n).S = s.S := by
    intro n
    unfold State.need
    split
    · rfl
    · rw [hu]; rfl
  cases hph : t.rb.phase with
  | quot =>
    obtain ⟨hc, -, -⟩ := hp.quot hph
    have h1 : (s.need (t.rb.q + 1)).has (t.rb.q + 1) = false := State.has_false_iff.2 (by rw [hS, need_cons]; omega)
    have h2 : (s.need t.rb.q).has t.rb.q = true := State.has_iff.2 (by rw [hS, need_cons]; have := hp.inside; omega)
    refine ⟨_, s.need_pulledTo (t.rb.q + 1), ?_⟩
    rw [State.rice, State.scan_short h1 (.inr h2) (by rw [hS]; exact hp.zeros) hp.fits]
  | rem =>
    obtain ⟨hc, hb, -⟩ := hp.rem hph
    have := hn hph
    have h1 : (s.need (t.rb.q + 1)).has (t.rb.q + 1) = true :=
      State.has_iff.2 (by rw [hS, need_cons]; have := hp.inside; omega)
    have h2 : (s.need (t.rb.q + 1 + t.rb.k)).has (t.rb.q + 1 + t.rb.k) = false :=
      State.has_false_iff.2 (by rw [hS, need_cons]; omega)
    refine ⟨_, s.need_pulledTo (t.rb.q + 1 + t.rb.k), ?_⟩
    rw [State.rice, State.scan_found h1 (by rw [hS]; exact hp.zeros) (by rw [hS]; exact hb) hp.fits]
    simp only [State.need_need (by omega : t.rb.q + 1 ≤ t.rb.q + 1 + t.rb.k) h1, h2]
    simp

/-- `Rice(k)` gives up where a batch did (R223, R232). -/
theorem State.rice_of_tooLong {s : State} {k z : Nat} (hz : ∀ j, j ≤ z → bitAt s.S (s.cons + j) = false)
    (hi : s.cons + z + 1 ≤ 8 * s.S.length) (ho : riceOver k (z + 1) = true) (hf : ∀ j, 0 < j → j ≤ z → riceOver k j = false) :
    s.rice k = (s, .tooLong) := by
  have hh : s.has (z + 1) = true := State.has_iff.2 (by omega)
  have hn := State.need_of_has hh
  rw [State.rice, State.scan_tooLong (tooMany := riceOver k) (by rw [hn]; exact hh) (by rw [hn]; exact hz) ho hf, hn]

/-- Successive BR.RICE commands do not depend on the word width or on the count of discarded words. -/
theorem runRice_ww {a : BitVec 8} {n : Nat} {s t : State} {xs : List Word} (w d : Nat) (h : runRice a n s = some (t, xs)) :
    ∃ d', runRice a n (s.ww w d) = some (t.ww w d', xs) := by
  induction n generalizing s d xs with
  | zero =>
    simp only [runRice, Option.some.injEq, Prod.mk.injEq] at h
    obtain ⟨rfl, rfl⟩ := h
    exact ⟨d, rfl⟩
  | succ n ih =>
    unfold runRice at h
    split at h
    · next u hu =>
      split at h
      · next hok =>
        split at h
        · next v ys hv =>
          simp only [Option.some.injEq, Prod.mk.injEq] at h
          obtain ⟨rfl, rfl⟩ := h
          have hc : ∃ d', exec (.brRice a) (s.ww w d) = .next (u.ww w d') := by
            refine command_ww (body := fun s => if riceOk a then noBatch s (riceBody a.toNat s) else Res.violation s .widthRange) ?_ hu
            by_cases ho : riceOk a = true
            · simp only [ho, if_true]; exact noBatch_ww (riceBody_ww _ _ _ _)
            · simp only [ho, if_false, Bool.false_eq_true]; exact ⟨d, rfl⟩
          obtain ⟨d1, hc⟩ := hc
          obtain ⟨d2, hi⟩ := ih d1 hv
          refine ⟨d2, ?_⟩
          rw [runRice, hc]
          simp only
          rw [if_pos (show (u.ww w d1).status = 0#16 from hok), hi]
          rfl
        · cases h
      · cases h
    · cases h
    · cases h

/-- BR.RICEB does not either. -/
theorem exec_riceb_ww {a : BitVec 8} {s t : State} (w d : Nat) (h : exec (.brRiceb a) s = .next t) :
    ∃ d', exec (.brRiceb a) (s.ww w d) = .next (t.ww w d') :=
  command_ww (body := fun s => if s.rb.active then riceContinue a s else riceStart a s) (riceb_ww a s w d) h

/-! ### BR.RICEB suspended and continued -/

/-- What has arrived stays. -/
theorem riceb_prefix {a : BitVec 8} {s t : State} (h : exec (.brRiceb a) s = .next t) : s.S <+: t.S := by
  obtain ⟨body, hb, hk, -⟩ := exec_body (.brRiceb a) rfl
  rw [hb] at h
  cases command_next h with
  | sticky => exact List.prefix_refl _
  | disposed => exact List.prefix_refl _
  | ran hr u st hb' _ =>
    obtain ⟨p, _, hS, _⟩ := (hk _ _ _ hb').adv.answers
    exact ⟨_, by rw [endWith_S, hS]⟩

theorem runRiceb_prefix {a : BitVec 8} {more : List (List PullAnswer)} {s u : State} (h : runRiceb a more s = some u) : s.S <+: u.S := by
  induction more generalizing s with
  | nil =>
    unfold runRiceb at h
    split at h
    · next t ht => cases h; exact riceb_prefix ht
    · cases h
    · cases h
  | cons m more ih =>
    unfold runRiceb at h
    split at h
    · next t ht =>
      split at h
      · exact (riceb_prefix ht).trans (ih (s := { t with arg0 := t.res1, arg1 := t.res2, upstream := t.upstream ++ m }) h)
      · cases h; exact riceb_prefix ht
    · cases h
    · cases h

/-- However often a batch is suspended and continued, and however it ends, the words it has written are the values the stream
that has arrived holds, and a run that finds all its bits there ends in the same place (R232, R233, R234). -/
theorem runRiceb_decodes {a : BitVec 8} {more : List (List PullAnswer)} {s s0 u : State} {p0 p dst : Nat} {d : Memory} {xs : List Word}
    (hrd : s.Ready) (hx : exec (.brRiceb a) s = command s (fun _ => riceFrom 0 s0)) (hs0 : s0 = { s with rb := s0.rb })
    (hk : s0.rb.k = a.toNat) (ha : 0 < s0.rb.remaining → s0.rb.active = true) (h0 : s0.rb.remaining = 0 → s0.cons = p)
    (hd : Memory.wf d = true) (hp : RicePart u.S s0 p) (hc : RiceCoded u.S a.toNat p0 xs p) (hm : s0.dmem = memWriteWords d dst xs)
    (hdst : s0.rb.dst = dst + 4 * xs.length) (hr64 : dst + 4 * (xs.length + s0.rb.remaining) ≤ 2 ^ 64)
    (h : runRiceb a more s = some u) :
    (∃ ys p' left t st, RiceCoded u.S a.toNat p0 ys p' ∧ u.dmem = memWriteWords d dst ys ∧
      ys.length + left = xs.length + s0.rb.remaining ∧ u.res2 = natReg left ∧ u.status = st.word ∧
      RiceStop u.S t a.toNat left p' st ∧ t.S = u.S ∧ t.cons = u.cons) ∧
    ∀ m b, b.cons = s0.cons → b.rb = s0.rb → b.dmem = s0.dmem → b.S = u.S → u.status = 0#16 → 
      ∃ t', riceFrom m b = .next (t', .ok) ∧ t'.cons = u.cons ∧ t'.dmem = u.dmem ∧ t'.S = u.S := by
  have hpre := runRiceb_prefix h
  induction more generalizing s s0 p xs with
  | nil =>
    unfold runRiceb at h
    split at h
    · next t' ht =>
      cases h
      rw [hx] at ht
      cases command_next ht with
      | sticky hf => exact absurd hrd.noFault hf
      | disposed _ hd => rw [hrd.open_] at hd; cases hd
      | ran _ t st hb ho =>
        refine ⟨?_, ?_⟩
        · obtain ⟨ys, p', left, y1, y2, y3, y4, y5, y6, y7⟩ := riceLoop_decodes _ 0 s0 t st t.S a.toNat dst p0 p d xs s0.riceMeasure_lt hb
            (List.prefix_refl _) hk ha h0 hd hp hc hm hdst
          have hns : st.sticky = false := by cases y7 <;> rfl
          exact ⟨ys, p', left, t, st, y1, y2, y3, by simpa using y5, by simp [State.endWith, hns], y7, rfl, rfl⟩
        · intro m b b1 b2 b3 b4 b5
          have hst : st = .ok := by
            have ok1 := riceFrom_ok hb
            rcases ok1.status with rfl | rfl | rfl <;> first | rfl | cases b5
          subst hst
          obtain ⟨k1, -⟩ := riceLoop_replay _ 0 m s0 t b _ s0.riceMeasure_lt hb b1 b2 b3 (by rw [b4]; exact List.prefix_refl _)
          obtain ⟨t', e, c1, c2, c3, c4⟩ := k1 rfl
          exact ⟨t', e, c1, c2, c4.trans b4⟩
    · cases h
    · cases h
  | cons mo more ih =>
    unfold runRiceb at h
    split at h
    · next t' ht =>
      have hsu : t'.S <+: u.S := by
        split at h
        · exact runRiceb_prefix (s := { t' with arg0 := t'.res1, arg1 := t'.res2, upstream := t'.upstream ++ mo }) h
        · cases h; exact List.prefix_refl _
      rw [hx] at ht
      cases command_next ht with
      | sticky hf => exact absurd hrd.noFault hf
      | disposed _ hd => rw [hrd.open_] at hd; cases hd
      | ran _ t st hb ho =>
        have ok1 := riceFrom_ok hb
        obtain ⟨ys, p', left, y1, y2, y3, y4, y5, y6, y7⟩ := riceLoop_decodes _ 0 s0 t st u.S a.toNat dst p0 p d xs s0.riceMeasure_lt hb
            (by simpa using hsu) hk ha h0 hd hp hc hm hdst
        have hns : st.sticky = false := by cases y7 <;> rfl
        split at h
        · next hun =>
          have hst : st = .underrun := by
            rcases ok1.status with rfl | rfl | rfl <;> first | rfl | cases hun
          subst hst
          have hdst' := y6 rfl
          cases y7 with
          | dry g1 g2 g3 g4 g5 g6 g7 =>
          have f1 : t.fault = 0#16 := by rw [ok1.adv.fault_eq, hs0]; exact hrd.noFault
          have f2 : t.disposed = false := by rw [ok1.adv.disposed_eq, hs0]; exact hrd.open_
          have e0 : (addressReg (dst + 4 * ys.length)).toNat = dst + 4 * ys.length := by
            rw [addressReg_of_lt (by omega)]; simp; omega
          have e1 : (natReg left).toNat = left := by
            simp [natReg]; omega
          rw [endWith_underrun] at h
          simp only at h
          let s' : State := { t with status := 0x0001#16, arg0 := t.res1, arg1 := t.res2, upstream := t.upstream ++ mo }
          have hx' : exec (.brRiceb a) s' = command s' (fun _ => riceFrom 0 s') := by
            simp only [exec, execBrRiceb]
            simp [command, s', g3, riceContinue, g4, y4, y5, e0, e1, hdst', g5, riceRun_eq]
          obtain ⟨q1, q2⟩ := ih (s := s') (s0 := s') (p := p') (xs := ys) ⟨f1, f2⟩ hx' rfl g4 (fun _ => g3) (by simp only [s', g5]; omega)
            (g2.congr rfl rfl) y1 y2 hdst' (by simp only [s', g5]; omega) h (runRiceb_prefix h)
          refine ⟨?_, ?_⟩
          · obtain ⟨zs, p2, l2, t2, st2, z1, z2, z3, z4⟩ := q1
            refine ⟨zs, p2, l2, t2, st2, z1, z2, ?_, z4⟩
            simp only [s', g5] at z3; omega
          · intro m b b1 b2 b3 b4 b5
            obtain ⟨-, k1⟩ := riceLoop_replay _ 0 m s0 t b _ s0.riceMeasure_lt hb b1 b2 b3 (by rw [b4]; simpa using hsu)
            obtain ⟨b', m', e, c1, c2, c3, c4⟩ := k1 rfl
            rw [e]
            exact q2 m' b' c1 c2 c3 (c4.trans b4) b5
        · next hun =>
          cases h
          refine ⟨⟨ys, p', left, t, st, y1, y2, y3, by simpa using y5, by simp [State.endWith, hns], y7, rfl, rfl⟩, ?_⟩
          intro m b b1 b2 b3 b4 b5
          have hst : st = .ok := by
            rcases ok1.status with rfl | rfl | rfl <;> first | rfl | cases b5
          subst hst
          obtain ⟨k1, -⟩ := riceLoop_replay _ 0 m s0 t b _ s0.riceMeasure_lt hb b1 b2 b3 (by rw [b4]; exact List.prefix_refl _)
          obtain ⟨t', e, c1, c2, c3, c4⟩ := k1 rfl
          exact ⟨t', e, c1, c2, c4.trans b4⟩
    · cases h
    · cases h

end Sys2Proof.Machine
end

