-- ==== Sys2Proof/Laws/Varint.lean ====
section
/-! SUPPORT. Laws of the varint (41_bitreader.md R228, R230, R231): the lead byte, the continuation bytes and the raw bytes. -/

namespace Sys2Proof.Machine

/-- Packing in two parts. -/
theorem packBig_append (v : Nat) (m m' : List Byte) : packBig v (m ++ m') = packBig (packBig v m) m' := by
  induction m generalizing v with
  | nil => rfl
  | cons b m ih => exact ih _

/-- One more octet at the end. -/
theorem octets_succ (S : List Byte) (p n : Nat) : octets S p (n + 1) = octets S p n ++ [BitVec.ofNat 8 (field S (p + 8 * n) 8)] := by
  rw [octets_add]
  simp [octets]

/-- The octets packed big-endian are the field they were read from. -/
theorem packBig_octets (S : List Byte) (p n : Nat) : packBig 0 (octets S p n) = field S p (8 * n) := by
  induction n with
  | zero => rfl
  | succ n ih =>
    rw [octets_succ, packBig_append, ih, Nat.mul_succ, field_add]
    simp only [packBig, BitVec.toNat_ofNat]
    rw [Nat.mod_eq_of_lt (field_lt _ _ _)]; rfl

/-- One more octet at the front. -/
theorem octets_cons (S : List Byte) (p n : Nat) : octets S p (n + 1) = BitVec.ofNat 8 (field S p 8) :: octets S (p + 8) n := by
  rw [Nat.add_comm, octets_add]
  simp [octets]

/-- The continuation loop on good bytes. -/
theorem varintTail_good (S : List Byte) (left p v : Nat) (raw : List Byte)
    (h : ∀ j, j < left → field S (p + 8 * j) 8 / 64 = 2) :
    varintTail S left p v raw =
      .value ((List.range left).foldl (fun v j => v * 64 + field S (p + 8 * j) 8 % 64) v) (raw.reverse ++ octets S p left) := by
  induction left generalizing p v raw with
  | zero => simp [varintTail, octets]
  | succ n ih =>
    unfold varintTail
    simp only
    rw [if_pos (by simpa using h 0 (by omega)), ih]
    · rw [octets_cons]
      congr 1
      · rw [List.range_succ_eq_map, List.foldl_cons, List.foldl_map]
        simp only [Nat.mul_zero, Nat.add_zero]
        congr 1
        funext v j
        rw [show p + 8 + 8 * j = p + 8 * (j + 1) by omega]
      · simp
    · intro j hj
      rw [show p + 8 + 8 * j = p + 8 * (j + 1) by omega]
      exact h _ (by omega)

/-- The continuation loop stops at the first bad byte. -/
theorem varintTail_stop (S : List Byte) (left j p v : Nat) (raw : List Byte) (hj : j < left)
    (h : ∀ i, i < j → field S (p + 8 * i) 8 / 64 = 2) (hb : field S (p + 8 * j) 8 / 64 ≠ 2) :
    varintTail S left p v raw = .bad .varintCont (raw.reverse ++ octets S p (j + 1)) := by
  induction left generalizing p v raw j with
  | zero => omega
  | succ n ih =>
    unfold varintTail
    simp only
    cases j with
    | zero =>
      rw [if_neg (by simpa using hb)]
      simp [octets]
    | succ j =>
      rw [if_pos (by simpa using h 0 (by omega)), ih j _ _ _ (by omega)]
      · rw [octets_cons _ _ (j + 1)]
        simp
      · intro i hi
        rw [show p + 8 + 8 * i = p + 8 * (i + 1) by omega]
        exact h _ (by omega)
      · rw [show p + 8 + 8 * j = p + 8 * (j + 1) by omega]
        exact hb

/-- The lead byte's class by its value. -/
theorem leadingOnes_lead : ∀ L, L < 256 → leadingOnes 8 L = if L < 0x80 then 0 else if L < 0xC0 then 1 else if L < 0xE0 then 2 else
    if L < 0xF0 then 3 else if L < 0xF8 then 4 else if L < 0xFC then 5 else if L < 0xFE then 6 else if L < 0xFF then 7 else 8 := by
  decide +kernel

/-- Continuation bytes fail in one way only. -/
theorem varintTail_bad (S : List Byte) (left p v : Nat) (raw : List Byte) :
    ∀ c r, varintTail S left p v raw = .bad c r → c = .varintCont := by
  induction left generalizing p v raw with
  | zero => intro c r h; simp [varintTail] at h
  | succ n ih =>
    intro c r h
    unfold varintTail at h
    simp only at h
    split at h
    · exact ih _ _ _ c r h
    · cases h; rfl

/-- A varint is INVALID in two ways only. -/
theorem State.utf8_bad (s : State) (wd : Nat) (c raw) (h : (s.utf8 wd).2 = .bad c raw) : c = .varintK1 ∨ c = .varintCont := by
  unfold State.utf8 at h
  simp only at h
  split at h
  · split at h
    · cases h
    · split at h
      · cases h; exact .inl rfl
      · split at h
        · cases h
        · split at h
          · split at h
            · cases h
            · next e => cases h; exact .inr (varintTail_bad _ _ _ _ _ _ _ e)
            · cases h
          · cases h
  · cases h

/-- A value of the continuation loop: its raw bytes and its bound. -/
theorem varintTail_value (S : List Byte) : ∀ (left p v : Nat) (raw : List Byte) (x : Nat) (r : List Byte), varintTail S left p v raw = .value x r →
    r = raw.reverse ++ octets S p left ∧ x < (v + 1) * 64 ^ left
  | 0, p, v, raw, x, r, h => by
    simp only [varintTail, Varint.value.injEq] at h
    obtain ⟨rfl, rfl⟩ := h
    simp [octets]
  | left + 1, p, v, raw, x, r, h => by
    unfold varintTail at h
    simp only at h
    split at h
    · obtain ⟨h1, h2⟩ := varintTail_value S left _ _ _ _ _ h
      refine ⟨by rw [h1, octets_cons]; simp, ?_⟩
      have : field S p 8 % 64 < 64 := Nat.mod_lt _ (by decide)
      calc x < _ := h2
        _ ≤ ((v + 1) * 64) * 64 ^ left := Nat.mul_le_mul_right _ (by omega)
        _ = _ := by rw [pow_succ]; ring
    · cases h

/-- A value of a varint: its bound and its raw bytes. -/
theorem State.utf8_value (s : State) (wd : Nat) {t : State} {v : Nat} {raw : List Byte} (h : s.utf8 wd = (t, .value v raw)) :
    (v < 2 ^ 31 ∨ v = 2 ^ wd - 1) ∧ raw = octets t.S s.cons raw.length ∧ raw.length ≤ 6 := by
  unfold State.utf8 at h
  simp only [need_cons] at h
  split at h
  · next hh =>
    have hL : field (s.need 8).S s.cons 8 < 256 := field_lt _ _ 8
    split at h
    · simp only [Prod.mk.injEq, Varint.value.injEq] at h
      obtain ⟨rfl, rfl, rfl⟩ := h
      exact ⟨.inl (by omega), by simp [octets], by simp⟩
    · split at h
      · simp at h
      · split at h
        · simp only [Prod.mk.injEq, Varint.value.injEq] at h
          obtain ⟨rfl, rfl, rfl⟩ := h
          exact ⟨.inr rfl, by simp [octets], by simp⟩
        · next k0 k1 k7 =>
          split at h
          · next hu =>
            split at h
            · next v' r' e =>
              simp only [Prod.mk.injEq, Varint.value.injEq] at h
              obtain ⟨rfl, rfl, rfl⟩ := h
              obtain ⟨h1, h2⟩ := varintTail_value _ _ _ _ _ _ _ e
              generalize leadingOnes 8 (field (s.need 8).S s.cons 8) = k at *
              have hlen : r'.length = k := by rw [h1]; simp; omega
              refine ⟨.inl ?_, ?_, by omega⟩
              · have k2 : field (s.need 8).S s.cons 8 % 2 ^ (7 - k) < 2 ^ (7 - k) := Nat.mod_lt _ (by positivity)
                calc v' < _ := h2
                  _ ≤ 2 ^ (7 - k) * 64 ^ (k - 1) := Nat.mul_le_mul_right _ k2
                  _ ≤ _ := by
                    have : k = 2 ∨ k = 3 ∨ k = 4 ∨ k = 5 ∨ k = 6 := by omega
                    rcases this with rfl | rfl | rfl | rfl | rfl <;> norm_num
              · rw [hlen]
                obtain ⟨m, rfl⟩ : ∃ m, k = m + 1 := ⟨k - 1, by omega⟩
                rw [octets_cons, h1]
                have := ((s.need 8).need_pulledTo (8 * (m + 1))).field_eq (p := s.cons) (n := 8) (by
                  have := State.has_iff.1 hh
                  simp [State.avail] at *; omega)
                simp [this]
            · cases h
            · cases h
          · cases h
  · cases h

end Sys2Proof.Machine
end

