-- ==== Sys2Proof/Machine/Assembler.lean ====
section
/-! DEFINITION. Assembler programs (30_encoding.md R116, R117): a program is a list of host actions; its lines become the host
accesses of the state, and each pseudo-instruction expands to lines. -/

namespace Sys2Proof.Machine

/-- The registers a line `RD` names (R116). -/
inductive ReadableReg where
  | RES0
  | RES1
  | RES2
  | STATUS
  | FAULT
  | EOS
  deriving DecidableEq, Repr

/-- The lines of an assembler program (R116). -/
inductive AsmLine where
  | ldArg0 (v : Reg)
  | ldArg1 (v : Reg)
  | command (i : Instr)
  | rd (r : ReadableReg)
  | src (bytes : List Byte) (e : Bool)
  deriving DecidableEq, Repr

/-- The offset of a register (10_state.md R31). -/
def ReadableReg.offset : ReadableReg → Nat
  | .RES0 => 0x18
  | .RES1 => 0x20
  | .RES2 => 0x28
  | .STATUS => 0x30
  | .FAULT => 0x38
  | .EOS => 0x40

/-- The access a line stands for (R116). -/
def AsmLine.action : AsmLine → HostAction
  | .ldArg0 v => .write 0x08 v
  | .ldArg1 v => .write 0x10 v
  | .command i => .write cmdOffset ((encode i).setWidth 64)
  | .rd r => .read r.offset
  | .src b e => .source ⟨b, e⟩

/-- The pseudo-instructions of R117. -/
inductive Pseudo where
  | crc8Clr
  | crc16Clr
  | brCrcreset
  | brRead (n : BitVec 8)
  | crc8Absorb (addr len : Reg)
  | crc16Absorb (addr len : Reg)
  | brSkip (n : Reg)
  | pcmPull (dst cap : Reg)
  | cfgBps (v : Reg)
  | cfgRate (v : Reg)
  | cfgCh (v : Reg)
  deriving DecidableEq, Repr

/-- The expansions of R117. -/
def Pseudo.expand : Pseudo → List AsmLine
  | .crc8Clr => [.command (.crc8Set 0#8)]
  | .crc16Clr => [.command (.crc16Set 0#16)]
  | .brCrcreset => [.command (.brSetcrc 0#16)]
  | .brRead n =>
    if 1 ≤ n.toNat ∧ n.toNat ≤ 32 then [.command (.brRead32 n)] else [.command (.brRead64 n)]
  | .crc8Absorb addr len => [.ldArg0 addr, .ldArg1 len, .command .crc8Span]
  | .crc16Absorb addr len => [.ldArg0 addr, .ldArg1 len, .command .crc16Spanb]
  | .brSkip n => [.ldArg0 n, .command .brSkipbits]
  | .pcmPull dst cap => [.ldArg0 dst, .ldArg1 cap, .command .pcmRead]
  | .cfgBps v => [.ldArg0 v, .command (.sysCfg 1#8)]
  | .cfgRate v => [.ldArg0 v, .command (.sysCfg 0#8)]
  | .cfgCh v => [.ldArg0 v, .command (.sysCfg 2#8)]

/-- The state with a program as the host's pending accesses. -/
def State.withProgram (s : State) (p : List AsmLine) : State := { s with host := p.map AsmLine.action }

end Sys2Proof.Machine
end

