-- ==== Sys2Proof/Tests/Slice0.lean ====
section
/-! SUPPORT. Tests and witnesses. Expected values come from the spec: the encodings of 30_encoding.md R111 and R113, the examples
of the rules, and the vectors of 95_test_vectors.md (each test names its source). A theorem `witness_<Name>` shows states and
operands that meet the hypotheses of the statement `Obligations.<Name>`, clause by clause, at boundary values. -/

namespace Sys2Proof.Tests

open Sys2Proof Sys2Proof.Machine

set_option Elab.async false

/-! ## Helpers -/

/-- A byte sequence from numbers. -/
def bytes (l : List Nat) : List Byte := l.map (BitVec.ofNat 8)

/-- An engine after reset that has received the bytes and the end of the stream, with the cursor at `c`. -/
def reader (l : List Nat) (c : Nat := 0) : State := { State.reset with S := bytes l, cons := c, eos := true }

/-- The engine `reader` before the end of the stream, with the source's answers to come. -/
def live (l : List Nat) (up : List PullAnswer := []) : State := { State.reset with S := bytes l, upstream := up }

/-- The command answers a next state. -/
def isNext (i : Instr) (s : State) : Bool :=
  match exec i s with
  | .next _ => true
  | .fault _ => false
  | .refused _ => false

/-- The state a command answers. -/
def run1 (i : Instr) (s : State) : State :=
  match exec i s with
  | .next t => t
  | .fault _ => s
  | .refused _ => s

theorem next_of {i : Instr} {s : State} (h : isNext i s = true) : exec i s = .next (run1 i s) := by
  unfold isNext at h
  unfold run1
  cases h' : exec i s <;> simp [h'] at h ⊢

/-- STATUS, RES0 and the cursor after the host writes the word to CMD. -/
def after (w : Word) (s : State) : Option (Nat × Nat × Nat) :=
  match runWord w s with
  | .next t => some (t.status.toNat, t.res0.toNat, t.cons)
  | .fault _ => none
  | .refused _ => none

/-- RES1 and RES2 after the host writes the word to CMD. -/
def after12 (w : Word) (s : State) : Option (Nat × Nat) :=
  match runWord w s with
  | .next t => some (t.res1.toNat, t.res2.toNat)
  | .fault _ => none
  | .refused _ => none

def readyOk (s : State) : Bool := s.fault == 0#16 && !s.disposed

def acceptsOk (s : State) : Bool :=
  readyOk s && !s.rb.active && decide (s.S.length + (s.upstream.map fun a => a.bytes.length).sum < 2 ^ 61)

def invOk (s : State) : Bool :=
  decide (s.base ≤ s.cons) && decide (s.cons ≤ s.avail) && decide (s.dw * s.cfg.W ≤ s.foldedBase) &&
  s.rb.active == decide (0 < s.rb.remaining) && decide (s.rb.k ≤ 31) && decide (s.rb.rn ≤ s.rb.k) && decide (s.accn ≤ 16) &&
  (!s.fpresent || (s.fsm == .done && s.fbuf.length == s.frameLen && decide (s.fcur ≤ s.frameLen))) &&
  s.fsm != .failed && (s.fsm != .subframes || s.sub.ss != .S2 || decide (1 ≤ s.sub.be)) && s.fault == 0#16 &&
  Memory.wf s.dmem && cellsFrom (0 : Int) 0 s.chbuf

theorem ready_of {s : State} (h : readyOk s = true) : s.Ready := by
  simp only [readyOk, Bool.and_eq_true, beq_iff_eq, Bool.not_eq_true'] at h
  exact ⟨h.1, h.2⟩

theorem accepts_of {s : State} (h : acceptsOk s = true) : s.Accepts := by
  simp only [acceptsOk, Bool.and_eq_true, Bool.not_eq_true', decide_eq_true_eq] at h
  exact ⟨ready_of h.1.1, h.1.2, h.2⟩

theorem inv_of {s : State} (h : invOk s = true) : s.Inv := by
  simp only [invOk, Bool.and_eq_true, Bool.or_eq_true, decide_eq_true_eq, beq_iff_eq, bne_iff_ne, Bool.not_eq_true'] at h
  obtain ⟨⟨⟨⟨⟨⟨⟨⟨⟨⟨⟨⟨h1, h2⟩, h3⟩, h4⟩, h5⟩, h6⟩, h7⟩, h8⟩, h9⟩, h10⟩, h11⟩, h12⟩, h13⟩ := h
  have hf : s.fpresent = true → (s.fsm = .done ∧ s.fbuf.length = s.frameLen) ∧ s.fcur ≤ s.frameLen := fun hp => by
    rcases h8 with h8 | h8
    · rw [hp] at h8; cases h8
    · exact h8
  exact { baseLe := h1, consLe := h2, wordsLe := h3, batch := h4, batchK := h5, batchRn := h6, accnLe := h7,
          frameDone := fun hp => (hf hp).1.1, frameLen := fun hp => (hf hp).1.2, frameCur := fun hp => (hf hp).2,
          failed := fun h => absurd h h9
          depth := fun ha hb => by
            rcases h10 with (h10 | h10) | h10
            · exact absurd ha h10
            · exact absurd hb h10
            · exact h10
          sticky := .inl h11, dmemWf := h12, chbufWf := h13 }

/-! ## WellFormed refuses ill-formed operands (30_encoding.md R112, R113) -/

theorem test_read32_width_is_checked :
    (Instr.brRead32 0#8).wellFormed = false ∧ (Instr.brRead32 33#8).wellFormed = false ∧
      (Instr.brRead32 1#8).wellFormed = true ∧ (Instr.brRead32 32#8).wellFormed = true := by decide

theorem test_read64_width_is_checked :
    (Instr.brRead64 0#8).wellFormed = false ∧ (Instr.brRead64 65#8).wellFormed = false ∧
      (Instr.brRead64 64#8).wellFormed = true := by decide

theorem test_rice_parameter_is_checked :
    (Instr.brRice 32#8).wellFormed = false ∧ (Instr.brRiceb 32#8).wellFormed = false ∧
      (Instr.brRice 31#8).wellFormed = true ∧ (Instr.brRiceb 31#8).wellFormed = true := by decide

theorem test_selectors_are_checked :
    (Instr.frInfo 11#8).wellFormed = false ∧ (Instr.sysCfg 3#8).wellFormed = false ∧
      (Instr.frInfo 10#8).wellFormed = true ∧ (Instr.sysCfg 2#8).wellFormed = true := by decide

/-! ## Decoding: words written out from the encodings of R111 and R113 -/

theorem test_decode_crc8_words :
    decode 0b00010000_00000000_00000000_11110100#32 = .ok (.crc8Set 0xF4#8) ∧
      decode 0x11000000#32 = .ok .crc8Get ∧ decode 0x12000080#32 = .ok (.crc8Byte 0x80#8) ∧
      decode 0x13000000#32 = .ok .crc8Span := ⟨rfl, rfl, rfl, rfl⟩

theorem test_decode_crc16_words :
    decode 0b00100000_00000000_00010010_00110100#32 = .ok (.crc16Set 0x1234#16) ∧
      decode 0x21000000#32 = .ok .crc16Get ∧ decode 0x22000012#32 = .ok (.crc16Byte 0x12#8) ∧
      decode 0x23000000#32 = .ok .crc16Span ∧ decode 0x24000000#32 = .ok .crc16Spanb := ⟨rfl, rfl, rfl, rfl, rfl⟩

theorem test_decode_read_words :
    decode 0b00110000_00000011_00000000_00000000#32 = .ok (.brRead32 3#8) ∧
      decode 0x31280000#32 = .ok (.brRead64 40#8) ∧ decode 0x32000000#32 = .ok .brReadbyte ∧
      decode 0x33000000#32 = .ok .brUnary ∧ decode 0x34020000#32 = .ok (.brRice 2#8) ∧
      decode 0x351F0000#32 = .ok (.brRiceb 31#8) ∧ decode 0x36000000#32 = .ok .brUtf8x32 ∧
      decode 0x37000000#32 = .ok .brUtf8x64 := ⟨rfl, rfl, rfl, rfl, rfl, rfl, rfl, rfl⟩

theorem test_decode_cursor_words :
    decode 0x38000000#32 = .ok .brAligned ∧ decode 0x39000000#32 = .ok .brZpad ∧ decode 0x3A000000#32 = .ok .brSkipbits ∧
      decode 0x3B000000#32 = .ok .brSkipbytes ∧ decode 0x3C000000#32 = .ok .brGetcrc ∧
      decode 0x3DABCD00#32 = .error .reservedField ∧ decode 0x3D00ABCD#32 = .ok (.brSetcrc 0xABCD#16) ∧
      decode 0x3E000000#32 = .ok .brUpdcrc ∧ decode 0x3F000000#32 = .ok .brRefill ∧ decode 0x40000000#32 = .ok .brEos ∧
      decode 0x41000000#32 = .ok .brPos := ⟨rfl, rfl, rfl, rfl, rfl, rfl, rfl, rfl, rfl, rfl, rfl⟩

theorem test_decode_frame_words :
    decode 0x50000000#32 = .ok .frDecode ∧ decode 0b01010001_00000000_00000000_00000000#32 = .ok .frStep ∧
      decode 0x520A0000#32 = .ok (.frInfo 10#8) ∧ decode 0b01010011_00000000_00000000_00000000#32 = .ok .pcmRead :=
  ⟨rfl, rfl, rfl, rfl⟩

theorem test_decode_system_words :
    decode 0x70000000#32 = .ok .sysReset ∧ decode 0x71000000#32 = .ok .sysDispose ∧
      decode 0b01110010_00000001_00000000_00000000#32 = .ok (.sysCfg 1#8) ∧ decode 0x73000000#32 = .ok .sysStatus :=
  ⟨rfl, rfl, rfl, rfl⟩

/-- R115: both ends of every gap of the map are illegal, both ends of every run of the map are assigned. -/
theorem test_decode_gaps :
    (∀ o ∈ [0x00, 0x0F, 0x14, 0x1F, 0x25, 0x2F, 0x42, 0x4F, 0x54, 0x6F, 0x74, 0xFF],
      (opcodeMap o 0#8 0#16).isNone = true) ∧
    (∀ o ∈ [0x10, 0x13, 0x20, 0x24, 0x30, 0x41, 0x50, 0x53, 0x70, 0x73], (opcodeMap o 0#8 0#16).isSome = true) := by decide

/-- The row's numbering of the opcode table and the host's write agree: the very next step runs the command. -/
theorem test_table_word_runs :
    decodeTableWord 32 0x72010000 = some (.sysCfg 1#8) ∧
      (State.reset.withFetchWord 32 0x72010000).host = [.write 0x00 0x72010000#64] := by decide

/-! ## One step each, from the examples of the rules and the vectors of 95_test_vectors.md -/

/-- V1: T8[0x80] = 0x89; A8(c, c) = 0; R177's span example, and the span out of range. -/
theorem test_crc8 :
    after 0x12000080#32 State.reset = some (0, 0x89, 0) ∧
    after 0x120000F4#32 { State.reset with c8 := 0xF4#8 } = some (0, 0, 0) ∧
    after 0x11000000#32 (run1 (.crc8Set 0xF4#8) State.reset) = some (0, 0xF4, 0) ∧
    after 0x13000000#32 { State.reset with
      arg1 := 9#64, dmem := [(0, 0x31#8), (1, 0x32#8), (2, 0x33#8), (3, 0x34#8), (4, 0x35#8), (5, 0x36#8), (6, 0x37#8),
        (7, 0x38#8), (8, 0x39#8)] } = some (0, 0xF4, 0) ∧
    after 0x13000000#32 { State.reset with arg0 := 65530#64, arg1 := 7#64 } = some (0x0505, 0, 0) := by decide +kernel

/-- V2 and R191's example. -/
theorem test_crc16 :
    after 0x22000012#32 (run1 (.crc16Set 0x1234#16) State.reset) = some (0, 0x3400, 0) ∧
    after 0x21000000#32 { State.reset with c16 := 0x1234#16 } = some (0, 0x1234, 0) ∧
    after 0x22000100#32 State.reset = some (0x0205, 0, 0) ∧
    after 0x23000000#32 { State.reset with
      arg1 := 4#64, dmem := [(0, 0x31#8), (1, 0x32#8), (2, 0x33#8), (3, 0x34#8)] } = some (0, 0xFD59, 0) ∧
    after 0x24000000#32 { State.reset with
      c16 := 0xFD59#16, arg0 := 4#64, arg1 := 5#64
      dmem := [(4, 0x35#8), (5, 0x36#8), (6, 0x37#8), (7, 0x38#8), (8, 0x39#8)] } = some (0, 0xFEE8, 0) := by decide +kernel

/-- V3. -/
theorem test_reads :
    after 0x30030000#32 (reader [0xA2, 0xF0]) = some (0, 5, 3) ∧
    after 0x30090000#32 (reader [0xA2]) = some (0x0001, 0, 0) ∧
    after 0x32000000#32 (reader [0xA2, 0xF0] 4) = some (0, 0x2F, 12) ∧
    after 0x31280000#32 (reader [0x01, 0x23, 0x45, 0x67, 0x89]) = some (0, 0x0123456789, 40) ∧
    after 0x31410000#32 (reader [0xA2]) = some (0x0305, 0, 0) := by decide +kernel

/-- V4: the counts, a negative value, the overflow, and R220's limit. -/
theorem test_unary_and_rice :
    after 0x33000000#32 (reader [0x00, 0x01]) = some (0, 15, 16) ∧
    after 0x33000000#32 { reader [0, 0] with cfg := { defaultConfig with unaryMax := 8 } } = some (0x0403, 0, 0) ∧
    after 0x34020000#32 (reader [0b01110000]) = some (0, 0xFFFFFFFFFFFFFFFC, 4) ∧
    after 0x341F0000#32 (reader [0]) = some (0x0503, 0, 0) := by decide +kernel

/-- R43: 128 bits read since reset and a further bit due: with `W = 64` two words are discarded, with the baseline where it was;
from a baseline of 4 bits the fold stops at bit 124, so one is. -/
theorem test_compaction :
    let s := { live (List.replicate 16 0) with cons := 128 }
    (s.need 1).dw = 2 ∧ (s.need 1).base = 0 ∧ (s.need 0).dw = 0 ∧ ({ s with base := 4 } : State).foldedBase = 124 ∧
      (State.need { s with base := 4 } 1).dw = 1 := by decide +kernel

/-- R232's example: the suspended batch and its continuation. -/
theorem test_batch :
    let s := { live [0x02, 0x3A] with cons := 6, arg0 := 0x100#64, arg1 := 3#64 }
    let t := run1 (.brRiceb 2#8) s
    let u := run1 (.brRiceb 2#8) { t with arg0 := t.res1, arg1 := t.res2, upstream := [⟨bytes [0x00], true⟩] }
    (t.status = 0x0001#16 ∧ t.res0 = 2#64 ∧ t.res1 = 0x108#64 ∧ t.res2 = 1#64 ∧ t.rb = ⟨true, 2, 0x108, 1, .rem, 1, 1, 0⟩ ∧
      t.cons = 16 ∧ t.dmem = [(0x104, 0xFC#8), (0x105, 0xFF#8), (0x106, 0xFF#8), (0x107, 0xFF#8)]) ∧
    (u.status = 0x0000#16 ∧ u.res0 = 1#64 ∧ u.res1 = 0x10C#64 ∧ u.res2 = 0#64 ∧ u.cons = 17 ∧
      memByte u.dmem 0x108 = 2#8) := by decide +kernel

/-- V5: a value, the two sentinels, a lead and a continuation that are invalid, with the raw bytes. -/
theorem test_varints :
    after 0x36000000#32 (reader [0xFD, 0xBF, 0xBF, 0xBF, 0xBF, 0xBF]) = some (0, 0x7FFFFFFF, 48) ∧
    after12 0x37000000#32 (reader [0xE2, 0x82, 0xAC]) = some (0xE282AC, 3) ∧
    after 0x36000000#32 (reader [0xFE]) = some (0, 0xFFFFFFFF, 8) ∧
    after 0x37000000#32 (reader [0xFF]) = some (0, 0xFFFFFFFFFFFFFFFF, 8) ∧
    after 0x36000000#32 (reader [0xBF]) = some (0x0103, 0, 8) ∧
    after 0x36000000#32 (reader [0xE2, 0x82, 0x41]) = some (0x0203, 0, 24) ∧
    after12 0x36000000#32 (reader [0xE2, 0x82, 0x41]) = some (0xE28241, 3) := by decide +kernel

/-- V6 and V7: alignment, padding, positions, end of stream, refill. -/
theorem test_cursor_commands :
    after 0x38000000#32 (reader [0xA2, 0xF0] 12) = some (0, 0, 12) ∧
    after 0x39000000#32 (reader [0xA2, 0xF0] 12) = some (0, 4, 16) ∧
    after 0x39000000#32 (reader [0xA2, 0xF8] 12) = some (0x0303, 0, 12) ∧
    after 0x40000000#32 (live []) = some (0, 0, 0) ∧
    after 0x41000000#32 (reader [0xA2, 0xF0] 12) = some (0, 12, 12) ∧
    after12 0x41000000#32 { reader [0xA2, 0xF0] 12 with base := 8 } = some (16, 8) ∧
    after 0x3F000000#32 (live [] [⟨bytes [1, 2, 3], true⟩]) = some (0, 1, 0) ∧
    after12 0x3F000000#32 (live [] [⟨bytes [1, 2, 3], true⟩]) = some (3, 0) := by decide +kernel

/-- V6: the checkpoint, the fold and the skips. -/
theorem test_checkpoint_and_skips :
    (run1 (.brSetcrc 0x1234#16) (reader [1, 2] 12)).base = 12 ∧
    (run1 .brUpdcrc (reader [0xFF, 0xF8, 0x60] 20)).bcrc = 0x001C#16 ∧
    after 0x3C000000#32 (reader [0x31, 0x32, 0x33, 0x34, 0x35, 0x36, 0x37, 0x38, 0x39] 72) = some (0, 0xFEE8, 72) ∧
    after 0x3A000000#32 { reader [0xA2, 0xF0] with arg0 := 12#64 } = some (0, 0, 12) ∧
    after 0x3A000000#32 { reader [0x01] with arg0 := 9#64 } = some (0x0001, 0, 0) ∧
    (run1 .brSkipbytes { reader [1, 0x23, 0x45] with arg0 := 2#64 }).base = 16 := by decide +kernel

/-- The mono Constant frame of E7, with `SI_BPS = 16` and `SI_CHANNELS = 1`. -/
def mono : State :=
  { reader [0xFF, 0xF8, 0x60, 0x00, 0x00, 0x03, 0xE3, 0x00, 0x00, 0x2A, 0xA0, 0xCE] with siBps := 16#6, siChannels := 1#4 }

/-- A header sub-step of the decode, with given scratch, at the first of the bytes. -/
def header (hp : HeaderStep) (hdr : Header) (l : List Nat) : State :=
  { reader l with fsm := .headerParse, hp := hp, hdr := hdr, siBps := 16#6 }

/-- A subframe sub-step of the decode, with given scratch, at the first of the bytes. -/
def subframe (sub : Subframe) (l : List Nat) : State :=
  { reader l with fsm := .subframes, sub := sub, hdr := { Header.zero with nch := 2, bs := 2, bps := 8 } }

/-- A footer sub-step of the decode at the cursor. -/
def footer (fs : FooterStep) (l : List Nat) (c : Nat) : State :=
  { reader l c with fsm := .footerCheck, fs := fs, hdr := { Header.zero with nch := 1, bs := 1, bps := 8 } }

/-- E7's frame before the bit that completes the sync. -/
def lastSearch : State := { mono with cons := 15, acc := 0x7FFC#16, accn := 15 }

/-- E7's header at its CRC-8, with the byte that stands there. -/
def atHeaderCrc (v : Nat) (bdc : BitVec 3) : State :=
  { header .H4 { Header.zero with bdc := bdc } [v] with raw := bytes [0xFF, 0xF8, 0x60, 0x00, 0x00, 0x03] }

/-- E7's header, accepted. -/
def monoHeader : Header := { Header.zero with bsc := 6#4, bs := 4, bps := 16, nch := 1, hc8 := 0xE3#8 }

/-- E7's frame before a footer sub-step: the CRC-16 holds the sync bytes, the samples are there. -/
def beforeFooter (fs : FooterStep) : State :=
  { mono with
    cons := 80, base := 16, bcrc := 0x001C#16, fsm := .footerCheck, fs := fs, hdr := monoHeader
    chbuf := [(0, 42), (1, 42), (2, 42), (3, 42)] }

/-- E7's frame, decoded. -/
def framed : State :=
  { mono with
    cons := 96, base := 80, fsm := .done, hdr := monoHeader, fpresent := true, fbuf := [42#32, 42#32, 42#32, 42#32]
    fcrc := 0xA0CE#16 }

/-- E7 and R272's example: one FR.STEP in each of the micro-steps of the mono frame. -/
theorem test_micro_steps :
    (after 0x51000000#32 lastSearch = some (0, 1, 16) ∧
    after 0x51000000#32 (header .H0 Header.zero [0x60, 0x00]) = some (0, 1, 16) ∧
    after 0x51000000#32 (header .H1 Header.zero [0x00]) = some (0, 1, 8) ∧
    after 0x51000000#32 (header .H2 { Header.zero with bsc := 6#4 } [0x03]) = some (0, 1, 8) ∧
    after 0x51000000#32 (header .H3 Header.zero []) = some (0, 1, 0) ∧
    after 0x51000000#32 (atHeaderCrc 0xE3 0#3) = some (0, 2, 8)) ∧
    after 0x51000000#32 (subframe Subframe.zero [0x00]) = some (0, 2, 8) ∧
    after 0x51000000#32 (subframe { Subframe.zero with ch := 1, ss := .S2, be := 8 } [0x2A]) = some (0, 3, 8) ∧
    after 0x51000000#32 (beforeFooter .F0) = some (0, 3, 80) ∧ after 0x51000000#32 (beforeFooter .F1) = some (0, 4, 96) ∧
    after 0x51000000#32 framed = some (0, 0, 96) ∧
    after 0x51000000#32 { reader [] with fsm := .ended } = some (0x0002, 5, 0) :=
  ⟨by decide +kernel, by decide +kernel⟩

/-- E7: the whole frame, what FR.INFO says of it, and a copy of three of its values (R364's example). -/
theorem test_mono_frame :
    let t := run1 .frDecode mono
    t.status = 0x0000#16 ∧ t.res0 = 4#64 ∧ t.res1 = 4#64 ∧ t.cons = 96 ∧ t.fbuf = [42#32, 42#32, 42#32, 42#32] ∧
    (run1 (.frInfo 7#8) t).res0 = 0xE3#64 ∧ (run1 (.frInfo 10#8) t).res0 = 0xA0CE#64 ∧
    (run1 .pcmRead { t with arg0 := 0x200#64, arg1 := 3#64 }).dmem = [(0x200, 0x2A#8), (0x204, 0x2A#8), (0x208, 0x2A#8)] ∧
    (run1 .frDecode t).status = 0x0002#16 := by decide +kernel

/-- E6: the mid/side frame. V9: the left/side frame, with deferred size and rate and a Verbatim and a Constant channel. -/
theorem test_stereo_frames :
    (run1 .frDecode { reader [0xFF, 0xF8, 0x60, 0xA0, 0x05, 0x01, 0xE4, 0x02, 0x0A, 0xFB, 0x02, 0x01, 0x80, 0xC0, 0xA6, 0x07] with
      siBps := 8#6 }).fbuf = [12#32, 9#32, 0xFFFFFFFD#32, 0xFFFFFFFA#32] ∧
    (run1 .frDecode (reader [0xFF, 0xF8, 0x7D, 0x88, 0xE2, 0x82, 0xAC, 0x00, 0x02, 0xAC, 0x44, 0xFA, 0x02, 0x00, 0x64, 0xFF,
      0x9C, 0x00, 0x00, 0x00, 0x00, 0x02, 0x80, 0xAB, 0xCE])).fbuf =
      [100#32, 95#32, 0xFFFFFF9C#32, 0xFFFFFF97#32, 0#32, 0xFFFFFFFB#32] := by decide +kernel

/-- V9: the footer mismatch is fatal and sticky. E5: a flipped header CRC-8 is a resync. -/
theorem test_footer_is_fatal_header_is_not :
    (run1 .frDecode { mono with S := bytes [0xFF, 0xF8, 0x60, 0, 0, 3, 0xE3, 0, 0, 0x2A, 0xA0, 0xCF] }).fault = 0x0104#16 ∧
    (run1 .frStep (atHeaderCrc 0x1C 0#3)).fsm = .searching ∧ (run1 .frStep (atHeaderCrc 0x1C 0#3)).acc = 0x001C#16 ∧
    (run1 .frStep (atHeaderCrc 0x1C 0#3)).status = 0x0000#16 := by decide +kernel

/-- R384, R382, R386, R380: configuration, dispose (and the use after it), status, reset. -/
theorem test_system_commands :
    (run1 (.sysCfg 1#8) { State.reset with arg0 := 16#64 }).siBps = 16#6 ∧
    after 0x72010000#32 { State.reset with arg0 := 33#64 } = some (0x0805, 0, 0) ∧
    after 0x30080000#32 (run1 .sysDispose (reader [1])) = some (0x0405, 0, 0) ∧
    after12 0x73000000#32 { reader [1] with fault := 0x0104#16, fsm := .failed } = some (0x0104, 8) ∧
    after 0x70000000#32 { reader [1] 3 with fault := 0x0104#16, fsm := .failed } = some (0, 0, 0) := by decide +kernel

/-! ## Witnesses: the hypotheses of the statements, met -/

/-- An idle engine is ready, accepts commands and keeps the invariant; so does one that has received bytes. -/
theorem witness_states :
    State.reset.Accepts ∧ State.reset.Inv ∧ (reader [0xA2, 0xF0] 12).Accepts ∧ (reader [0xA2, 0xF0] 12).Inv ∧
      (live [] [⟨bytes [1], false⟩]).Accepts ∧ (live [] [⟨bytes [1], false⟩]).Inv :=
  ⟨accepts_of (by decide +kernel), inv_of (by decide +kernel), accepts_of (by decide +kernel), inv_of (by decide +kernel),
    accepts_of (by decide +kernel), inv_of (by decide +kernel)⟩

/-- Every command completes in the engine after reset (FR.DECODE and FR.STEP with UNDERRUN). -/
theorem witness_every_command_answers :
    (isNext (.crc8Set 1#8) State.reset && isNext .crc8Get State.reset && isNext (.crc8Byte 1#8) State.reset &&
      isNext .crc8Span State.reset && isNext (.crc16Set 1#16) State.reset && isNext .crc16Get State.reset &&
      isNext (.crc16Byte 1#8) State.reset && isNext .crc16Span State.reset && isNext .crc16Spanb State.reset &&
      isNext (.brRead32 1#8) State.reset && isNext (.brRead64 64#8) State.reset && isNext .brReadbyte State.reset &&
      isNext .brUnary State.reset && isNext (.brRice 31#8) State.reset && isNext (.brRiceb 31#8) State.reset &&
      isNext .brUtf8x32 State.reset && isNext .brUtf8x64 State.reset && isNext .brAligned State.reset &&
      isNext .brZpad State.reset && isNext .brSkipbits State.reset && isNext .brSkipbytes State.reset &&
      isNext .brGetcrc State.reset && isNext (.brSetcrc 1#16) State.reset && isNext .brUpdcrc State.reset &&
      isNext .brRefill State.reset && isNext .brEos State.reset && isNext .brPos State.reset && isNext .frDecode State.reset &&
      isNext .frStep State.reset && isNext (.frInfo 10#8) State.reset && isNext .pcmRead State.reset &&
      isNext .sysReset State.reset && isNext .sysDispose State.reset && isNext (.sysCfg 2#8) State.reset &&
      isNext .sysStatus State.reset) = true := by decide +kernel

theorem witness_StepRunsDecoded :
    (∃ (s : State) (v : Reg) (rest : List HostAction) (i : Instr), s.host = .write 0x00 v :: rest ∧
      decode (v.setWidth 32) = .ok i) ∧
    (∃ (s : State) (v : Reg) (rest : List HostAction) (e : DecodeError), s.host = .write 0x00 v :: rest ∧
      decode (v.setWidth 32) = .error e) ∧
    (∃ s : State, s.host = []) :=
  ⟨⟨State.reset.withFetchWord 32 0x73000000, _, _, .sysStatus, rfl, rfl⟩,
    ⟨State.reset.withFetchWord 32 0x00000000, _, _, .illegalOpcode, rfl, rfl⟩, ⟨State.reset, rfl⟩⟩

theorem witness_IllegalWords :
    State.reset.Ready ∧ decode 0x00000000#32 = .error .illegalOpcode ∧ decode 0xFF000000#32 = .error .illegalOpcode ∧
      decode 0x73000001#32 = .error .reservedField ∧ decode 0x30088000#32 = .error .reservedField ∧
      decode 0x10000100#32 = .error .reservedField ∧ decode 0x3D800000#32 = .error .reservedField :=
  ⟨ready_of rfl, rfl, rfl, rfl, rfl, rfl, rfl⟩

/-- Crc8Register and Crc16Register: a ready engine, also during a Rice batch; a BYTE word with a reserved bit. -/
theorem witness_Crc8Register_Crc16Register :
    State.reset.Ready ∧ ({ State.reset with rb := ⟨true, 0, 0, 1, .quot, 0, 0, 0⟩ } : State).Ready ∧
      (0x22000100#32).extractLsb' 24 8 = 0x22#8 ∧ (0x22000100#32).extractLsb' 8 8 ≠ 0#8 :=
  ⟨ready_of rfl, ready_of rfl, by decide, by decide⟩

/-- The last legal ranges and the first illegal ones (V1). -/
theorem witness_CrcSpans :
    let s := fun (a n : Reg) => { State.reset with arg0 := a, arg1 := n }
    (s 65536#64 0#64).Ready ∧ (s 65536#64 0#64).arg0.toNat + (s 65536#64 0#64).arg1.toNat ≤ State.reset.cfg.dmemBytes ∧
      (s 65530#64 6#64).arg0.toNat + (s 65530#64 6#64).arg1.toNat ≤ State.reset.cfg.dmemBytes ∧
      (s 65530#64 7#64).Ready ∧ State.reset.cfg.dmemBytes < (s 65530#64 7#64).arg0.toNat + (s 65530#64 7#64).arg1.toNat ∧
      State.reset.cfg.dmemBytes < (s 65537#64 0#64).arg0.toNat + (s 65537#64 0#64).arg1.toNat :=
  ⟨ready_of rfl, by decide, by decide, ready_of rfl, by decide, by decide⟩

theorem witness_Crc16Fold : ∃ (r s t : State) (c : Half) (m : List Byte), r.Ready ∧ exec (.crc16Set c) r = .next s ∧
    Absorbs s m t ∧ m.length = 4 :=
  ⟨State.reset, run1 (.crc16Set 0x1234#16) State.reset, _, 0x1234#16, _, ready_of rfl, next_of rfl,
    .byte _ _ _ 0x12#8 _ (next_of (by decide +kernel)) (by decide +kernel)
      (.span .crc16Span (.inl rfl) _ _ _ 0#64 2#64 _ (next_of (by decide +kernel)) (by decide +kernel)
        (.span .crc16Spanb (.inr rfl) _ _ _ 7#64 1#64 [] (next_of (by decide +kernel)) (by decide +kernel) (.nil _))), rfl⟩

/-- Bits there; bits short with the stream ended, with an answer of bytes, with an empty answer, with no answer left. -/
theorem witness_NeedAndRefill :
    ((reader [1]).has 8 = true ∧ (reader [1]).has 9 = false ∧ (reader [1]).eos = true) ∧
    ((live [1] [⟨bytes [2], false⟩]).has 9 = false ∧ (live [1] [⟨bytes [2], false⟩]).eos = false) ∧
    ((live [1] [⟨[], false⟩]).has 9 = false ∧ (live [1]).has 9 = false ∧ (live [1]).eos = false ∧ (live [1]).upstream = []) ∧
    ((reader [1]).Ready ∧ (live [1] [⟨bytes [2], true⟩]).Ready ∧ (live [1] [⟨bytes [2], true⟩]).Room ∧
      (live [1] [⟨[], false⟩]).Room ∧ (live [1]).Ready) :=
  ⟨by decide +kernel, by decide +kernel, by decide +kernel, ready_of rfl, ready_of rfl,
    (accepts_of (by decide +kernel)).room, (accepts_of (by decide +kernel)).room, ready_of rfl⟩

/-- Both ends of both width ranges and the widths just outside; enough bits, and not enough. -/
theorem witness_ReadCommands :
    ((reader [1, 2, 3, 4, 5, 6, 7, 8]).Accepts ∧ (reader [1]).Accepts) ∧
    ((1 ≤ (1#8).toNat ∧ (1#8).toNat ≤ 32) ∧ (1 ≤ (32#8).toNat ∧ (32#8).toNat ≤ 32) ∧ ¬(1 ≤ (0#8).toNat ∧ (0#8).toNat ≤ 32) ∧
      ¬(1 ≤ (33#8).toNat ∧ (33#8).toNat ≤ 32) ∧ (1 ≤ (64#8).toNat ∧ (64#8).toNat ≤ 64) ∧
      ¬(1 ≤ (65#8).toNat ∧ (65#8).toNat ≤ 64)) ∧
    (((reader [1, 2, 3, 4, 5, 6, 7, 8]).need 64).has 64 = true ∧ ((reader [1]).need 9).has 9 = false ∧
      ((reader [1]).need 8).has 8 = true) :=
  ⟨⟨accepts_of (by decide +kernel), accepts_of (by decide +kernel)⟩, by decide, by decide +kernel⟩

/-- E2: 5 and 19 bits, and 24; and 1 and 31 bits with BR.READ32. -/
theorem witness_ReadAssociativity :
    let s := reader [0xA2, 0xF0, 0xC2, 0xA9]
    s.Accepts ∧ (5#8).toNat + (19#8).toNat ≤ 64 ∧ (24#8).toNat = (5#8).toNat + (19#8).toNat ∧
      (∃ t u v, exec (.brRead64 5#8) s = .next t ∧ t.status = 0x0000#16 ∧ exec (.brRead64 19#8) t = .next u ∧
        u.status = 0x0000#16 ∧ exec (.brRead64 24#8) s = .next v ∧ v.status = 0x0000#16) ∧
      (1#8).toNat + (31#8).toNat ≤ 32 ∧
      (∃ t u v, exec (.brRead32 1#8) s = .next t ∧ t.status = 0x0000#16 ∧ exec (.brRead32 31#8) t = .next u ∧
        u.status = 0x0000#16 ∧ exec (.brRead32 32#8) s = .next v ∧ v.status = 0x0000#16) :=
  ⟨accepts_of (by decide +kernel), by decide, by decide,
    ⟨_, _, _, next_of (by decide +kernel), by decide +kernel, next_of (by decide +kernel), by decide +kernel,
      next_of (by decide +kernel), by decide +kernel⟩, by decide,
    ⟨_, _, _, next_of (by decide +kernel), by decide +kernel, next_of (by decide +kernel), by decide +kernel,
      next_of (by decide +kernel), by decide +kernel⟩⟩

/-- WordIndependence, and ReaderAtomicity with a status that is not OK: an underrun, a set padding bit, a width violation. -/
theorem witness_WordIndependence_ReaderAtomicity :
    (family .brReadbyte = .bitReader ∧ exec .brReadbyte (reader [1]) = .next (run1 .brReadbyte (reader [1]))) ∧
    ((reader []).Ready ∧ exec .brReadbyte (reader []) = .next (run1 .brReadbyte (reader [])) ∧
      (run1 .brReadbyte (reader [])).status ≠ 0x0000#16) ∧
    (isNext .brZpad (reader [1] 1) = true ∧ (run1 .brZpad (reader [1] 1)).status = 0x0303#16 ∧
      isNext (.brRead32 0#8) (reader [1]) = true ∧ (run1 (.brRead32 0#8) (reader [1])).status = 0x0305#16 ∧
      isNext .brUtf8x32 (reader [0xC2]) = true ∧ (run1 .brUtf8x32 (reader [0xC2])).status = 0x0001#16) :=
  ⟨⟨rfl, next_of (by decide +kernel)⟩, ⟨ready_of rfl, next_of (by decide +kernel), by decide +kernel⟩, by decide +kernel⟩

/-- A run of 0 and of 15 zeros ended by a 1; a run longer than a small `UNARY_MAX` (V4); a run that runs dry. -/
theorem witness_UnaryCommand :
    let ok := fun (s : State) (z : Nat) => decide (z ≤ s.cfg.unaryMax) &&
      decide (∀ j, j < z → bitAt (s.need (z + 1)).S (s.cons + j) = false)
    let short := { reader [0, 0] with cfg := { defaultConfig with unaryMax := 8 } }
    ((reader [0x80]).Accepts ∧ short.Accepts ∧ (reader [0]).Accepts) ∧
    (ok (reader [0x80]) 0 = true ∧ ((reader [0x80]).need 1).has 1 = true ∧ bitAt ((reader [0x80]).need 1).S 0 = true) ∧
    (ok (reader [0, 1]) 15 = true ∧ ((reader [0, 1]).need 16).has 16 = true ∧ bitAt ((reader [0, 1]).need 16).S 15 = true) ∧
    (ok short 8 = true ∧ (short.need 9).has 9 = true ∧ bitAt (short.need 9).S 8 = false ∧ 8 = short.cfg.unaryMax) ∧
    (ok (reader [0]) 8 = true ∧ ((reader [0]).need 9).has 9 = false ∧ ((reader [0]).need 8).has 8 = true) ∧
    (ok (reader []) 0 = true ∧ ((reader []).need 1).has 1 = false) :=
  ⟨⟨accepts_of (by decide +kernel), accepts_of (by decide +kernel), accepts_of (by decide +kernel)⟩, by decide +kernel,
    by decide +kernel, by decide +kernel, by decide +kernel, by decide +kernel⟩

/-- V4: `1 00` and `0 1 11`; a remainder that runs dry; the overflow of `k = 31` at quotient 2; a quotient that runs dry; `k` = 32. -/
theorem witness_RiceCommand :
    let ok := fun (s : State) (k q : Nat) => decide (q * 2 ^ k < 2 ^ 32) &&
      decide (∀ j, j < q → bitAt (s.need (q + 1)).S (s.cons + j) = false)
    ((reader [0x70]).Accepts ∧ (reader [0]).Accepts ∧ 31 < (32#8).toNat ∧ (31#8).toNat ≤ 31) ∧
    (ok (reader [0x70]) 2 1 = true ∧ ((reader [0x70]).need 4).has 4 = true ∧ bitAt ((reader [0x70]).need 2).S 1 = true) ∧
    (ok (reader [0x80]) 31 0 = true ∧ ((reader [0x80]).need 1).has 1 = true ∧ bitAt ((reader [0x80]).need 1).S 0 = true ∧
      ((reader [0x80]).need 32).has 32 = false) ∧
    (ok (reader [0]) 31 1 = true ∧ ((reader [0]).need 2).has 2 = true ∧ bitAt ((reader [0]).need 2).S 1 = false ∧
      2 ^ 32 ≤ (1 + 1) * 2 ^ 31) ∧
    (ok (reader [0]) 2 8 = true ∧ ((reader [0]).need 9).has 9 = false ∧ ((reader [0]).need 8).has 8 = true) :=
  ⟨⟨accepts_of (by decide +kernel), accepts_of (by decide +kernel), by decide, by decide⟩, by decide +kernel,
    by decide +kernel, by decide +kernel, by decide +kernel⟩

/-- Even and odd codes; E3's round trip: −1000 with `k` = 5 is 62 zeros, a 1 and `01111`. -/
theorem witness_RiceRoundTrip :
    let s := reader [0, 0, 0, 0, 0, 0, 0, 0x02, 0xF0]
    ((4294967294#32).toNat % 2 = 0 ∧ (4294967295#32).toNat % 2 = 1) ∧
    (s.Accepts ∧ ((1999 : Nat) : Int) = (if 0 ≤ (BitVec.ofInt 32 (-1000)).toInt then 2 * (BitVec.ofInt 32 (-1000)).toInt
      else -2 * (BitVec.ofInt 32 (-1000)).toInt - 1)) ∧
    (s.has (1999 / 2 ^ 5 + 1 + 5) = true ∧ (∀ j, j < 1999 / 2 ^ 5 → bitAt s.S (s.cons + j) = false) ∧
      bitAt s.S (s.cons + 1999 / 2 ^ 5) = true ∧ field s.S (s.cons + 1999 / 2 ^ 5 + 1) 5 = 1999 % 2 ^ 5) :=
  ⟨by decide, ⟨accepts_of (by decide +kernel), by decide⟩, by decide +kernel⟩

/-- V8: `k` = 32, the range and the alignment violations, the batch of no values at the end of DMEM; a new batch, and a
continued one. -/
theorem witness_RicebCommand :
    let s := fun (a n : Reg) => { live [0x8E] with arg0 := a, arg1 := n }
    let held := { s 0x108#64 1#64 with rb := ⟨true, 2, 0x108, 1, .quot, 0, 0, 0⟩ }
    ((s 0#64 0#64).Ready ∧ (s 0#64 0#64).rb.active = false ∧ 31 < (32#8).toNat ∧ (31#8).toNat ≤ 31) ∧
    (State.reset.cfg.dmemBytes < (s 65532#64 2#64).arg0.toNat + 4 * (s 65532#64 2#64).arg1.toNat ∧
      (s 65532#64 1#64).arg0.toNat + 4 * (s 65532#64 1#64).arg1.toNat ≤ State.reset.cfg.dmemBytes ∧
      (s 0x202#64 1#64).arg0.toNat % 4 ≠ 0 ∧ (s 65536#64 0#64).arg0.toNat ≤ State.reset.cfg.dmemBytes ∧
      (s 65536#64 0#64).arg0.toNat % 4 = 0) ∧
    ((s 65532#64 1#64).Inv ∧ (s 65532#64 1#64).Room ∧ held.Inv ∧ held.Ready ∧ held.Room ∧ held.rb.active = true ∧
      (2#8).toNat = held.rb.k ∧ held.arg0.toNat = held.rb.dst ∧ held.arg1.toNat = held.rb.remaining) :=
  ⟨⟨ready_of rfl, rfl, by decide, by decide⟩, by decide, inv_of (by decide +kernel), (accepts_of (by decide +kernel)).room,
    inv_of (by decide +kernel), ready_of rfl, (by unfold State.Room; decide +kernel), rfl, rfl, rfl, rfl⟩

/-- Three codes read one by one; P4: a batch suspended twice and continued to its end, left suspended, and one that overflows. -/
theorem witness_RicebIsRice :
    let s := { reader [0x8E, 0xB8] with arg0 := 0x100#64, arg1 := 3#64 }
    let p := { live [] [⟨bytes [0x8E], false⟩, ⟨[], false⟩] with arg0 := 0x100#64, arg1 := 3#64 }
    let o := { reader [0x00] with arg0 := 0x100#64, arg1 := 1#64 }
    let ends := fun (a : BitVec 8) (more : List (List PullAnswer)) (s : State) => (runRiceb a more s).map State.status
    (s.Inv ∧ s.Accepts ∧ (runRice 2#8 s.arg1.toNat s).isSome = true ∧
      s.arg0.toNat + 4 * s.arg1.toNat ≤ s.cfg.dmemBytes ∧ s.arg0.toNat % 4 = 0) ∧
    (p.Inv ∧ p.Accepts ∧ p.cfg.dmemBytes ≤ 2 ^ 64 ∧ ends 2#8 [[], [⟨bytes [0xB8], true⟩]] p = some 0x0000#16 ∧
      ends 2#8 [] p = some 0x0001#16) ∧
    (o.Inv ∧ o.Accepts ∧ ends 31#8 [] o = some 0x0503#16) :=
  ⟨⟨inv_of (by decide +kernel), accepts_of (by decide +kernel), by decide +kernel, by decide, by decide⟩,
    ⟨inv_of (by decide +kernel), accepts_of (by decide +kernel), by decide, by decide +kernel, by decide +kernel⟩,
    inv_of (by decide +kernel), accepts_of (by decide +kernel), by decide +kernel⟩

/-- A batch in progress: its own operands, and each of the three that differs; PCM.READ's legal range. -/
theorem witness_BatchInProgress :
    let s := { live [0x8E] with rb := ⟨true, 2, 0x108, 1, .quot, 0, 0, 0⟩, arg0 := 0x108#64, arg1 := 1#64 }
    s.Ready ∧ s.rb.active = true ∧ ((2#8).toNat = s.rb.k ∧ s.arg0.toNat = s.rb.dst ∧ s.arg1.toNat = s.rb.remaining) ∧
      (3#8).toNat ≠ s.rb.k ∧ (0x10C#64).toNat ≠ s.rb.dst ∧ (2#64).toNat ≠ s.rb.remaining ∧
      exec (.brRiceb 2#8) s = .next (run1 (.brRiceb 2#8) s) ∧
      s.arg0.toNat + 4 * s.arg1.toNat ≤ s.cfg.dmemBytes ∧ s.arg0.toNat % 4 = 0 ∧
      exec .sysStatus s = .next (run1 .sysStatus s) ∧ exec .sysReset s = .next (run1 .sysReset s) :=
  ⟨ready_of rfl, rfl, by decide, by decide, by decide, by decide, next_of (by decide +kernel), by decide, by decide,
    next_of (by decide +kernel), next_of (by decide +kernel)⟩

/-- Both ends of every range of lead bytes; continuation bytes that are missing, good, and bad at the first and at the last. -/
theorem witness_VarintCommands :
    ((reader [0x41]).Accepts ∧ (reader []).Accepts ∧ ((reader []).need 8).has 8 = false) ∧
    ([0x00, 0x7F, 0x80, 0xBF, 0xC0, 0xDF, 0xE0, 0xEF, 0xF0, 0xF7, 0xF8, 0xFB, 0xFC, 0xFD, 0xFE, 0xFF].all fun l =>
      ((reader [l]).need 8).has 8 && field ((reader [l]).need 8).S 0 8 == l) = true ∧
    ([(1, 0xC0), (1, 0xDF), (2, 0xE0), (2, 0xEF), (3, 0xF0), (3, 0xF7), (4, 0xF8), (4, 0xFB), (5, 0xFC), (5, 0xFD)].all fun x =>
      let good := reader (x.2 :: List.replicate x.1 0xBF)
      let first := reader (x.2 :: 0x41 :: List.replicate (x.1 - 1) 0x80)
      let last := reader (x.2 :: List.replicate (x.1 - 1) 0x80 ++ [0xC0])
      let n := 8 * (1 + x.1)
      !((reader [x.2]).need n).has n && (good.need n).has n &&
        decide (∀ j, j < x.1 → field (good.need n).S (8 * (j + 1)) 8 / 64 = 2) &&
        field (first.need n).S 8 8 / 64 != 2 && field (last.need n).S (8 * x.1) 8 / 64 != 2 &&
        decide (∀ j, j < x.1 - 1 → field (last.need n).S (8 * (j + 1)) 8 / 64 = 2)) = true :=
  ⟨⟨accepts_of (by decide +kernel), accepts_of (by decide +kernel), by decide +kernel⟩, by decide +kernel, by decide +kernel⟩

/-- V6: zero padding and a set padding bit; bits that do not come, which only a state that no run reaches has (`avail` is a
multiple of 8). -/
theorem witness_PositionAndPadding :
    State.reset.Ready ∧ (reader [0xA2, 0xF0] 12).Accepts ∧ (reader [0xA2, 0xF8] 12).Accepts ∧ (reader [] 9).Accepts ∧
      ((reader [0xA2, 0xF0] 12).need 4).has 4 = true ∧ field ((reader [0xA2, 0xF0] 12).need 4).S 12 4 = 0 ∧
      field ((reader [0xA2, 0xF8] 12).need 4).S 12 4 ≠ 0 ∧ ((reader [] 9).need 7).has 7 = false :=
  ⟨ready_of rfl, accepts_of (by decide +kernel), accepts_of (by decide +kernel), accepts_of (by decide +kernel),
    by decide +kernel, by decide +kernel, by decide +kernel, by decide +kernel⟩

/-- A skip of all the bits there are, of one more, and of none; two updates of the CRC. -/
theorem witness_CrcCheckpointAndSkips :
    let s := reader [0xA2, 0xF0] 4
    s.Accepts ∧ (s.need 12).has 12 = true ∧ (s.need 13).has 13 = false ∧ (s.need 0).has 0 = true ∧
      exec .brUpdcrc s = .next (run1 .brUpdcrc s) ∧
      exec .brUpdcrc (run1 .brUpdcrc s) = .next (run1 .brUpdcrc (run1 .brUpdcrc s)) :=
  ⟨accepts_of (by decide +kernel), by decide +kernel, by decide +kernel, by decide +kernel, next_of (by decide +kernel),
    next_of (by decide +kernel)⟩

/-- V6: reads of 8 bits, a skip of 8 and reads of 16. -/
theorem witness_SkipAndCrc :
    let s := reader [0xFF, 0xF8, 0x60, 0x00, 0x00]
    let s0 := run1 (.brSetcrc 0#16) s
    let s1 := run1 (.brRead64 8#8) s0
    let s2 := run1 .brSkipbits { s1 with arg0 := 8#64 }
    let s3 := run1 (.brRead64 16#8) s2
    s.Inv ∧ s.Accepts ∧ exec (.brSetcrc 0#16) s = .next s0 ∧ runReads [8#8] s0 = some s1 ∧
      exec .brSkipbits { s1 with arg0 := 8#64 } = .next s2 ∧ s2.status = 0x0000#16 ∧ runReads [16#8] s2 = some s3 ∧
      exec .brGetcrc s3 = .next (run1 .brGetcrc s3) ∧ (run1 .brGetcrc s3).res0 = 0xCC09#64 :=
  ⟨inv_of (by decide +kernel), accepts_of (by decide +kernel), next_of (by decide +kernel), by decide +kernel,
    next_of (by decide +kernel), by decide +kernel, by decide +kernel, next_of (by decide +kernel), by decide +kernel⟩

/-- Selectors 10 and 11; no Frame, and a Frame. -/
theorem witness_FrameInfo :
    10 < (11#8).toNat ∧ (10#8).toNat ≤ 10 ∧ State.reset.Ready ∧ State.reset.fpresent = false ∧
      framed.Ready ∧ framed.fpresent = true :=
  ⟨by decide, by decide, ready_of rfl, rfl, ready_of rfl, rfl⟩

/-- Every state of the decode but FAILED, each accepting FR.STEP and answering: the micro-steps of E7's frame. -/
theorem witness_StepCompletes_FsmTransitions :
    ([mono, lastSearch, header .H0 Header.zero [0x60, 0x00], header .H0 Header.zero [0x00, 0x00], header .H1 Header.zero [0x00],
      atHeaderCrc 0xE3 0#3, atHeaderCrc 0x1C 0#3, subframe Subframe.zero [0x00], subframe Subframe.zero [0x80],
      subframe { Subframe.zero with ch := 1, ss := .S2, be := 8 } [0x2A], beforeFooter .F0, beforeFooter .F1,
      { beforeFooter .F1 with siChannels := 2#4 }, framed, { reader [] with fsm := .ended }, reader [], live []].all fun s =>
        acceptsOk s && isNext .frStep s && s.fsm != .failed) = true ∧
    (mono.Accepts ∧ (run1 .frStep (live [])).status = 0x0001#16 ∧ (run1 .frStep mono).status ≠ 0x0001#16 ∧
      ({ mono with predictor := some [] } : State).predictor.isSome = true) :=
  ⟨by decide +kernel, accepts_of (by decide +kernel), by decide +kernel, by decide +kernel, rfl⟩

/-- DONE, ENDED, the bit that matches, and one before it. -/
theorem witness_ReleaseAndSearch :
    let s := lastSearch
    (framed.Accepts ∧ framed.fsm = .done ∧ ({ reader [] with fsm := .ended } : State).Accepts) ∧
    (s.Accepts ∧ s.fsm = .searching ∧ (s.need 1).has 1 = true ∧ min 16 (s.accn + 1) = 16 ∧
      ((s.acc <<< 1) ||| (if bitAt (s.need 1).S s.cons then 1#16 else 0#16)).extractLsb' 2 14 = 0b11111111111110#14) ∧
    (mono.Accepts ∧ mono.fsm = .searching ∧ (mono.need 1).has 1 = true ∧ min 16 (mono.accn + 1) ≠ 16) :=
  ⟨⟨accepts_of (by decide +kernel), rfl, accepts_of (by decide +kernel)⟩,
    ⟨accepts_of (by decide +kernel), rfl, by decide +kernel, by decide, by decide +kernel⟩,
    ⟨accepts_of (by decide +kernel), rfl, by decide +kernel, by decide⟩⟩

/-- Every micro-step of a fixed width with its bits missing, with the stream ended, and (the first and the last) with it open. -/
theorem witness_StepUnderrun :
    let z := Header.zero
    let q : Subframe := { Subframe.zero with ss := .S2, be := 8 }
    ([(reader [], 1), (header .H0 z [1], 16), (header .H1 z [], 8), (header .H2 { z with bsc := 6#4 } [], 8),
      (header .H2 { z with bsc := 7#4 } [1], 16), (header .H3 { z with src := 12#4 } [], 8),
      (header .H3 { z with src := 13#4 } [1], 16), (header .H3 { z with src := 14#4 } [1], 16), (header .H4 z [], 8),
      (subframe Subframe.zero [], 8), (subframe q [], 8), (subframe { q with kind := .verbatim } [], 8),
      (footer .F0 [] 9, 7), (footer .F1 [1] 0, 16)].all fun x => acceptsOk x.1 && !(x.1.need x.2).has x.2 && (x.1.need x.2).eos) =
        true ∧
    (live []).Accepts ∧ ((live []).need 1).has 1 = false ∧ ((live []).need 1).eos = false ∧
    ({ footer .F1 [1] 0 with eos := false } : State).Accepts ∧ (({ footer .F1 [1] 0 with eos := false } : State).need 16).eos = false ∧
    (bsEntry defaultConfig 6#4 = .deferred8 ∧ bsEntry defaultConfig 7#4 = .deferred16) ∧
    ([(0xC0, 1), (0xDF, 1), (0xE0, 2), (0xEF, 2), (0xF0, 3), (0xF7, 3), (0xF8, 4), (0xFB, 4), (0xFC, 5), (0xFD, 5)].all fun x =>
      let s := header .H1 z [x.1]
      let t := (s.need 8).need (8 * (1 + x.2))
      acceptsOk s && (s.need 8).has 8 && field (s.need 8).S s.cons 8 == x.1 && !t.has (8 * (1 + x.2)) && t.eos) = true ∧
    ([([], 0), ([0], 8), ([0, 0], 16)].all fun x =>
      let s := subframe { Subframe.zero with ss := .S1 } x.1
      acceptsOk s && decide (x.2 ≤ s.cfg.unaryMax) && !(s.need (x.2 + 1)).has (x.2 + 1) && (x.2 == 0 || (s.need x.2).has x.2) &&
        (List.range x.2).all fun j => !bitAt (s.need (x.2 + 1)).S (s.cons + j)) = true :=
  ⟨by decide +kernel, accepts_of (by decide +kernel), by decide +kernel, by decide +kernel, accepts_of (by decide +kernel),
    by decide +kernel, by decide, by decide +kernel, by decide +kernel⟩

/-- A valid header and each of the six ways to be invalid. -/
theorem witness_HeaderFixedFields :
    ([[0x60, 0x00], [0x00, 0x00], [0x6F, 0x00], [0x60, 0xB0], [0x60, 0x06]].all fun l =>
      acceptsOk (header .H0 Header.zero l) && ((header .H0 Header.zero l).need 16).has 16) = true ∧
    (bsEntry defaultConfig 6#4 ≠ .reserved ∧ bsEntry defaultConfig 0#4 = .reserved ∧ chEntry defaultConfig 0#4 ≠ none ∧
      chEntry defaultConfig 11#4 = none ∧ bpsEntry defaultConfig 3#3 = none ∧ State.reset.siBps = 0#6) :=
  ⟨by decide +kernel, by decide⟩

/-- A number, the sentinel and an INVALID varint, in both widths. -/
theorem witness_HeaderNumber :
    let s := fun (b : Bool) (l : List Nat) => header .H1 { Header.zero with blk := b } l
    ([[0x41], [0xFE], [0x80], [0xC2, 0x41]].all fun l => acceptsOk (s false l) && isNext .brUtf8x32 (s false l) &&
      (run1 .brUtf8x32 (s false l)).status != 0x0001#16 && acceptsOk (s true l) && isNext .brUtf8x64 (s true l) &&
      (run1 .brUtf8x64 (s true l)).status != 0x0001#16) = true ∧
    (run1 .brUtf8x32 (s false [0xFE])).res0 = 0xFFFFFFFF#64 ∧ (run1 .brUtf8x64 (s true [0xFE])).res0 = 0xFFFFFFFFFFFFFFFF#64 ∧
    (run1 .brUtf8x64 (s true [0xC2, 0x41])).status = 0x0203#16 :=
  ⟨by decide +kernel, by decide +kernel, by decide +kernel, by decide +kernel⟩

/-- Each kind of size code and of rate code; the direct codes 1 and 15, the rate codes 1 and 11. -/
theorem witness_HeaderSizeAndRate :
    ([6#4, 7#4, 1#4, 15#4].all fun b => acceptsOk (header .H2 { Header.zero with bsc := b } [1, 2])) = true ∧
    ([0#4, 1#4, 11#4, 12#4, 13#4, 14#4].all fun r => acceptsOk (header .H3 { Header.zero with src := r } [1, 2]) &&
      ((header .H3 { Header.zero with src := r } [1, 2]).need 16).has 16) = true ∧
    (bsEntry defaultConfig 1#4 = .direct 192 ∧ bsEntry defaultConfig 15#4 = .direct 32768 ∧
      defaultConfig.srTable[(1#4 : BitVec 4).toNat - 1]? = some 88200#32 ∧
      defaultConfig.srTable[(11#4 : BitVec 4).toNat - 1]? = some 96000#32) :=
  ⟨by decide +kernel, by decide +kernel, by decide⟩

/-- E7's header with its CRC-8 and with another byte; a depth from the table and from SI_BPS. -/
theorem witness_HeaderCrc :
    (atHeaderCrc 0xE3 0#3).Accepts ∧ ((atHeaderCrc 0xE3 0#3).need 8).has 8 = true ∧ (atHeaderCrc 0x1C 1#3).Accepts ∧
      fold8 0#8 (atHeaderCrc 0xE3 0#3).raw = 0xE3#8 ∧ fold8 0#8 (atHeaderCrc 0x1C 1#3).raw ≠ 0x1C#8 ∧
      chEntry defaultConfig 0#4 = some (1, .independent) ∧ bpsEntry defaultConfig 1#3 = some 8 ∧
      (atHeaderCrc 0xE3 0#3).siBps.toNat = 16 :=
  ⟨accepts_of (by decide +kernel), by decide +kernel, accepts_of (by decide +kernel), by decide +kernel, by decide +kernel,
    by decide, by decide, by decide⟩

/-- A header step and a subframe step that answer; a subframe step that fails. -/
theorem witness_HeaderSoftSubframeHard :
    (header .H1 Header.zero [0x41]).Ready ∧ isNext .frStep (header .H1 Header.zero [0x41]) = true ∧
      (subframe Subframe.zero [0x80]).Accepts ∧ isNext .frStep (subframe Subframe.zero [0x80]) = true ∧
      (run1 .frStep (subframe Subframe.zero [0x80])).status = 0x0704#16 :=
  ⟨ready_of rfl, by decide +kernel, accepts_of (by decide +kernel), by decide +kernel, by decide +kernel⟩

/-- The first and last byte of every kind, with and without the wasted-bits flag; counts that fit, that leave no depth, that are
too long; depths 1 and 0. -/
theorem witness_SubframeHeader :
    ([0x00, 0x01, 0x02, 0x04, 0x0E, 0x10, 0x18, 0x1A, 0x3E, 0x40, 0x7E, 0x7F, 0x80, 0xFF].all fun v =>
      acceptsOk (subframe Subframe.zero [v]) && ((subframe Subframe.zero [v]).need 8).has 8 &&
        field ((subframe Subframe.zero [v]).need 8).S 0 8 == v) = true ∧
    (let s := subframe { Subframe.zero with ss := .S1 } [0x02]
     let u := subframe { Subframe.zero with ss := .S1 } [0x01]
     let m := { subframe { Subframe.zero with ss := .S1 } [0x00] with cfg := { defaultConfig with unaryMax := 2 } }
     acceptsOk s = true ∧ (s.need 7).has 7 = true ∧ (∀ j, j < 6 → bitAt (s.need 7).S j = false) ∧ bitAt (s.need 7).S 6 = true ∧
       1 ≤ (8 : Int) - (6 + 1 : Nat) ∧ acceptsOk u = true ∧ bitAt (u.need 8).S 7 = true ∧ (8 : Int) - (7 + 1 : Nat) < 1 ∧
       acceptsOk m = true ∧ (m.need 3).has 3 = true ∧ bitAt (m.need 3).S 2 = false ∧ 2 = m.cfg.unaryMax) ∧
    (1 ≤ ((1 : Nat) : Int) + 0 ∧ ((0 : Nat) : Int) + 0 < 1) :=
  ⟨by decide +kernel, by decide +kernel, by decide⟩

/-- A Constant payload; a Verbatim sample that is not the last of its channel, and one that is; the last channel and one before. -/
theorem witness_PayloadSamples :
    let q : Subframe := { Subframe.zero with ss := .S2, be := 8 }
    ([q, { q with kind := .verbatim }, { q with kind := .verbatim, i := 1 }, { q with ch := 1 }].all fun u =>
      acceptsOk (subframe u [0x0A, 0xFB]) && ((subframe u [0x0A, 0xFB]).need u.be.toNat).has u.be.toNat) = true ∧
    (1 ≤ q.be ∧ (subframe q []).hdr.bs ≤ 65536 ∧ 1 + 1 = (subframe q []).hdr.bs ∧ 0 + 1 ≠ (subframe q []).hdr.bs ∧
      1 + 1 = (subframe q []).hdr.nch ∧ 0 + 1 ≠ (subframe q []).hdr.nch) :=
  ⟨by decide +kernel, by decide⟩

/-- Each outcome of the predictor: failure, underrun with the stream ended and open, no samples, one too many, all that are
left in a channel before the last and in the last, and fewer. -/
theorem witness_PredictorStep :
    let q : Subframe := { Subframe.zero with ss := .S2, be := 8, kind := .lpc, order := 32 }
    let s := fun (o : PredOutcome) => { subframe q [1, 2] with predictor := some [⟨1, o⟩] }
    ([.fail, .underrun, .produced [] 0, .produced [1, 2, 3] 4, .produced [1, 2] 4, .produced [1] 16].all fun o =>
      acceptsOk (s o) && isNext .frStep (s o)) = true ∧
    ((State.pulls 1 (s .underrun)).eos = true ∧ (State.pulls 1 { s .underrun with eos := false }).eos = false ∧
      acceptsOk { s .underrun with eos := false } = true) ∧
    ((s .fail).hdr.bs < q.i + [(1 : Int), 2, 3].length ∧ q.i + [(1 : Int), 2].length = (s .fail).hdr.bs ∧
      q.i + [(1 : Int)].length < (s .fail).hdr.bs ∧ (s .fail).hdr.bs ≤ 65536 ∧ q.ch + 1 ≠ (s .fail).hdr.nch ∧
      { q with ch := 1 }.ch + 1 = (s .fail).hdr.nch ∧
      acceptsOk { subframe { q with ch := 1 } [1, 2] with predictor := some [⟨0, .produced [1, 2] 4⟩] } = true) :=
  ⟨by decide +kernel, by decide +kernel, by decide +kernel⟩

/-- Overproduction after a pull (60_exceptions.md R403): the stream stands as before the call, and RES0 keeps its value. -/
theorem test_overproduction_undoes_pulls :
    let q : Subframe := { Subframe.zero with ss := .S2, be := 8, kind := .fixed }
    let s := { subframe q [1] with
      eos := false, upstream := [⟨bytes [2], true⟩], predictor := some [⟨1, .produced [1, 2, 3] 8⟩], res0 := 7#64 }
    let t := run1 .frStep s
    t.status = 0x0905#16 ∧ t.fault = 0x0905#16 ∧ t.fsm = .failed ∧ t.S = bytes [1] ∧ t.eos = false ∧ t.cons = s.cons ∧
      t.res0 = 7#64 := by decide +kernel

/-- A Fixed payload, at once and after the subframe header that announces it; PCM.READ over that decode. -/
theorem witness_PredictorAbsent :
    let s := subframe { Subframe.zero with ss := .S2, be := 8, kind := .fixed } [1]
    let p := { subframe Subframe.zero [0x10, 1] with
      hdr := { Header.zero with nch := 1, bs := 1, bps := 8 }, arg0 := 0x200#64, arg1 := 1#64 }
    (s.Accepts ∧ s.Inv ∧ s.predictor = none ∧ s.AtPayload) ∧
    (p.Accepts ∧ p.Inv ∧ p.predictor = none ∧ exec .frStep p = .next (run1 .frStep p) ∧
      (run1 .frStep p).status = 0x0000#16 ∧ (run1 .frStep p).fsm ≠ .done ∧
      Steps p (run1 .frStep p) ∧ (run1 .frStep p).AtPayload) ∧
    (p.arg0.toNat + 4 * p.arg1.toNat ≤ p.cfg.dmemBytes ∧ p.arg0.toNat % 4 = 0 ∧ p.arg1 ≠ 0#64 ∧ p.fpresent = false ∧
      exec .frDecode p = .refused .predictorAbsent ∧ exec .pcmRead p = .refused .predictorAbsent) :=
  have step : exec .frStep (_ : State) = .next (run1 .frStep _) := next_of (by decide +kernel)
  ⟨⟨accepts_of (by decide +kernel), inv_of (by decide +kernel), rfl, rfl, rfl, .inl rfl⟩,
    ⟨accepts_of (by decide +kernel), inv_of (by decide +kernel), rfl, step, by decide +kernel, by decide +kernel,
      .step _ _ _ step (by decide +kernel) (by decide +kernel) (.refl _), by decide +kernel, by decide +kernel,
      .inl (by decide +kernel)⟩,
    by decide, by decide, by decide, rfl, by rfl, by rfl⟩

/-- Padding that is zero, absent, and not zero; a footer that matches, one that does not, and a layout that is refused. -/
theorem witness_FooterCheck :
    ([(footer .F0 [0xF0] 4), (footer .F0 [0xF0] 8), (footer .F0 [0xF8] 4)].all fun s =>
      acceptsOk s && (s.need s.padding).has s.padding) = true ∧
    (let s := beforeFooter .F1
     let t := { s with S := bytes [0xFF, 0xF8, 0x60, 0, 0, 3, 0xE3, 0, 0, 0x2A, 0xA0, 0xCF] }
     acceptsOk s = true ∧ acceptsOk t = true ∧ s.fsm = .footerCheck ∧ s.fs = .F1 ∧ (s.need 16).has 16 = true ∧
       field s.S s.cons 16 = 0xA0CE ∧ field t.S t.cons 16 = 0xA0CF ∧
       fold16 s.bcrc ((List.range ((s.cons - s.base) / 8)).map fun j => BitVec.ofNat 8 (field s.S (s.base + 8 * j) 8)) = 0xA0CE#16 ∧
       s.siChannels ≠ 0#4 ∧ s.hdr.nch = s.siChannels.toNat ∧ s.hdr.nch ≠ (2#4).toNat) :=
  ⟨by decide +kernel, by decide +kernel⟩

/-- A Frame of one channel and one of each stereo assignment. -/
theorem witness_Reconstruction :
    ([Assignment.leftSide, .rightSide, .midSide].all fun a =>
      decide (({ Header.zero with nch := 2, bs := 1, asg := a } : Header).nch = 2)) = true ∧
    (0 < 8 ∧ Header.zero.asg = .independent) ∧ ((10 : Int) = (12 + 9) / 2 ∧ (3 : Int) = 12 - 9) := by decide

/-- A first step that is not OK, one that makes the Frame, and one after which the decode goes on. -/
theorem witness_DecodeIsSteps :
    let s := beforeFooter .F1
    let u := run1 .frStep s
    let p := beforeFooter .F0
    ((reader []).Inv ∧ (reader []).Accepts ∧ exec .frStep (reader []) = .next (run1 .frStep (reader [])) ∧
      (run1 .frStep (reader [])).status ≠ 0x0000#16) ∧
    (s.Inv ∧ s.Accepts ∧ exec .frStep s = .next u ∧ u.status = 0x0000#16 ∧ u.fsm = .done) ∧
    (p.Inv ∧ p.Accepts ∧ exec .frStep p = .next (run1 .frStep p) ∧ (run1 .frStep p).status = 0x0000#16 ∧
      (run1 .frStep p).fsm ≠ .done ∧ exec .frDecode (run1 .frStep p) = .next (run1 .frDecode (run1 .frStep p)) ∧
      (run1 .frDecode (run1 .frStep p)).status ≠ 0x0905#16) :=
  ⟨⟨inv_of (by decide +kernel), accepts_of (by decide +kernel), next_of (by decide +kernel), by decide +kernel⟩,
    ⟨inv_of (by decide +kernel), accepts_of (by decide +kernel), next_of (by decide +kernel), by decide +kernel,
      by decide +kernel⟩,
    ⟨inv_of (by decide +kernel), accepts_of (by decide +kernel), next_of (by decide +kernel), by decide +kernel,
      by decide +kernel, next_of (by decide +kernel), by decide +kernel⟩⟩

/-- A decode that ends with OK, and one that ends with UNDERRUN. -/
theorem witness_DecodeCompletes :
    let s := { mono with predictor := some [] }
    let t := { live [] with predictor := some [] }
    (s.Inv ∧ s.Accepts ∧ s.fsm ≠ .failed ∧ s.predictor.isSome = true ∧ (run1 .frDecode s).status = 0x0000#16) ∧
    (t.Inv ∧ t.Accepts ∧ t.fsm ≠ .failed ∧ t.predictor.isSome = true ∧ (run1 .frDecode t).status = 0x0001#16) :=
  ⟨⟨inv_of (by decide +kernel), accepts_of (by decide +kernel), by decide, rfl, by decide +kernel⟩,
    ⟨inv_of (by decide +kernel), accepts_of (by decide +kernel), by decide, rfl, by decide +kernel⟩⟩

/-- The violations in order, a capacity of 0 at the end of DMEM, values left, none left, and a decode that fails. -/
theorem witness_PcmRead :
    let f := { framed with arg0 := 0x200#64, arg1 := 3#64 }
    let s := fun (a n : Reg) => { mono with arg0 := a, arg1 := n }
    ((s 65532#64 2#64).Ready ∧ State.reset.cfg.dmemBytes < (s 65532#64 2#64).arg0.toNat + 4 * (s 65532#64 2#64).arg1.toNat ∧
      (s 0x202#64 1#64).arg0.toNat % 4 ≠ 0 ∧ (s 65536#64 0#64).Accepts ∧
      (s 65536#64 0#64).arg0.toNat + 4 * (s 65536#64 0#64).arg1.toNat ≤ State.reset.cfg.dmemBytes) ∧
    (f.Accepts ∧ f.arg1 ≠ 0#64 ∧ f.fpresent = true ∧ f.fcur ≠ f.hdr.nch * f.hdr.bs) ∧
    ((s 0#64 4#64).Accepts ∧ (s 0#64 4#64).fpresent = false ∧ isNext .frDecode (s 0#64 4#64) = true ∧
      (run1 .frDecode (s 0#64 4#64)).status = 0x0000#16) ∧
    (isNext .frDecode (reader []) = true ∧ (run1 .frDecode (reader [])).status ≠ 0x0000#16) ∧
    (f.Inv ∧ exec .pcmRead f = .next (run1 .pcmRead f)) :=
  ⟨⟨ready_of rfl, by decide, by decide, accepts_of (by decide +kernel), by decide⟩,
    ⟨accepts_of (by decide +kernel), by decide +kernel, by decide +kernel, by decide +kernel⟩,
    ⟨accepts_of (by decide +kernel), by decide +kernel, by decide +kernel, by decide +kernel⟩, by decide +kernel,
    inv_of (by decide +kernel), next_of (by decide +kernel)⟩

/-- Every selector of SYS.CFG at the last value in range and the first out of it; two disposes. -/
theorem witness_SystemCommands :
    State.reset.Ready ∧ (0xFFFFFFFF#64).toNat ≤ 2 ^ 32 - 1 ∧ 2 ^ 32 - 1 < (0x100000000#64).toNat ∧ (32#64).toNat ≤ 32 ∧
      32 < (33#64).toNat ∧ (8#64).toNat ≤ 8 ∧ 8 < (9#64).toNat ∧ 2 < (3#8).toNat ∧
      exec .sysDispose State.reset = .next (run1 .sysDispose State.reset) :=
  ⟨ready_of rfl, by decide, by decide, by decide, by decide, by decide, by decide, by decide, next_of (by decide +kernel)⟩

/-- Under a fault and after a dispose: a legal word, an illegal one, and the four commands. -/
theorem witness_StickyFaultAndDispose :
    let f := { State.reset with fault := 0x0104#16 }
    let d := { State.reset with disposed := true }
    (f.fault ≠ 0#16 ∧ d.fault = 0#16 ∧ d.disposed = true) ∧
    (decode 0x50000000#32 = .ok .frDecode ∧ decode 0x00000000#32 = .error .illegalOpcode) ∧
    ([Instr.sysReset, .sysStatus, .sysDispose, .brEos].all fun i => isNext i f && isNext i d) = true :=
  ⟨by decide, ⟨rfl, rfl⟩, by decide +kernel⟩

/-- Words that end with each class of status; and under a fault. -/
theorem witness_StatusAndFault :
    (after 0x11000000#32 State.reset = some (0, 0, 0) ∧ after 0x32000000#32 State.reset = some (0x0001, 0, 0) ∧
      after 0x520A0000#32 State.reset = some (0x0603, 0, 0) ∧ after 0x00000000#32 State.reset = some (0x0105, 0, 0) ∧
      after 0x51000000#32 (subframe Subframe.zero [0x80]) = some (0x0704, 6, 8) ∧
      after 0x11000000#32 { State.reset with fault := 0x0104#16 } = some (0x0104, 0, 0)) ∧
    decode 0x11000000#32 = .ok .crc8Get :=
  ⟨by decide +kernel, rfl⟩

/-- RegisterOwners and StreamMonotone: a command of each family answers, and it is not SYS.RESET. -/
theorem witness_RegisterOwners_StreamMonotone :
    ([Instr.crc8Byte 1#8, .crc16Byte 1#8, .brReadbyte, .frStep, .pcmRead, .sysStatus].all fun i => isNext i (reader [1])) = true ∧
      exec .brReadbyte (live [] [⟨bytes [1], true⟩]) = .next (run1 .brReadbyte (live [] [⟨bytes [1], true⟩])) ∧
      Instr.brReadbyte ≠ .sysReset :=
  ⟨by decide +kernel, next_of (by decide +kernel), by decide⟩

theorem witness_MemoryWords_HostRegisters :
    (0 < [0x80000001#32].length ∧ Memory.wf [(0, 1#8), (9, 2#8)] = true ∧ 4 ≤ 9) ∧
      (0x40 ∈ [0x18, 0x20, 0x28, 0x30, 0x38, 0x40] ∧ 0x48 ∉ [0x00, 0x08, 0x10, 0x18, 0x20, 0x28, 0x30, 0x38, 0x40] ∧
        0x04 ∉ [0x00, 0x08, 0x10, 0x18, 0x20, 0x28, 0x30, 0x38, 0x40]) := by decide

theorem step_frStep (s : State) : step { s with host := [.write 0x00 0x51000000#64] } =
    exec .frStep { s with host := [], cmd := 0x51000000#32 } := rfl

/-- The first and the last byte of DMEM, and the first address past it. -/
theorem witness_HostMemory :
    0 < State.reset.cfg.dmemBytes ∧ 65535 < State.reset.cfg.dmemBytes ∧ State.reset.cfg.dmemBytes ≤ 65536 ∧
      Memory.wf State.reset.dmem = true := by decide

/-- The invariant at reset and, before a step that answers, in the middle of a frame. -/
theorem witness_StepKeepsInvariant :
    State.reset.Inv ∧ (∃ s t : State, s.Inv ∧ step s = .next t ∧ s.fsm = .subframes) := by
  refine ⟨inv_of (by decide +kernel), { subframe Subframe.zero [0x00] with host := [.write 0x00 0x51000000#64] },
    run1 .frStep { subframe Subframe.zero [0x00] with host := [], cmd := 0x51000000#32 }, inv_of (by decide +kernel), ?_, rfl⟩
  exact (step_frStep _).trans (next_of (by decide +kernel))

/-- A host that writes CMD and ARG0, reads every register, and touches the first and the last byte of DMEM. -/
theorem witness_StepIsSafe :
    let s := { mono with
      predictor := some [], host := [.write 0x00 0x50000000#64, .write 0x08 1#64, .read 0x40, .dmemWrite 65535 1#8, .dmemRead 0,
        .source ⟨[], false⟩] }
    s.Inv ∧ s.Room ∧ s.predictor.isSome = true ∧ 65535 < s.cfg.dmemBytes ∧ 0 < s.cfg.dmemBytes ∧ s.host.length = 6 :=
  ⟨inv_of (by decide +kernel), (accepts_of (by decide +kernel)).room, rfl, by decide, by decide, rfl⟩

end Sys2Proof.Tests
end

section
/-! PROOFS. The scope rules (00_scope.md): what one step does with the host's next access, the two ends of a written word, and
the order of the bits of a field. -/

namespace Sys2Proof.Machine

/-! ### One step of the host port -/

theorem step_of_idle {s : State} (h : s.host = []) : step s = .next s := by
  simp only [step, h]

theorem step_of_host {s : State} {a : HostAction} {rest : List HostAction} (h : s.host = a :: rest) :
    step s = hostAction a { s with host := rest } := by
  simp only [step, h]

/-- CMD takes the low 32 bits of what the host writes (10_state.md R31). -/
theorem step_of_cmdWrite {s : State} {v : Reg} {rest : List HostAction} (h : s.host = .write 0x00 v :: rest) :
    step s = runWord (v.setWidth 32) { s with host := rest } :=
  step_of_host h

theorem runWord_of_decode_ok {w : Word} {i : Instr} (h : decode w = .ok i) (s : State) :
    runWord w s = exec i { s with cmd := w } := by
  simp only [runWord, h]

theorem runWord_of_decode_error {w : Word} {e : DecodeError} (h : decode w = .error e) (s : State) :
    runWord w s = rejectWord e { s with cmd := w } := by
  simp only [runWord, h]

/-! ### The statements -/

/-- Settles O14: the byte position is `bitAt`'s definition; the bound and the order of a field are inductions on its width,
`field_lt` and `field_testBit`. -/
theorem fieldOrder : Obligations.FieldOrder := by
  unfold Obligations.FieldOrder
  intro S p n
  exact ⟨rfl, field_lt S p n, field_testBit S p n⟩

/-- Settles O2: the step is `runWord` of the word written, which runs the decoded command or rejects the word. -/
theorem stepRunsDecoded : Obligations.StepRunsDecoded := by
  unfold Obligations.StepRunsDecoded
  refine ⟨?decoded, ?rejected, fun s => step_of_idle⟩
  case decoded =>
    intro s v rest i hhost hdec
    exact (step_of_cmdWrite hhost).trans (runWord_of_decode_ok hdec _)
  case rejected =>
    intro s v rest e hhost hdec
    exact (step_of_cmdWrite hhost).trans (runWord_of_decode_error hdec _)

end Sys2Proof.Machine
end

section
/-! PROOFS. The state rules (10_state.md): what the host's accesses do to the registers, which commands write which registers,
that every step keeps the invariant, and that legal steps answer. -/

namespace Sys2Proof.Machine

/-! ### The host port -/

/-- The offset of a register the host may only read (10_state.md R31). -/
theorem hostWrite_of_readOnly {off : Nat} (h : off ∈ [0x18, 0x20, 0x28, 0x30, 0x38, 0x40]) (v : Reg) (s : State) :
    hostWrite off v s = .refused (.hostWriteReadOnly off) := by
  simp only [List.mem_cons, List.not_mem_nil, or_false] at h
  rcases h with rfl | rfl | rfl | rfl | rfl | rfl <;> rfl

/-- A write is a command word, an operand, or refused (R31). -/
theorem hostWrite_next {off : Nat} {v : Reg} {s t : State} (h : hostWrite off v s = .next t) :
    runWord (v.setWidth 32) s = .next t ∨ t = { s with arg0 := v } ∨ t = { s with arg1 := v } := by
  unfold hostWrite at h
  split at h
  · exact .inl h
  · cases h; exact .inr (.inl rfl)
  · cases h; exact .inr (.inr rfl)
  all_goals cases h

theorem hostWrite_of_unmapped {off : Nat} (h : off ∉ [0x00, 0x08, 0x10, 0x18, 0x20, 0x28, 0x30, 0x38, 0x40]) (v : Reg)
    (s : State) : hostWrite off v s = .refused (.hostOffsetUnmapped off) := by
  unfold hostWrite
  split
  iterate 9 exact absurd (by decide) h
  rfl

theorem hostReadReg_of_unmapped {off : Nat} (h : off ∉ [0x00, 0x08, 0x10, 0x18, 0x20, 0x28, 0x30, 0x38, 0x40]) (s : State) :
    hostReadReg s off = none := by
  unfold hostReadReg
  split
  iterate 9 exact absurd (by decide) h
  rfl

theorem hostReadReg_of_mapped {off : Nat} (h : off ∈ [0x00, 0x08, 0x10, 0x18, 0x20, 0x28, 0x30, 0x38, 0x40]) (s : State) :
    ∃ v, hostReadReg s off = some v := by
  simp only [List.mem_cons, List.not_mem_nil, or_false] at h
  rcases h with rfl | rfl | rfl | rfl | rfl | rfl | rfl | rfl | rfl <;> exact ⟨_, rfl⟩

/-- The table of R31, row by row. -/
theorem hostReadReg_of_table {off : Nat} {v : Reg} {s : State}
    (h : (off, v) ∈ [(0x00, 0#64), (0x08, s.arg0), (0x10, s.arg1), (0x18, s.res0), (0x20, s.res1), (0x28, s.res2),
      (0x30, s.status.setWidth 64), (0x38, s.fault.setWidth 64), (0x40, if s.eos then 1#64 else 0#64)]) :
    hostReadReg s off = some v := by
  simp only [List.mem_cons, Prod.mk.injEq, List.not_mem_nil, or_false] at h
  rcases h with ⟨rfl, rfl⟩ | ⟨rfl, rfl⟩ | ⟨rfl, rfl⟩ | ⟨rfl, rfl⟩ | ⟨rfl, rfl⟩ | ⟨rfl, rfl⟩ | ⟨rfl, rfl⟩ | ⟨rfl, rfl⟩ |
    ⟨rfl, rfl⟩ <;> rfl

theorem hostRead_of_some {off : Nat} {v : Reg} {s : State} (h : hostReadReg s off = some v) :
    hostRead off s = .next { s with rdata := v } := by
  simp only [hostRead, h]

theorem hostRead_of_none {off : Nat} {s : State} (h : hostReadReg s off = none) :
    hostRead off s = .refused (.hostOffsetUnmapped off) := by
  simp only [hostRead, h]

theorem hostRead_next {off : Nat} {s t : State} (h : hostRead off s = .next t) : ∃ v, t = { s with rdata := v } := by
  cases hr : hostReadReg s off with
  | some v => rw [hostRead_of_some hr] at h; cases h; exact ⟨v, rfl⟩
  | none => rw [hostRead_of_none hr] at h; cases h

theorem hostDmemWrite_of_lt {a : Nat} {s : State} (h : a < s.cfg.dmemBytes) (b : Byte) :
    hostDmemWrite a b s = .next { s with dmem := writeRun blankByte s.dmem a [b] } := if_pos h

theorem hostDmemRead_of_lt {a : Nat} {s : State} (h : a < s.cfg.dmemBytes) :
    hostDmemRead a s = .next { s with rdata := (memByte s.dmem a).setWidth 64 } := if_pos h

/-- The ways an access of the host answers a next state: a command word ran, or nothing but what the host itself sets changed,
and DMEM is still in canonical form. -/
inductive HostActionSpec (s : State) : State → Prop where
  | ran {t : State} (w : Word) (h : runWord w s = .next t) : HostActionSpec s t
  | touched (a0 a1 : Reg) (up : List PullAnswer) (rd : Reg) (m : Memory) (hm : Memory.wf s.dmem = true → Memory.wf m = true) :
      HostActionSpec s { s with arg0 := a0, arg1 := a1, upstream := up, rdata := rd, dmem := m }

/-- Everything an access of the host that answers a next state can have done. -/
theorem hostAction_next {a : HostAction} {s t : State} (h : hostAction a s = .next t) : HostActionSpec s t := by
  cases a with
  | write off v =>
    rcases hostWrite_next h with hw | rfl | rfl
    · exact .ran _ hw
    · exact .touched v s.arg1 s.upstream s.rdata s.dmem id
    · exact .touched s.arg0 v s.upstream s.rdata s.dmem id
  | read off =>
    obtain ⟨v, rfl⟩ := hostRead_next h
    exact .touched s.arg0 s.arg1 s.upstream v s.dmem id
  | dmemWrite p b =>
    simp only [hostAction, hostDmemWrite] at h
    split at h <;> cases h
    exact .touched s.arg0 s.arg1 s.upstream s.rdata _ (writeRun_canonical _ s.dmem p [b])
  | dmemRead p =>
    simp only [hostAction, hostDmemRead] at h
    split at h <;> cases h
    exact .touched s.arg0 s.arg1 s.upstream _ s.dmem id
  | source x =>
    cases h
    exact .touched s.arg0 s.arg1 (s.upstream ++ [x]) s.rdata s.dmem id

/-! ### A rejected word -/

/-- A word that is no command is a command whose body is a violation (30_encoding.md R114). -/
theorem rejectWord_eq (e : DecodeError) (s : State) : ∃ c : ViolationCause, rejectWord e s = command s (Res.violation · c) := by
  cases e with
  | illegalOpcode => exact ⟨.illegalOpcode, rfl⟩
  | reservedField => exact ⟨.reservedField, rfl⟩

/-! ### The invariant, command by command -/

/-- The end of a command that only writes result registers and is accepted in every state. -/
theorem inv_endAccepted {s : State} (h : s.Inv) (r0 r1 r2 : Reg) :
    State.Inv (State.endAccepted { s with res0 := r0, res1 := r1, res2 := r2 }) := { h with }

theorem inv_sysDispose {s : State} (h : s.Inv) : State.Inv (State.endAccepted { s with
    fpresent := false, fcur := 0, fbuf := [], rb := RiceBatch.inactive, disposed := true }) :=
  { h with
    batch := rfl
    batchK := Nat.zero_le _
    batchRn := le_rfl
    frameDone := nofun
    frameLen := nofun
    frameCur := nofun }

/-- A new session starts in the state after reset, with DMEM as it was (45_system.md R380). -/
theorem inv_newSession {s : State} (hm : Memory.wf s.dmem = true) : s.newSession.Inv where
  baseLe := le_rfl
  consLe := Nat.zero_le _
  wordsLe := (Nat.zero_mul s.cfg.W).trans_le (Nat.zero_le _)
  batch := rfl
  batchK := Nat.zero_le _
  batchRn := le_rfl
  accnLe := Nat.zero_le _
  frameDone := nofun
  frameLen := nofun
  frameCur := nofun
  failed := nofun
  depth := nofun
  sticky := .inl rfl
  dmemWf := hm
  chbufWf := rfl

/-- Every command keeps the invariant: the checked ones by `body_inv`, the four of R406 one by one. -/
theorem exec_inv {i : Instr} {s t : State} (hs : s.Inv) (h : exec i s = .next t) : t.Inv := by
  rcases checked_cases i with hi | rfl | rfl | rfl | rfl
  · obtain ⟨body, he, hok, -⟩ := exec_body i hi
    exact command_inv hs (fun hr u st hb => body_inv hs hr (hok s u st hb)) (he s ▸ h)
  · cases h; exact inv_newSession hs.dmemWf
  · cases h; exact inv_endAccepted hs _ _ _
  · cases h; exact inv_sysDispose hs
  · cases h; exact inv_endAccepted hs _ _ _

theorem rejectWord_inv {e : DecodeError} {s t : State} (hs : s.Inv) (h : rejectWord e s = .next t) : t.Inv := by
  obtain ⟨c, he⟩ := rejectWord_eq e s
  refine command_inv hs (fun hr u st hb => ?_) (he ▸ h)
  cases hb
  rw [endWith_sticky rfl hr.noFault]
  exact inv_status hs _ _ (.inr ⟨.violation c, rfl, rfl, hr.noFault⟩)

theorem runWord_inv {w : Word} {s t : State} (hs : s.Inv) (h : runWord w s = .next t) : t.Inv := by
  cases hd : decode w with
  | ok i => exact exec_inv (inv_cmd hs w) (runWord_of_decode_ok hd s ▸ h)
  | error e => exact rejectWord_inv (inv_cmd hs w) (runWord_of_decode_error hd s ▸ h)

theorem hostAction_inv {a : HostAction} {s t : State} (hs : s.Inv) (h : hostAction a s = .next t) : t.Inv := by
  cases hostAction_next h with
  | ran w hw => exact runWord_inv hs hw
  | touched a0 a1 up rd m hm => exact inv_host hs s.host a0 a1 up rd m (hm hs.dmemWf)

/-- The host's pending accesses are no part of the invariant. -/
theorem inv_pending {s : State} (h : s.Inv) (l : List HostAction) : State.Inv { s with host := l } :=
  inv_host h l s.arg0 s.arg1 s.upstream s.rdata s.dmem h.dmemWf

/-- Settles O59: a step is idle or the host's next access, which runs a command (`exec_inv`), rejects a word
(`rejectWord_inv`) or touches only what the host sets (`inv_host`). -/
theorem stepKeepsInvariant : Obligations.StepKeepsInvariant := by
  unfold Obligations.StepKeepsInvariant
  intro s t hs h
  cases hh : s.host with
  | nil =>
    rw [step_of_idle hh] at h
    cases h
    exact hs
  | cons a rest =>
    rw [step_of_host hh] at h
    exact hostAction_inv (inv_pending hs rest) h

/-! ### Commands answer -/

/-- The pulls of a body fit a stream with room (41_bitreader.md R218). -/
theorem BodyOk.noOverflow {i : Instr} {s u : State} {st : Status} (h : BodyOk i s u st) (hr : s.Room) :
    streamOverflow s u = false := by
  have hfits := fun hroom => State.Room.noOverflow_advance hroom h.adv
  exact hfits hr

/-- A command answers a next state where there is a predictor and room in the stream: its body ends (`exec_body`), and its pulls
fit. -/
theorem exec_safe (i : Instr) {s : State} (hs : s.Inv) (hr : s.Room) (hp : s.predictor.isSome = true) :
    ∃ t, exec i s = .next t := by
  rcases checked_cases i with hi | rfl | rfl | rfl | rfl
  · obtain ⟨body, he, hok, hends⟩ := exec_body i hi
    rw [he]
    refine command_safe fun hready => ?_
    obtain ⟨⟨t, st⟩, hb⟩ := hends s fun _ => ⟨hs, hready.noFault, hr, hp⟩
    exact ⟨t, st, hb, (hok s t st hb).noOverflow hr⟩
  all_goals exact ⟨_, rfl⟩

theorem rejectWord_safe (e : DecodeError) (s : State) : ∃ t, rejectWord e s = .next t := by
  obtain ⟨c, he⟩ := rejectWord_eq e s
  rw [he]
  exact command_safe fun _ => ⟨s, _, rfl, streamOverflow_of_S_eq rfl⟩

theorem runWord_safe (w : Word) {s : State} (hs : s.Inv) (hr : s.Room) (hp : s.predictor.isSome = true) :
    ∃ t, runWord w s = .next t := by
  cases hd : decode w with
  | ok i =>
    rw [runWord_of_decode_ok hd]
    exact exec_safe i (inv_cmd hs w) hr hp
  | error e =>
    rw [runWord_of_decode_error hd]
    exact rejectWord_safe e _

/-- A write to one of the three registers the host may write answers. -/
theorem hostWrite_safe {off : Nat} (ho : off ∈ [0x00, 0x08, 0x10]) (v : Reg) {s : State} (hs : s.Inv) (hr : s.Room)
    (hp : s.predictor.isSome = true) : ∃ t, hostWrite off v s = .next t := by
  simp only [List.mem_cons, List.not_mem_nil, or_false] at ho
  rcases ho with rfl | rfl | rfl
  · exact runWord_safe _ hs hr hp
  · exact ⟨_, rfl⟩
  · exact ⟨_, rfl⟩

/-- Settles O60: the five legal accesses answer one by one; the write of CMD is `runWord_safe`, which rests on the end of every
body (`exec_body`). -/
theorem stepIsSafe : Obligations.StepIsSafe := by
  unfold Obligations.StepIsSafe Safe
  intro s hs hr hp hlegal
  cases hh : s.host with
  | nil => exact ⟨s, step_of_idle hh⟩
  | cons a rest =>
    rw [step_of_host hh]
    rcases hlegal a (by simp [hh]) with ⟨off, v, rfl, ho⟩ | ⟨off, rfl, ho⟩ | ⟨p, b, rfl, hlt⟩ | ⟨p, rfl, hlt⟩ | ⟨x, rfl⟩
    · exact hostWrite_safe ho v (inv_pending hs rest) hr hp
    · obtain ⟨v, hv⟩ := hostReadReg_of_mapped ho { s with host := rest }
      exact ⟨_, hostRead_of_some hv⟩
    · exact ⟨_, hostDmemWrite_of_lt (s := { s with host := rest }) hlt b⟩
    · exact ⟨_, hostDmemRead_of_lt (s := { s with host := rest }) hlt⟩
    · exact ⟨_, rfl⟩

/-! ### Who writes which register -/

/-- No body touches CMD, the operands, the parameters or the host's side. -/
theorem BodyOk.outside_kept {i : Instr} {s u : State} {st : Status} (h : BodyOk i s u st) :
    u.cmd = s.cmd ∧ u.arg0 = s.arg0 ∧ u.arg1 = s.arg1 ∧ u.cfg = s.cfg ∧ u.host = s.host ∧ u.rdata = s.rdata := by
  rw [h.adv.kept]
  exact ⟨rfl, rfl, rfl, rfl, rfl, rfl⟩

/-- Only the bodies of the frame commands and PCM.READ touch the decode state machine and the Frame. -/
theorem BodyOk.decode_kept {i : Instr} {s u : State} {st : Status} (h : BodyOk i s u st) (hf : family i ≠ .frame)
    (hp : family i ≠ .pcm) : u.fsm = s.fsm ∧ u.acc = s.acc ∧ u.accn = s.accn ∧ u.hp = s.hp ∧ u.raw = s.raw ∧
      u.hdr = s.hdr ∧ u.sub = s.sub ∧ u.chbuf = s.chbuf ∧ u.fs = s.fs ∧ u.fcrc = s.fcrc ∧
      (i ≠ .sysDispose → u.fpresent = s.fpresent ∧ u.fbuf = s.fbuf ∧ u.fcur = s.fcur) := by
  rw [h.decode hf hp]
  exact ⟨rfl, rfl, rfl, rfl, rfl, rfl, rfl, rfl, rfl, rfl, fun _ => ⟨rfl, rfl, rfl⟩⟩

/-- Settles O53: a checked command ends without effect or as its body does (`BodyOk`); of the four of R406, SYS.STATUS and BR.EOS
write result registers only, and SYS.DISPOSE the Frame and the batch. -/
theorem registerOwners : Obligations.RegisterOwners := by
  unfold Obligations.RegisterOwners
  intro i s t h hreset
  rcases checked_cases i with hi | rfl | rfl | rfl | rfl
  · obtain ⟨body, he, hok, -⟩ := exec_body i hi
    rw [he] at h
    cases command_next h with
    | sticky _ => simp
    | disposed _ _ => simp
    | ran _ u st hb _ =>
      have ok : BodyOk i s u st := hok s u st hb
      obtain ⟨hcmd, harg0, harg1, hcfg, hhost, hrdata⟩ := ok.outside_kept
      exact ⟨hcmd, harg0, harg1, hcfg, hhost, hrdata, ok.crc8, ok.crc16, ok.cfg, ok.dmem, ok.decode_kept,
        fun _ => ok.adv.disposed_eq, fun hn _ => ok.batch hn⟩
  · exact absurd rfl hreset
  · cases h; simp [State.endAccepted]
  · cases h; simp [State.endAccepted]
  · cases h; simp [State.endAccepted]

/-! ### The host's registers -/

/-- Settles O56: `hostWrite` and `hostReadReg` at the nine offsets and outside them. -/
theorem hostRegisters : Obligations.HostRegisters := by
  unfold Obligations.HostRegisters
  refine ⟨?writes, ?reads, ?unmapped⟩
  case writes => exact fun s v => ⟨rfl, rfl, fun off ho => hostWrite_of_readOnly ho v s⟩
  case reads => exact fun s off v hv => hostRead_of_some (hostReadReg_of_table hv)
  case unmapped =>
    exact fun s off v ho => ⟨hostWrite_of_unmapped ho v s, hostRead_of_none (hostReadReg_of_unmapped ho s)⟩

end Sys2Proof.Machine
end

section
/-! PROOFS. The memory rules (20_memory.md): the words and bytes of DMEM after a write, the host's accesses to it, and the pulls
that bring the stream. -/

namespace Sys2Proof.Machine

/-! ### Words and bytes of DMEM -/

/-- The byte lanes of a list of words are the lanes of its words, four to a word (R92). -/
theorem flatMap_wordBytes_getD {vs : List Word} {j i : Nat} (h : j < vs.length) (hi : i < 4) :
    (vs.flatMap wordBytes).getD (4 * j + i) blankByte = (wordBytes vs[j]).getD i blankByte := by
  induction vs generalizing j with
  | nil => cases h
  | cons v vs ih =>
    have hlen : (wordBytes v).length = 4 := rfl
    rw [List.flatMap_cons]
    cases j with
    | zero => rw [List.getD_append _ _ _ _ (by omega), Nat.mul_zero, Nat.zero_add, List.getElem_cons_zero]
    | succ j =>
      rw [List.getD_append_right _ _ _ _ (by omega), hlen, show 4 * (j + 1) + i - 4 = 4 * j + i by omega,
        ih (Nat.lt_of_succ_lt_succ h), List.getElem_cons_succ]

/-- Byte lane `i` of the `j`-th word written (R92). -/
theorem memByte_memWriteWords_lane (m : Memory) (a : Nat) {vs : List Word} {j i : Nat} (h : j < vs.length) (hi : i < 4) :
    memByte (memWriteWords m a vs) (a + 4 * j + i) = (wordBytes vs[j]).getD i blankByte := by
  rw [memByte_memWriteWords_inside _ _ _ _ (by omega), show a + 4 * j + i - a = 4 * j + i by omega,
    flatMap_wordBytes_getD h hi]

/-- The bytes of a word, most significant first, pack to the word. -/
theorem packBig_wordBytes_reverse (v : Word) : packBig 0 (wordBytes v).reverse = v.toNat := by
  simp only [wordBytes, List.reverse_cons, List.reverse_nil, List.nil_append, List.cons_append, packBig,
    BitVec.extractLsb'_toNat, Nat.shiftRight_eq_div_pow]
  omega

theorem memSpan_memWriteWords (m : Memory) (a : Nat) {vs : List Word} {j : Nat} (h : j < vs.length) :
    memSpan (memWriteWords m a vs) (a + 4 * j) 4 = wordBytes vs[j] := by
  rw [memSpan_eq_map, List.map_congr_left fun i hi => memByte_memWriteWords_lane m a h (List.mem_range.1 hi)]
  rfl

/-- A byte of DMEM after a write of one byte. -/
theorem memByte_writeByte (m : Memory) (a : Nat) (b : Byte) (p : Nat) :
    memByte (writeRun blankByte m a [b]) p = if p = a then b else memByte m p := by
  unfold memByte
  rw [readCell_writeRun]
  by_cases h : p = a
  · simp [h]
  · rw [if_neg h, if_neg (by simp only [List.length_singleton]; omega)]

/-- Settles O55: each byte lane reads back by `memByte_memWriteWords_lane`, the word by packing its four lanes; the rest is
`memByte_memWriteWords_outside` and `memWriteWords_canonical`. -/
theorem memoryWords : Obligations.MemoryWords := by
  unfold Obligations.MemoryWords
  intro m a vs
  refine ⟨?readBack, ?lanes, memByte_memWriteWords_outside m a vs, memWriteWords_canonical m a vs⟩
  case readBack =>
    intro j h
    rw [memRead, memSpan_memWriteWords m a h, packBig_wordBytes_reverse]
  case lanes =>
    intro j h
    have lane := fun i (hi : i < 4) => memByte_memWriteWords_lane m a h hi
    exact ⟨lane 0 (by decide), lane 1 (by decide), lane 2 (by decide), lane 3 (by decide)⟩

/-! ### The host's accesses to DMEM -/

/-- Settles O57: below `DMEM_BYTES` the accesses store and return one byte (`memByte_writeByte`), past it both fault. -/
theorem hostMemory : Obligations.HostMemory := by
  unfold Obligations.HostMemory
  refine ⟨?write, fun s a => hostDmemRead_of_lt, ?outside, fun s x => rfl⟩
  case write =>
    intro s a b ha
    have same : memByte (writeRun blankByte s.dmem a [b]) a = b := by rw [memByte_writeByte, if_pos rfl]
    have other : ∀ p, p ≠ a → memByte (writeRun blankByte s.dmem a [b]) p = memByte s.dmem p :=
      fun p hp => by rw [memByte_writeByte, if_neg hp]
    refine ⟨_, hostDmemWrite_of_lt ha b, same, other, writeRun_canonical blankByte s.dmem a [b], ?_⟩
    rw [hostAction, hostDmemRead_of_lt (by exact ha), same]
  case outside => exact fun s a b ha => ⟨if_neg ha.not_gt, if_neg ha.not_gt⟩

/-! ### Pulls -/

theorem State.pull_of_exhausted {s : State} (h : s.upstream = []) : s.pull = (⟨[], false⟩, { s with dw := s.compacted }) := by
  simp only [State.pull, h]

theorem State.pull_of_answer {s : State} {a : PullAnswer} {up : List PullAnswer} (h : s.upstream = a :: up) :
    s.pull = (a, { s with upstream := up, S := s.S ++ a.bytes, eos := s.eos || a.ends, dw := s.compacted }) := by
  simp only [State.pull, h]

theorem State.need_of_short {s : State} {n : Nat} (h : s.has n = false) :
    s.need n = { s with
      upstream := (pullUntil (s.cons + n) s.upstream s.S s.eos).1
      S := (pullUntil (s.cons + n) s.upstream s.S s.eos).2.1
      eos := (pullUntil (s.cons + n) s.upstream s.S s.eos).2.2, dw := s.compacted } :=
  if_neg (by simp [h])

/-- After the end of the stream nothing is pulled (R86). -/
theorem State.need_of_ended {s : State} {n : Nat} (h : s.has n = false) (he : s.eos = true) :
    s.need n = { s with dw := s.compacted } := by
  have hstop : pullUntil (s.cons + n) s.upstream s.S s.eos = (s.upstream, s.S, s.eos) := by
    cases s.upstream <;> simp [pullUntil, he]
  rw [State.need_of_short h, hstop]

/-- A source with no answer left has no data now (log entry 3). -/
theorem State.need_of_exhausted {s : State} {n : Nat} (h : s.has n = false) (hu : s.upstream = []) :
    s.need n = { s with dw := s.compacted } := by
  rw [State.need_of_short h, hu, pullUntil, ← hu]

/-- The loop of R85, one turn: a pull that brings nothing ends it, and after any other it goes on. -/
theorem State.need_of_answer {s : State} {n : Nat} {a : PullAnswer} {up : List PullAnswer} (h : s.has n = false)
    (he : s.eos = false) (hu : s.upstream = a :: up) :
    s.need n = if a.bytes = [] then s.pull.2 else State.need s.pull.2 n := by
  have hfew : ¬ s.cons + n ≤ 8 * s.S.length := by rw [← State.has_iff, h]; decide
  have hturn : pullUntil (s.cons + n) (a :: up) s.S false =
      if a.bytes = [] then (up, s.S, a.ends) else pullUntil (s.cons + n) up (s.S ++ a.bytes) a.ends := by
    simp [pullUntil, hfew]
  have hpull := State.pull_of_answer hu
  rw [State.need_of_short h, hu, he, hturn]
  split
  next hb => simp [hpull, hb, he]
  next =>
    cases hp : s.pull.2.has n with
    | true =>
      have hthere : s.cons + n ≤ 8 * (s.S ++ a.bytes).length := by simpa [hpull] using State.has_iff.1 hp
      rw [State.need_of_has hp, pullUntil_reached _ _ _ _ hthere]
      simp [hpull, he]
    | false =>
      rw [State.need_of_short hp, (State.pull_pulledTo he).compacted_eq]
      simp [hpull, he]

/-! ### BR.REFILL -/

theorem refillBody_of_ended {s : State} (he : s.eos = true) :
    refillBody s = .next ({ s with res0 := 0#64, res1 := 0#64 }, .ok) := if_pos he

theorem refillBody_of_live {s : State} (he : s.eos = false) :
    refillBody s = .next ({ s.pull.2 with
      res0 := boolReg (decide (1 ≤ s.pull.1.bytes.length)), res1 := natReg s.pull.1.bytes.length }, .ok) :=
  if_neg (by simp [he])

/-- Settles O15: `Need` by its cases (`need_of_has`, `need_of_ended`, `need_of_answer`, `need_of_exhausted`), BR.REFILL by the
two ends of its body and what one pull answers. -/
theorem needAndRefill : Obligations.NeedAndRefill := by
  unfold Obligations.NeedAndRefill
  refine ⟨.of_body (by decide) rfl, ?need, ?ended, ?answer, ?exhausted⟩
  case need =>
    exact fun s n => ⟨s.need_pulledTo n, State.has_iff, State.need_of_has, State.need_of_ended,
      fun a up => State.need_of_answer, fun h _ => State.need_of_exhausted h⟩
  case ended => exact fun s hs he => command_done hs (refillBody_of_ended he) rfl rfl
  case answer =>
    intro s a up hs hroom he hu
    have hpull := State.pull_of_answer hu
    refine (command_ready_room hs hroom (refillBody_of_live he) (State.pull_pulledTo he) rfl).trans ?_
    simp [endWith_ok, hpull, he, boolReg, natReg]
  case exhausted =>
    intro s hs he hu
    have hpull := State.pull_of_exhausted hu
    refine command_done hs (refillBody_of_live he) (by rw [hpull]) ?_
    simp [hpull, boolReg, natReg]

/-! ### The stream only grows -/

/-- What may happen to the stream within a session (R83, R84, R86): the cursor moves on, the first answers arrive, and after the
end nothing does. -/
def StreamGrows (s t : State) : Prop :=
  s.cons ≤ t.cons ∧ (s.eos = true → t.eos = true ∧ t.S = s.S) ∧
  ∃ pulled : List PullAnswer, s.upstream = pulled ++ t.upstream ∧
    t.S = s.S ++ pulled.flatMap (fun a => a.bytes) ∧ t.eos = (s.eos || pulled.any fun a => a.ends)

theorem StreamGrows.refl (s : State) : StreamGrows s s :=
  ⟨le_rfl, fun he => ⟨he, rfl⟩, [], by simp⟩

/-- Pulls from the front of the answers make the stream grow; after its end the answers stay, so none was pulled. -/
theorem State.Advance.streamGrows {s t : State} (h : s.Advance t) : StreamGrows s t := by
  obtain ⟨pulled, hup, hS, heos⟩ := h.answers
  refine ⟨h.consMono, fun he => ?_, pulled, hup, hS, heos⟩
  have hnone : pulled = [] := by simpa [h.ended he] using hup
  subst hnone
  exact ⟨by simp [heos, he], by simpa using hS⟩

/-- Settles O54: a checked command is turned away without effect on the stream or ends as its body does, which is an advance
(`BodyOk.adv`); of the four of R406 only SYS.RESET touches the stream. -/
theorem streamMonotone : Obligations.StreamMonotone := by
  unfold Obligations.StreamMonotone
  intro i s t h hreset
  show StreamGrows s t
  rcases checked_cases i with hi | rfl | rfl | rfl | rfl
  · obtain ⟨body, he, hok, -⟩ := exec_body i hi
    rw [he] at h
    cases command_next h with
    | sticky _ => exact .refl s
    | disposed _ _ => exact .refl s
    | ran _ u st hb _ => exact (hok s u st hb).adv.streamGrows
  · exact absurd rfl hreset
  all_goals cases h; exact .refl s

end Sys2Proof.Machine
end

section
/-! PROOFS. The encoding rules (30_encoding.md): a command is one word and a word at most one command, and every other word is
rejected by its opcode's place in the map or by the bits its format reserves. -/

namespace Sys2Proof.Machine

/-! ### What decoding answers, by the map of R113 -/

theorem decode_eq_ok_iff {w : Word} {i : Instr} : decode w = .ok i ↔
    ∃ f, opcodeMap (opcOf w).toNat (aOf w) (bOf w) = some (f, i) ∧ reservedZero f (aOf w) (bOf w) = true := by
  unfold decode
  split
  next hmap => simp [hmap]
  next f j hmap => cases hres : reservedZero f (aOf w) (bOf w) <;> grind

theorem decode_eq_illegalOpcode_iff {w : Word} :
    decode w = .error .illegalOpcode ↔ opcodeMap (opcOf w).toNat (aOf w) (bOf w) = none := by
  unfold decode
  split
  next hmap => simp [hmap]
  next f j hmap => cases hres : reservedZero f (aOf w) (bOf w) <;> simp [hmap]

theorem decode_eq_reservedField_iff {w : Word} : decode w = .error .reservedField ↔
    ∃ f i, opcodeMap (opcOf w).toNat (aOf w) (bOf w) = some (f, i) ∧ reservedZero f (aOf w) (bOf w) = false := by
  unfold decode
  split
  next hmap => simp [hmap]
  next f j hmap => cases hres : reservedZero f (aOf w) (bOf w) <;> simp [hmap, hres]

/-! ### The reserved fields of a format (R111) -/

section reserved
variable {a : BitVec 8} {b : BitVec 16}

theorem reservedZero_F0_iff : reservedZero .F0 a b = true ↔ a = 0#8 ∧ b = 0#16 := by simp [reservedZero]

theorem reservedZero_FA_iff : reservedZero .FA a b = true ↔ b = 0#16 := by simp [reservedZero]

/-- A zero high byte of B says that B is the operand byte, extended. -/
theorem reservedZero_FB8_iff : reservedZero .FB8 a b = true ↔ a = 0#8 ∧ 0#8 ++ b.setWidth 8 = b := by
  have hhigh : b.extractLsb' 8 8 = 0#8 ↔ 0#8 ++ b.setWidth 8 = b :=
    ⟨bField_of_high b, fun h => h ▸ bField_high _⟩
  simp [reservedZero, hhigh]

theorem reservedZero_FB16_iff : reservedZero .FB16 a b = true ↔ a = 0#8 := by simp [reservedZero]

/-- A row of the map with its reserved fields 0 is the word of its command: the operand fields return through `encode`. -/
theorem encode_of_opcodeMap {n : Nat} {f : Format} {i : Instr} (hmap : opcodeMap n a b = some (f, i))
    (hres : reservedZero f a b = true) : encode i = wordOf (BitVec.ofNat 8 n) a b := by
  unfold opcodeMap at hmap
  split at hmap <;> cases hmap <;>
    simp only [reservedZero_F0_iff, reservedZero_FA_iff, reservedZero_FB8_iff, reservedZero_FB16_iff] at hres <;>
    simp [encode, hres]

end reserved

/-- Settles O5: a command decodes from its word (`decode_encode`); a word that decodes is a row of the map with its reserved
fields 0, so it is that row's word (`encode_of_opcodeMap`). -/
theorem decodeEncode : Obligations.DecodeEncode := by
  unfold Obligations.DecodeEncode
  intro w i
  refine ⟨fun h => ?_, fun h => h ▸ decode_encode i⟩
  obtain ⟨f, hmap, hres⟩ := decode_eq_ok_iff.1 h
  calc w = wordOf (opcOf w) (aOf w) (bOf w) := (wordOf_fields w).symm
    _ = encode i := by simpa using (encode_of_opcodeMap hmap hres).symm

/-! ### The format of an opcode -/

/-- The format of an opcode, when the map has one: it does not depend on the operands (`opcodeMap_map_fst`). -/
def formatOf (opc : Nat) : Option Format := (opcodeMap opc 0#8 0#16).map Prod.fst

theorem opcodeMap_map_fst (opc : Nat) (a : BitVec 8) (b : BitVec 16) :
    (opcodeMap opc a b).map Prod.fst = formatOf opc := by
  unfold formatOf opcodeMap
  split <;> rfl

/-- The opcodes of a format (R113); `formatOf_eq_some_iff` ties them to the map. -/
def formatOpcodes : Format → List Nat
  | .F0 => [0x11, 0x13, 0x21, 0x23, 0x24, 0x32, 0x33, 0x36, 0x37, 0x38, 0x39, 0x3A, 0x3B, 0x3C, 0x3E, 0x3F, 0x40, 0x41,
      0x50, 0x51, 0x53, 0x70, 0x71, 0x73]
  | .FA => [0x30, 0x31, 0x34, 0x35, 0x52, 0x72]
  | .FB8 => [0x10, 0x12, 0x22]
  | .FB16 => [0x20, 0x3D]

theorem formatOf_eq_some_iff {opc : Nat} {f : Format} : formatOf opc = some f ↔ opc ∈ formatOpcodes f := by
  unfold formatOf opcodeMap
  split
  case h_36 => cases f <;> simp_all [formatOpcodes]
  all_goals cases f <;> simp [formatOpcodes]

/-- The opcodes of R115 are those the map leaves out. -/
theorem formatOf_eq_none_iff {opc : Nat} : formatOf opc = none ↔
    (opc ≤ 0x0F ∨ (0x14 ≤ opc ∧ opc ≤ 0x1F) ∨ (0x25 ≤ opc ∧ opc ≤ 0x2F) ∨ (0x42 ≤ opc ∧ opc ≤ 0x4F) ∨
      (0x54 ≤ opc ∧ opc ≤ 0x6F) ∨ 0x74 ≤ opc) := by
  unfold formatOf opcodeMap
  split
  case h_36 => simp_all; omega
  all_goals simp

/-! ### Rejected words, by their format and their bits -/

theorem decode_eq_illegalOpcode_iff_formatOf {w : Word} :
    decode w = .error .illegalOpcode ↔ formatOf (opcOf w).toNat = none := by
  rw [decode_eq_illegalOpcode_iff, ← opcodeMap_map_fst _ (aOf w) (bOf w), Option.map_eq_none_iff]

theorem decode_eq_reservedField_iff_formatOf {w : Word} : decode w = .error .reservedField ↔
    ∃ f, (opcOf w).toNat ∈ formatOpcodes f ∧ reservedZero f (aOf w) (bOf w) = false := by
  simp [decode_eq_reservedField_iff, ← formatOf_eq_some_iff, ← opcodeMap_map_fst _ (aOf w) (bOf w)]

/-- The two halves of a field that spans them; with `BitVec.extractLsb'_append_extractLsb'_eq_extractLsb'` it says when adjacent
fields of a word are 0. -/
theorem append_eq_zero_iff {m n : Nat} (u : BitVec m) (v : BitVec n) : u ++ v = 0#(m + n) ↔ u = 0#m ∧ v = 0#n where
  mp h := ⟨by rw [← BitVec.extractLsb'_append_eq_left (a := u) (b := v), h, BitVec.extractLsb'_zero],
    by rw [← BitVec.extractLsb'_append_eq_right (a := u) (b := v), h, BitVec.extractLsb'_zero]⟩
  mpr := by
    rintro ⟨rfl, rfl⟩
    exact BitVec.zero_append_zero

theorem reservedZero_F0_word (w : Word) : reservedZero .F0 (aOf w) (bOf w) = false ↔ w.extractLsb' 0 24 ≠ 0#24 := by
  have hspan : aOf w ++ bOf w = w.extractLsb' 0 24 := BitVec.extractLsb'_append_extractLsb'_eq_extractLsb' rfl
  rw [← Bool.not_eq_true, reservedZero_F0_iff, ← hspan, Ne, append_eq_zero_iff]

theorem reservedZero_FA_word (w : Word) : reservedZero .FA (aOf w) (bOf w) = false ↔ w.extractLsb' 0 16 ≠ 0#16 := by
  rw [← Bool.not_eq_true, reservedZero_FA_iff, bOf]

/-- In FB8 the reserved bits are A and the high byte of B, which are side by side. -/
theorem reservedZero_FB8_word (w : Word) : reservedZero .FB8 (aOf w) (bOf w) = false ↔ w.extractLsb' 8 16 ≠ 0#16 := by
  have hhigh : (bOf w).extractLsb' 8 8 = w.extractLsb' 8 8 := BitVec.extractLsb'_extractLsb'_of_le (by decide)
  have hspan : aOf w ++ w.extractLsb' 8 8 = w.extractLsb' 8 16 := BitVec.extractLsb'_append_extractLsb'_eq_extractLsb' rfl
  rw [← hspan, Ne, append_eq_zero_iff]
  simp [reservedZero, hhigh]

theorem reservedZero_FB16_word (w : Word) : reservedZero .FB16 (aOf w) (bOf w) = false ↔ w.extractLsb' 16 8 ≠ 0#8 := by
  rw [← Bool.not_eq_true, reservedZero_FB16_iff, aOf]

/-- There are four formats (R111). -/
theorem exists_format_iff {p : Format → Prop} : (∃ f, p f) ↔ p .F0 ∨ p .FA ∨ p .FB8 ∨ p .FB16 where
  mp := by rintro ⟨_ | _ | _ | _, h⟩ <;> simp [h]
  mpr := by rintro (h | h | h | h) <;> exact ⟨_, h⟩

/-- A rejected word ends with its violation when the engine is ready (R114, R403). -/
theorem runWord_of_rejected {w : Word} {s : State} (hs : s.Ready) {e : DecodeError} (hd : decode w = .error e)
    {c : ViolationCause} {v : Half} (he : ∀ t, rejectWord e t = command t fun t => Res.violation t c)
    (hv : v = BitVec.ofNat 16 (c.code * 256 + 5)) :
    runWord w s = .next { s with cmd := w, status := v, fault := v } := by
  have hready : ({ s with cmd := w } : State).Ready := ⟨hs.noFault, hs.open_⟩
  rw [runWord_of_decode_error hd, he]
  exact command_violation hready rfl hv

/-- Settles O6: an opcode is unassigned or has a format (`formatOf_eq_none_iff`, `formatOf_eq_some_iff`); in each format the
reserved fields are one run of bits of the word; a rejected word is a command whose body is the violation. -/
theorem illegalWords : Obligations.IllegalWords := by
  unfold Obligations.IllegalWords
  refine ⟨fun w => ?unassigned, fun w => ?reserved, fun w s hs hd => ?illegal, fun w s hs hd => ?reservedEnd⟩
  case unassigned => exact (decode_eq_illegalOpcode_iff_formatOf.trans formatOf_eq_none_iff).symm
  case reserved =>
    rw [decode_eq_reservedField_iff_formatOf, exists_format_iff, reservedZero_F0_word, reservedZero_FA_word,
      reservedZero_FB8_word, reservedZero_FB16_word]
    rfl
  case illegal => exact runWord_of_rejected hs hd (c := .illegalOpcode) (fun _ => rfl) rfl
  case reservedEnd => exact runWord_of_rejected hs hd (c := .reservedField) (fun _ => rfl) rfl

/-! ### Words by their fixed upper bits -/

/-- A word with an operand byte at its low end (FB8). -/
theorem wordOf_byte (opc b : BitVec 8) : wordOf opc 0#8 (0#8 ++ b) = (opc ++ 0#16) ++ b :=
  calc opc ++ (0#8 ++ (0#8 ++ b)) = opc ++ ((0#8 ++ 0#8) ++ b) := congrArg (opc ++ ·) BitVec.append_assoc.symm
    _ = (opc ++ 0#16) ++ b := BitVec.append_assoc.symm

/-- A word with an operand half at its low end (FB16). -/
theorem wordOf_half (opc : BitVec 8) (b : BitVec 16) : wordOf opc 0#8 b = (opc ++ 0#8) ++ b :=
  BitVec.append_assoc.symm

/-- A word of an FB8 row, as the table of R113 shows it, decodes to the row's command. -/
theorem decode_of_byte {i : Instr} {opc b : BitVec 8} (h : encode i = wordOf opc 0#8 (0#8 ++ b)) :
    decode ((opc ++ 0#16) ++ b) = .ok i :=
  wordOf_byte opc b ▸ h ▸ decode_encode i

/-- The same of an FB16 row. -/
theorem decode_of_half {i : Instr} {opc : BitVec 8} {b : BitVec 16} (h : encode i = wordOf opc 0#8 b) :
    decode ((opc ++ 0#8) ++ b) = .ok i :=
  wordOf_half opc b ▸ h ▸ decode_encode i

/-- Settles O3: each word of the table is the word of its row's command, so it decodes to that command (`decode_encode`).
Its name is not `opcodeMap`, which is the model's map. -/
theorem opcodeMap_decodes : Obligations.OpcodeMap := by
  unfold Obligations.OpcodeMap
  exact ⟨fun b => decode_of_byte (i := .crc8Set b) (opc := 0x10#8) rfl, decode_encode .crc8Get,
    fun b => decode_of_byte (i := .crc8Byte b) (opc := 0x12#8) rfl, decode_encode .crc8Span,
    fun b => decode_of_half (i := .crc16Set b) (opc := 0x20#8) rfl, decode_encode .crc16Get,
    fun b => decode_of_byte (i := .crc16Byte b) (opc := 0x22#8) rfl, decode_encode .crc16Span, decode_encode .crc16Spanb,
    fun a => decode_encode (.brRead32 a), fun a => decode_encode (.brRead64 a), decode_encode .brReadbyte,
    decode_encode .brUnary, fun a => decode_encode (.brRice a), fun a => decode_encode (.brRiceb a),
    decode_encode .brUtf8x32, decode_encode .brUtf8x64, decode_encode .brAligned, decode_encode .brZpad,
    decode_encode .brSkipbits, decode_encode .brSkipbytes, decode_encode .brGetcrc,
    fun b => decode_of_half (i := .brSetcrc b) (opc := 0x3D#8) rfl, decode_encode .brUpdcrc, decode_encode .brRefill,
    decode_encode .brEos, decode_encode .brPos, decode_encode .frDecode, decode_encode .frStep,
    fun a => decode_encode (.frInfo a), decode_encode .pcmRead, decode_encode .sysReset, decode_encode .sysDispose,
    fun a => decode_encode (.sysCfg a), decode_encode .sysStatus⟩

/-- Settles O4: eight words are the words of commands, one has no row in the map, one has a bit set that F0 reserves. -/
theorem decodeWords : Obligations.DecodeWords := by
  unfold Obligations.DecodeWords
  exact ⟨decode_encode (.crc8Set 0xF4#8), decode_encode (.crc16Set 0x1234#16), decode_encode (.brRead32 6#8),
    decode_encode (.brRiceb 2#8), decode_encode .frDecode, decode_encode (.frInfo 10#8), decode_encode .pcmRead,
    decode_encode (.sysCfg 1#8), decode_eq_illegalOpcode_iff.2 rfl, decode_eq_reservedField_iff.2 ⟨.F0, .crc8Get, rfl, rfl⟩⟩

end Sys2Proof.Machine
end

section
/-! PROOFS. The CRC rules (40_crc.md): what each CRC command leaves, the folds as remainders, and that the chunks in which
commands absorb a message do not matter. -/

namespace Sys2Proof.Machine

/-! ### The common checks, and commands that end with OK -/

/-- `Checked` of an FB8 row, in the form the table of R113 shows its word. -/
theorem Checked.of_byte {i : Instr} {opc b : BitVec 8} (hword : encode i = wordOf opc 0#8 (0#8 ++ b))
    (hi : checked i = true) : Checked i ((opc ++ 0#16) ++ b) :=
  .of_body ((wordOf_byte opc b).symm.trans hword.symm) hi

/-- The same of an FB16 row. -/
theorem Checked.of_half {i : Instr} {opc : BitVec 8} {b : BitVec 16} (hword : encode i = wordOf opc 0#8 b)
    (hi : checked i = true) : Checked i ((opc ++ 0#8) ++ b) :=
  .of_body ((wordOf_half opc b).symm.trans hword.symm) hi

/-- A command whose STATUS is OK ran its body, which ended with OK. -/
theorem command_next_ok {s u : State} {body : State → Res} (h : command s body = .next u) (hok : u.status = 0#16) :
    ∃ t, body s = .next (t, .ok) ∧ u = { t with status := 0x0000#16 } := by
  cases command_next h with
  | sticky hfault => exact absurd hok hfault
  | disposed => cases hok
  | ran _ t st hbody _ =>
    obtain rfl : st = .ok := (word_eq_zero st).1 hok
    exact ⟨t, hbody, endWith_ok t⟩

/-! ### Span commands -/

section span
variable {s : State} {absorb : State → List Byte → State}

theorem spanCommand_of_inside (hs : s.Ready) (hin : s.arg0.toNat + s.arg1.toNat ≤ s.cfg.dmemBytes)
    (hS : (absorb s (memSpan s.dmem s.arg0.toNat s.arg1.toNat)).S = s.S) : spanCommand s absorb =
      .next { absorb s (memSpan s.dmem s.arg0.toNat s.arg1.toNat) with status := 0x0000#16 } :=
  command_done hs (if_pos (decide_eq_true hin)) hS rfl

theorem spanCommand_of_outside (hs : s.Ready) (hout : s.cfg.dmemBytes < s.arg0.toNat + s.arg1.toNat) :
    spanCommand s absorb = .next { s with status := 0x0505#16, fault := 0x0505#16 } :=
  command_violation (c := .dmemRange) hs (if_neg (by simpa [rangeOk] using hout)) rfl

/-- A span command whose STATUS is OK has absorbed its range. -/
theorem spanCommand_next_ok {t : State} (h : spanCommand s absorb = .next t) (hok : t.status = 0#16) :
    t = { absorb s (memSpan s.dmem s.arg0.toNat s.arg1.toNat) with status := 0x0000#16 } := by
  obtain ⟨u, hbody, rfl⟩ := command_next_ok h hok
  split at hbody
  · cases hbody
    rfl
  · cases hbody

end span

/-! ### Each command as its body after the common checks -/

theorem exec_crc8Set (b : BitVec 8) (s : State) :
    exec (.crc8Set b) s = command s fun s => Res.done { s with c8 := b } .ok := rfl

theorem exec_crc8Get (s : State) :
    exec .crc8Get s = command s fun s => Res.done { s with res0 := s.c8.setWidth 64 } .ok := rfl

theorem exec_crc8Byte (b : BitVec 8) (s : State) : exec (.crc8Byte b) s =
    command s fun s => Res.done { s with c8 := a8 s.c8 b, res0 := (a8 s.c8 b).setWidth 64 } .ok := rfl

theorem exec_crc8Span (s : State) : exec .crc8Span s =
    spanCommand s fun s m => { s with c8 := fold8 s.c8 m, res0 := (fold8 s.c8 m).setWidth 64 } := rfl

theorem exec_crc16Set (v : BitVec 16) (s : State) :
    exec (.crc16Set v) s = command s fun s => Res.done { s with c16 := v } .ok := rfl

theorem exec_crc16Get (s : State) :
    exec .crc16Get s = command s fun s => Res.done { s with res0 := s.c16.setWidth 64 } .ok := rfl

theorem exec_crc16Byte (b : BitVec 8) (s : State) : exec (.crc16Byte b) s =
    command s fun s => Res.done { s with c16 := a16 s.c16 b, res0 := (a16 s.c16 b).setWidth 64 } .ok := rfl

theorem exec_crc16Span (s : State) : exec .crc16Span s =
    spanCommand s fun s m => { s with c16 := fold16 s.c16 m, res0 := (fold16 s.c16 m).setWidth 64 } := rfl

/-- Settles O11: the remainder that the bulk path computes is the fold (`bulkFold16_eq`), so CRC16.SPANB has the body of
CRC16.SPAN. -/
theorem bulkIsScalar : Obligations.BulkIsScalar := by
  unfold Obligations.BulkIsScalar
  intro s
  simp only [exec, execCrc16Spanb, execCrc16Span, bulkFold16_eq]

/-! ### What a CRC-16 command leaves in C16 -/

theorem exec_crc16Set_c16 {c : Half} {r s : State} (hr : r.Ready) (h : exec (.crc16Set c) r = .next s) : s.c16 = c := by
  rw [exec_crc16Set, command_done (t := { r with c16 := c }) hr rfl rfl rfl] at h
  cases h
  rfl

theorem exec_crc16Byte_c16 {b : Byte} {s t : State} (h : exec (.crc16Byte b) s = .next t) (hok : t.status = 0#16) :
    t.c16 = a16 s.c16 b := by
  obtain ⟨u, hbody, rfl⟩ := command_next_ok (exec_crc16Byte b s ▸ h) hok
  cases hbody
  rfl

theorem exec_crc16Span_c16 {s t : State} (h : exec .crc16Span s = .next t) (hok : t.status = 0#16) :
    t.c16 = fold16 s.c16 (memSpan s.dmem s.arg0.toNat s.arg1.toNat) := by
  rw [spanCommand_next_ok (exec_crc16Span s ▸ h) hok]

/-- Commands that absorb `m` fold it, however they chunk it: each byte is one absorption, each span a fold, and folds join. -/
theorem Absorbs.c16_eq {s t : State} {m : List Byte} (h : Absorbs s m t) : t.c16 = fold16 s.c16 m := by
  induction h with
  | nil s => rfl
  | byte s t u b m h hok _ ih => rw [ih, exec_crc16Byte_c16 h hok, fold16]
  | span i hi s t u a len m h hok _ ih =>
    have hspan : exec .crc16Span { s with arg0 := a, arg1 := len } = .next t := by
      obtain rfl | rfl := hi
      · exact h
      · exact (bulkIsScalar _).symm.trans h
    rw [ih, exec_crc16Span_c16 hspan hok, fold16_append]

/-! ### The statements -/

/-- Settles O13: the fold's equations are its definition, the remainder and the split are inductions on the message, and
the last clause is an induction on the commands (`Absorbs.c16_eq`). -/
theorem crc16Fold : Obligations.Crc16Fold := by
  unfold Obligations.Crc16Fold
  refine ⟨⟨fun _ => rfl, fun _ _ _ => rfl, fold16_eq_rem16⟩, fold16_append, ?_⟩
  intro r s t c m hr hset habs
  rw [habs.c16_eq, exec_crc16Set_c16 hr hset]

/-- Settles O12: the equations are the fold's definition; the remainder and the split are inductions on the message. -/
theorem crc8Fold : Obligations.Crc8Fold := by
  unfold Obligations.Crc8Fold
  exact ⟨fun _ => rfl, fun _ _ _ => rfl, fold8_eq_rem8, fold8_append⟩

/-- Settles O8: each command is its body after the common checks. -/
theorem crc8Register : Obligations.Crc8Register := by
  unfold Obligations.Crc8Register
  refine ⟨fun b => .of_byte (opc := 0x10#8) rfl rfl, .of_body rfl rfl, fun b => .of_byte (opc := 0x12#8) rfl rfl, ?_⟩
  intro s hs b
  rw [exec_crc8Set, exec_crc8Get, exec_crc8Byte]
  exact ⟨command_done hs rfl rfl rfl, command_done hs rfl rfl rfl, command_done hs rfl rfl rfl⟩

/-- A word with the opcode of CRC16.BYTE and a bit of 15:8 set is no command (R111, R114). -/
theorem decode_crc16Byte_reserved {w : Word} (hopc : w.extractLsb' 24 8 = 0x22#8) (hhigh : w.extractLsb' 8 8 ≠ 0#8) :
    decode w = .error .reservedField := by
  have hB : (bOf w).extractLsb' 8 8 = w.extractLsb' 8 8 := BitVec.extractLsb'_extractLsb'_of_le (by decide)
  refine decode_eq_reservedField_iff.2 ⟨.FB8, .crc16Byte ((bOf w).setWidth 8), ?_, ?_⟩
  · rw [opcOf, hopc]
    rfl
  · simp [reservedZero, hB, hhigh]

/-- Settles O9: each command is its body after the common checks. -/
theorem crc16Register : Obligations.Crc16Register := by
  unfold Obligations.Crc16Register
  refine ⟨fun v => .of_half (opc := 0x20#8) rfl rfl, .of_body rfl rfl, fun b => .of_byte (opc := 0x22#8) rfl rfl,
    fun w => decode_crc16Byte_reserved, ?_⟩
  intro s hs b v
  rw [exec_crc16Set, exec_crc16Get, exec_crc16Byte]
  exact ⟨command_done hs rfl rfl rfl, command_done hs rfl rfl rfl, command_done hs rfl rfl rfl⟩

/-- Settles O10: the three commands are span commands, whose range lies in DMEM or does not; the bulk one is the scalar one. -/
theorem crcSpans : Obligations.CrcSpans := by
  unfold Obligations.CrcSpans
  refine ⟨.of_body rfl rfl, .of_body rfl rfl, .of_body rfl rfl, ?_⟩
  simp only [← memSpan_eq_map, List.forall_mem_cons]
  intro s hs
  rw [bulkIsScalar s, exec_crc8Span, exec_crc16Span]
  refine ⟨fun hin => ?inside, fun hout => ?outside⟩
  case inside =>
    exact ⟨spanCommand_of_inside hs hin rfl, spanCommand_of_inside hs hin rfl, spanCommand_of_inside hs hin rfl⟩
  case outside =>
    exact ⟨spanCommand_of_outside hs hout, spanCommand_of_outside hs hout, spanCommand_of_outside hs hout,
      List.forall_mem_nil _⟩

/-- Absorbing the register's own high byte reads `T16[0] = 0`, so it only shifts. -/
theorem a16_own_high (c : Half) : a16 c (c.extractLsb' 8 8) = c <<< 8 := by
  have hzero : t16 0#8 = 0#16 := rfl
  rw [a16, BitVec.xor_self, hzero, BitVec.xor_zero]

/-- A register that absorbs its own two bytes shifts out (R183). -/
theorem fold16_own_bytes (c : Half) : fold16 c [c.extractLsb' 8 8, c.extractLsb' 0 8] = 0#16 := by
  have hlow : c.extractLsb' 0 8 = (c <<< 8).extractLsb' 8 8 := by
    ext i hi
    simp [show 8 + i < 16 by omega, BitVec.getLsbD_eq_getElem (show i < 16 by omega)]
  calc fold16 c [c.extractLsb' 8 8, c.extractLsb' 0 8]
      = a16 (a16 c (c.extractLsb' 8 8)) (c.extractLsb' 0 8) := rfl
    _ = (c <<< 8) <<< 8 := by rw [a16_own_high, hlow, a16_own_high]
    _ = 0#16 := by rw [← BitVec.shiftLeft_add, BitVec.shiftLeft_eq_zero (by decide)]

/-- Settles O7: the tables are compared with their procedures entry by entry (`t8_procedure`, `t16_procedure`), the check
values are evaluated, and a register absorbs its own bytes to 0 by `fold16_own_bytes`. -/
theorem crcTablesAndValues : Obligations.CrcTablesAndValues := by
  unfold Obligations.CrcTablesAndValues
  exact ⟨⟨t8_procedure, t16_procedure⟩, rfl, rfl, rfl, rfl, rfl, rfl, fold16_own_bytes⟩

end Sys2Proof.Machine
end

section
/-! PROOFS. What the proofs of the BitReader rules (41_bitreader.md) share: each command as its body after the common checks, the
operand checks, the batch check, and the ends of an accepted command. -/

namespace Sys2Proof.Machine

/-! ### Each BitReader command as its body after the common checks -/

/-- The body of a BitReader command other than BR.EOS, which has none (60_exceptions.md R406); `exec_reader` ties it to the model. -/
def readerBody : Instr → State → Res
  | .brRead32 a, s => if widthOk 32 a then noBatch s (readField a.toNat s) else Res.violation s .widthRange
  | .brRead64 a, s => if widthOk 64 a then noBatch s (readField a.toNat s) else Res.violation s .widthRange
  | .brReadbyte, s => noBatch s (readField 8 s)
  | .brUnary, s => noBatch s (unaryBody s)
  | .brRice a, s => if riceOk a then noBatch s (riceBody a.toNat s) else Res.violation s .widthRange
  | .brRiceb a, s => if s.rb.active then riceContinue a s else riceStart a s
  | .brUtf8x32, s => noBatch s (utf8Body 32 s)
  | .brUtf8x64, s => noBatch s (utf8Body 64 s)
  | .brAligned, s => Res.done { s with res0 := boolReg (s.cons % 8 == 0) } .ok
  | .brZpad, s => noBatch s (zpadBody s)
  | .brSkipbits, s => noBatch s (skipBody s.arg0.toNat s)
  | .brSkipbytes, s => noBatch s (skipBody (8 * s.arg0.toNat) s)
  | .brGetcrc, s => noBatch s (Res.done { s.upd with res0 := s.upd.bcrc.setWidth 64 } .ok)
  | .brSetcrc b, s => noBatch s (Res.done { s with bcrc := b, base := s.cons } .ok)
  | .brUpdcrc, s => noBatch s (Res.done s.upd .ok)
  | .brRefill, s => refillBody s
  | .brPos, s => Res.done { s with res0 := natReg s.cons, res1 := natReg s.avail, res2 := natReg s.base } .ok
  | _, s => Res.done s .ok

theorem exec_reader {i : Instr} (hi : family i = .bitReader) (hc : checked i = true) (s : State) :
    exec i s = command s (readerBody i) := by
  cases i with
  | brEos => cases hc
  | brRead32 | brRead64 | brReadbyte | brUnary | brRice | brRiceb | brUtf8x32 | brUtf8x64 | brAligned | brZpad | brSkipbits
  | brSkipbytes | brGetcrc | brSetcrc | brUpdcrc | brRefill | brPos => rfl
  | _ => cases hi

/-- BR.EOS is the only BitReader command that passes no common check (60_exceptions.md R406). -/
theorem reader_unchecked {i : Instr} (hi : family i = .bitReader) (hc : checked i = false) : i = .brEos := by
  cases i with
  | brEos => rfl
  | sysReset | sysDispose | sysStatus => cases hi
  | _ => cases hc

/-! ### Operand checks (60_exceptions.md R408) -/

theorem widthOk_iff {most : Nat} {a : BitVec 8} : widthOk most a = true ↔ 1 ≤ a.toNat ∧ a.toNat ≤ most := by simp [widthOk]

theorem riceOk_iff {a : BitVec 8} : riceOk a = true ↔ a.toNat ≤ 31 := by simp [riceOk]

theorem rangeOk_iff {c : Config} {a len : Nat} : rangeOk c a len = true ↔ a + len ≤ c.dmemBytes := by simp [rangeOk]

theorem alignOk_iff {a : Nat} : alignOk a = true ↔ a % 4 = 0 := by simp [alignOk]

/-! ### The batch check -/

theorem noBatch_of_active {s : State} (h : s.rb.active = true) (r : Res) : noBatch s r = Res.violation s .batchInProgress :=
  if_pos h

/-- A reading command that starts with the batch check, whatever other checks it passes before, is turned away during a batch. -/
theorem busy_reader {i : Instr} (hi : family i = .bitReader) (hc : checked i = true)
    (hb : ∀ s : State, ∃ r, readerBody i s = noBatch s r) : Busy i := by
  refine .of_noBatch (body := fun _ => readerBody i) (exec_reader hi hc) fun s ha => ?_
  obtain ⟨r, hr⟩ := hb s
  exact hr.trans (noBatch_of_active ha r)

theorem busy_readbyte : Busy .brReadbyte := busy_reader rfl rfl fun _ => ⟨_, rfl⟩
theorem busy_unary : Busy .brUnary := busy_reader rfl rfl fun _ => ⟨_, rfl⟩
theorem busy_utf8x32 : Busy .brUtf8x32 := busy_reader rfl rfl fun _ => ⟨_, rfl⟩
theorem busy_utf8x64 : Busy .brUtf8x64 := busy_reader rfl rfl fun _ => ⟨_, rfl⟩
theorem busy_zpad : Busy .brZpad := busy_reader rfl rfl fun _ => ⟨_, rfl⟩
theorem busy_skipbits : Busy .brSkipbits := busy_reader rfl rfl fun _ => ⟨_, rfl⟩
theorem busy_skipbytes : Busy .brSkipbytes := busy_reader rfl rfl fun _ => ⟨_, rfl⟩
theorem busy_getcrc : Busy .brGetcrc := busy_reader rfl rfl fun _ => ⟨_, rfl⟩
theorem busy_setcrc (b : BitVec 16) : Busy (.brSetcrc b) := busy_reader rfl rfl fun _ => ⟨_, rfl⟩
theorem busy_updcrc : Busy .brUpdcrc := busy_reader rfl rfl fun _ => ⟨_, rfl⟩

theorem busy_read32 {a : BitVec 8} (h : 1 ≤ a.toNat ∧ a.toNat ≤ 32) : Busy (.brRead32 a) :=
  busy_reader rfl rfl fun _ => ⟨_, if_pos (widthOk_iff.2 h)⟩

theorem busy_read64 {a : BitVec 8} (h : 1 ≤ a.toNat ∧ a.toNat ≤ 64) : Busy (.brRead64 a) :=
  busy_reader rfl rfl fun _ => ⟨_, if_pos (widthOk_iff.2 h)⟩

theorem busy_rice {a : BitVec 8} (h : a.toNat ≤ 31) : Busy (.brRice a) :=
  busy_reader rfl rfl fun _ => ⟨_, if_pos (riceOk_iff.2 h)⟩

/-! ### Ends of an accepted command -/

section ends
variable {s t u : State} {body : State → Res}

theorem command_pulled_ok (hs : s.Accepts) (hp : s.PulledTo t) (hb : body s = .next (u, .ok)) (hS : u.S = t.S) :
    command s body = .next { u with status := 0x0000#16 } := by
  rw [command_pulled hs hp hb hS, endWith_ok]

theorem command_pulled_dry (hs : s.Accepts) (hp : s.PulledTo t) (hb : body s = .next (t, .underrun)) :
    command s body = .next { t with status := 0x0001#16 } := by
  rw [command_pulled hs hp hb rfl, endWith_underrun]

theorem command_pulled_invalid (hs : s.Accepts) (hp : s.PulledTo t) {c : InvalidCause} {w : Half}
    (hb : body s = .next (u, .invalid c)) (hS : u.S = t.S) (hw : w = BitVec.ofNat 16 (c.code * 256 + 3)) :
    command s body = .next { u with status := w } := by
  rw [command_pulled hs hp hb hS, endWith_invalid, hw]

/-- A command runs its body in the state it starts from only. -/
theorem command_congr {other : State → Res} (h : body s = other s) : command s body = command s other := by
  simp only [command, h]

/-- With no batch in progress a command behind the batch check is its body. -/
theorem exec_of_noBatch {i : Instr} (hb : s.rb.active = false) (he : ∀ s, exec i s = command s fun s => noBatch s (body s)) :
    exec i s = command s body :=
  (he s).trans (command_congr (if_neg (by simp [hb])))

end ends

/-- A body that only reads is answered. -/
theorem reader_ends {s : State} (hs : s.Accepts) {body : State → Res} (hnext : ∃ p, body s = .next p)
    (hok : ReaderRes s (body s)) : ∃ t, command s body = .next t := by
  obtain ⟨⟨u, st⟩, hb⟩ := hnext
  exact reader_answers hs ⟨u, st, hb⟩ hok

/-! ### Commands that ended with OK -/

/-- A body behind the batch check that ended with OK ran. -/
theorem noBatch_next_ok {s t : State} {r : Res} (h : noBatch s r = .next (t, .ok)) : s.rb.active = false ∧ r = .next (t, .ok) := by
  unfold noBatch at h
  split at h
  · cases h
  · next hb => exact ⟨by simpa using hb, h⟩

end Sys2Proof.Machine
end

section
/-! PROOFS. The BitReader rules of 41_bitreader.md sections on reads, runs of zeros, position, padding, the CRC checkpoint and
the skips. -/

namespace Sys2Proof.Machine

/-! ### The reads (R211 to R217) -/

/-- A width out of range is a violation (R212, R213). -/
theorem readCommand_of_width {most : Nat} {a : BitVec 8} {s : State} (hs : s.Ready) (h : ¬(1 ≤ a.toNat ∧ a.toNat ≤ most)) :
    readCommand most a s = .next { s with status := 0x0305#16, fault := 0x0305#16 } :=
  command_violation (c := .widthRange) hs (if_neg (mt widthOk_iff.1 h)) rfl

/-- Settles O16: the three reads are one body (`exec_read`), which takes its field or runs dry. -/
theorem readCommands : Obligations.ReadCommands := by
  unfold Obligations.ReadCommands
  refine ⟨fun a => ⟨.of_body rfl rfl, .of_body rfl rfl⟩, .of_body rfl rfl, fun a => ⟨busy_read32, busy_read64⟩, busy_readbyte,
    fun s a hs => ⟨readCommand_of_width hs, readCommand_of_width hs⟩, fun s i a hs hi => ?_⟩
  have hp := s.need_pulledTo a.toNat
  rw [exec_read hs hi]
  exact ⟨fun hthere => command_pulled_ok hs hp (readField_has hthere) rfl,
    fun hdry => command_pulled_dry hs hp (readField_dry hdry)⟩

theorem readField_next_ok {n : Nat} {s t : State} (h : readField n s = .next (t, .ok)) : (s.need n).has n = true ∧
    t = { s.need n with cons := s.cons + n, res0 := natReg (field (s.need n).S s.cons n) } := by
  cases hh : (s.need n).has n with
  | true => rw [readField_has hh] at h; cases h; exact ⟨rfl, rfl⟩
  | false => rw [readField_dry hh] at h; cases h

/-- A read that ended with OK found its bits (41_bitreader.md R211). -/
theorem readCommand_next_ok {most : Nat} {a : BitVec 8} {s t : State} (h : readCommand most a s = .next t) (hok : t.status = 0#16) :
    (s.need a.toNat).has a.toNat = true ∧ t = { s.need a.toNat with
      cons := s.cons + a.toNat, res0 := natReg (field (s.need a.toNat).S s.cons a.toNat), status := 0x0000#16 } := by
  obtain ⟨u, hbody, rfl⟩ := command_next_ok h hok
  split at hbody
  · obtain ⟨hthere, rfl⟩ := readField_next_ok (noBatch_next_ok hbody).2
    exact ⟨hthere, rfl⟩
  · cases hbody

/-- What a read returns is a field of all the bytes that are there or still to come, which stay what they are. -/
theorem readCommand_allBytes {most : Nat} {a : BitVec 8} {s t : State} (ha : a.toNat ≤ 64) (h : readCommand most a s = .next t)
    (hok : t.status = 0#16) :
    t.res0.toNat = field s.allBytes s.cons a.toNat ∧ t.cons = s.cons + a.toNat ∧ t.allBytes = s.allBytes := by
  obtain ⟨hthere, rfl⟩ := readCommand_next_ok h hok
  have hp := s.need_pulledTo a.toNat
  have hfield : field (s.need a.toNat).S s.cons a.toNat = field s.allBytes s.cons a.toNat :=
    hp.field_all (by simpa using State.has_iff.1 hthere)
  have hlt : field s.allBytes s.cons a.toNat < 2 ^ 64 := (field_lt _ _ _).trans_le (Nat.pow_le_pow_right (by decide) ha)
  refine ⟨?_, rfl, hp.allBytes_eq⟩
  show (natReg (field (s.need a.toNat).S s.cons a.toNat)).toNat = _
  rw [hfield, natReg, BitVec.toNat_ofNat, Nat.mod_eq_of_lt hlt]

/-- Settles O17: each read returns a field of the same bytes (`readCommand_allBytes`), and a field splits (`field_add`). -/
theorem readAssociativity : Obligations.ReadAssociativity := by
  unfold Obligations.ReadAssociativity
  intro s t u v a b c rd _ hrd _ _ hc ht htok hu huok hv hvok
  obtain ⟨most, hmost, hread⟩ : ∃ most, a.toNat + b.toNat ≤ 64 ∧ ∀ w s, exec (rd w) s = readCommand most w s := by
    obtain ⟨rfl, h⟩ | ⟨rfl, h⟩ := hrd
    · exact ⟨32, by omega, fun _ _ => rfl⟩
    · exact ⟨64, h, fun _ _ => rfl⟩
  rw [hread] at ht hu hv
  obtain ⟨hx, htcons, htbytes⟩ := readCommand_allBytes (by omega) ht htok
  obtain ⟨hy, hucons, -⟩ := readCommand_allBytes (by omega) hu huok
  obtain ⟨hz, hvcons, -⟩ := readCommand_allBytes (by omega) hv hvok
  rw [htbytes, htcons] at hy
  rw [hc, field_add, ← hx, ← hy] at hz
  have hlt : u.res0.toNat < 2 ^ b.toNat := hy ▸ field_lt _ _ _
  refine ⟨?_, ?_, by omega⟩
  · rw [hz, Nat.mul_comm, Nat.mul_add_div (Nat.two_pow_pos _), Nat.div_eq_of_lt hlt, Nat.add_zero]
  · rw [hz, Nat.mul_add_mod_self_right, Nat.mod_eq_of_lt hlt]

/-! ### BR.UNARY (41_bitreader.md R220) -/

/-- No run up to the limit is too long. -/
theorem unaryOver_of_le {c : Config} {z : Nat} (hz : z ≤ c.unaryMax) : ∀ j, 0 < j → j ≤ z → unaryOver c j = false :=
  fun j _ hj => decide_eq_false (by omega)

section unary
variable {s : State} {z : Nat} (hz : z ≤ s.cfg.unaryMax)
  (hzeros : ∀ j, j < z → bitAt (s.need (z + 1)).S (s.cons + j) = false)
include hz hzeros

theorem unaryBody_found (hthere : (s.need (z + 1)).has (z + 1) = true) (hone : bitAt (s.need (z + 1)).S (s.cons + z) = true) :
    unaryBody s = .next ({ s.need (z + 1) with cons := s.cons + z + 1, res0 := natReg z }, .ok) := by
  rw [unaryBody, State.scan_found hthere hzeros hone (unaryOver_of_le hz)]
  simp [Res.done]

theorem unaryBody_tooLong (hthere : (s.need (z + 1)).has (z + 1) = true) (hzero : bitAt (s.need (z + 1)).S (s.cons + z) = false)
    (hmax : z = s.cfg.unaryMax) : unaryBody s = .next (s.need (z + 1), .invalid .unaryLimit) := by
  have hall : ∀ j, j ≤ z → bitAt (s.need (z + 1)).S (s.cons + j) = false := fun j hj =>
    (Nat.lt_or_eq_of_le hj).elim (hzeros j) fun he => he ▸ hzero
  have hover : unaryOver s.cfg (z + 1) = true := decide_eq_true (by omega)
  rw [unaryBody, State.scan_tooLong hthere hall hover (unaryOver_of_le hz)]
  rfl

theorem unaryBody_dry (hdry : (s.need (z + 1)).has (z + 1) = false) (hbefore : z = 0 ∨ (s.need z).has z = true) :
    unaryBody s = .next (s.need (z + 1), .underrun) := by
  rw [unaryBody, State.scan_short hdry hbefore hzeros (unaryOver_of_le hz)]
  rfl

end unary

/-- Settles O20: the scan finds the 1 bit, gives up or runs dry, as the stream says. -/
theorem unaryCommand : Obligations.UnaryCommand := by
  unfold Obligations.UnaryCommand
  refine ⟨.of_body rfl rfl, busy_unary, fun s hs => ?_⟩
  have hexec : exec .brUnary s = command s unaryBody := exec_of_noBatch hs.noBatch fun _ => rfl
  rw [hexec]
  refine ⟨reader_ends hs (unaryBody_next s) (unaryBody_ok s), fun z => ?_⟩
  have hp := s.need_pulledTo (z + 1)
  intro t hz hzeros
  exact ⟨fun hthere hone => command_pulled_ok hs hp (unaryBody_found hz hzeros hthere hone) rfl,
    fun hthere hzero hmax => command_pulled_invalid hs hp (unaryBody_tooLong hz hzeros hthere hzero hmax) rfl rfl,
    fun hdry hbefore => command_pulled_dry hs hp (unaryBody_dry hz hzeros hdry hbefore)⟩

/-! ### Position and padding (41_bitreader.md R236, R238, R252, R254) -/

theorem exec_aligned {s : State} (hs : s.Ready) :
    exec .brAligned s = .next { s with res0 := if s.cons % 8 = 0 then 1#64 else 0#64, status := 0x0000#16 } := by
  rw [exec_reader rfl rfl]
  exact command_done hs rfl rfl (by simp [boolReg])

theorem exec_pos {s : State} (hs : s.Ready) : exec .brPos s = .next { s with
    res0 := natReg s.cons, res1 := natReg s.avail, res2 := natReg s.base, status := 0x0000#16 } := by
  rw [exec_reader rfl rfl]
  exact command_done hs rfl rfl rfl

theorem exec_eos (s : State) : exec .brEos s = .next { s with
    res0 := boolReg s.eos, status := if s.fault = 0#16 then 0x0000#16 else s.fault } :=
  congrArg Host.Outcome.next (endAccepted_eq { s with res0 := boolReg s.eos })

section zpad
variable {s : State}

theorem zpadBody_zero (hthere : (s.need s.padding).has s.padding = true) (hzero : field (s.need s.padding).S s.cons s.padding = 0) :
    zpadBody s = .next ({ s.need s.padding with cons := s.cons + s.padding, res0 := natReg s.padding }, .ok) := by
  simp [zpadBody, hthere, hzero, Res.done]

theorem zpadBody_nonzero (hthere : (s.need s.padding).has s.padding = true)
    (hset : field (s.need s.padding).S s.cons s.padding ≠ 0) :
    zpadBody s = .next (s.need s.padding, .invalid .nonzeroPadding) := by
  simp [zpadBody, hthere, hset, Res.done]

theorem zpadBody_dry (hdry : (s.need s.padding).has s.padding = false) :
    zpadBody s = .next (s.need s.padding, .underrun) := by
  simp [zpadBody, hdry, Res.done]

end zpad

/-- Settles O27: the three reports are their bodies; the body of BR.ZPAD has the padding's three cases. -/
theorem positionAndPadding : Obligations.PositionAndPadding := by
  unfold Obligations.PositionAndPadding
  refine ⟨⟨.of_body rfl rfl, .of_body rfl rfl, decode_encode .brEos, fun s hs => ⟨exec_aligned hs, exec_pos hs⟩, exec_eos⟩,
    .of_body rfl rfl, busy_zpad, fun s hs => ?_⟩
  have hexec : exec .brZpad s = command s zpadBody := exec_of_noBatch hs.noBatch fun _ => rfl
  have hp := s.need_pulledTo s.padding
  rw [hexec]
  exact ⟨fun hdry => command_pulled_dry hs hp (zpadBody_dry hdry),
    fun hthere hset => command_pulled_invalid hs hp (zpadBody_nonzero hthere hset) rfl rfl,
    fun hthere hzero => command_pulled_ok hs hp (zpadBody_zero hthere hzero) rfl⟩

/-! ### The CRC checkpoint and the skips (R240 to R246) -/

/-- BR.SETCRC, where nothing turns it away. -/
theorem exec_setcrc {s : State} (hs : s.Ready) (hb : s.rb.active = false) (b : Half) :
    exec (.brSetcrc b) s = .next { s with bcrc := b, base := s.cons, status := 0x0000#16 } := by
  rw [exec_reader rfl rfl]
  exact command_done hs (if_neg (by simp [hb])) rfl rfl

/-- BR.GETCRC, where nothing turns it away. -/
theorem exec_getcrc {s : State} (hs : s.Ready) (hb : s.rb.active = false) :
    exec .brGetcrc s = .next { s.upd with res0 := s.upd.bcrc.setWidth 64, status := 0x0000#16 } := by
  rw [exec_reader rfl rfl]
  exact command_done hs (if_neg (by simp [hb])) rfl rfl

theorem exec_updcrc {s : State} (hs : s.Ready) (hb : s.rb.active = false) :
    exec .brUpdcrc s = .next { s.upd with status := 0x0000#16 } := by
  rw [exec_reader rfl rfl]
  exact command_done hs (if_neg (by simp [hb])) rfl rfl

/-- With less than an octet since the baseline there is nothing to fold. -/
theorem State.upd_of_lt {s : State} (h : s.cons - s.base < 8) : s.upd = s := by
  simp [State.upd, Nat.div_eq_of_lt h, octets, fold16]

/-- `Upd()` leaves less than an octet (R241). -/
theorem upd_rest_lt (s : State) : s.upd.cons - s.upd.base < 8 := by
  simp only [State.upd]
  omega

/-- Folding twice folds once (R242). -/
theorem exec_updcrc_twice {s t u : State} (hs : s.Ready) (hb : s.rb.active = false) (ht : exec .brUpdcrc s = .next t)
    (hu : exec .brUpdcrc t = .next u) : u = t := by
  rw [exec_updcrc hs hb] at ht
  cases ht
  have hready : ({ s.upd with status := 0x0000#16 } : State).Ready := ⟨hs.noFault, hs.open_⟩
  rw [exec_updcrc hready hb, State.upd_of_lt (s := { s.upd with status := 0x0000#16 }) (upd_rest_lt s)] at hu
  cases hu
  rfl

theorem skipBody_of_has {n : Nat} {s : State} (h : (s.need n).has n = true) :
    skipBody n s = .next ({ (s.need n).upd with cons := s.cons + n, base := s.cons + n }, .ok) := by
  simp [skipBody, h, Res.done]

theorem skipBody_of_dry {n : Nat} {s : State} (h : (s.need n).has n = false) :
    skipBody n s = .next (s.need n, .underrun) := by
  simp [skipBody, h, Res.done]

/-- The two skips are one body. -/
theorem exec_skip {s : State} {i : Instr} {n : Nat} (hb : s.rb.active = false)
    (hi : i = .brSkipbits ∧ n = s.arg0.toNat ∨ i = .brSkipbytes ∧ n = 8 * s.arg0.toNat) : exec i s = command s (skipBody n) := by
  obtain ⟨rfl, rfl⟩ | ⟨rfl, rfl⟩ := hi
  · exact (exec_reader rfl rfl s).trans (command_congr (if_neg (by simp [hb])))
  · exact (exec_reader rfl rfl s).trans (command_congr (if_neg (by simp [hb])))

/-- Settles O28: the checkpoint commands are `Upd()` and what they write; a skip that finds its bits folds before it and moves the
baseline behind them. -/
theorem crcCheckpointAndSkips : Obligations.CrcCheckpointAndSkips := by
  unfold Obligations.CrcCheckpointAndSkips
  refine ⟨⟨fun b => ⟨.of_half (opc := 0x3D#8) rfl rfl, busy_setcrc b⟩, .of_body rfl rfl, busy_updcrc, .of_body rfl rfl, busy_getcrc,
    fun s hs => ?checkpoint⟩, .of_body rfl rfl, .of_body rfl rfl, busy_skipbits, busy_skipbytes, fun s i n hs hi => ?skip⟩
  case checkpoint =>
    have hb := hs.noBatch
    exact ⟨exec_setcrc hs.ready hb, exec_updcrc hs.ready hb, exec_getcrc hs.ready hb, upd_rest_lt s,
      fun t u => exec_updcrc_twice hs.ready hb⟩
  case skip =>
    have hp := s.need_pulledTo n
    rw [exec_skip hs.noBatch hi]
    refine ⟨fun hdry => command_pulled_dry hs hp (skipBody_of_dry hdry), fun hthere => ?_⟩
    rw [command_pulled_ok hs hp (skipBody_of_has hthere) rfl]
    simp [State.upd, octets]

/-! ### The CRC over reads and a skip (R248) -/

/-- A skip that ended with OK (R244). -/
theorem exec_skipbits_next_ok {s t : State} (h : exec .brSkipbits s = .next t) (hok : t.status = 0#16) :
    t = { (s.need s.arg0.toNat).upd with
      cons := s.cons + s.arg0.toNat, base := s.cons + s.arg0.toNat, status := 0x0000#16 } := by
  rw [exec_reader rfl rfl] at h
  obtain ⟨u, hbody, rfl⟩ := command_next_ok h hok
  have hskip : skipBody s.arg0.toNat s = .next (u, .ok) := (noBatch_next_ok hbody).2
  cases hh : (s.need s.arg0.toNat).has s.arg0.toNat with
  | true => rw [skipBody_of_has hh] at hskip; cases hskip; rfl
  | false => rw [skipBody_of_dry hh] at hskip; cases hskip

/-- What reads do to the stream and leave alone: the cursor and the stream move on, the checkpoint stays. -/
structure ReadsTo (s t : State) : Prop where
  cons_le : s.cons ≤ t.cons
  inside : s.cons ≤ s.avail → t.cons ≤ t.avail
  stream : s.S <+: t.S
  bcrc : t.bcrc = s.bcrc
  base : t.base = s.base
  rb : t.rb = s.rb
  fault : t.fault = s.fault
  disposed : t.disposed = s.disposed

theorem ReadsTo.refl (s : State) : ReadsTo s s := ⟨le_rfl, id, List.prefix_refl _, rfl, rfl, rfl, rfl, rfl⟩

theorem ReadsTo.trans {s t u : State} (h : ReadsTo s t) (k : ReadsTo t u) : ReadsTo s u :=
  ⟨h.cons_le.trans k.cons_le, fun hs => k.inside (h.inside hs), h.stream.trans k.stream, k.bcrc.trans h.bcrc,
    k.base.trans h.base, k.rb.trans h.rb, k.fault.trans h.fault, k.disposed.trans h.disposed⟩

theorem readsTo_of_read {a : BitVec 8} {s t : State} (h : exec (.brRead64 a) s = .next t) (hok : t.status = 0#16) : ReadsTo s t := by
  obtain ⟨hthere, rfl⟩ := readCommand_next_ok h hok
  obtain ⟨R, hR⟩ := (s.need_pulledTo a.toNat).S_eq
  refine ⟨Nat.le_add_right _ _, fun _ => ?_, ⟨R, hR.symm⟩, need_bcrc .., need_base .., need_rb .., need_fault ..,
    need_disposed ..⟩
  simpa [State.avail] using State.has_iff.1 hthere

theorem readsTo_of_runReads {as : List (BitVec 8)} {s t : State} (h : runReads as s = some t) : ReadsTo s t := by
  induction as generalizing s with
  | nil => cases h; exact .refl _
  | cons a as ih =>
    unfold runReads at h
    split at h
    next u hu =>
      split at h
      next hok => exact (readsTo_of_read hu hok).trans (ih h)
      next => cases h
    next => cases h
    next => cases h

/-- What a skip of `n` bits does (R244): the octets before it are folded, cursor and baseline stand behind the skipped bits. -/
structure SkipsTo (s : State) (n : Nat) (t : State) : Prop where
  cons : t.cons = s.cons + n
  base : t.base = s.cons + n
  stream : s.S <+: t.S
  bcrc : t.bcrc = fold16 s.bcrc (octets t.S s.base ((s.cons - s.base) / 8))
  rb : t.rb = s.rb
  fault : t.fault = s.fault
  disposed : t.disposed = s.disposed

theorem skipsTo_of_skipbits {s t : State} (h : exec .brSkipbits s = .next t) (hok : t.status = 0#16) :
    SkipsTo s s.arg0.toNat t := by
  have hp := s.need_pulledTo s.arg0.toNat
  obtain ⟨R, hR⟩ := hp.S_eq
  rw [exec_skipbits_next_ok h hok]
  exact ⟨rfl, rfl, ⟨R, hR.symm⟩, by simp [State.upd], hp.rb_eq, hp.fault_eq, hp.disposed_eq⟩

theorem octets_of_prefix {S R : List Byte} (h : S <+: R) {p n : Nat} (hp : p + 8 * n ≤ 8 * S.length) :
    octets R p n = octets S p n := by
  obtain ⟨T, rfl⟩ := h
  exact octets_append _ _ _ _ hp

/-- Settles O29: reads leave the checkpoint alone (`readsTo_of_runReads`), the skip folds the octets before it and moves the
baseline past the skipped bits (`skipsTo_of_skipbits`), and BR.GETCRC folds the octets since; the stream only grew, so all octets
are of the last one. -/
theorem skipAndCrc : Obligations.SkipAndCrc := by
  unfold Obligations.SkipAndCrc
  intro s s0 s1 s2 s3 t c n r1 r2 hinv hacc hset hreads1 hskip hok hreads2 hget octs
  rw [exec_setcrc hacc.ready hacc.noBatch] at hset
  cases hset
  have before := readsTo_of_runReads hreads1
  have skip : SkipsTo s1 n.toNat s2 :=
    let k := skipsTo_of_skipbits hskip hok
    ⟨k.cons, k.base, k.stream, k.bcrc, k.rb, k.fault, k.disposed⟩
  have after := readsTo_of_runReads hreads2
  have hready : s3.Ready :=
    ⟨(after.fault.trans (skip.fault.trans before.fault)).trans hacc.ready.noFault,
      (after.disposed.trans (skip.disposed.trans before.disposed)).trans hacc.ready.open_⟩
  have hbatch : s3.rb.active = false := by
    rw [after.rb, skip.rb, before.rb]
    exact hacc.noBatch
  rw [exec_getcrc hready hbatch] at hget
  cases hget
  have hbase1 : s1.base = s.cons := before.base
  have hbcrc1 : s1.bcrc = c := before.bcrc
  have hle : s.cons ≤ s1.cons := before.cons_le
  have hin : s1.cons ≤ 8 * s1.S.length := before.inside hinv.consLe
  have hgrown := Nat.mul_le_mul_left 8 skip.stream.length_le
  have first : octets s2.S s.cons ((s1.cons - s.cons) / 8) = octets s3.S s.cons ((s1.cons - s.cons) / 8) :=
    (octets_of_prefix after.stream (by omega)).symm
  have hbcrc2 : s2.bcrc = fold16 c (octets s3.S s.cons ((s1.cons - s.cons) / 8)) := by
    rw [skip.bcrc, hbase1, hbcrc1, first]
  show (fold16 s3.bcrc (octets s3.S s3.base ((s3.cons - s3.base) / 8))).setWidth 64 = _
  rw [after.bcrc, after.base, hbcrc2, skip.base, Nat.sub_add_eq]
  rfl

end Sys2Proof.Machine
end

section
/-! PROOFS. The Rice rules of 41_bitreader.md: the zigzag inverse, BR.RICE, and BR.RICEB as so many BR.RICE commands. -/

namespace Sys2Proof.Machine

/-! ### The zigzag inverse and the Rice code (41_bitreader.md R222, R226) -/

/-- `zigzag` takes the zigzag code of an int32 back to it. -/
theorem zigzag_of_code {x : Word} {v : Nat} (hv : (v : Int) = if 0 ≤ x.toInt then 2 * x.toInt else -2 * x.toInt - 1) :
    v < 2 ^ 32 ∧ zigzag (BitVec.ofNat 32 v) = x := by
  have hlow := BitVec.le_toInt x
  have hhigh := BitVec.toInt_lt (x := x)
  have hlt : v < 2 ^ 32 := by split at hv <;> omega
  refine ⟨hlt, BitVec.eq_of_toInt_eq ?_⟩
  rw [zigzag_toInt, BitVec.toNat_ofNat, Nat.mod_eq_of_lt hlt]
  split at hv <;> split <;> omega

theorem zigzag_injective : Function.Injective zigzag := by
  intro v w h
  have hint := congrArg BitVec.toInt h
  rw [zigzag_toInt, zigzag_toInt] at hint
  refine BitVec.eq_of_toNat_eq ?_
  split at hint <;> split at hint <;> omega

theorem zigzag_surjective : Function.Surjective zigzag := by
  intro x
  have hnonneg : 0 ≤ if 0 ≤ x.toInt then 2 * x.toInt else -2 * x.toInt - 1 := by split <;> omega
  obtain ⟨v, hv⟩ := Int.eq_ofNat_of_zero_le hnonneg
  exact ⟨_, (zigzag_of_code hv.symm).2⟩

/-! ### BR.RICE (R223, R224) -/

theorem riceBody_value {k : Nat} {s t : State} {x : Word} (h : s.rice k = (t, .value x)) :
    riceBody k s = .next ({ t with res0 := x.signExtend 64 }, .ok) := by
  simp only [riceBody, h, Res.done]

theorem riceBody_short {k : Nat} {s t : State} (h : s.rice k = (t, .short)) : riceBody k s = .next (t, .underrun) := by
  simp only [riceBody, h, Res.done]

theorem riceBody_tooLong {k : Nat} {s t : State} (h : s.rice k = (t, .tooLong)) :
    riceBody k s = .next (t, .invalid .riceOverflow) := by
  simp only [riceBody, h, Res.done]

/-- Settles O22: the inverse in ℤ is `zigzag_toInt`; a bijection because halves and signs tell the codes apart and every int32
has one (`zigzag_of_code`); BR.RICE on the code of `x` finds `v div 2^k` zeros and `v mod 2^k`, so it decodes `v`. -/
theorem riceRoundTrip : Obligations.RiceRoundTrip := by
  unfold Obligations.RiceRoundTrip
  refine ⟨⟨fun v hv => ?even, fun v hv => ?odd, zigzag_injective, zigzag_surjective⟩, ?decodes⟩
  case even => rw [zigzag_toInt, if_pos hv]
  case odd => rw [zigzag_toInt, if_neg (by omega)]
  case decodes =>
    intro s a x v hs ha hv k q hthere hzeros hone hrest
    obtain ⟨hlt, hx⟩ := zigzag_of_code hv
    have hvalue : q * 2 ^ k + field s.S (s.cons + q + 1) k = v := by
      rw [hrest]
      exact Nat.div_add_mod' v (2 ^ k)
    have hq : q * 2 ^ k < 2 ^ 32 := by omega
    have hneed := State.need_of_has hthere
    have hneed1 := State.need_of_has (State.has_mono (by omega : q + 1 ≤ q + 1 + k) hthere)
    have hrice : s.rice k = ({ s with cons := s.cons + q + 1 + k }, .value x) := by
      rw [(State.rice_cases hq (by rwa [hneed1])).1 (by rwa [hneed]) (by rwa [hneed1]), hneed, hvalue, hx]
    rw [exec_rice hs ha]
    exact command_pulled_ok hs (.refl s) (riceBody_value hrice) rfl

/-- Below 2^32 the multiples of 2^k leave room for a remainder (R223). -/
theorem rice_lt {q k r : Nat} (hk : k ≤ 31) (hq : q * 2 ^ k < 2 ^ 32) (hr : r < 2 ^ k) : q * 2 ^ k + r < 2 ^ 32 := by
  have hsplit : 2 ^ 32 = 2 ^ (32 - k) * 2 ^ k := by rw [← pow_add]; congr 1; omega
  have hlt : q < 2 ^ (32 - k) := Nat.lt_of_mul_lt_mul_right (hsplit ▸ hq)
  calc q * 2 ^ k + r < (q + 1) * 2 ^ k := by rw [Nat.add_one_mul]; omega
    _ ≤ 2 ^ (32 - k) * 2 ^ k := Nat.mul_le_mul_right _ hlt
    _ = 2 ^ 32 := hsplit.symm

/-- Settles O21: `Rice(k)` by its four cases (`rice_cases`); the value fits 32 bits by `rice_lt`. -/
theorem riceCommand : Obligations.RiceCommand := by
  unfold Obligations.RiceCommand
  refine ⟨fun a => .of_body rfl rfl, fun a => busy_rice, ?width, ?ready⟩
  case width =>
    intro s a hs ha
    rw [exec_reader rfl rfl]
    exact command_violation (c := .widthRange) hs (if_neg (mt riceOk_iff.1 ha.not_ge)) rfl
  case ready =>
    intro s a hs ha
    rw [exec_rice hs ha]
    refine ⟨reader_ends hs (riceBody_next _ s) (riceBody_ok _ s), ?_⟩
    intro q k t u hq hzeros
    obtain ⟨hvalue, hshort, hover, hdry⟩ := State.rice_cases hq hzeros
    exact ⟨fun hthere hone => ⟨rice_lt ha hq (field_lt _ _ _),
        command_pulled_ok hs (s.need_pulledTo _) (riceBody_value (hvalue hthere hone)) rfl⟩,
      fun hthere hone hfew => command_pulled_dry hs (s.need_pulledTo _) (riceBody_short (hshort hthere hone hfew)),
      fun hthere hzero hmany =>
        command_pulled_invalid hs (s.need_pulledTo _) (riceBody_tooLong (hover hthere hzero hmany)) rfl rfl,
      fun hfew hbefore => command_pulled_dry hs (s.need_pulledTo _) (riceBody_short (hdry hfew hbefore))⟩

/-! ### A batch is as many single decodes -/

/-- The record of a new batch (41_bitreader.md R232). -/
def State.newBatch (s : State) (k : Nat) : RiceBatch :=
  ⟨decide (0 < s.arg1.toNat), k, s.arg0.toNat, s.arg1.toNat, .quot, 0, 0, 0⟩

theorem exec_cfg {i : Instr} {s t : State} (h : exec i s = .next t) (hi : i ≠ .sysReset) : t.cfg = s.cfg := by
  obtain ⟨-, -, -, hcfg, -⟩ := registerOwners i s t h hi
  exact hcfg

theorem runRice_cfg {a : BitVec 8} {n : Nat} {s t : State} {xs : List Word} (h : runRice a n s = some (t, xs)) : t.cfg = s.cfg := by
  induction n generalizing s xs with
  | zero => cases h; rfl
  | succ n ih =>
    unfold runRice at h
    split at h
    next u hu =>
      split at h
      next =>
        split at h
        next v ys hv =>
          cases h
          exact (ih hv).trans (exec_cfg hu nofun)
        next => cases h
      next => cases h
    next => cases h
    next => cases h

/-- On a machine with no buffer words, where the loop of a batch compacts as single decodes do. -/
theorem exec_riceb_of_runRice {a : BitVec 8} {s t : State} {xs : List Word} (hW : s.cfg.W = 0) (hin : s.cons ≤ s.avail)
    (hwf : Memory.wf s.dmem = true) (hs : s.Accepts) (ha : a.toNat ≤ 31)
    (hrange : s.arg0.toNat + 4 * s.arg1.toNat ≤ s.cfg.dmemBytes) (halign : s.arg0.toNat % 4 = 0)
    (h : runRice a s.arg1.toNat s = some (t, xs)) : exec (.brRiceb a) s = .next { t with
      dmem := memWriteWords s.dmem s.arg0.toNat xs
      rb := ⟨false, a.toNat, s.arg0.toNat + 4 * s.arg1.toNat, 0, .quot, 0, 0, 0⟩
      res0 := s.arg1, res1 := addressReg (s.arg0.toNat + 4 * s.arg1.toNat), res2 := 0#64, status := 0x0000#16 } := by
  obtain ⟨hsingles, hlen, hgrown, hfits⟩ := riceSingles_of_run a _ s t xs hs ha h
  have hloop := riceFrom_singles (n := 0) hsingles hW hin s.arg0.toNat s.dmem hwf s.res0 s.res1 s.res2 s.status
    (decide (0 < s.arg1.toNat))
  have hroom := hs.room
  unfold State.Room at hroom
  rw [hlen] at hloop
  rw [show exec (.brRiceb a) s = _ from rice_start hs ha hrange halign s.S, command_of_ready hs.ready hloop, endWith_ok]
  · simp [natReg]
  · simp only [streamOverflow, Bool.and_eq_false_iff, decide_eq_false_iff_not]
    omega

/-- BR.RICE with a legal parameter outside a batch is its body. -/
theorem exec_rice_of_noBatch {s : State} {a : BitVec 8} (ha : a.toNat ≤ 31) (hb : s.rb.active = false) :
    exec (.brRice a) s = command s (riceBody a.toNat) := by
  have hlegal : readerBody (.brRice a) = fun s => noBatch s (riceBody a.toNat s) :=
    funext fun s => if_pos (decide_eq_true ha)
  exact exec_of_noBatch hb fun s => hlegal ▸ exec_reader rfl rfl s

/-- A source with no answer left brings nothing. -/
theorem State.PulledTo.S_of_exhausted {s t : State} (h : s.PulledTo t) (hu : s.upstream = []) : t.S = s.S := by
  obtain ⟨pre, hpre, hS, -⟩ := h.answers
  rw [hu, List.nil_eq_append_iff] at hpre
  simpa [hpre.1] using hS

section ended
variable {s t : State} {a : BitVec 8}

/-- BR.RICE runs dry where the loop of a batch did, when nothing more is to come. -/
theorem exec_rice_of_dry (ha : a.toNat ≤ 31) (hs : s.Ready) (hb : s.rb.active = false) (hu : s.upstream = [])
    (hp : RicePart s.S t s.cons) (hk : t.rb.k = a.toNat) (hd : 8 * s.S.length < t.cons + 1)
    (hn : t.rb.phase = .rem → t.rb.rn < t.rb.k) : ∃ w, exec (.brRice a) s = .next w ∧ w.status = 0x0001#16 := by
  obtain ⟨u, hpulled, hrice⟩ := State.rice_of_dry hu hp hk hd hn
  refine ⟨_, (exec_rice_of_noBatch ha hb).trans (command_ready_same hs (riceBody_short hrice) ?_), rfl⟩
  exact hpulled.S_of_exhausted hu

/-- BR.RICE gives up where the loop of a batch did. -/
theorem exec_rice_of_tooLong (ha : a.toNat ≤ 31) (hs : s.Ready) (hb : s.rb.active = false) (h : s.rice a.toNat = (s, .tooLong)) :
    ∃ w, exec (.brRice a) s = .next w ∧ w.status = 0x0503#16 :=
  ⟨_, (exec_rice_of_noBatch ha hb).trans (command_ready_same hs (riceBody_tooLong h) rfl), rfl⟩

end ended

/-- The first half of R234: where single decodes succeed, a batch does the same. The loop compacts as they do on a machine with no
buffer words, and neither looks at the width (`runRice_ww`, `exec_riceb_ww`). -/
theorem riceb_of_runRice {s t : State} {a : BitVec 8} {xs : List Word} (hinv : s.Inv) (hs : s.Accepts) (ha : a.toNat ≤ 31)
    (hrange : s.arg0.toNat + 4 * s.arg1.toNat ≤ s.cfg.dmemBytes) (halign : s.arg0.toNat % 4 = 0)
    (h : runRice a s.arg1.toNat s = some (t, xs)) : ∃ d : Nat, exec (.brRiceb a) s = .next { t with
      dw := d, dmem := memWriteWords s.dmem s.arg0.toNat xs
      rb := ⟨false, a.toNat, s.arg0.toNat + 4 * s.arg1.toNat, 0, .quot, 0, 0, 0⟩
      res0 := s.arg1, res1 := addressReg (s.arg0.toNat + 4 * s.arg1.toNat), res2 := 0#64, status := 0x0000#16 } := by
  obtain ⟨d', hww⟩ := runRice_ww 0 s.dw h
  have hs' : (s.ww 0 s.dw).Accepts := ⟨⟨hs.ready.noFault, hs.ready.open_⟩, hs.noBatch, hs.room⟩
  have hbatch := exec_riceb_of_runRice (s := s.ww 0 s.dw) rfl hinv.consLe hinv.dmemWf hs' ha hrange halign hww
  obtain ⟨d, hback⟩ := exec_riceb_ww s.cfg.W s.dw hbatch
  have hcfg : ({ t.cfg with W := s.cfg.W } : Config) = t.cfg := by rw [runRice_cfg h]
  refine ⟨d, (show exec (.brRiceb a) s = _ from hback).trans ?_⟩
  simp [State.ww, hcfg]

/-- The second half of R234, however often the batch is suspended and however it ends. -/
theorem runRiceb_is_rice {s u : State} {a : BitVec 8} {more : List (List PullAnswer)} (hinv : s.Inv) (hs : s.Accepts)
    (ha : a.toNat ≤ 31) (hsize : s.cfg.dmemBytes ≤ 2 ^ 64)
    (hrange : s.arg0.toNat + 4 * s.arg1.toNat ≤ s.cfg.dmemBytes) (halign : s.arg0.toNat % 4 = 0)
    (h : runRiceb a more s = some u) :
    ∃ (n : Nat) (v : State) (xs : List Word), n + u.res2.toNat = s.arg1.toNat ∧
      runRice a n { s with S := u.S } = some (v, xs) ∧ u.dmem = memWriteWords s.dmem s.arg0.toNat xs ∧
      (u.status = 0x0000#16 ∧ n = s.arg1.toNat ∧ v.cons = u.cons ∧
          (∃ w, exec (.brRiceb a) { s with S := u.S } = .next w ∧ w.status = 0x0000#16 ∧ w.dmem = u.dmem ∧ w.cons = u.cons) ∨
        u.status = 0x0001#16 ∧ n < s.arg1.toNat ∧
          (∃ w, exec (.brRice a) { v with upstream := [] } = .next w ∧ w.status = 0x0001#16) ∨
        u.status = 0x0503#16 ∧ n < s.arg1.toNat ∧ (∃ w, exec (.brRice a) v = .next w ∧ w.status = 0x0503#16)) := by
  have hin : s.cons ≤ 8 * u.S.length := by
    have hgrown := (runRiceb_prefix h).length_le
    have hle : s.cons ≤ 8 * s.S.length := hinv.consLe
    omega
  obtain ⟨⟨ys, p', left, t, st, hcoded, hdmem, hcount, hres2, hstatus, hstop, htS, htcons⟩, replay⟩ :=
    runRiceb_decodes (s0 := { s with rb := s.newBatch a.toNat }) (p0 := s.cons) (p := s.cons) (dst := s.arg0.toNat) (d := s.dmem)
      (xs := []) hs.ready (rice_start hs ha hrange halign s.S) rfl rfl (fun hpos => decide_eq_true hpos) (fun _ => rfl) hinv.dmemWf
      (.new hin rfl rfl rfl rfl) (.nil _) (memWriteWords_nil _ _ hinv.dmemWf).symm rfl
      (by simp only [State.newBatch, List.length_nil]; omega) h
  have hready : ({ s with S := u.S } : State).Ready := ⟨hs.ready.noFault, hs.ready.open_⟩
  obtain ⟨v, hrun, hv⟩ := runRice_of_coded (s := { s with S := u.S }) ha hready hs.noBatch hcoded
  have hleft : ys.length + left = s.arg1.toNat := by simpa [State.newBatch] using hcount
  have hres2' : u.res2.toNat = left := by
    have := s.arg1.isLt
    rw [hres2, natReg, BitVec.toNat_ofNat, Nat.mod_eq_of_lt (by omega)]
  refine ⟨ys.length, v, ys, by rw [hres2', hleft], hrun, hdmem, ?_⟩
  cases hstop with
  | all h0 hc =>
    obtain ⟨t', hloop, hcons, hmem, hS⟩ := replay 0 { s with S := u.S, rb := s.newBatch a.toNat } rfl rfl rfl rfl hstatus
    have hw : exec (.brRiceb a) { s with S := u.S } = .next (t'.endWith .ok) :=
      (rice_start hs ha hrange halign u.S).trans (command_ready_same hready hloop hS)
    exact .inl ⟨hstatus, by omega, by rw [hv, ← hc, htcons], _, hw, rfl, hmem, hcons⟩
  | dry hpos hpart _ hk _ hend hrn =>
    have hv' : ({ v with upstream := [] } : State).Ready := by rw [hv]; exact ⟨hs.ready.noFault, hs.ready.open_⟩
    refine .inr (.inl ⟨hstatus, by omega, exec_rice_of_dry ha hv' ?_ rfl ?_ hk ?_ hrn⟩)
    · rw [hv]; exact hs.noBatch
    · rw [hv]; exact hpart
    · rw [hv, ← htS]; exact hend
  | tooLong hpos z hzeros hinside hover hfits =>
    have hv' : v.Ready := by rw [hv]; exact ⟨hs.ready.noFault, hs.ready.open_⟩
    refine .inr (.inr ⟨hstatus, by omega, exec_rice_of_tooLong ha hv' ?_ (State.rice_of_tooLong (z := z) ?_ ?_ hover hfits)⟩)
    · rw [hv]; exact hs.noBatch
    · rw [hv]; exact hzeros
    · rw [hv]; exact hinside

/-- Settles O24: the two halves of R234 are `riceb_of_runRice` and `runRiceb_is_rice`. -/
theorem ricebIsRice : Obligations.RicebIsRice := by
  unfold Obligations.RicebIsRice
  refine ⟨?_, fun s u a more => runRiceb_is_rice⟩
  intro s t a xs hinv hs ha hrange halign h
  obtain ⟨d, hd⟩ := riceb_of_runRice hinv hs ha hrange halign h
  exact ⟨d, _, addressReg_of_lt, hd⟩

/-! ### BR.RICEB: its checks and its end (R232, R233) -/

section start
variable {s : State} {a : BitVec 8}

theorem riceStart_width (ha : 31 < a.toNat) : riceStart a s = Res.violation s .widthRange :=
  if_neg (mt riceOk_iff.1 ha.not_ge)

theorem riceStart_range (ha : a.toNat ≤ 31) (hr : s.cfg.dmemBytes < s.arg0.toNat + 4 * s.arg1.toNat) :
    riceStart a s = Res.violation s .dmemRange := by
  rw [riceStart, if_pos (riceOk_iff.2 ha), if_neg (mt rangeOk_iff.1 hr.not_ge)]

theorem riceStart_align (ha : a.toNat ≤ 31) (hr : s.arg0.toNat + 4 * s.arg1.toNat ≤ s.cfg.dmemBytes) (hal : s.arg0.toNat % 4 ≠ 0) :
    riceStart a s = Res.violation s .dmemAlign := by
  rw [riceStart, if_pos (riceOk_iff.2 ha), if_pos (rangeOk_iff.2 hr), if_neg (mt alignOk_iff.1 hal)]

theorem riceStart_legal (ha : a.toNat ≤ 31) (hr : s.arg0.toNat + 4 * s.arg1.toNat ≤ s.cfg.dmemBytes) (hal : s.arg0.toNat % 4 = 0) :
    riceStart a s = riceFrom 0 { s with rb := s.newBatch a.toNat } := by
  rw [riceStart, if_pos (riceOk_iff.2 ha), if_pos (rangeOk_iff.2 hr), if_pos (alignOk_iff.2 hal), riceRun_eq]
  rfl

theorem riceContinue_other (h : ¬(a.toNat = s.rb.k ∧ s.arg0.toNat = s.rb.dst ∧ s.arg1.toNat = s.rb.remaining)) :
    riceContinue a s = Res.violation s .batchInProgress := if_neg h

theorem riceContinue_own (h : a.toNat = s.rb.k ∧ s.arg0.toNat = s.rb.dst ∧ s.arg1.toNat = s.rb.remaining) :
    riceContinue a s = riceFrom 0 s := if_pos h

theorem readerBody_riceb_new (hb : s.rb.active = false) : readerBody (.brRiceb a) s = riceStart a s := if_neg (by simp [hb])

theorem readerBody_riceb_continued (hb : s.rb.active = true) : readerBody (.brRiceb a) s = riceContinue a s := if_pos hb

end start

/-- The batch with which the loop of a legal BR.RICEB starts: the operands are its own, and it is active while values remain. -/
structure RiceBatch.Runs (rb : RiceBatch) (k a len : Nat) : Prop where
  k : rb.k = k
  dst : rb.dst = a
  remaining : rb.remaining = len
  active : 0 < len → rb.active = true

/-- A legal BR.RICEB, new or continued, is the loop of R232 from some batch record. -/
theorem readerBody_riceb_legal {s : State} {a : BitVec 8}
    (h : s.rb.active = false ∧ a.toNat ≤ 31 ∧ s.arg0.toNat + 4 * s.arg1.toNat ≤ s.cfg.dmemBytes ∧ s.arg0.toNat % 4 = 0 ∨
      s.rb.active = true ∧ a.toNat = s.rb.k ∧ s.arg0.toNat = s.rb.dst ∧ s.arg1.toNat = s.rb.remaining) :
    ∃ rb : RiceBatch, rb.Runs a.toNat s.arg0.toNat s.arg1.toNat ∧ readerBody (.brRiceb a) s = riceFrom 0 { s with rb := rb } := by
  obtain ⟨hb, ha, hrange, halign⟩ | ⟨hb, hk, hdst, hrem⟩ := h
  · exact ⟨s.newBatch a.toNat, ⟨rfl, rfl, rfl, decide_eq_true⟩,
      (readerBody_riceb_new hb).trans (riceStart_legal ha hrange halign)⟩
  · exact ⟨s.rb, ⟨hk.symm, hdst.symm, hrem.symm, fun _ => hb⟩,
      (readerBody_riceb_continued hb).trans (riceContinue_own ⟨hk, hdst, hrem⟩)⟩

/-- However the loop of R232 ends, it latches no fault. -/
theorem RiceOk.endWith_eq {s t : State} {st : Status} (h : RiceOk s t st) : t.endWith st = { t with status := st.word } := by
  obtain rfl | rfl | rfl := h.status <;> rfl

theorem addressReg_toNat (r : Reg) : addressReg r.toNat = r := by
  rw [addressReg_of_lt r.isLt, BitVec.ofNat_toNat, BitVec.setWidth_eq]

/-- A batch of no values succeeds at once (R232). -/
theorem riceFrom_newBatch_empty {s : State} (k : Nat) (h : s.arg1 = 0#64) : riceFrom 0 { s with rb := s.newBatch k } = .next ({ s with
    rb := ⟨false, k, s.arg0.toNat, 0, .quot, 0, 0, 0⟩, res0 := 0#64, res1 := s.arg0, res2 := 0#64 }, .ok) := by
  rw [riceFrom_end (by simp [State.newBatch, h])]
  simp [State.riceResults, State.newBatch, h, addressReg_toNat, natReg]

/-- Settles O23: the checks are `riceStart`'s, in its order; a legal BR.RICEB is the loop of R232 (`readerBody_riceb_legal`), which
ends (`riceLoop_next`), keeps what is not its own (`RiceOk`) and reports the values it wrote (`RiceEnd`). -/
theorem ricebCommand : Obligations.RicebCommand := by
  unfold Obligations.RicebCommand
  refine ⟨⟨fun a => .of_body rfl rfl, fun s a hs hb => ?checks⟩, fun s a _ hs hroom hlegal => ?legal⟩
  case checks =>
    rw [exec_reader rfl rfl]
    have hnew : readerBody (.brRiceb a) s = riceStart a s := readerBody_riceb_new hb
    refine ⟨fun ha => command_violation hs (hnew.trans (riceStart_width ha)) rfl,
      fun ha hr => command_violation hs (hnew.trans (riceStart_range ha hr)) rfl,
      fun ha hr hal => command_violation hs (hnew.trans (riceStart_align ha hr hal)) rfl, fun ha hr hal hempty => ?_⟩
    have hstart := riceStart_legal ha (s := s) (by simpa [hempty] using hr) hal
    exact command_done hs (hnew.trans (hstart.trans (riceFrom_newBatch_empty a.toNat hempty))) rfl rfl
  case legal =>
    obtain ⟨rb, hrb, hbody⟩ := readerBody_riceb_legal hlegal
    obtain ⟨t, st, hloop⟩ := riceLoop_next (2 * State.bitsAhead { s with rb := rb } + 3) 0 { s with rb := rb }
    have hok := riceFrom_ok hloop
    obtain ⟨n, hr0, hle, hr1, hr2, houtside, hends⟩ := riceLoop_end _ _ _ _ _ (State.riceMeasure_lt _) hloop
    simp only [hrb.k, hrb.dst, hrb.remaining] at hle hr1 hr2 houtside hends
    have hover : streamOverflow s t = false := State.Room.noOverflow_advance (s := { s with rb := rb }) hroom hok.adv
    rw [exec_reader rfl rfl]
    refine ⟨_, n, command_of_ready hs (hbody.trans hloop) hover, ?_, houtside, hle, ?_, fun hlt => ?_, hr2, ?_⟩
    · rw [hok.endWith_eq, hok.kept]
    · rw [endWith_res0, hr0, Nat.zero_add, natReg]
    · rw [endWith_res1, hr1, addressReg_of_lt hlt]
    · obtain ⟨rfl, hn, hact⟩ | ⟨rfl, hlt, hact, hk, hdst, hrem⟩ | ⟨rfl, hlt, hrb'⟩ := hends
      · exact .inl ⟨rfl, hn, hact⟩
      · exact .inr (.inl ⟨rfl, hlt, hact.trans (hrb.active (by omega)), hk, hdst, hrem⟩)
      · exact .inr (.inr ⟨rfl, hlt, hrb'⟩)

/-! ### During a batch (41_bitreader.md R233) -/

theorem word_eq_batch (st : Status) : st.word = 0x0705#16 ↔ st = .violation .batchInProgress := by
  cases st with
  | ok => decide
  | underrun => decide
  | endOfStream => decide
  | invalid c => cases c <;> decide
  | fatal c => cases c <;> decide
  | violation c => cases c <;> decide

/-- The body does not end with the violation of the batch check. -/
def Res.Passes (r : Res) : Prop := ∀ u st, r = .next (u, st) → st ≠ .violation .batchInProgress

theorem Res.Passes.done {s : State} {st : Status} (h : st ≠ .violation .batchInProgress) : Res.Passes (Res.done s st) := by
  rintro u st' ⟨⟩
  exact h

theorem Res.Passes.ok (s : State) : Res.Passes (Res.done s .ok) := .done nofun

/-- A command whose body passes the batch check does not end with its violation. -/
theorem status_of_passes {s t : State} {body : State → Res} (hs : s.Ready) (h : command s body = .next t)
    (hb : Res.Passes (body s)) : t.status ≠ 0x0705#16 := by
  cases command_next h with
  | sticky hfault => exact absurd hs.noFault hfault
  | disposed _ hd => simp [hs.open_] at hd
  | ran _ u st hbody _ => exact mt (word_eq_batch st).1 (hb u st hbody)

theorem spanCommand_passes {s t : State} {absorb : State → List Byte → State} (hs : s.Ready)
    (h : spanCommand s absorb = .next t) : t.status ≠ 0x0705#16 := by
  refine status_of_passes hs h ?_
  split
  · exact .ok _
  · exact .done nofun

theorem cfgBody_passes (sel : Nat) (s : State) : Res.Passes (cfgBody sel s) := by
  unfold cfgBody
  split
  iterate 3 split <;> exact .done nofun
  exact .done nofun

theorem refillBody_passes (s : State) : Res.Passes (refillBody s) := by
  unfold refillBody
  split <;> exact .done nofun

theorem frInfo_passes {a : BitVec 8} {s t : State} (hs : s.Ready) (h : exec (.frInfo a) s = .next t) : t.status ≠ 0x0705#16 := by
  simp only [exec, execFrInfo] at h
  refine status_of_passes hs h ?_
  split
  · split <;> exact .done nofun
  · exact .done nofun

/-- A command that is accepted in every state ends with OK where no fault is latched (60_exceptions.md R406). -/
theorem status_of_endAccepted {s t : State} (hf : s.fault = 0#16)
    (h : Host.Outcome.next (ρ := Refusal) (φ := Fault) s.endAccepted = .next t) : t.status = 0#16 := by
  cases h
  simp [endAccepted_eq, hf]

/-- What is accepted during a batch (R233). -/
theorem accepted_in_batch {i : Instr} {s t : State} (hi : family i = .crc8 ∨ family i = .crc16 ∨ family i = .system ∨
      i = .brRefill ∨ i = .brEos ∨ i = .brPos ∨ i = .brAligned ∨ (∃ a, i = .frInfo a)) (hs : s.Ready)
    (h : exec i s = .next t) : t.status ≠ 0x0705#16 := by
  cases i with
  | crc8Set b => exact status_of_passes hs (exec_crc8Set b s ▸ h) (.ok _)
  | crc8Get => exact status_of_passes hs (exec_crc8Get s ▸ h) (.ok _)
  | crc8Byte b => exact status_of_passes hs (exec_crc8Byte b s ▸ h) (.ok _)
  | crc16Set b => exact status_of_passes hs (exec_crc16Set b s ▸ h) (.ok _)
  | crc16Get => exact status_of_passes hs (exec_crc16Get s ▸ h) (.ok _)
  | crc16Byte b => exact status_of_passes hs (exec_crc16Byte b s ▸ h) (.ok _)
  | brAligned | brPos =>
    rw [exec_reader rfl rfl] at h
    exact status_of_passes hs h (.ok _)
  | crc8Span => exact spanCommand_passes hs (exec_crc8Span s ▸ h)
  | crc16Span => exact spanCommand_passes hs (exec_crc16Span s ▸ h)
  | crc16Spanb => exact spanCommand_passes hs (exec_crc16Span s ▸ bulkIsScalar s ▸ h)
  | brRefill => exact status_of_passes hs h (refillBody_passes s)
  | sysCfg a => exact status_of_passes hs h (cfgBody_passes _ s)
  | frInfo a => exact frInfo_passes hs h
  | sysReset => cases h; nofun
  | brEos | sysDispose | sysStatus =>
    rw [status_of_endAccepted (by exact hs.noFault) h]
    nofun
  | _ => simp [family] at hi

/-- The loop of R232 ends with OK, UNDERRUN or RICE_OVERFLOW. -/
theorem riceFrom_passes (n : Nat) (s : State) : Res.Passes (riceFrom n s) := by
  intro u st h
  obtain rfl | rfl | rfl := (riceFrom_ok h).status <;> nofun

/-- PCM.READ checks its range and its alignment before the batch (44_reconstruct.md R364, 60_exceptions.md R408). -/
theorem exec_pcmRead_of_active {s : State} (hs : s.Ready) (hb : s.rb.active = true)
    (hr : s.arg0.toNat + 4 * s.arg1.toNat ≤ s.cfg.dmemBytes) (hal : s.arg0.toNat % 4 = 0) :
    exec .pcmRead s = .next { s with status := 0x0705#16, fault := 0x0705#16 } := by
  simp only [exec, execPcmRead]
  refine command_violation (c := .batchInProgress) hs ?_ rfl
  rw [if_pos (rangeOk_iff.2 hr), if_pos (alignOk_iff.2 hal), noBatch_of_active hb]

theorem busy_frDecode : Busy .frDecode := by
  intro s hs hb
  simp only [exec, execFrDecode]
  exact command_violation hs (noBatch_of_active hb _) rfl

theorem busy_frStep : Busy .frStep := by
  intro s hs hb
  simp only [exec, execFrStep]
  exact command_violation hs (noBatch_of_active hb _) rfl

/-- Settles O25: BR.RICEB goes on with the batch's own operands only; a command behind the batch check is turned away
(`busy_reader`), and no other ends with the violation of that check (`accepted_in_batch`). -/
theorem batchInProgress : Obligations.BatchInProgress := by
  unfold Obligations.BatchInProgress
  refine ⟨?other, ?own, ?readers, busy_setcrc, fun a => ⟨busy_read32, busy_read64, busy_rice⟩,
    fun s => exec_pcmRead_of_active, fun i s t => accepted_in_batch, ?reset⟩
  case other =>
    intro s a hs hb hother
    rw [exec_reader rfl rfl]
    exact command_violation hs ((readerBody_riceb_continued hb).trans (riceContinue_other hother)) rfl
  case own =>
    intro s t a hs hb hown h
    rw [exec_reader rfl rfl] at h
    refine status_of_passes hs h ?_
    rw [readerBody_riceb_continued hb, riceContinue_own hown]
    exact riceFrom_passes 0 s
  case readers =>
    simp only [List.forall_mem_cons]
    exact ⟨busy_readbyte, busy_unary, busy_utf8x32, busy_utf8x64, busy_zpad, busy_skipbits, busy_skipbytes, busy_getcrc,
      busy_updcrc, busy_frDecode, busy_frStep, List.forall_mem_nil _⟩
  case reset =>
    intro s t h
    cases h
    rfl

end Sys2Proof.Machine
end

section
/-! PROOFS. The BitReader rules that hold for every command: no dependence on the word width (41_bitreader.md R214) and atomicity
(R216). -/

namespace Sys2Proof.Machine

/-! ### The word width -/

theorem readerBody_ww {i : Instr} (hi : family i = .bitReader) (s : State) (w d : Nat) :
    ∃ d', readerBody i (s.ww w d) = (readerBody i s).ww w d' := by
  have checkedBy (b : Bool) (c : ViolationCause) {r r' : Res} (h : ∃ d', r' = r.ww w d') :
      ∃ d', (if b then noBatch (s.ww w d) r' else Res.violation (s.ww w d) c) =
        (if b then noBatch s r else Res.violation s c).ww w d' := by
    cases b with
    | true => exact noBatch_ww h
    | false => exact ⟨d, rfl⟩
  cases i with
  | brRead32 a => exact checkedBy _ _ (readField_ww _ s w d)
  | brRead64 a => exact checkedBy _ _ (readField_ww _ s w d)
  | brReadbyte => exact noBatch_ww (readField_ww 8 s w d)
  | brUnary => exact noBatch_ww (unary_ww s w d)
  | brRice a => exact checkedBy _ _ (riceBody_ww _ s w d)
  | brRiceb a => exact riceb_ww a s w d
  | brUtf8x32 => exact noBatch_ww (utf8Body_ww 32 s w d)
  | brUtf8x64 => exact noBatch_ww (utf8Body_ww 64 s w d)
  | brZpad => exact noBatch_ww (zpad_ww s w d)
  | brSkipbits => exact noBatch_ww (skip_ww _ s w d)
  | brSkipbytes => exact noBatch_ww (skip_ww _ s w d)
  | brRefill => exact refill_ww s w d
  | brGetcrc => exact noBatch_ww ⟨d, rfl⟩
  | brSetcrc b => exact noBatch_ww ⟨d, rfl⟩
  | brUpdcrc => exact noBatch_ww ⟨d, rfl⟩
  | brAligned => exact ⟨d, rfl⟩
  | brPos => exact ⟨d, rfl⟩
  | brEos => exact ⟨d, rfl⟩
  | _ => cases hi

/-- Settles O18: no body of a BitReader command looks at the word width or the count of discarded words (`readerBody_ww`), and
the common checks do not either (`command_ww`). -/
theorem wordIndependence : Obligations.WordIndependence := by
  unfold Obligations.WordIndependence
  intro i s t w d hi h
  cases hc : checked i with
  | true =>
    rw [exec_reader hi hc] at h
    obtain ⟨d', hd⟩ := command_ww (readerBody_ww hi s w d) h
    exact ⟨d', (exec_reader hi hc (s.ww w d)).trans hd⟩
  | false =>
    obtain rfl := reader_unchecked hi hc
    cases h
    exact ⟨d, rfl⟩

/-! ### Atomicity (41_bitreader.md R216) -/

/-- However the body ends but with OK, it leaves only its pulls behind. -/
def Res.Atomic (s : State) (r : Res) : Prop := ∀ u st, r = .next (u, st) → st ≠ .ok → s.PulledTo u

theorem Res.Atomic.pulled {s t : State} (h : s.PulledTo t) (st : Status) : Res.Atomic s (Res.done t st) := by
  rintro u st' ⟨⟩ -
  exact h

theorem Res.Atomic.ok (s t : State) : Res.Atomic s (Res.done t .ok) := by
  rintro u st ⟨⟩ hne
  exact absurd rfl hne

theorem Res.Atomic.violation (s : State) (c : ViolationCause) : Res.Atomic s (Res.violation s c) := .pulled (.refl s) _

theorem Res.Atomic.noBatch {s : State} {r : Res} (h : Res.Atomic s r) : Res.Atomic s (noBatch s r) := by
  unfold Machine.noBatch
  split
  · exact .violation s _
  · exact h

theorem Res.Atomic.checkedBy {s : State} {r : Res} (h : Res.Atomic s r) (b : Bool) (c : ViolationCause) :
    Res.Atomic s (if b then Machine.noBatch s r else Res.violation s c) := by
  cases b with
  | true => exact h.noBatch
  | false => exact .violation s c

theorem readField_atomic (n : Nat) (s : State) : Res.Atomic s (readField n s) := by
  cases hh : (s.need n).has n with
  | true => rw [readField_has hh]; exact .ok s _
  | false => rw [readField_dry hh]; exact .pulled (s.need_pulledTo n) _

theorem unaryBody_atomic (s : State) : Res.Atomic s (unaryBody s) := by
  have hp := s.scan_pulledTo (unaryOver s.cfg)
  unfold unaryBody
  generalize s.scan (unaryOver s.cfg) = r at hp
  obtain ⟨t, o⟩ := r
  cases o with
  | found z => exact .ok s _
  | tooLong => exact .pulled hp _
  | short => exact .pulled hp _

theorem riceBody_atomic (k : Nat) (s : State) : Res.Atomic s (riceBody k s) := by
  have hstate := s.rice_state k
  unfold riceBody
  generalize s.rice k = r at hstate
  obtain ⟨t, o⟩ := r
  obtain ⟨x, rfl, -⟩ | ⟨hnone, hp⟩ := hstate
  · exact .ok s _
  · cases o with
    | value x => exact absurd rfl (hnone x)
    | tooLong => exact .pulled hp _
    | short => exact .pulled hp _

theorem zpadBody_atomic (s : State) : Res.Atomic s (zpadBody s) := by
  have hp := s.need_pulledTo s.padding
  unfold zpadBody
  simp only
  split
  · split
    · exact .ok s _
    · exact .pulled hp _
  · exact .pulled hp _

theorem skipBody_atomic (n : Nat) (s : State) : Res.Atomic s (skipBody n s) := by
  cases hh : (s.need n).has n with
  | true => rw [skipBody_of_has hh]; exact .ok s _
  | false => rw [skipBody_of_dry hh]; exact .pulled (s.need_pulledTo n) _

theorem refillBody_atomic (s : State) : Res.Atomic s (refillBody s) := by
  unfold refillBody
  split
  · exact .ok s _
  · exact .ok s _

/-- The status of a varint that has consumed its bytes though it found no value (R228). -/
def Status.badVarint (st : Status) : Prop := st = .invalid .varintK1 ∨ st = .invalid .varintCont

theorem utf8Body_pulled {wd : Nat} {s u : State} {st : Status} (h : utf8Body wd s = .next (u, st)) (hne : st ≠ .ok)
    (hbad : ¬st.badVarint) : s.PulledTo u := by
  obtain ⟨v, hv, hcases⟩ := s.utf8_cases wd
  have hcause := s.utf8_bad wd
  unfold utf8Body at h
  generalize s.utf8 wd = r at h hcases hcause
  obtain ⟨t, o⟩ := r
  cases o with
  | value x raw => cases h; exact absurd rfl hne
  | bad c raw =>
    cases h
    exact absurd ((hcause c raw rfl).imp (congrArg _) (congrArg _)) hbad
  | short =>
    cases h
    obtain he | ⟨hns, -⟩ := hcases
    · cases he; exact hv
    · exact absurd rfl hns

theorem noBatch_utf8_pulled {wd : Nat} {s u : State} {st : Status} (h : noBatch s (utf8Body wd s) = .next (u, st)) (hne : st ≠ .ok)
    (hbad : ¬st.badVarint) : s.PulledTo u := by
  unfold noBatch at h
  split at h
  · cases h; exact .refl s
  · exact utf8Body_pulled h hne hbad

theorem readerBody_pulled {i : Instr} (hi : family i = .bitReader) (hb : ∀ a, i ≠ .brRiceb a) {s u : State} {st : Status}
    (h : readerBody i s = .next (u, st)) (hne : st ≠ .ok) (hbad : i = .brUtf8x32 ∨ i = .brUtf8x64 → ¬st.badVarint) :
    s.PulledTo u := by
  have atomic : Res.Atomic s (readerBody i s) → s.PulledTo u := fun k => k u st h hne
  cases i with
  | brRead32 a => exact atomic ((readField_atomic _ s).checkedBy _ _)
  | brRead64 a => exact atomic ((readField_atomic _ s).checkedBy _ _)
  | brReadbyte => exact atomic (readField_atomic 8 s).noBatch
  | brUnary => exact atomic (unaryBody_atomic s).noBatch
  | brRice a => exact atomic ((riceBody_atomic _ s).checkedBy _ _)
  | brRiceb a => exact absurd rfl (hb a)
  | brUtf8x32 => exact noBatch_utf8_pulled h hne (hbad (.inl rfl))
  | brUtf8x64 => exact noBatch_utf8_pulled h hne (hbad (.inr rfl))
  | brZpad => exact atomic (zpadBody_atomic s).noBatch
  | brSkipbits => exact atomic (skipBody_atomic _ s).noBatch
  | brSkipbytes => exact atomic (skipBody_atomic _ s).noBatch
  | brRefill => exact atomic (refillBody_atomic s)
  | brGetcrc | brSetcrc | brUpdcrc => exact atomic (Res.Atomic.ok s _).noBatch
  | brAligned | brPos | brEos => exact atomic (.ok s _)
  | _ => cases hi

/-- Settles O19: the body of a reading command that ends with another status than OK leaves only its pulls behind
(`readerBody_pulled`), and the end of a command writes STATUS and FAULT. -/
theorem readerAtomicity : Obligations.ReaderAtomicity := by
  unfold Obligations.ReaderAtomicity
  intro i s t hi hb hs h hne hvarint
  cases hc : checked i with
  | true =>
    rw [exec_reader hi hc] at h
    cases command_next h with
    | sticky hfault => exact absurd hs.noFault hfault
    | disposed _ hd => simp [hs.open_] at hd
    | ran _ u st hbody _ =>
      have hbad : i = .brUtf8x32 ∨ i = .brUtf8x64 → ¬st.badVarint := by
        rintro hi (rfl | rfl)
        · exact (hvarint hi).1 rfl
        · exact (hvarint hi).2 rfl
      have hp : s.PulledTo u := readerBody_pulled hi hb hbody (fun he => hne ((word_eq_zero st).2 he)) hbad
      exact ⟨u, hp, rfl, hp.cons_eq, hp.base_eq, hp.bcrc_eq, hp.rb_eq⟩
  | false =>
    obtain rfl := reader_unchecked hi hc
    rw [exec_eos] at h
    cases h
    simp [hs.noFault] at hne

end Sys2Proof.Machine
end

section
/-! PROOFS. The varint rules of 41_bitreader.md (R228, R230, R231). -/

namespace Sys2Proof.Machine

section varint
variable {s t : State} {wd : Nat}

theorem octets_one (S : List Byte) (p : Nat) : octets S p 1 = [BitVec.ofNat 8 (field S p 8)] := by simp [octets]

/-- The command reports the raw bytes packed big-endian, which are the field they were read from. -/
theorem utf8Body_of_value {S : List Byte} {p n v : Nat} (h : s.utf8 wd = (t, .value v (octets S p n))) :
    utf8Body wd s = .next ({ t with res0 := natReg v, res1 := natReg (field S p (8 * n)), res2 := natReg n }, .ok) := by
  simp only [utf8Body, h, packBig_octets, octets_length, Res.done]

theorem utf8Body_of_bad {S : List Byte} {p n : Nat} {c : InvalidCause} (h : s.utf8 wd = (t, .bad c (octets S p n))) :
    utf8Body wd s = .next ({ t with res1 := natReg (field S p (8 * n)), res2 := natReg n }, .invalid c) := by
  simp only [utf8Body, h, packBig_octets, octets_length, Res.done]

theorem utf8Body_of_short (h : s.utf8 wd = (t, .short)) : utf8Body wd s = .next (t, .underrun) := by
  simp only [utf8Body, h, Res.done]

theorem utf8_of_dry (hdry : (s.need 8).has 8 = false) : s.utf8 wd = (s.need 8, .short) := by simp [State.utf8, hdry]

/-! ### By the lead byte -/

section lead
variable (hthere : (s.need 8).has 8 = true)
include hthere

theorem utf8_of_single (hlead : leadingOnes 8 (field (s.need 8).S s.cons 8) = 0) : s.utf8 wd =
    ({ s.need 8 with cons := s.cons + 8 }, .value (field (s.need 8).S s.cons 8) (octets (s.need 8).S s.cons 1)) := by
  simp [State.utf8, hthere, hlead, octets_one]

theorem utf8_of_stray (hlead : leadingOnes 8 (field (s.need 8).S s.cons 8) = 1) : s.utf8 wd =
    ({ s.need 8 with cons := s.cons + 8 }, .bad .varintK1 (octets (s.need 8).S s.cons 1)) := by
  simp [State.utf8, hthere, hlead, octets_one]

theorem utf8_of_sentinel (hlead : 7 ≤ leadingOnes 8 (field (s.need 8).S s.cons 8)) : s.utf8 wd =
    ({ s.need 8 with cons := s.cons + 8 }, .value (2 ^ wd - 1) (octets (s.need 8).S s.cons 1)) := by
  have h0 : leadingOnes 8 (field (s.need 8).S s.cons 8) ≠ 0 := by omega
  have h1 : leadingOnes 8 (field (s.need 8).S s.cons 8) ≠ 1 := by omega
  simp [State.utf8, hthere, hlead, h0, h1, octets_one]

variable {c : Nat} {u : State} (hu : u = (s.need 8).need (8 * (1 + c)))
include hu

/-- The lead byte and the continuation bytes are octets of one stream. -/
theorem lead_cons_octets (n : Nat) :
    [BitVec.ofNat 8 (field (s.need 8).S s.cons 8)].reverse ++ octets u.S (s.cons + 8) n = octets u.S s.cons (n + 1) := by
  have hfield : field u.S s.cons 8 = field (s.need 8).S s.cons 8 := by
    rw [hu]
    exact (State.need_pulledTo _ _).field_eq (by simpa [State.avail] using State.has_iff.1 hthere)
  rw [octets_cons, hfield]
  rfl

variable (hlead : leadingOnes 8 (field (s.need 8).S s.cons 8) = c + 1) (hc : 1 ≤ c ∧ c ≤ 5)
include hlead hc

theorem utf8_of_tail_dry (hdry : u.has (8 * (1 + c)) = false) : s.utf8 wd = (u, .short) := by
  have h1 : ¬c = 0 := by omega
  have h7 : ¬7 ≤ c + 1 := by omega
  simp only [hu, Nat.add_comm 1 c] at hdry ⊢
  simp [State.utf8, hthere, hlead, h1, h7, hdry]

/-- Where all the bytes are there, the varint ends as its continuation loop does, past the raw bytes. -/
theorem utf8_of_tail_end {o : Varint} (hall : u.has (8 * (1 + c)) = true)
    (htail : varintTail u.S c (s.cons + 8) (field (s.need 8).S s.cons 8 % 2 ^ (6 - c)) [BitVec.ofNat 8 (field (s.need 8).S s.cons 8)] =
      o) (hns : o ≠ .short) : s.utf8 wd = ({ u with cons := s.cons + 8 * o.raw.length }, o) := by
  have h1 : ¬c = 0 := by omega
  have h7 : ¬7 ≤ c + 1 := by omega
  have h6 : 7 - (c + 1) = 6 - c := by omega
  simp only [hu, Nat.add_comm 1 c] at hall htail ⊢
  cases o with
  | value v raw => simp [State.utf8, hthere, hlead, h1, h7, h6, hall, htail, Varint.raw]
  | bad cause raw => simp [State.utf8, hthere, hlead, h1, h7, h6, hall, htail, Varint.raw]
  | short => exact absurd rfl hns

theorem utf8_of_tail (hall : u.has (8 * (1 + c)) = true) (hgood : ∀ j, 1 ≤ j → j ≤ c → field u.S (s.cons + 8 * j) 8 / 64 = 2) :
    s.utf8 wd = ({ u with cons := s.cons + 8 * (1 + c) }, .value
      ((List.range c).foldl (fun v j => v * 64 + field u.S (s.cons + 8 * (j + 1)) 8 % 64) (field (s.need 8).S s.cons 8 % 2 ^ (6 - c)))
      (octets u.S s.cons (1 + c))) := by
  have hnext (j : Nat) : s.cons + 8 + 8 * j = s.cons + 8 * (j + 1) := by omega
  have htail := varintTail_good u.S c (s.cons + 8) (field (s.need 8).S s.cons 8 % 2 ^ (6 - c))
    [BitVec.ofNat 8 (field (s.need 8).S s.cons 8)] fun j hj => hnext j ▸ hgood (j + 1) (by omega) hj
  rw [lead_cons_octets hthere hu] at htail
  simp only [hnext] at htail
  rw [utf8_of_tail_end hthere hu hlead hc hall htail nofun, Varint.raw, octets_length, Nat.add_comm c 1]

theorem utf8_of_tail_stop {j : Nat} (hall : u.has (8 * (1 + c)) = true) (hj : 1 ≤ j ∧ j ≤ c)
    (hgood : ∀ h, 1 ≤ h → h < j → field u.S (s.cons + 8 * h) 8 / 64 = 2) (hbad : field u.S (s.cons + 8 * j) 8 / 64 ≠ 2) :
    s.utf8 wd = ({ u with cons := s.cons + 8 * (j + 1) }, .bad .varintCont (octets u.S s.cons (j + 1))) := by
  obtain ⟨i, rfl⟩ : ∃ i, j = i + 1 := ⟨j - 1, by omega⟩
  have hnext (j : Nat) : s.cons + 8 + 8 * j = s.cons + 8 * (j + 1) := by omega
  have htail := varintTail_stop u.S c i (s.cons + 8) (field (s.need 8).S s.cons 8 % 2 ^ (6 - c))
    [BitVec.ofNat 8 (field (s.need 8).S s.cons 8)] (by omega) (fun h hi => hnext h ▸ hgood (h + 1) (by omega) (by omega))
    (hnext i ▸ hbad)
  rw [lead_cons_octets hthere hu] at htail
  rw [utf8_of_tail_end hthere hu hlead hc hall htail nofun, Varint.raw, octets_length]

end lead
end varint

/-- The two varint commands are one body with different sentinels. -/
theorem exec_utf8 {s : State} {i : Instr} {wd : Nat} (hb : s.rb.active = false)
    (hi : i = .brUtf8x32 ∧ wd = 32 ∨ i = .brUtf8x64 ∧ wd = 64) : exec i s = command s (utf8Body wd) := by
  obtain ⟨rfl, rfl⟩ | ⟨rfl, rfl⟩ := hi
  · exact exec_of_noBatch hb fun _ => rfl
  · exact exec_of_noBatch hb fun _ => rfl

/-- Settles O26: the lead byte's range gives its leading 1 bits (`leadingOnes_lead`), these the case of `Utf8(wd)`, and the
continuation bytes whether its loop ends with a value or at the first bad byte. -/
theorem varintCommands : Obligations.VarintCommands := by
  unfold Obligations.VarintCommands
  refine ⟨.of_body rfl rfl, .of_body rfl rfl, busy_utf8x32, busy_utf8x64, fun s i wd hs hi => ?_⟩
  have hp := s.need_pulledTo 8
  rw [exec_utf8 hs.noBatch hi]
  refine ⟨fun hdry => command_pulled_dry hs hp (utf8Body_of_short (utf8_of_dry hdry)), fun hthere => ?_⟩
  have hclass := leadingOnes_lead (field (s.need 8).S s.cons 8) (field_lt _ _ 8)
  refine ⟨fun hlt => ?single, fun hge hlt => ?stray, fun hge => ?sentinel, ?tail⟩
  case single =>
    rw [if_pos hlt] at hclass
    exact command_pulled_ok hs hp (utf8Body_of_value (utf8_of_single hthere hclass)) rfl
  case stray =>
    rw [if_neg hge.not_gt, if_pos hlt] at hclass
    exact command_pulled_invalid hs hp (utf8Body_of_bad (utf8_of_stray hthere hclass)) rfl rfl
  case sentinel =>
    have hlead : 7 ≤ leadingOnes 8 (field (s.need 8).S s.cons 8) := by
      rw [hclass]
      split_ifs <;> omega
    exact command_pulled_ok hs hp (utf8Body_of_value (utf8_of_sentinel hthere hlead)) rfl
  case tail =>
    intro c hrange u byte
    have hc : 1 ≤ c ∧ c ≤ 5 := by omega
    have hlead : leadingOnes 8 (field (s.need 8).S s.cons 8) = c + 1 := by
      rw [hclass]
      split_ifs <;> omega
    have hpu : s.PulledTo u := hp.trans (State.need_pulledTo _ _)
    exact ⟨fun hdry => command_pulled_dry hs hpu (utf8Body_of_short (utf8_of_tail_dry hthere rfl hlead hc hdry)),
      fun hall hgood => command_pulled_ok hs hpu (utf8Body_of_value (utf8_of_tail hthere rfl hlead hc hall hgood)) rfl,
      fun j hall h1 hj hgood hbad => command_pulled_invalid hs hpu
        (utf8Body_of_bad (utf8_of_tail_stop hthere rfl hlead hc hall ⟨h1, hj⟩ hgood hbad)) rfl rfl⟩

end Sys2Proof.Machine
end

section
/-! PROOFS. What the proofs of the frame decode (42_frame_sync.md) share: statuses by their words, the micro-step of each state,
and the ends of FR.STEP. -/

namespace Sys2Proof.Machine

/-! ### Statuses by their words (60_exceptions.md R400, R401) -/

theorem word_eq_underrun (st : Status) : st.word = 0x0001#16 ↔ st = .underrun := by
  cases st with
  | ok | underrun | endOfStream => decide
  | invalid c | fatal c | violation c => cases c <;> decide

theorem word_eq_contract (st : Status) : st.word = 0x0905#16 ↔ st = .violation .predictorContract := by
  cases st with
  | ok | underrun | endOfStream => decide
  | invalid c | fatal c | violation c => cases c <;> decide

/-! ### The micro-step of each state (42_frame_sync.md R270, R271) -/

section micro
variable {s : State}

theorem microStep_of_searching (h : s.fsm = .searching) : microStep s = searchStep s := by simp only [microStep, h]

theorem microStep_of_header (h : s.fsm = .headerParse) : microStep s = headerStep s := by simp only [microStep, h]

theorem microStep_of_subframes (h : s.fsm = .subframes) : microStep s = subframeStep s := by simp only [microStep, h]

theorem microStep_of_footer (h : s.fsm = .footerCheck) : microStep s = footerStep s := by simp only [microStep, h]

theorem microStep_of_done (h : s.fsm = .done) : microStep s = releaseStep s := by simp only [microStep, h]

theorem microStep_of_ended (h : s.fsm = .ended) : microStep s = .next (s, .endOfStream) := by
  simp only [microStep, h, Res.done]

theorem microStep_of_failed (h : s.fsm = .failed) : microStep s = .fault .stepInFailed := by simp only [microStep, h]

theorem microStep_of_H0 (h : s.fsm = .headerParse) (hp : s.hp = .H0) : microStep s = fixedStep s := by
  simp only [microStep_of_header h, headerStep, hp]

theorem microStep_of_H1 (h : s.fsm = .headerParse) (hp : s.hp = .H1) : microStep s = numberStep s := by
  simp only [microStep_of_header h, headerStep, hp]

theorem microStep_of_H2 (h : s.fsm = .headerParse) (hp : s.hp = .H2) : microStep s = blockSizeStep s := by
  simp only [microStep_of_header h, headerStep, hp]

theorem microStep_of_H3 (h : s.fsm = .headerParse) (hp : s.hp = .H3) : microStep s = rateStep s := by
  simp only [microStep_of_header h, headerStep, hp]

theorem microStep_of_H4 (h : s.fsm = .headerParse) (hp : s.hp = .H4) : microStep s = headerCrcStep s := by
  simp only [microStep_of_header h, headerStep, hp]

theorem microStep_of_S0 (h : s.fsm = .subframes) (hss : s.sub.ss = .S0) : microStep s = subHeaderStep s := by
  simp only [microStep_of_subframes h, subframeStep, hss]

theorem microStep_of_S1 (h : s.fsm = .subframes) (hss : s.sub.ss = .S1) : microStep s = wastedStep s := by
  simp only [microStep_of_subframes h, subframeStep, hss]

theorem microStep_of_constant (h : s.fsm = .subframes) (hss : s.sub.ss = .S2) (hk : s.sub.kind = .constant) :
    microStep s = constantStep s := by
  simp only [microStep_of_subframes h, subframeStep, hss, hk]

theorem microStep_of_verbatim (h : s.fsm = .subframes) (hss : s.sub.ss = .S2) (hk : s.sub.kind = .verbatim) :
    microStep s = verbatimStep s := by
  simp only [microStep_of_subframes h, subframeStep, hss, hk]

theorem microStep_of_F0 (h : s.fsm = .footerCheck) (hf : s.fs = .F0) : microStep s = paddingStep s := by
  simp only [microStep_of_footer h, footerStep, hf]

theorem microStep_of_F1 (h : s.fsm = .footerCheck) (hf : s.fs = .F1) : microStep s = footerCrcStep s := by
  simp only [microStep_of_footer h, footerStep, hf]

/-! ### The header sub-steps that branch on a code (R282, R283) -/

/-- The two bytes of a 16-bit field. -/
theorem bytesOf16_eq_mod (v : Nat) : bytesOf16 v = [BitVec.ofNat 8 (v / 256), BitVec.ofNat 8 (v % 256)] := by
  have hlow : BitVec.ofNat 8 v = BitVec.ofNat 8 (v % 256) := BitVec.eq_of_toNat_eq (by simp)
  rw [bytesOf16, hlow]

theorem blockSizeStep_of_deferred8 (h : bsEntry s.cfg s.hdr.bsc = .deferred8) : blockSizeStep s =
    takeStep 8 s fun v s => Res.done (s.setBlockSize (v + 1) [BitVec.ofNat 8 v]) .ok := by
  simp only [blockSizeStep, h]

theorem blockSizeStep_of_deferred16 (h : bsEntry s.cfg s.hdr.bsc = .deferred16) : blockSizeStep s = takeStep 16 s fun v s =>
    Res.done (s.setBlockSize (v + 1) [BitVec.ofNat 8 (v / 256), BitVec.ofNat 8 (v % 256)]) .ok := by
  simp only [blockSizeStep, h, bytesOf16_eq_mod]

theorem blockSizeStep_of_direct {n : Nat} (h : bsEntry s.cfg s.hdr.bsc = .direct n) :
    blockSizeStep s = .next ({ s with hdr := { s.hdr with bs := n }, hp := .H3 }, .ok) := by
  simp only [blockSizeStep, h, State.setBlockSize, List.append_nil, Res.done]

theorem rateStep_of_12 (h : s.hdr.src = 12#4) : rateStep s =
    takeStep 8 s fun v s => Res.done (s.setRate (BitVec.ofNat 32 (1000 * v)) [BitVec.ofNat 8 v]) .ok :=
  if_pos h

/-- The rates of 16 bits: in Hz, or in units of 10 Hz. -/
theorem rateStep_of_16 {scale : Nat} (h : s.hdr.src = 13#4 ∧ scale = 1 ∨ s.hdr.src = 14#4 ∧ scale = 10) : rateStep s =
    takeStep 16 s fun v s =>
      Res.done (s.setRate (BitVec.ofNat 32 (scale * v)) [BitVec.ofNat 8 (v / 256), BitVec.ofNat 8 (v % 256)]) .ok := by
  rcases h with ⟨h, rfl⟩ | ⟨h, rfl⟩ <;> simp [rateStep, h, bytesOf16_eq_mod]

theorem rateStep_of_0 (h : s.hdr.src = 0#4) :
    rateStep s = .next ({ s with hdr := { s.hdr with rate := s.siRate }, hp := .H4 }, .ok) := by
  simp [rateStep, h, State.setRate, Res.done]

theorem rateStep_of_table {r : Word} (h1 : 1 ≤ s.hdr.src.toNat) (h11 : s.hdr.src.toNat ≤ 11)
    (hr : s.cfg.srTable[s.hdr.src.toNat - 1]? = some r) :
    rateStep s = .next ({ s with hdr := { s.hdr with rate := r }, hp := .H4 }, .ok) := by
  have hne : ∀ c : BitVec 4, c.toNat = 0 ∨ 11 < c.toNat → s.hdr.src ≠ c := by
    rintro c hc rfl
    omega
  have hentry : srEntry s.cfg s.hdr.src = some r := by
    rw [srEntry, if_neg (by omega), hr]
  simp only [rateStep, if_neg (hne 12#4 (by decide)), if_neg (hne 13#4 (by decide)), if_neg (hne 14#4 (by decide)),
    if_neg (hne 0#4 (by decide)), hentry, State.setRate, List.append_nil, Res.done]

end micro

/-! ### The ends of FR.STEP (R272) -/

/-- RES0 is the code of the state that is left, but after the predictor's contract violation (R272, R403). -/
theorem frameResult_of_ne {st : Status} (h : st ≠ .violation .predictorContract) (t : State) :
    frameResult t st = { t with res0 := t.fsm.code } := if_neg h

theorem frameResult_res0 (t : State) (st : Status) :
    (frameResult t st).res0 = if st = .violation .predictorContract then t.res0 else t.fsm.code := by
  unfold frameResult
  split <;> rfl

/-- What FR.STEP answers is the state its micro-step leaves, with RES0, STATUS and a first FAULT. This holds with no room in the
stream too, which `frStep_inv` asks for. -/
theorem frStep_ended {s u : State} (hr : s.Ready) (hb : s.rb.active = false) (h : exec .frStep s = .next u) :
    ∃ t st, microStep s = .next (t, st) ∧ u = { t with
      res0 := (frameResult t st).res0, status := st.word, fault := if st.sticky then st.word else t.fault } := by
  simp only [exec, execFrStep] at h
  cases command_next h with
  | sticky hf => exact absurd hr.noFault hf
  | disposed _ hd => exact absurd (hd.symm.trans hr.open_) nofun
  | ran _ v st hbody _ =>
    simp only [noBatch, hb, Bool.false_eq_true, if_false] at hbody
    split at hbody
    · next t st' ht =>
      cases hbody
      have hf : t.fault = 0#16 := (microStep_ok s t st ht).adv.fault_eq.trans hr.noFault
      refine ⟨t, st, ht, ?_⟩
      rw [frameResult_regs]
      simp [State.endWith, hf]
    · cases hbody
    · cases hbody

/-- FR.STEP after a micro-step with OK that leaves the state machine in `f`. -/
theorem frStep_ok_in {s t : State} (f : Fsm) (hs : s.Accepts) (h : microStep s = .next (t, .ok)) (hf : t.fsm = f) :
    exec .frStep s = .next { t with res0 := f.code, status := 0x0000#16 } :=
  frStep_ok hs h (by rw [hf])

/-- FR.STEP after a micro-step that failed. -/
theorem frStep_failed {s t : State} {c : FatalCause} {w : Half} (hs : s.Accepts) (h : microStep s = fatalStep t c)
    (hw : w = BitVec.ofNat 16 (c.code * 256 + 4)) :
    exec .frStep s = .next { t with fsm := .failed, res0 := 6#64, status := w, fault := w } :=
  frStep_fatal hs h (by rw [hw]; rfl)

end Sys2Proof.Machine
end

section
/-! PROOFS. FR.STEP (42_frame_sync.md R270 to R272, R287; 43_subframe.md R335): that it completes, and the transitions of the
decode state machine. -/

namespace Sys2Proof.Machine

/-- What a micro-step can change: the stream, the decode state machine, the Frame and the predictor's side. -/
theorem MicroOk.kept {s t : State} {st : Status} (h : MicroOk s t st) : t = { s with
    bcrc := t.bcrc, S := t.S, cons := t.cons, base := t.base, eos := t.eos, dw := t.dw, fsm := t.fsm
    acc := t.acc, accn := t.accn, hp := t.hp, raw := t.raw, hdr := t.hdr, sub := t.sub, chbuf := t.chbuf, fs := t.fs
    fcrc := t.fcrc, fpresent := t.fpresent, fbuf := t.fbuf, fcur := t.fcur, predictor := t.predictor, preq := t.preq
    upstream := t.upstream } := by
  conv_lhs => rw [h.adv.kept, h.res0, h.res1, h.res2, h.rb, h.dmem]

/-- Settles O31: the micro-step answers where a predictor is there or not needed (`microStep_next`), `MicroOk.kept` says what it
can change, and FR.STEP adds RES0, STATUS and FAULT. -/
theorem stepCompletes : Obligations.StepCompletes := by
  unfold Obligations.StepCompletes
  refine ⟨.of_body rfl rfl, busy_frStep, fun s hs hfailed hpred => ?_⟩
  obtain ⟨t, st, ht⟩ := microStep_next hfailed hs.room hpred
  have ok : MicroOk s t st := microStep_ok s t st ht
  refine ⟨_, frStep_next hs ht, ?result, ?frame⟩
  case result =>
    show st.word = _ ∧ (frameResult t st).res0 = _ ∨ st.word ≠ _ ∧ (frameResult t st).res0 = (frameResult t st).fsm.code
    rw [word_eq_contract, Ne, word_eq_contract, frameResult_res0, frameResult_regs]
    by_cases hc : st = .violation .predictorContract
    · exact .inl ⟨hc, (if_pos hc).trans ok.res0⟩
    · exact .inr ⟨hc, if_neg hc⟩
  case frame =>
    rw [frameResult_regs]
    exact congrArg (fun x : State => { x with
      res0 := (frameResult t st).res0, status := st.word
      fault := (State.endWith { t with res0 := (frameResult t st).res0 } st).fault }) ok.kept

/-- A micro-step that runs dry has only pulled, and used up a predictor's answer (R279; log entry 4). -/
theorem microStep_underrun {s t : State} (h : microStep s = .next (t, .underrun)) :
    ({ s with predictor := t.predictor, preq := t.preq } : State).PulledTo t ∧ t.eos = false := by
  obtain ⟨f, hf⟩ : ∃ f, s.fsm = f := ⟨_, rfl⟩
  cases f with
  | searching => cases search_out hf h with
    | under hp he => exact ⟨hp.withPredictor, he⟩
  | headerParse => cases header_out hf h with
    | under hp he => exact ⟨hp.withPredictor, he⟩
  | subframes => cases subframe_out hf h with
    | under hp he => exact ⟨hp, he⟩
  | footerCheck => cases footer_out hf h with
    | under hp he => exact ⟨hp.withPredictor, he⟩
  | done => rw [microStep_of_done hf] at h; cases h
  | ended => rw [microStep_of_ended hf] at h; cases h
  | failed => rw [microStep_of_failed hf] at h; cases h

/-- Settles O32: an underrun has only pulled (`microStep_underrun`), and each state's micro-step ends in one of the ways of its
list (`search_out`, `header_out`, `subframe_out`, `footer_out`). -/
theorem fsmTransitions : Obligations.FsmTransitions := by
  unfold Obligations.FsmTransitions
  intro s u hs hu
  obtain ⟨t, st, ht, rfl⟩ := frStep_ended hs.ready hs.noBatch hu
  have hfault : t.fault = 0#16 := micro_fault hs ht
  refine ⟨fun hdry => ?underrun, fun hne => ⟨fun hf => ?searching, fun hf => ?header, fun hf => ?subframes, fun hf => ?footer,
    fun hf => ?done, fun hf => ?ended⟩⟩
  case underrun =>
    obtain rfl := (word_eq_underrun st).1 hdry
    obtain ⟨hp, he⟩ := microStep_underrun ht
    exact ⟨t, hp, he, rfl⟩
  case searching =>
    cases search_out hf ht with
    | stay h => exact .inl ⟨h, rfl⟩
    | sync h hp => exact .inr (.inl ⟨h, hp, rfl⟩)
    | under => exact absurd rfl hne
    | ended h he => exact .inr (.inr ⟨h, he, rfl⟩)
  case header =>
    cases header_out hf ht with
    | resync h => exact .inr (.inl ⟨h, rfl⟩)
    | stay h hp => exact .inl ⟨h, hp, rfl⟩
    | accept hp h hch hss => exact .inr (.inr (.inl ⟨hp, h, hch, hss, rfl⟩))
    | under => exact absurd rfl hne
    | ended h he => exact .inr (.inr (.inr ⟨h, he, rfl⟩))
  case subframes =>
    cases subframe_out hf ht with
    | stay h => exact .inl ⟨h, rfl⟩
    | footer h hfs hch => exact .inr (.inl ⟨h, hfs, hch, rfl⟩)
    | under => exact absurd rfl hne
    | fatal c _ _ _ h => exact .inr (.inr ⟨h, rfl, .inl (fatal_word c)⟩)
    | contract p q h => subst h; exact .inr (.inr ⟨rfl, rfl, .inr rfl⟩)
  case footer =>
    cases footer_out hf ht with
    | pad h0 h1 h => exact .inl ⟨h, h0, h1, rfl⟩
    | made h hp => exact .inr (.inl ⟨h, hp, rfl⟩)
    | under => exact absurd rfl hne
    | fatal c h => exact .inr (.inr ⟨h, rfl, fatal_word c⟩)
  case done =>
    rw [microStep_of_done hf] at ht
    cases ht
    exact ⟨rfl, rfl, rfl⟩
  case ended =>
    rw [microStep_of_ended hf] at ht
    cases ht
    exact ⟨hf, rfl⟩

/-- The words of the causes that are not the footer's (43_subframe.md R335). -/
theorem subframe_fatal_word {c : FatalCause} (hcrc : c ≠ .crc16Mismatch) (hpad : c ≠ .nonzeroPadding)
    (hlayout : c ≠ .unsupportedLayout) :
    (Status.fatal c).word ∈ [0x0204#16, 0x0404#16, 0x0504#16, 0x0704#16, 0x0804#16, 0x0904#16, 0x0A04#16, 0x0905#16] := by
  cases c with
  | crc16Mismatch => exact absurd rfl hcrc
  | nonzeroPadding => exact absurd rfl hpad
  | unsupportedLayout => exact absurd rfl hlayout
  | _ => decide

/-- Inside a frame there is no way back to the search or to the end of the stream (R270). -/
theorem inside_frame {f : Fsm} (h : f = .subframes ∨ f = .footerCheck ∨ f = .failed) :
    f ≠ .searching ∧ f ≠ .headerParse ∧ f ≠ .ended := by
  rcases h with rfl | rfl | rfl <;> decide

/-- Settles O39: none of the ways a header step ends is sticky (`header_out`); each way a subframe step fails leaves FAILED with
a sticky status (`subframe_out`). -/
theorem headerSoftSubframeHard : Obligations.HeaderSoftSubframeHard := by
  unfold Obligations.HeaderSoftSubframeHard
  refine ⟨fun s u hr hf hu hb => ?header, fun s u hs hf hu => ?subframes⟩
  case header =>
    obtain ⟨t, st, ht, rfl⟩ := frStep_ended hr hb hu
    have hfault : t.fault = 0#16 := (microStep_ok s t st ht).adv.fault_eq.trans hr.noFault
    cases header_out hf ht with
    | resync h => exact ⟨hfault, .inl ⟨rfl, .inl h⟩⟩
    | stay h _ => exact ⟨hfault, .inl ⟨rfl, .inr (.inl h)⟩⟩
    | accept _ h _ _ => exact ⟨hfault, .inl ⟨rfl, .inr (.inr h)⟩⟩
    | under hp he => exact ⟨hfault, .inr (.inl ⟨rfl, hp.fsm_eq.trans hf, he⟩)⟩
    | ended h he => exact ⟨hfault, .inr (.inr ⟨rfl, h, he⟩)⟩
  case subframes =>
    obtain ⟨t, st, ht, rfl⟩ := frStep_ended hs.ready hs.noBatch hu
    have hinside : t.fsm = .subframes ∨ t.fsm = .footerCheck ∨ t.fsm = .failed := by
      cases subframe_out hf ht with
      | stay h => exact .inl h
      | footer h => exact .inr (.inl h)
      | under hp => exact .inl (hp.fsm_eq.trans hf)
      | fatal _ _ _ _ h => exact .inr (.inr h)
      | contract _ _ h => subst h; exact .inr (.inr rfl)
    have hhard : st ≠ .ok → st ≠ .underrun → t.fsm = .failed ∧ st.sticky = true ∧
        st.word ∈ [0x0204#16, 0x0404#16, 0x0504#16, 0x0704#16, 0x0804#16, 0x0904#16, 0x0A04#16, 0x0905#16] := by
      intro hok hdry
      cases subframe_out hf ht with
      | stay | footer => exact absurd rfl hok
      | under => exact absurd rfl hdry
      | fatal c hcrc hpad hlayout h => exact ⟨h, rfl, subframe_fatal_word hcrc hpad hlayout⟩
      | contract _ _ h => subst h; exact ⟨rfl, rfl, by decide⟩
    obtain ⟨hsearching, hheader, hended⟩ := inside_frame hinside
    refine ⟨hsearching, hheader, hended, fun hok hdry => ?_⟩
    obtain ⟨hfailed, hsticky, hword⟩ := hhard (mt (word_eq_zero st).2 hok) (mt (word_eq_underrun st).2 hdry)
    exact ⟨hfailed, if_pos hsticky, hword⟩

end Sys2Proof.Machine
end

section
/-! PROOFS. The release of a Frame, the sync search and the underrun inside a micro-step (42_frame_sync.md R274 to R276, R279;
43_subframe.md R324). -/

namespace Sys2Proof.Machine

/-! ### Release and search (R274 to R276) -/

section search
variable {s : State}

/-- The accumulator after the next bit (R275). -/
def State.shiftedAcc (s : State) : Half := (s.acc <<< 1) ||| (if bitAt (s.need 1).S s.cons then 1#16 else 0#16)

/-- One bit as a field is the bit. -/
theorem ofNat_field_one (S : List Byte) (p : Nat) : BitVec.ofNat 16 (field S p 1) = if bitAt S p then 1#16 else 0#16 := by
  rw [field_one]
  cases bitAt S p <;> rfl

/-- The search goes on with one more bit in the accumulator, or finds the marker (R275, R276). -/
theorem searchStep_of_has (h : (s.need 1).has 1 = true) : searchStep s =
    let t := { s.need 1 with cons := s.cons + 1, acc := s.shiftedAcc, accn := min 16 (s.accn + 1) }
    if min 16 (s.accn + 1) = 16 ∧ s.shiftedAcc.extractLsb' 2 14 = syncMarker then .next (syncFound t, .ok) else .next (t, .ok) := by
  rw [searchStep, takeStep_has h]
  simp only [need_acc, need_accn, ofNat_field_one]
  rfl

end search

/-- Settles O33: DONE and ENDED have one micro-step each; a search step shifts its bit in and compares (`searchStep_of_has`). -/
theorem releaseAndSearch : Obligations.ReleaseAndSearch := by
  unfold Obligations.ReleaseAndSearch
  refine ⟨fun s hs => ⟨fun hf => ?release, fun hf => ?ended⟩, fun s hs hf hthere => ⟨fun hmark => ?sync, fun hmark => ?search⟩⟩
  case release => exact frStep_ok_in .searching hs (microStep_of_done hf) rfl
  case ended => exact frStep_eos hs (microStep_of_ended hf) (by rw [hf]; rfl)
  case sync =>
    have hstep := (microStep_of_searching hf).trans ((searchStep_of_has hthere).trans (if_pos hmark))
    have hhdr : (s.need 1).hdr = s.hdr := need_hdr s 1
    rw [frStep_ok_in .headerParse hs hstep rfl]
    simp only [syncFound, hhdr]
    rfl
  case search =>
    have hstep := (microStep_of_searching hf).trans ((searchStep_of_has hthere).trans (if_neg hmark))
    exact frStep_ok_in .searching hs hstep ((need_fsm s 1).trans hf)

/-! ### An underrun (R279) -/

section underrun
variable {s t : State}

theorem underrunStep_of_notEnded (he : t.eos = false) : underrunStep t = .next (t, .underrun) := by
  simp [underrunStep, he, Res.done]

theorem underrunStep_outside (he : t.eos = true) (hf : t.fsm = .searching ∨ t.fsm = .headerParse) :
    underrunStep t = .next ({ t with fsm := .ended, raw := [], hp := .H0 }, .endOfStream) := by
  rcases hf with hf | hf <;> simp [underrunStep, he, hf, Res.done]

theorem underrunStep_inside (he : t.eos = true) (hf : t.fsm = .subframes ∨ t.fsm = .footerCheck) :
    underrunStep t = fatalStep t .truncated := by
  rcases hf with hf | hf <;> simp [underrunStep, he, hf]

/-- FR.STEP after a micro-step that ran dry in `t`, the state after its pulls. -/
theorem frStep_of_underrun (hs : s.Accepts) (hp : s.PulledTo t) (h : microStep s = underrunStep t) :
    (t.eos = false → exec .frStep s = .next { t with res0 := s.fsm.code, status := 0x0001#16 }) ∧
    (t.eos = true → s.fsm = .searching ∨ s.fsm = .headerParse →
      exec .frStep s = .next { t with fsm := .ended, raw := [], hp := .H0, res0 := 5#64, status := 0x0002#16 }) ∧
    (t.eos = true → s.fsm = .subframes ∨ s.fsm = .footerCheck →
      exec .frStep s = .next { t with fsm := .failed, res0 := 6#64, status := 0x0504#16, fault := 0x0504#16 }) := by
  have hfsm : t.fsm = s.fsm := hp.fsm_eq
  refine ⟨fun he => ?_, fun he hf => ?_, fun he hf => ?_⟩
  · exact frStep_under hs (h.trans (underrunStep_of_notEnded he)) (by rw [hfsm])
  · exact frStep_eos hs (h.trans (underrunStep_outside he (hfsm ▸ hf))) rfl
  · exact frStep_failed hs (h.trans (underrunStep_inside he (hfsm ▸ hf))) rfl

theorem numberStep_of_short (h : s.utf8 s.numWidth = (t, .short)) : numberStep s = underrunStep t := by
  simp only [numberStep, h]

theorem wastedStep_of_short (h : s.scan (unaryOver s.cfg) = (t, .short)) : wastedStep s = underrunStep t := by
  simp only [wastedStep, h]

theorem paddingStep_of_dry (h : (s.need s.padding).has s.padding = false) :
    paddingStep s = underrunStep (s.need s.padding) := by
  simp [paddingStep, h]

theorem footerCrcStep_of_dry (h : (s.need 16).has 16 = false) : footerCrcStep s = underrunStep (s.need 16) := by
  simp [footerCrcStep, h]

/-- The next micro-step begins with a read of `n` bits. -/
def State.Reads (s : State) (n : Nat) : Prop :=
  (s.fsm = .searching ∧ n = 1) ∨ (s.fsm = .headerParse ∧ s.hp = .H0 ∧ n = 16) ∨
  (s.fsm = .headerParse ∧ s.hp = .H1 ∧ n = 8) ∨
  (s.fsm = .headerParse ∧ s.hp = .H2 ∧ bsEntry s.cfg s.hdr.bsc = .deferred8 ∧ n = 8) ∨
  (s.fsm = .headerParse ∧ s.hp = .H2 ∧ bsEntry s.cfg s.hdr.bsc = .deferred16 ∧ n = 16) ∨
  (s.fsm = .headerParse ∧ s.hp = .H3 ∧ s.hdr.src = 12#4 ∧ n = 8) ∨
  (s.fsm = .headerParse ∧ s.hp = .H3 ∧ (s.hdr.src = 13#4 ∨ s.hdr.src = 14#4) ∧ n = 16) ∨
  (s.fsm = .headerParse ∧ s.hp = .H4 ∧ n = 8) ∨ (s.fsm = .subframes ∧ s.sub.ss = .S0 ∧ n = 8) ∨
  (s.fsm = .subframes ∧ s.sub.ss = .S2 ∧ (s.sub.kind = .constant ∨ s.sub.kind = .verbatim) ∧ n = s.sub.be.toNat) ∨
  (s.fsm = .footerCheck ∧ s.fs = .F0 ∧ n = s.padding) ∨ (s.fsm = .footerCheck ∧ s.fs = .F1 ∧ n = 16)

/-- Each of these micro-steps runs dry where its bits do not come. -/
theorem microStep_of_dry {n : Nat} (hstep : s.Reads n) (hdry : (s.need n).has n = false) :
    microStep s = underrunStep (s.need n) := by
  rcases hstep with ⟨hf, rfl⟩ | ⟨hf, hp, rfl⟩ | ⟨hf, hp, rfl⟩ | ⟨hf, hp, hc, rfl⟩ | ⟨hf, hp, hc, rfl⟩ | ⟨hf, hp, hc, rfl⟩ |
    ⟨hf, hp, hc, rfl⟩ | ⟨hf, hp, rfl⟩ | ⟨hf, hss, rfl⟩ | ⟨hf, hss, hk | hk, rfl⟩ | ⟨hf, hfs, rfl⟩ | ⟨hf, hfs, rfl⟩
  · exact (microStep_of_searching hf).trans (takeStep_dry hdry _)
  · exact (microStep_of_H0 hf hp).trans (takeStep_dry hdry _)
  · exact (microStep_of_H1 hf hp).trans (numberStep_of_short (utf8_of_dry hdry))
  · exact (microStep_of_H2 hf hp).trans ((blockSizeStep_of_deferred8 hc).trans (takeStep_dry hdry _))
  · exact (microStep_of_H2 hf hp).trans ((blockSizeStep_of_deferred16 hc).trans (takeStep_dry hdry _))
  · exact (microStep_of_H3 hf hp).trans ((rateStep_of_12 hc).trans (takeStep_dry hdry _))
  · obtain ⟨scale, hscale⟩ : ∃ scale, s.hdr.src = 13#4 ∧ scale = 1 ∨ s.hdr.src = 14#4 ∧ scale = 10 :=
      hc.elim (fun h => ⟨1, .inl ⟨h, rfl⟩⟩) fun h => ⟨10, .inr ⟨h, rfl⟩⟩
    exact (microStep_of_H3 hf hp).trans ((rateStep_of_16 hscale).trans (takeStep_dry hdry _))
  · exact (microStep_of_H4 hf hp).trans (takeStep_dry hdry _)
  · exact (microStep_of_S0 hf hss).trans (takeStep_dry hdry _)
  · exact (microStep_of_constant hf hss hk).trans (takeStep_dry hdry _)
  · exact (microStep_of_verbatim hf hss hk).trans (takeStep_dry hdry _)
  · exact (microStep_of_F0 hf hfs).trans (paddingStep_of_dry hdry)
  · exact (microStep_of_F1 hf hfs).trans (footerCrcStep_of_dry hdry)

end underrun

/-- Settles O34: in each of the three kinds of reads the micro-step is `underrunStep` after the pulls, and FR.STEP ends as
`frStep_of_underrun` says. -/
theorem stepUnderrun : Obligations.StepUnderrun := by
  unfold Obligations.StepUnderrun
  rintro s t hs (⟨n, rfl, hdry, hstep⟩ | ⟨c, hf, hp, hthere, rfl, hdry, hrange⟩ |
    ⟨z, hf, hss, hz, rfl, hdry, hbefore, hzeros⟩)
  · exact frStep_of_underrun hs (s.need_pulledTo n) (microStep_of_dry hstep hdry)
  · have hpulled := (s.need_pulledTo 8).trans ((s.need 8).need_pulledTo (8 * (1 + c)))
    have hclass := leadingOnes_lead (field (s.need 8).S s.cons 8) (field_lt _ _ 8)
    have hlead : leadingOnes 8 (field (s.need 8).S s.cons 8) = c + 1 := by
      rw [hclass]
      split_ifs <;> omega
    have hshort := utf8_of_tail_dry (wd := s.numWidth) hthere rfl hlead (by omega) hdry
    exact frStep_of_underrun hs hpulled ((microStep_of_H1 hf hp).trans (numberStep_of_short hshort))
  · have hshort := State.scan_short hdry hbefore hzeros (unaryOver_of_le hz)
    exact frStep_of_underrun hs (s.need_pulledTo (z + 1)) ((microStep_of_S1 hf hss).trans (wastedStep_of_short hshort))

end Sys2Proof.Machine
end

section
/-! PROOFS. The header (42_frame_sync.md R278 to R286): its five sub-steps where their bits are there, and the resync. -/

namespace Sys2Proof.Machine

/-! ### The resync (R278) -/

/-- The last 8 consumed bits, those from `p` on, stay in the accumulator. -/
theorem resyncStep_of_cons {s : State} {p : Nat} (h : s.cons = p + 8) : resyncStep s = .next ({ s with
    acc := BitVec.ofNat 16 (field s.S p 8), accn := 8, raw := [], hp := .H0, fsm := .searching }, .ok) := by
  simp only [resyncStep, resync, Res.done, h, Nat.add_sub_cancel]

/-! ### The fixed fields (R280) -/

/-- A field of a word is the word's value shifted down. -/
theorem ofNat_extractLsb' (w start len v : Nat) (h : start + len ≤ w) :
    (BitVec.ofNat w v).extractLsb' start len = BitVec.ofNat len (v / 2 ^ start) := by
  refine BitVec.eq_of_getLsbD_eq fun i hi => ?_
  have hw : start + i < w := by omega
  simp only [BitVec.getLsbD_extractLsb', BitVec.getLsbD_ofNat, Nat.testBit_div_two_pow, hi, hw, Nat.add_comm i start,
    decide_true, Bool.true_and]

theorem fixedFields_eq (h : Header) (v : Nat) : h.fixedFields v = { h with
    bsc := (BitVec.ofNat 16 v).extractLsb' 12 4, src := (BitVec.ofNat 16 v).extractLsb' 8 4
    chc := (BitVec.ofNat 16 v).extractLsb' 4 4, bdc := (BitVec.ofNat 16 v).extractLsb' 1 3
    hun := (BitVec.ofNat 16 v).getLsbD 0 } := by
  simp [Header.fixedFields, ofNat_extractLsb', BitVec.getLsbD_ofNat, -BitVec.getLsbD_eq_getElem]

theorem bytesOf16_eq (v : Nat) :
    bytesOf16 v = [(BitVec.ofNat 16 v).extractLsb' 8 8, (BitVec.ofNat 16 v).extractLsb' 0 8] := by
  simp [bytesOf16, ofNat_extractLsb']

/-- The six ways the fixed fields are invalid (R280). -/
theorem State.fixedInvalid_iff (s : State) : s.fixedInvalid = true ↔
    s.hdr.hres = true ∨ bsEntry s.cfg s.hdr.bsc = .reserved ∨ s.hdr.src = 15#4 ∨ chEntry s.cfg s.hdr.chc = none ∨
      (s.hdr.bdc ≠ 0#3 ∧ bpsEntry s.cfg s.hdr.bdc = none) ∨ (s.hdr.bdc = 0#3 ∧ s.siBps = 0#6) := by
  by_cases h : s.hdr.bdc = 0#3 <;> simp [State.fixedInvalid, h, or_assoc]

/-- The state in which the fixed fields `v` are judged. -/
def State.withFixed (s : State) (v : Half) : State :=
  { s.need 16 with
    cons := s.cons + 16, raw := s.raw ++ [v.extractLsb' 8 8, v.extractLsb' 0 8]
    hdr := { s.hdr with
      bsc := v.extractLsb' 12 4, src := v.extractLsb' 8 4, chc := v.extractLsb' 4 4, bdc := v.extractLsb' 1 3
      hun := v.getLsbD 0 } }

theorem State.withFixed_invalid_iff (s : State) (v : Half) : (s.withFixed v).fixedInvalid = true ↔
    s.hdr.hres = true ∨ bsEntry s.cfg (v.extractLsb' 12 4) = .reserved ∨ v.extractLsb' 8 4 = 15#4 ∨
      chEntry s.cfg (v.extractLsb' 4 4) = none ∨ (v.extractLsb' 1 3 ≠ 0#3 ∧ bpsEntry s.cfg (v.extractLsb' 1 3) = none) ∨
      (v.extractLsb' 1 3 = 0#3 ∧ s.siBps = 0#6) := by
  rw [State.fixedInvalid_iff]
  simp only [State.withFixed, need_cfg, need_siBps]

theorem fixedStep_of_has {s : State} (h : (s.need 16).has 16 = true) : fixedStep s =
    let t := s.withFixed (BitVec.ofNat 16 (field (s.need 16).S s.cons 16))
    if t.fixedInvalid then resyncStep t else .next ({ t with hp := .H1 }, .ok) := by
  rw [fixedStep, takeStep_has h]
  simp only [need_hdr, need_raw, fixedFields_eq, bytesOf16_eq]
  rfl

/-- Settles O35: the fields are slices of the 16 bits (`fixedFields_eq`), they are judged as the statement says
(`withFixed_invalid_iff`), and a header that is dropped resyncs on the second of the two bytes. -/
theorem headerFixedFields : Obligations.HeaderFixedFields := by
  unfold Obligations.HeaderFixedFields
  intro s hs hf hp hthere
  have hstep := (microStep_of_H0 hf hp).trans (fixedStep_of_has hthere)
  have hjudge := s.withFixed_invalid_iff (BitVec.ofNat 16 (field (s.need 16).S s.cons 16))
  refine ⟨fun hinvalid => ?dropped, fun hvalid => ?kept⟩
  case dropped =>
    have hdrop := hstep.trans (if_pos (hjudge.2 hinvalid))
    exact frStep_ok_in .searching hs (hdrop.trans (resyncStep_of_cons (p := s.cons + 8) rfl)) rfl
  case kept => exact frStep_ok_in .headerParse hs (hstep.trans (if_neg (mt hjudge.1 hvalid))) ((need_fsm s 16).trans hf)

/-! ### The frame or sample number (R281) -/

/-- A varint read moves the stream and nothing else. -/
theorem State.utf8_moves {s t : State} {wd : Nat} {o : Varint} (h : s.utf8 wd = (t, o)) :
    ∃ up S c e d, t = { s with upstream := up, S := S, cons := c, eos := e, dw := d } := by
  obtain ⟨u, hp, hu⟩ := s.utf8_cases wd
  rw [h] at hu
  rcases hu with hshort | ⟨-, -, -, hconsumed⟩
  · cases hshort
    exact ⟨_, _, s.cons, _, _, hp.same⟩
  · exact ⟨u.upstream, u.S, _, u.eos, u.dw, hconsumed.trans (by rw [hp.same])⟩

/-- A varint command that did not run dry ended with a value or with a cause of INVALID (R230). -/
theorem command_utf8_next {s u : State} {wd : Nat} (hs : s.Ready) (h : command s (utf8Body wd) = .next u)
    (hdry : u.status ≠ 0x0001#16) :
    (∃ t v raw, s.utf8 wd = (t, .value v raw) ∧ u = { t with
      res0 := natReg v, res1 := natReg (packBig 0 raw), res2 := natReg raw.length, status := 0x0000#16 }) ∨
    (∃ t c raw, s.utf8 wd = (t, .bad c raw) ∧ u = { t with
      res1 := natReg (packBig 0 raw), res2 := natReg raw.length, status := (Status.invalid c).word }) := by
  cases command_next h with
  | sticky hfault => exact absurd hs.noFault hfault
  | disposed _ hd => exact absurd (hd.symm.trans hs.open_) nofun
  | ran _ w st hbody _ =>
    unfold utf8Body at hbody
    split at hbody
    next t v raw e => cases hbody; exact .inl ⟨t, v, raw, e, endWith_ok _⟩
    next t c raw e => cases hbody; exact .inr ⟨t, c, raw, e, endWith_invalid _ c⟩
    next => cases hbody; exact absurd rfl hdry

section number
variable {s t : State} {v : Nat} {raw : List Byte}

theorem numberStep_of_value (h : s.utf8 s.numWidth = (t, .value v raw)) (hv : v ≠ 2 ^ s.numWidth - 1) : numberStep s =
    .next ({ t with hdr := { t.hdr with num := natReg v }, raw := t.raw ++ raw, hp := .H2 }, .ok) := by
  simp [numberStep, h, hv, Res.done]

theorem numberStep_of_sentinel (h : s.utf8 s.numWidth = (t, .value v raw)) (hv : v = 2 ^ s.numWidth - 1) :
    numberStep s = resyncStep t := by
  simp [numberStep, h, hv]

theorem numberStep_of_bad {c : InvalidCause} (h : s.utf8 s.numWidth = (t, .bad c raw)) : numberStep s = resyncStep t := by
  simp only [numberStep, h]

end number

/-- The value of a varint is the sentinel exactly when RES0 is (R228, R281). -/
theorem natReg_eq_sentinel {v wd : Nat} {sentinel : Reg} (hv : v < 2 ^ 31 ∨ v = 2 ^ wd - 1)
    (hw : wd = 32 ∧ sentinel = 0xFFFFFFFF#64 ∨ wd = 64 ∧ sentinel = 0xFFFFFFFFFFFFFFFF#64) :
    natReg v = sentinel ↔ v = 2 ^ wd - 1 := by
  have hlt : v < 2 ^ 64 := by rcases hw with ⟨rfl, -⟩ | ⟨rfl, -⟩ <;> omega
  rw [← BitVec.toNat_inj, natReg, BitVec.toNat_ofNat, Nat.mod_eq_of_lt hlt]
  rcases hw with ⟨rfl, rfl⟩ | ⟨rfl, rfl⟩ <;> rfl

/-- The command of the blocking strategy's width is the varint the header reads (R281). -/
theorem exec_utf8_numWidth {s : State} {i : Instr} {sentinel : Reg} (hb : s.rb.active = false)
    (hi : s.hdr.blk = false ∧ i = .brUtf8x32 ∧ sentinel = 0xFFFFFFFF#64 ∨
      s.hdr.blk = true ∧ i = .brUtf8x64 ∧ sentinel = 0xFFFFFFFFFFFFFFFF#64) :
    exec i s = command s (utf8Body s.numWidth) ∧
      (s.numWidth = 32 ∧ sentinel = 0xFFFFFFFF#64 ∨ s.numWidth = 64 ∧ sentinel = 0xFFFFFFFFFFFFFFFF#64) := by
  rcases hi with ⟨hblk, rfl, rfl⟩ | ⟨hblk, rfl, rfl⟩
  · have hw : s.numWidth = 32 := by simp [State.numWidth, hblk]
    exact ⟨exec_utf8 hb (.inl ⟨rfl, hw⟩), .inl ⟨hw, rfl⟩⟩
  · have hw : s.numWidth = 64 := by simp [State.numWidth, hblk]
    exact ⟨exec_utf8 hb (.inr ⟨rfl, hw⟩), .inr ⟨hw, rfl⟩⟩

/-- Settles O36: the command and the header read one varint (`exec_utf8_numWidth`), which moves the stream only
(`State.utf8_moves`) and whose value is the sentinel exactly when RES0 is (`natReg_eq_sentinel`). -/
theorem headerNumber : Obligations.HeaderNumber := by
  unfold Obligations.HeaderNumber
  intro s u i sentinel hs hf hp hi hu hdry
  have hstep := microStep_of_H1 hf hp
  obtain ⟨hexec, hwidth⟩ := exec_utf8_numWidth hs.noBatch hi
  rw [hexec] at hu
  rcases command_utf8_next hs.ready hu hdry with ⟨t, v, raw, hread, rfl⟩ | ⟨t, c, raw, hread, rfl⟩
  case inl =>
    obtain ⟨hbound, hraw, hlen⟩ := s.utf8_value s.numWidth hread
    obtain ⟨up, S, cons, eos, dw, rfl⟩ := State.utf8_moves hread
    have hsentinel := natReg_eq_sentinel hbound hwidth
    refine ⟨fun hvalue => ?value, fun hnot => ?sentinel⟩
    case value =>
      have hcount : (natReg raw.length).toNat = raw.length := Nat.mod_eq_of_lt (by omega)
      have hbytes : raw = octets S s.cons (natReg raw.length).toNat := hcount.symm ▸ hraw
      have hnumber := hstep.trans (numberStep_of_value hread (mt hsentinel.2 hvalue.2))
      refine (frStep_ok_in .headerParse hs hnumber hf).trans ?_
      exact congrArg (fun m => Host.Outcome.next { s with
        upstream := up, S := S, cons := cons, eos := eos, dw := dw, hdr := { s.hdr with num := natReg v }, hp := .H2
        raw := s.raw ++ m, res0 := 1#64, status := 0x0000#16 }) hbytes
    case sentinel =>
      have hv : natReg v = sentinel := Classical.not_not.1 fun hne => hnot ⟨rfl, hne⟩
      exact frStep_ok_in .searching hs (hstep.trans (numberStep_of_sentinel hread (hsentinel.1 hv))) rfl
  case inr =>
    obtain ⟨up, S, cons, eos, dw, rfl⟩ := State.utf8_moves hread
    exact ⟨fun hvalue => absurd hvalue.1 (word_ne (st := .invalid c) nofun),
      fun _ => frStep_ok_in .searching hs (hstep.trans (numberStep_of_bad hread)) rfl⟩

/-! ### The block size and the sample rate (R282, R283) -/

section sizeAndRate
variable {s : State} {n : Nat} (hthere : (s.need n).has n = true)
include hthere

theorem takeStep_setBlockSize (size : Nat → Nat) (raw : Nat → List Byte) :
    takeStep n s (fun v s => Res.done (s.setBlockSize (size v) (raw v)) .ok) =
      let v := field (s.need n).S s.cons n
      .next ({ s.need n with
        cons := s.cons + n, raw := s.raw ++ raw v, hdr := { s.hdr with bs := size v }, hp := .H3 }, .ok) := by
  simp only [takeStep_has hthere, State.setBlockSize, need_raw, need_hdr, Res.done]

theorem takeStep_setRate (rate : Nat → Word) (raw : Nat → List Byte) :
    takeStep n s (fun v s => Res.done (s.setRate (rate v) (raw v)) .ok) =
      let v := field (s.need n).S s.cons n
      .next ({ s.need n with
        cons := s.cons + n, raw := s.raw ++ raw v, hdr := { s.hdr with rate := rate v }, hp := .H4 }, .ok) := by
  simp only [takeStep_has hthere, State.setRate, need_raw, need_hdr, Res.done]

end sizeAndRate

/-- Settles O37: each code class is one equation of `blockSizeStep` or `rateStep`, and a deferred field is there
(`takeStep_setBlockSize`, `takeStep_setRate`). -/
theorem headerSizeAndRate : Obligations.HeaderSizeAndRate := by
  unfold Obligations.HeaderSizeAndRate
  intro s hs hf
  have stays (n : Nat) : (s.need n).fsm = .headerParse := (need_fsm s n).trans hf
  refine ⟨fun hp => ?size, fun hp => ?rate⟩
  case size =>
    have hstep := microStep_of_H2 hf hp
    refine ⟨fun hc hthere => ?deferred8, fun hc hthere => ?deferred16, fun n hc => ?direct⟩
    case deferred8 =>
      have hread := (blockSizeStep_of_deferred8 hc).trans (takeStep_setBlockSize hthere _ _)
      exact frStep_ok_in .headerParse hs (hstep.trans hread) (stays 8)
    case deferred16 =>
      have hread := (blockSizeStep_of_deferred16 hc).trans (takeStep_setBlockSize hthere _ _)
      exact frStep_ok_in .headerParse hs (hstep.trans hread) (stays 16)
    case direct => exact frStep_ok_in .headerParse hs (hstep.trans (blockSizeStep_of_direct hc)) hf
  case rate =>
    have hstep := microStep_of_H3 hf hp
    refine ⟨fun hc hthere => ?read8, fun scale hc hthere => ?read16, fun hc => ?configured, fun r h1 h11 hr => ?table⟩
    case read8 =>
      have hread := (rateStep_of_12 hc).trans (takeStep_setRate hthere _ _)
      exact frStep_ok_in .headerParse hs (hstep.trans hread) (stays 8)
    case read16 =>
      have hread := (rateStep_of_16 hc).trans (takeStep_setRate hthere _ _)
      exact frStep_ok_in .headerParse hs (hstep.trans hread) (stays 16)
    case configured => exact frStep_ok_in .headerParse hs (hstep.trans (rateStep_of_0 hc)) hf
    case table => exact frStep_ok_in .headerParse hs (hstep.trans (rateStep_of_table h1 h11 hr)) hf

/-! ### The CRC-8 (R284 to R286) -/

theorem acceptStep_of_entries {s : State} {bps nch : Nat} {asg : Assignment} (hbps : s.depthEntry = some bps)
    (hch : chEntry s.cfg s.hdr.chc = some (nch, asg)) : acceptStep s = .next ({ s with
      hdr := { s.hdr with bps := bps, nch := nch, asg := asg }, fsm := .subframes
      sub := { s.sub with ch := 0, ss := .S0, i := 0 } }, .ok) := by
  simp only [acceptStep, hbps, hch, Res.done]

/-- The state in which the CRC byte `v` has been read. -/
def State.withCrc8 (s : State) (v : Byte) : State :=
  { s.need 8 with cons := s.cons + 8, hdr := { s.hdr with hc8 := v } }

theorem headerCrcStep_of_has {s : State} (h : (s.need 8).has 8 = true) : headerCrcStep s =
    let v := BitVec.ofNat 8 (field (s.need 8).S s.cons 8)
    if fold8 0#8 s.raw = v then acceptStep (s.withCrc8 v) else resyncStep (s.withCrc8 v) := by
  rw [headerCrcStep, takeStep_has h]
  simp only [need_hdr, need_raw, State.withCrc8]

/-- Reading the CRC byte changes no code and no table. -/
theorem State.withCrc8_depthEntry (s : State) (v : Byte) : (s.withCrc8 v).depthEntry = s.depthEntry := by
  simp only [State.depthEntry, State.withCrc8, need_siBps, need_cfg]

theorem State.withCrc8_chEntry (s : State) (v : Byte) :
    chEntry (s.withCrc8 v).cfg (s.withCrc8 v).hdr.chc = chEntry s.cfg s.hdr.chc := by
  simp only [State.withCrc8, need_cfg]

/-- Settles O38: the CRC is over the reassembled bytes from 0, no register's value (`headerCrcStep_of_has`); a match is accepted
with the table's entries, a mismatch resyncs on the CRC byte itself. -/
theorem headerCrc : Obligations.HeaderCrc := by
  unfold Obligations.HeaderCrc
  intro s bps nch asg hs hf hp hthere hch hbps
  have hstep := (microStep_of_H4 hf hp).trans (headerCrcStep_of_has hthere)
  have hdepth : s.depthEntry = some bps := by
    rcases hbps with ⟨h, rfl⟩ | ⟨h, hentry⟩
    · exact if_pos h
    · exact (if_neg h).trans hentry
  refine ⟨fun hmatch => ?accepted, fun hmismatch => ?dropped⟩
  case accepted =>
    have haccept := (hstep.trans (if_pos hmatch)).trans
      (acceptStep_of_entries ((s.withCrc8_depthEntry _).trans hdepth) ((s.withCrc8_chEntry _).trans hch))
    rw [frStep_ok_in .subframes hs haccept rfl]
    simp only [State.withCrc8, need_sub]
    rfl
  case dropped =>
    have hdrop := hstep.trans (if_neg hmismatch)
    exact frStep_ok_in .searching hs (hdrop.trans (resyncStep_of_cons (p := s.cons) rfl)) rfl

end Sys2Proof.Machine
end

section
/-! PROOFS. The footer and FR.INFO (42_frame_sync.md R289, R290, R292, R298; 44_reconstruct.md R350). -/

namespace Sys2Proof.Machine

/-! ### The footer -/

section footer
variable {s : State}

theorem paddingStep_of_zero (hthere : (s.need s.padding).has s.padding = true)
    (hzero : field (s.need s.padding).S s.cons s.padding = 0) :
    paddingStep s = .next ({ s.need s.padding with cons := s.cons + s.padding, fs := .F1 }, .ok) := by
  simp [paddingStep, hthere, hzero, Res.done]

theorem paddingStep_of_nonzero (hthere : (s.need s.padding).has s.padding = true)
    (hset : field (s.need s.padding).S s.cons s.padding ≠ 0) :
    paddingStep s = fatalStep (s.need s.padding) .nonzeroPadding := by
  simp [paddingStep, hthere, hset]

/-- The state in which the footer is read: the octets up to it are folded, `v` is its value (R290). -/
def State.withFooter (s : State) (v : Half) : State :=
  { s.need 16 with
    cons := s.cons + 16, bcrc := fold16 s.bcrc (octets (s.need 16).S s.base ((s.cons - s.base) / 8))
    base := s.base + 8 * ((s.cons - s.base) / 8), fcrc := v }

theorem footerCrcStep_of_has (h : (s.need 16).has 16 = true) : footerCrcStep s =
    let v := BitVec.ofNat 16 (field (s.need 16).S s.cons 16)
    let x := s.withFooter v
    if v = x.bcrc then if x.layoutOk then .next (createFrame x, .ok) else fatalStep x .unsupportedLayout
    else fatalStep x .crc16Mismatch := by
  simp only [footerCrcStep, h, if_true, State.upd, State.withFooter, need_cons, need_base, need_bcrc, Res.done]
  rfl

/-- The layout is right when no channel count is set or the frame has it (44_reconstruct.md R350). -/
theorem State.withFooter_layoutOk_iff (s : State) (v : Half) :
    (s.withFooter v).layoutOk = true ↔ s.siChannels = 0#4 ∨ s.hdr.nch = s.siChannels.toNat := by
  have hzero : s.siChannels.toNat = 0 ↔ s.siChannels = 0#4 := by rw [← BitVec.toNat_inj]; rfl
  simp [State.layoutOk, State.withFooter, hzero]

/-- The footer changes nothing of the samples. -/
theorem State.withFooter_interleaved (s : State) (v : Half) : (s.withFooter v).interleaved = s.interleaved := by
  have hchan : (s.withFooter v).chan = s.chan := by
    funext c j
    simp only [State.chan, State.withFooter, need_chbuf]
  rw [State.interleaved, State.interleaved, hchan]
  simp only [State.frameLen, State.withFooter, need_hdr]

end footer

/-- Settles O44: F0 is `paddingStep`'s two cases, F1 the two checks of `footerCrcStep_of_has`. -/
theorem footerCheck : Obligations.FooterCheck := by
  unfold Obligations.FooterCheck
  refine ⟨fun s hs hf hfs => ?padding, fun s hs hf hfs hthere => ?crc⟩
  case padding =>
    have hstep := microStep_of_F0 hf hfs
    intro r t hthere
    refine ⟨fun hset => frStep_failed hs (hstep.trans (paddingStep_of_nonzero hthere hset)) rfl, fun hzero => ?_⟩
    exact frStep_ok_in .footerCheck hs (hstep.trans (paddingStep_of_zero hthere hzero)) ((need_fsm s _).trans hf)
  case crc =>
    have hstep := (microStep_of_F1 hf hfs).trans (footerCrcStep_of_has hthere)
    have hlayout := s.withFooter_layoutOk_iff (BitVec.ofNat 16 (field (s.need 16).S s.cons 16))
    refine ⟨fun hne => ?mismatch, fun heq hset hother => ?layout, fun heq hfits => ?frame⟩
    case mismatch => exact frStep_failed hs (hstep.trans (if_neg hne)) rfl
    case layout =>
      have hbad := mt hlayout.1 (not_or.2 ⟨hset, hother⟩)
      exact frStep_failed hs (hstep.trans ((if_pos heq).trans (if_neg hbad))) rfl
    case frame =>
      rw [frStep_ok_in .done hs (hstep.trans ((if_pos heq).trans (if_pos (hlayout.2 hfits)))) rfl]
      simp only [createFrame, State.withFooter_interleaved]
      rfl

/-! ### FR.INFO (R298) -/

theorem exec_frInfo (a : BitVec 8) (s : State) : exec (.frInfo a) s = command s fun s =>
    if infoOk a then
      if s.fpresent then Res.done { s with res0 := s.infoField a.toNat } .ok else Res.done s (.invalid .noFrame)
    else Res.violation s .selectorRange := rfl

theorem infoOk_iff {a : BitVec 8} : infoOk a = true ↔ a.toNat ≤ 10 := decide_eq_true_iff

/-- The table of R298, row by row. -/
theorem infoField_of_table {s : State} {a : BitVec 8} {v : Reg} (h :
    (a = 0#8 ∧ v = (if s.hdr.blk then 1#64 else 0#64)) ∨ (a = 1#8 ∧ v = BitVec.ofNat 64 s.hdr.bs) ∨
    (a = 2#8 ∧ v = s.hdr.rate.setWidth 64) ∨ (a = 3#8 ∧ v = s.hdr.chc.setWidth 64) ∨
    (a = 4#8 ∧ v = BitVec.ofNat 64 s.hdr.nch) ∨ (a = 5#8 ∧ v = BitVec.ofNat 64 s.hdr.bps) ∨
    (a = 6#8 ∧ v = s.hdr.num) ∨ (a = 7#8 ∧ v = s.hdr.hc8.setWidth 64) ∨
    (a = 8#8 ∧ v = BitVec.ofNat 64 s.hdr.fstart) ∨
    (a = 9#8 ∧ v = BitVec.ofNat 64 (s.hdr.nch * s.hdr.bs - s.fcur)) ∨ (a = 10#8 ∧ v = s.fcrc.setWidth 64)) :
    infoOk a = true ∧ s.infoField a.toNat = v := by
  rcases h with ⟨rfl, rfl⟩ | ⟨rfl, rfl⟩ | ⟨rfl, rfl⟩ | ⟨rfl, rfl⟩ | ⟨rfl, rfl⟩ | ⟨rfl, rfl⟩ | ⟨rfl, rfl⟩ | ⟨rfl, rfl⟩ |
    ⟨rfl, rfl⟩ | ⟨rfl, rfl⟩ | ⟨rfl, rfl⟩ <;> exact ⟨rfl, rfl⟩

/-- Settles O30: the selector is checked before the Frame, and the field is the table's (`infoField_of_table`). -/
theorem frameInfo : Obligations.FrameInfo := by
  unfold Obligations.FrameInfo
  refine ⟨fun a => .of_body rfl rfl, fun s a hr => ?_⟩
  rw [exec_frInfo]
  refine ⟨fun ha => ?selector, fun ha hno => ?noFrame, fun hframe v hv => ?field⟩
  case selector => exact command_violation (c := .selectorRange) hr (if_neg (mt infoOk_iff.1 ha.not_ge)) rfl
  case noFrame =>
    have hlacks : ¬s.fpresent = true := by simp [hno]
    rw [command_ready_same (st := .invalid .noFrame) hr ((if_pos (infoOk_iff.2 ha)).trans (if_neg hlacks)) rfl, endWith_invalid]
    rfl
  case field =>
    obtain ⟨hok, rfl⟩ := infoField_of_table hv
    exact command_done hr ((if_pos hok).trans (if_pos hframe)) rfl rfl

end Sys2Proof.Machine
end

section
/-! PROOFS. FR.DECODE (42_frame_sync.md R273): it is FR.STEP repeated, and it completes. -/

namespace Sys2Proof.Machine

/-- A result with another RES0 and STATUS is the same result. -/
theorem with0_next {r : Res} {x : Reg} {y : Half} {t : State} {st : Status} (h : r.with0 x y = .next (t, st)) :
    ∃ t', r = .next (t', st) ∧ t = t'.with0 x y := by
  cases r with
  | next p => cases h; exact ⟨p.1, rfl, rfl⟩
  | fault f => cases h
  | refused e => cases h

/-- The end of FR.DECODE writes RES0 and STATUS, so what they were before does not matter; but on PREDICTOR_CONTRACT RES0 stays
(log entry 7). -/
theorem frDecode_of_with0 {s u v : State} {x : Reg} {y : Half} (hs : s.Accepts) (hu : u.Accepts)
    (hrun : decodeRun u = (decodeRun s).with0 x y) (hv : exec .frDecode u = .next v) (hc : v.status ≠ 0x0905#16) :
    exec .frDecode s = .next v := by
  obtain ⟨w, st, hw⟩ := frDecode_inv hu hv
  obtain ⟨t, ht, rfl⟩ := with0_next (hrun ▸ hw)
  by_cases hok : st = .ok
  · subst hok
    rw [frDecode_ok hu hw] at hv
    cases hv
    rw [frDecode_ok hs ht]
    rfl
  · rw [frDecode_other hu hok hw] at hv
    cases hv
    have hne : st ≠ .violation .predictorContract := mt (word_eq_contract st).2 hc
    rw [frDecode_other hs hok ht, frameResult_of_ne hne, frameResult_of_ne hne]
    rfl

/-- Settles O46: the loop of FR.DECODE takes the micro-step that FR.STEP takes (`decodeRun_stop`, `decodeRun_frame`,
`decodeRun_loop`), and no micro-step looks at the RES0 and STATUS that FR.STEP has written (`decodeRun_with0`). -/
theorem decodeIsSteps : Obligations.DecodeIsSteps := by
  unfold Obligations.DecodeIsSteps
  refine ⟨.of_body rfl rfl, busy_frDecode, fun s u hi hs hu => ?_⟩
  obtain ⟨t, st, ht, rfl⟩ := frStep_inv hs hu
  rw [endWith_status]
  refine ⟨fun hne => ?stops, fun hok hdone => ?frame, fun hok hgoes v hv hc => ?goesOn⟩
  case stops =>
    have hst : st ≠ .ok := mt (word_eq_zero st).2 hne
    refine frDecode_other hs hst ((decodeRun_stop fun t' ht' => ?_).trans ht)
    cases ht.symm.trans ht'
    exact hst rfl
  case frame =>
    obtain rfl := (word_eq_zero st).1 hok
    have hfsm : t.fsm = .done := hdone
    rw [frDecode_ok hs (decodeRun_frame ht hfsm), endWith_ok]
    exact ⟨congrArg Fsm.code hfsm, rfl⟩
  case goesOn =>
    obtain rfl := (word_eq_zero st).1 hok
    rw [endWith_ok] at hgoes hv
    have hrun : decodeRun (t.with0 t.fsm.code 0x0000#16) = (decodeRun s).with0 t.fsm.code 0x0000#16 := by
      rw [decodeRun_loop hi.frame ht hgoes, decodeRun_with0]
    exact frDecode_of_with0 hs (accepts_after hs (microStep_ok s t .ok ht)) hrun hv hc

/-- Settles O47: the loop ends within its budget (`decodeRun_next`), and however it ends it has only advanced the decode
(`decodeLoop_ok`); with OK the invariant says that the Frame is whole. -/
theorem decodeCompletes : Obligations.DecodeCompletes := by
  unfold Obligations.DecodeCompletes
  intro s hi hs hfailed hpred
  obtain ⟨t, st, ht⟩ := decodeRun_next hi.frame hfailed hs.room hpred
  have ok : DecodeOk s t st := decodeLoop_ok _ s t st ht
  have h8 : t.c8 = s.c8 := by rw [ok.adv.kept]
  have h16 : t.c16 = s.c16 := by rw [ok.adv.kept]
  by_cases hok : st = .ok
  · obtain ⟨hdone, hpresent, hcur⟩ := ok.done hok
    have hlen : t.fbuf.length = t.frameLen := (ok.inv hi.frame).frameLen hpresent
    subst hok
    exact ⟨_, frDecode_ok hs ht,
      fun _ => ⟨hdone, hpresent, hcur, hlen, congrArg Fsm.code hdone, rfl⟩, fun hne => absurd rfl hne,
      ok.res2, ok.dmem, ok.rb, h8, h16⟩
  · refine ⟨_, frDecode_other hs hok ht, fun h0 => absurd ((word_eq_zero st).1 h0) hok, ?_⟩
    rw [frameResult_regs, frameResult_res0]
    refine ⟨fun _ => ⟨ok.res1, fun hc => if_neg (mt (word_eq_contract st).2 hc)⟩, ok.res2, ok.dmem, ok.rb, h8, h16⟩

end Sys2Proof.Machine
end

section
/-! PROOFS. The subframe header (43_subframe.md R321 to R325): its type, the effective depth, and the wasted-bit count. -/

namespace Sys2Proof.Machine

/-! ### The type (R322) -/

theorem typeDecode_of_reserved {ty : Nat} (h : 2 ≤ ty ∧ ty ≤ 7 ∨ 13 ≤ ty ∧ ty ≤ 31) : typeDecode ty = none := by
  rcases h with ⟨hlow, hhigh⟩ | ⟨hlow, hhigh⟩
  · rw [typeDecode, if_neg (by omega), if_neg (by omega), if_pos (by omega)]
  · rw [typeDecode, if_neg (by omega), if_neg (by omega), if_neg (by omega), if_neg (by omega), if_pos (by omega)]

/-- The table of R322, row by row. -/
theorem typeDecode_of_table {ty order : Nat} {kind : Kind} (h :
    (ty = 0 ∧ kind = .constant ∧ order = 0) ∨ (ty = 1 ∧ kind = .verbatim ∧ order = 0) ∨
    (8 ≤ ty ∧ ty ≤ 12 ∧ kind = .fixed ∧ order = ty - 8) ∨ (32 ≤ ty ∧ kind = .lpc ∧ order = ty - 31)) :
    typeDecode ty = some (kind, order) := by
  rcases h with ⟨rfl, rfl, rfl⟩ | ⟨rfl, rfl, rfl⟩ | ⟨hlow, hhigh, rfl, rfl⟩ | ⟨hlow, rfl, rfl⟩
  · rfl
  · rfl
  · rw [typeDecode, if_neg (by omega), if_neg (by omega), if_neg (by omega), if_pos hhigh]
  · rw [typeDecode, if_neg (by omega), if_neg (by omega), if_neg (by omega), if_neg (by omega), if_neg (by omega)]

/-! ### The effective depth (R325) -/

/-- FR.STEP after a sub-step that ends with the check of the depth `be`. -/
theorem frStep_of_depth {s t : State} {be : Int} (hs : s.Accepts) (h : microStep s = depthStep t) (hf : t.fsm = .subframes)
    (hbe : t.effDepth = be) :
    (1 ≤ be → exec .frStep s = .next { t with
      sub := { t.sub with be := be, ss := .S2 }, res0 := 2#64, status := 0x0000#16 }) ∧
    (be < 1 → exec .frStep s = .next { t with
      sub := { t.sub with be := be }, fsm := .failed, res0 := 6#64, status := 0x0804#16, fault := 0x0804#16 }) := by
  subst hbe
  exact ⟨fun hfits => frStep_ok_in .subframes hs (h.trans (if_neg hfits.not_gt)) hf,
    fun hbad => frStep_failed hs (h.trans (if_pos hbad)) rfl⟩

/-! ### The header byte (R321) -/

theorem testBit_seven {v : Nat} (h : v < 256) : v.testBit 7 = decide (128 ≤ v) := by
  rw [Nat.testBit_eq_decide_div_mod_eq]
  exact decide_eq_decide.2 (by omega)

/-- The header byte has given kind and order: the flag decides whether a wasted-bit count follows (R321). -/
def State.typedStep (s : State) (kind : Kind) (order : Nat) : Bool → Res
  | true => .next ({ s.consumed 8 with
      sub := { s.sub with wf := true, kind := kind, order := order, i := 0, ss := .S1 } }, .ok)
  | false => depthStep { s.consumed 8 with sub := { s.sub with wf := false, kind := kind, order := order, i := 0, w := 0 } }

section byte
variable {s : State} (hthere : (s.need 8).has 8 = true)
include hthere

theorem subHeaderStep_of_reservedBit (hv : 128 ≤ field (s.need 8).S s.cons 8) :
    subHeaderStep s = fatalStep (s.consumed 8) .subframeReservedBit := by
  have hbit := testBit_seven (field_lt (s.need 8).S s.cons 8)
  exact (takeStep_has hthere _).trans (if_pos (hbit.trans (decide_eq_true hv)))

theorem subHeaderStep_of_type {ty : Option (Kind × Nat)} (hv : field (s.need 8).S s.cons 8 < 128)
    (hty : typeDecode (field (s.need 8).S s.cons 8 / 2 % 64) = ty) : subHeaderStep s =
    let wf := decide (field (s.need 8).S s.cons 8 % 2 = 1)
    ty.elim (fatalStep { s.consumed 8 with sub := { s.sub with wf := wf } } .reservedSubframeType)
      fun p => s.typedStep p.1 p.2 wf := by
  have hbit := testBit_seven (field_lt (s.need 8).S s.cons 8)
  rw [subHeaderStep, takeStep_has hthere]
  simp only [hbit, decide_eq_false hv.not_ge, Bool.false_eq_true, if_false, hty, Nat.testBit_zero, need_sub]
  cases ty with
  | none => rfl
  | some p => cases decide (field (s.need 8).S s.cons 8 % 2 = 1) <;> rfl

end byte

/-! ### The wasted-bit count (R324) -/

section count
variable {s : State} {z : Nat} (hz : z ≤ s.cfg.unaryMax)
  (hzeros : ∀ j, j < z → bitAt (s.need (z + 1)).S (s.cons + j) = false) (hthere : (s.need (z + 1)).has (z + 1) = true)
include hz hzeros hthere

theorem wastedStep_found (hone : bitAt (s.need (z + 1)).S (s.cons + z) = true) :
    wastedStep s = depthStep { s.need (z + 1) with cons := s.cons + z + 1, sub := { s.sub with w := z + 1 } } := by
  simp only [wastedStep, State.scan_found hthere hzeros hone (unaryOver_of_le hz), need_cons, need_sub]

theorem wastedStep_tooLong (hzero : bitAt (s.need (z + 1)).S (s.cons + z) = false) (hmax : z = s.cfg.unaryMax) :
    wastedStep s = fatalStep (s.need (z + 1)) .wastedBitsInvalid := by
  have hall : ∀ j, j ≤ z → bitAt (s.need (z + 1)).S (s.cons + j) = false := fun j hj =>
    (Nat.lt_or_eq_of_le hj).elim (hzeros j) fun he => he ▸ hzero
  have hover : unaryOver s.cfg (z + 1) = true := decide_eq_true (by omega)
  simp only [wastedStep, State.scan_tooLong hthere hall hover (unaryOver_of_le hz)]

end count

/-- Settles O40: the header byte has its reserved bit set or gives a type (`subHeaderStep_of_type`), the count is one of the two
ends of the scan, and the depth is checked after either (`frStep_of_depth`). -/
theorem subframeHeader : Obligations.SubframeHeader := by
  unfold Obligations.SubframeHeader
  refine ⟨fun s hs hf hss hthere => ?byte, fun s z hs hf hss => ?count⟩
  case byte =>
    have hstep := microStep_of_S0 hf hss
    intro t v ty wf side be
    refine ⟨fun hv => ?bit, fun hv hty => ?reserved, fun kind order hv hty => ?type⟩
    case bit => exact frStep_failed hs (hstep.trans (subHeaderStep_of_reservedBit hthere hv)) rfl
    case reserved =>
      exact frStep_failed hs (hstep.trans (subHeaderStep_of_type hthere hv (typeDecode_of_reserved hty))) rfl
    case type =>
      have hread (b : Bool) (hflag : wf = b) : microStep s = s.typedStep kind order b := by
        rw [hstep, ← hflag]
        exact subHeaderStep_of_type hthere hv (typeDecode_of_table hty)
      have hfsm : (s.consumed 8).fsm = .subframes := (consumed_fsm s 8).trans hf
      have hdepth (hflag : wf = false) := frStep_of_depth (be := be) hs (hread false hflag) hfsm
        (by rw [effDepth_eq, consumed_hdr]; exact sub_zero be)
      exact ⟨fun hflag => frStep_ok_in .subframes hs (hread true hflag) hfsm,
        fun hflag => (hdepth hflag).1, fun hflag => (hdepth hflag).2⟩
  case count =>
    have hstep := microStep_of_S1 hf hss
    have hfsm : (s.need (z + 1)).fsm = .subframes := (need_fsm s (z + 1)).trans hf
    intro t side be hz hzeros hthere
    have hdepth (hone : bitAt t.S (s.cons + z) = true) := frStep_of_depth (be := be) hs
      (hstep.trans (wastedStep_found hz hzeros hthere hone)) hfsm (by rw [effDepth_eq, need_hdr])
    exact ⟨fun hone => (hdepth hone).1, fun hone => (hdepth hone).2,
      fun hzero hmax => frStep_failed hs (hstep.trans (wastedStep_tooLong hz hzeros hthere hzero hmax)) rfl⟩

end Sys2Proof.Machine
end

section
/-! PROOFS. The payloads of a subframe (43_subframe.md R326 to R333): the samples that Constant and Verbatim store, the end of a
channel, and one call of the predictor. -/

namespace Sys2Proof.Machine

/-! ### Samples stored and the end of a channel (R328, R329) -/

/-- The stream may have moved from `s` to `u`; the decode and the samples have not. -/
structure State.SameDecode (s u : State) : Prop where
  fsm : u.fsm = s.fsm
  hdr : u.hdr = s.hdr
  sub : u.sub = s.sub
  fs : u.fs = s.fs
  chan : u.chan = s.chan

theorem State.SameDecode.of_chbuf {s u : State} (hfsm : u.fsm = s.fsm) (hhdr : u.hdr = s.hdr) (hsub : u.sub = s.sub)
    (hfs : u.fs = s.fs) (hchbuf : u.chbuf = s.chbuf) : s.SameDecode u :=
  ⟨hfsm, hhdr, hsub, hfs, by funext c j; rw [State.chan, State.chan, hchbuf]⟩

theorem State.SameDecode.consumed (s : State) (n : Nat) : s.SameDecode (s.consumed n) :=
  .of_chbuf (consumed_fsm s n) (consumed_hdr s n) (consumed_sub s n) (consumed_fs s n) (consumed_chbuf s n)

/-- `t` stands after the end of the channel that `s` was in (R329). -/
structure State.ChannelEnded (s t : State) : Prop where
  sub : t.sub = { s.sub with ch := s.sub.ch + 1, i := 0, ss := .S0 }
  last : s.sub.ch + 1 = s.hdr.nch → t.fsm = .footerCheck ∧ t.fs = .F0
  more : s.sub.ch + 1 ≠ s.hdr.nch → t.fsm = .subframes ∧ t.fs = s.fs

/-- Every sample of the channel is `x` (R326). -/
def State.filled (s : State) (x : Int) : State := s.putChan 0 (List.replicate s.hdr.bs x)

theorem chan_filled {s : State} (x : Int) (hbs : s.hdr.bs ≤ 65536) (c : Nat) {j : Nat} (hj : j < 65536) :
    (s.filled x).chan c j = if c = s.sub.ch ∧ j < s.hdr.bs then x else s.chan c j := by
  rw [State.filled, chan_putChan s 0 _ (by simpa using hbs) c j hj]
  simp only [List.length_replicate, Nat.zero_le, Nat.zero_add, Nat.sub_zero, true_and]
  split_ifs with hin
  · exact List.getD_replicate _ hin.2
  · rfl

section stored
variable {s u : State} (hs : s.Accepts) (hf : s.fsm = .subframes) (hu : s.SameDecode u) (hbs : s.hdr.bs ≤ 65536)
include hs hf hu hbs

/-- FR.STEP after a sub-step that filled the whole channel with `x`. -/
theorem frStep_of_fill {x : Int} (h : microStep s = .next (channelDone (u.filled x), .ok)) :
    ∃ t : State, exec .frStep s = .next t ∧ s.ChannelEnded t ∧
      (∀ c j, j < 65536 → t.chan c j = if c = s.sub.ch ∧ j < s.hdr.bs then x else s.chan c j) ∧
      t = { u with sub := t.sub, chbuf := t.chbuf, fsm := t.fsm, fs := t.fs, res0 := t.fsm.code, status := 0x0000#16 } := by
  have hsub : (u.filled x).sub = s.sub := hu.sub
  have hhdr : (u.filled x).hdr = s.hdr := hu.hdr
  have hfs : (u.filled x).fs = s.fs := hu.fs
  have hfacts := channelDone_facts (u.filled x) (hu.fsm.trans hf)
  rw [hsub, hhdr, hfs] at hfacts
  obtain ⟨hnext, hlast, hmore⟩ := hfacts
  refine ⟨_, frStep_ok hs h rfl, ⟨hnext, hlast, hmore⟩, fun c j hj => ?chan, ?frame⟩
  case chan =>
    refine (chan_channelDone _ c j).trans ?_
    rw [chan_filled x (by rwa [hu.hdr]) c hj, hu.sub, hu.hdr, hu.chan]
  case frame =>
    exact congrArg (fun t : State => { t with res0 := (channelDone (u.filled x)).fsm.code, status := 0x0000#16 })
      (channelDone_regs (u.filled x))

/-- FR.STEP after a sub-step that produced the samples `xs`. -/
theorem frStep_of_produce {xs : List Int} (h : microStep s = .next (produce u xs, .ok))
    (hfits : s.sub.i + xs.length ≤ s.hdr.bs) :
    ∃ t : State, exec .frStep s = .next t ∧
      (s.sub.i + xs.length = s.hdr.bs → s.ChannelEnded t) ∧
      (s.sub.i + xs.length ≠ s.hdr.bs →
        t.sub = { s.sub with i := s.sub.i + xs.length } ∧ t.fsm = .subframes ∧ t.fs = s.fs) ∧
      (∀ c j, j < 65536 → t.chan c j = if c = s.sub.ch ∧ s.sub.i ≤ j ∧ j < s.sub.i + xs.length
        then xs.getD (j - s.sub.i) 0 * 2 ^ s.sub.w else s.chan c j) ∧
      t = { u with sub := t.sub, chbuf := t.chbuf, fsm := t.fsm, fs := t.fs, res0 := t.fsm.code, status := 0x0000#16 } := by
  have hfacts := produce_facts u xs (hu.fsm.trans hf) (by rwa [hu.hdr]) (by rwa [hu.sub, hu.hdr])
  rw [hu.sub, hu.hdr, hu.fs, hu.chan] at hfacts
  obtain ⟨hchan, hfull, hmore⟩ := hfacts
  exact ⟨_, frStep_ok hs h rfl, fun hi => let ⟨hsub, hlast, hnext⟩ := hfull hi; ⟨hsub, hlast, hnext⟩, hmore, hchan,
    congrArg (fun t : State => { t with res0 := (produce u xs).fsm.code, status := 0x0000#16 }) (produce_frame u xs)⟩

end stored

/-! ### Constant and Verbatim (R326, R327) -/

section payload
variable {s : State} (hthere : (s.need s.sub.be.toNat).has s.sub.be.toNat = true)
include hthere

theorem constantStep_of_has : constantStep s =
    let v := field (s.need s.sub.be.toNat).S s.cons s.sub.be.toNat
    .next (channelDone ((s.consumed s.sub.be.toNat).filled (sextInt s.sub.be.toNat v * 2 ^ s.sub.w)), .ok) := by
  refine (takeStep_has hthere _).trans ?_
  change Res.done (channelDone ((s.consumed _).filled (sextInt (s.consumed _).sub.be.toNat _ * 2 ^ (s.consumed _).sub.w))) _ = _
  rw [consumed_sub]
  rfl

theorem verbatimStep_of_has : verbatimStep s =
    let v := field (s.need s.sub.be.toNat).S s.cons s.sub.be.toNat
    .next (produce (s.consumed s.sub.be.toNat) [sextInt s.sub.be.toNat v], .ok) := by
  refine (takeStep_has hthere _).trans ?_
  change Res.done (produce (s.consumed _) [sextInt (s.consumed _).sub.be.toNat _]) _ = _
  rw [consumed_sub]
  rfl

end payload

/-- Settles O41: a Constant payload fills its channel (`frStep_of_fill`), a Verbatim one produces one sample
(`frStep_of_produce`), both of the two's complement value (`sextInt_eq`). -/
theorem payloadSamples : Obligations.PayloadSamples := by
  unfold Obligations.PayloadSamples
  intro s hs hf hss hthere hbe hbs n v x last next
  have hx : sextInt n v * 2 ^ s.sub.w = x := by rw [sextInt_eq n v (by omega) (field_lt _ _ _)]
  have hended {t : State} (h : s.ChannelEnded t) : next t := ⟨h.sub.symm, h.last, h.more⟩
  refine ⟨fun hk => ?constant, fun hk hi => ?verbatim⟩
  case constant =>
    have hstep := (microStep_of_constant hf hss hk).trans (constantStep_of_has hthere)
    obtain ⟨t, ht, hend, hchan, hframe⟩ := frStep_of_fill hs hf (.consumed s n) hbs hstep
    exact ⟨t, ht, hended hend, fun c j _ hj => by rw [hchan c j hj, ← hx], hframe⟩
  case verbatim =>
    have hstep := (microStep_of_verbatim hf hss hk).trans (verbatimStep_of_has hthere)
    obtain ⟨t, ht, hfull, hmore, hchan, hframe⟩ := frStep_of_produce hs hf (.consumed s n) hbs hstep hi
    refine ⟨t, ht, fun h => hended (hfull h), hmore, fun c j _ hj => ?_, hframe⟩
    have hone : c = s.sub.ch ∧ s.sub.i ≤ j ∧ j < s.sub.i + 1 ↔ c = s.sub.ch ∧ j = s.sub.i := by omega
    rw [hchan c j hj, List.length_singleton, if_congr hone rfl rfl, ← hx]
    split_ifs with hin
    · rw [hin.2, Nat.sub_self]; rfl
    · rfl

/-! ### One call of the predictor (R330 to R333) -/

section predictor
variable {s : State}

theorem microStep_of_payload (hf : s.fsm = .subframes) (hss : s.sub.ss = .S2) (hk : s.sub.kind = .fixed ∨ s.sub.kind = .lpc) :
    microStep s = predictorStep s := by
  rcases hk with hk | hk <;> simp only [microStep_of_subframes hf, subframeStep, hss, hk]

theorem predictorStep_of_answer {a : PredAnswer} {more : List PredAnswer} (h : s.predictor = some (a :: more)) :
    predictorStep s = predOutcomeStep (s.calling more) (State.pulls a.pulls (s.calling more)) a.outcome := by
  simp only [predictorStep, h]

variable {call t : State} {xs : List Int} {bits : Nat}

theorem predOutcomeStep_of_over (hsome : xs ≠ []) (hover : t.hdr.bs < t.sub.i + xs.length)
    (hroom : streamOverflow call t = false) : predOutcomeStep call t (.produced xs bits) =
      .next ({ call with fsm := .failed }, .violation .predictorContract) := by
  simp [predOutcomeStep, hsome, hover, hroom, Res.done]

theorem predOutcomeStep_of_fits (hsome : xs ≠ []) (hfits : t.sub.i + xs.length ≤ t.hdr.bs) :
    predOutcomeStep call t (.produced xs bits) =
      .next (produce { t with cons := t.cons + min bits (t.avail - t.cons) } xs, .ok) := by
  simp [predOutcomeStep, hsome, hfits.not_gt, Res.done]

end predictor

/-- Settles O42: the request is that of `State.calling`, the call only pulls, and each outcome is one case of `predOutcomeStep`.
(The plain name is that of the model's sub-step.) -/
theorem predictorStep_outcomes : Obligations.PredictorStep := by
  unfold Obligations.PredictorStep
  intro s a more hs hf hss hk hpred t
  have hpulled : (s.calling more).PulledTo t := State.pulls_pulledTo a.pulls (s.calling more)
  have hstep {o : PredOutcome} (ho : a.outcome = o) : microStep s = predOutcomeStep (s.calling more) t o :=
    ho ▸ (microStep_of_payload hf hss hk).trans (predictorStep_of_answer hpred)
  have hfsm : t.fsm = .subframes := hpulled.fsm_eq.trans hf
  have hhdr : t.hdr = s.hdr := hpulled.hdr_eq
  have hsub : t.sub = s.sub := hpulled.sub_eq
  have hcons : t.cons = s.cons := hpulled.cons_eq
  refine ⟨fun ho => ?fail, fun ho he => ?dry, fun ho he => ?truncated, fun bits ho => ?empty,
    fun xs bits ho hsome hover => ?tooMany, fun xs bits ho hsome hfits hbs => ?produced⟩
  case fail => exact frStep_failed hs (hstep ho) rfl
  case dry => exact frStep_under hs ((hstep ho).trans (underrunStep_of_notEnded he)) (by rw [hfsm]; rfl)
  case truncated => exact frStep_failed hs ((hstep ho).trans (underrunStep_inside he (.inl hfsm))) rfl
  case empty => exact frStep_failed hs (hstep ho) rfl
  case tooMany =>
    have hroom : State.Room (s.calling more) := hs.room
    rw [← hsub, ← hhdr] at hover
    rw [frStep_contract hs ((hstep ho).trans (predOutcomeStep_of_over hsome hover (hroom.noOverflow hpulled))) rfl,
      hpulled.preq_eq]
    rfl
  case produced =>
    have hrun := (hstep ho).trans (predOutcomeStep_of_fits hsome (by rwa [hsub, hhdr]))
    have hsame : s.SameDecode { t with cons := t.cons + min bits (t.avail - t.cons) } :=
      .of_chbuf hpulled.fsm_eq hhdr hsub hpulled.fs_eq hpulled.chbuf_eq
    obtain ⟨u, hu, hfull, hmore, hchan, hframe⟩ := frStep_of_produce hs hf hsame hbs hrun hfits
    rw [hcons] at hframe
    exact ⟨u, hu, fun c j _ hj => hchan c j hj, fun h => hmore h.ne,
      fun h => ⟨(hfull h).sub, (hfull h).last, (hfull h).more⟩, hframe⟩

end Sys2Proof.Machine
end

section
/-! PROOFS. The reconstruction rules (44_reconstruct.md): the interleaved values of a Frame, and PCM.READ. -/

namespace Sys2Proof.Machine

/-! ### The values of a Frame (R351 to R361) -/

/-- Value `j·nch + c` of the Frame is sample `j` of output channel `c` (R355). -/
theorem interleaved_getElem? (s : State) {c j : Nat} (hc : c < s.hdr.nch) (hj : j < s.hdr.bs) :
    s.interleaved[j * s.hdr.nch + c]? = some (store32 (outSample s.hdr.asg s.chan c j)) := by
  have hlt : j * s.hdr.nch + c < s.frameLen :=
    calc j * s.hdr.nch + c < j * s.hdr.nch + s.hdr.nch := Nat.add_lt_add_left hc _
      _ = (j + 1) * s.hdr.nch := (Nat.succ_mul j _).symm
      _ ≤ s.hdr.bs * s.hdr.nch := Nat.mul_le_mul_right _ hj
      _ = s.frameLen := Nat.mul_comm _ _
  have hmod : (j * s.hdr.nch + c) % s.hdr.nch = c := Nat.mul_add_mod_of_lt hc
  have hdiv : (j * s.hdr.nch + c) / s.hdr.nch = j := by
    rw [Nat.mul_comm, Nat.mul_add_div (Nat.zero_lt_of_lt hc), Nat.div_eq_of_lt hc, Nat.add_zero]
  simp only [State.interleaved, List.getElem?_map, List.getElem?_range hlt, Option.map_some, hmod, hdiv]

/-- Store32 keeps the residue modulo 2^32 that an int32 can hold (R360). -/
theorem store32_toInt (x : Int) : (store32 x).toInt = (x + 2 ^ 31) % 2 ^ 32 - 2 ^ 31 := by
  have hbmod : (store32 x).toInt = x.bmod (2 ^ 32) := BitVec.toInt_ofInt x
  rw [hbmod, Int.bmod_def]
  split <;> omega

/-- The sum and the difference of two integers have the same parity, so `mid` is their sum again (R354, R361). -/
theorem midOf_half_sum (left right : Int) : midOf ((left + right) / 2) (left - right) = left + right := by
  unfold midOf
  omega

/-- Settles O45: a Frame holds its samples as `interleaved_getElem?` says, and mid/side takes half of `left + right` plus or minus
`left - right` (`midOf_half_sum`). -/
theorem reconstruction : Obligations.Reconstruction := by
  unfold Obligations.Reconstruction
  refine ⟨fun s => ⟨interleaved_length s, fun c j hc hj _ => ?value⟩, store32_toInt,
    fun left right x j hmid hside => ?midSide⟩
  case value =>
    rw [interleaved_getElem? s hc hj]
    cases s.hdr.asg <;> rfl
  case midSide =>
    simp only [outSample, hmid, hside, midOf_half_sum, if_true, one_ne_zero, if_false]
    constructor <;> omega

/-! ### The body of PCM.READ (R364) -/

/-- What PCM.READ reads of the host's registers and writes of DMEM is the same before a decode and after it. -/
theorem DecodeOk.pcmCopy_eq {s t : State} {st : Status} (h : DecodeOk s t st) : pcmCopy t =
    let n := min s.arg1.toNat (t.hdr.nch * t.hdr.bs - t.fcur)
    { t with
      dmem := memWriteWords s.dmem s.arg0.toNat ((t.fbuf.drop t.fcur).take n), fcur := t.fcur + n
      res0 := BitVec.ofNat 64 n, res1 := BitVec.ofNat 64 (t.hdr.nch * t.hdr.bs - (t.fcur + n))
      res2 := BitVec.ofNat 64 t.hdr.nch } := by
  have h0 : t.arg0 = s.arg0 := by rw [h.adv.kept]
  have h1 : t.arg1 = s.arg1 := by rw [h.adv.kept]
  rw [← h0, ← h1, ← h.dmem]
  rfl

/-- The words PCM.READ copies fit the destination range. -/
theorem DecodeOk.pcmCopy_dmem {s t : State} {st : Status} (h : DecodeOk s t st) :
    ∃ vs : List Word, vs.length ≤ s.arg1.toNat ∧ (pcmCopy t).dmem = memWriteWords s.dmem s.arg0.toNat vs := by
  rw [h.pcmCopy_eq]
  exact ⟨_, (List.length_take_le _ _).trans (Nat.min_le_left _ _), rfl⟩

section body
variable {s t : State}

theorem pcmBody_of_noCapacity (h : s.arg1 = 0#64) : pcmBody s = .next ({ s with res0 := 0#64 }, .ok) :=
  if_pos (by rw [h]; rfl)

theorem arg1_toNat_ne_zero (h : s.arg1 ≠ 0#64) : s.arg1.toNat ≠ 0 := fun h0 => h (BitVec.eq_of_toNat_eq h0)

theorem pcmBody_of_left (h : s.arg1 ≠ 0#64) (hpresent : s.fpresent = true) (hleft : s.fcur ≠ s.frameLen) :
    pcmBody s = .next (pcmCopy s, .ok) :=
  (if_neg (arg1_toNat_ne_zero h)).trans (if_pos ⟨hpresent, hleft⟩)

theorem not_left_of_none (h : s.fpresent = false ∨ s.fcur = s.frameLen) : ¬(s.fpresent = true ∧ s.fcur ≠ s.frameLen) := by
  rintro ⟨hpresent, hleft⟩
  rcases h with hnone | hnone
  · exact nomatch hnone.symm.trans hpresent
  · exact hleft hnone

theorem pcmBody_of_decoded (h : s.arg1 ≠ 0#64) (hnone : s.fpresent = false ∨ s.fcur = s.frameLen)
    (ht : decodeRun s = .next (t, .ok)) : pcmBody s = .next (pcmCopy t, .ok) := by
  rw [pcmBody, if_neg (arg1_toNat_ne_zero h), if_neg (not_left_of_none hnone), ht]
  rfl

theorem pcmBody_of_failing {st : Status} (h : s.arg1 ≠ 0#64) (hnone : s.fpresent = false ∨ s.fcur = s.frameLen)
    (ht : decodeRun s = .next (t, st)) (hst : st ≠ .ok) : pcmBody s = .next ({ t with res0 := 0#64 }, st) := by
  rw [pcmBody, if_neg (arg1_toNat_ne_zero h), if_neg (not_left_of_none hnone), ht]
  cases st with
  | ok => exact absurd rfl hst
  | _ => rfl

/-- However PCM.READ ends, what it wrote is at most `cap` words from the destination on. -/
theorem pcmBody_dmem {st : Status} (h : pcmBody s = .next (t, st)) :
    t.dmem = s.dmem ∨ ∃ vs : List Word, vs.length ≤ s.arg1.toNat ∧ t.dmem = memWriteWords s.dmem s.arg0.toNat vs := by
  unfold pcmBody at h
  split at h
  case isTrue => cases h; exact .inl rfl
  case isFalse =>
    split at h
    case isTrue => cases h; exact .inr (DecodeOk.same s).pcmCopy_dmem
    case isFalse =>
      split at h
      case h_1 u hu => cases h; exact .inr (decodeLoop_ok _ s u .ok hu).pcmCopy_dmem
      case h_2 u _ _ hu => cases h; exact .inl (decodeLoop_ok _ s u st hu).dmem
      case h_3 => cases h
      case h_4 => cases h

end body

/-! ### PCM.READ (R364) -/

/-- PCM.READ as its body after the common checks. -/
theorem exec_pcmRead (s : State) : exec .pcmRead s = command s fun s =>
    if rangeOk s.cfg s.arg0.toNat (4 * s.arg1.toNat) then
      if alignOk s.arg0.toNat then noBatch s (pcmBody s) else Res.violation s .dmemAlign
    else Res.violation s .dmemRange := rfl

/-- DMEM outside the destination range keeps every byte. -/
theorem exec_pcmRead_outside {s t : State} (h : exec .pcmRead s = .next t) {p : Nat}
    (hp : p < s.arg0.toNat ∨ s.arg0.toNat + 4 * s.arg1.toNat ≤ p) : memByte t.dmem p = memByte s.dmem p := by
  rw [exec_pcmRead] at h
  cases command_next h with
  | sticky => rfl
  | disposed => rfl
  | ran _ u st hbody _ =>
    have hviolation {c : ViolationCause} (hc : Res.violation s c = .next (u, st)) : u.dmem = s.dmem := by cases hc; rfl
    have hdmem : u.dmem = s.dmem ∨
        ∃ vs : List Word, vs.length ≤ s.arg1.toNat ∧ u.dmem = memWriteWords s.dmem s.arg0.toNat vs := by
      split at hbody
      · split at hbody
        · unfold noBatch at hbody
          split at hbody
          · exact .inl (hviolation hbody)
          · exact pcmBody_dmem hbody
        · exact .inl (hviolation hbody)
      · exact .inl (hviolation hbody)
    show memByte u.dmem p = _
    rcases hdmem with hsame | ⟨vs, hlen, hwrite⟩
    · rw [hsame]
    · rw [hwrite]
      exact memByte_memWriteWords_outside _ _ _ _ (by omega)

section legal
variable {s t : State} (hs : s.Accepts) (hr : s.arg0.toNat + 4 * s.arg1.toNat ≤ s.cfg.dmemBytes)
  (hal : s.arg0.toNat % 4 = 0)
include hs hr hal

/-- A PCM.READ that passes its checks is its body. -/
theorem exec_pcmRead_of_legal : exec .pcmRead s = command s pcmBody :=
  (exec_pcmRead s).trans <| command_congr <|
    (if_pos (rangeOk_iff.2 hr)).trans <| (if_pos (alignOk_iff.2 hal)).trans (noBatch_accepts hs _)

theorem exec_pcmRead_of_decoded (h : s.arg1 ≠ 0#64) (hnone : s.fpresent = false ∨ s.fcur = s.frameLen)
    (ht : decodeRun s = .next (t, .ok)) : exec .pcmRead s = .next { pcmCopy t with status := 0x0000#16 } := by
  have hfits : streamOverflow s (pcmCopy t) = false := noOverflow_advance hs (decodeLoop_ok _ s t .ok ht).adv rfl
  rw [exec_pcmRead_of_legal hs hr hal, command_of_ready hs.ready (pcmBody_of_decoded h hnone ht) hfits, endWith_ok]

theorem exec_pcmRead_of_failing {st : Status} (h : s.arg1 ≠ 0#64) (hnone : s.fpresent = false ∨ s.fcur = s.frameLen)
    (ht : decodeRun s = .next (t, st)) (hst : st ≠ .ok) :
    exec .pcmRead s = .next (State.endWith { t with res0 := 0#64 } st) := by
  have hfits : streamOverflow s { t with res0 := 0#64 } = false := noOverflow_advance hs (decodeLoop_ok _ s t st ht).adv rfl
  rw [exec_pcmRead_of_legal hs hr hal, command_of_ready hs.ready (pcmBody_of_failing h hnone ht hst) hfits]

end legal

/-- Settles O48: the checks in their order; past them PCM.READ is `pcmBody`, which copies at once or after the loop of FR.DECODE
(`frDecode_inv`), and `pcmBody_dmem` says what it can have written. -/
theorem pcmRead : Obligations.PcmRead := by
  unfold Obligations.PcmRead
  refine ⟨.of_body rfl rfl, fun s hs hr => ?range, fun s hs hr hal => ?align, fun s hs hr hal hb =>
    exec_pcmRead_of_active hs hb hr hal, fun s hs hr hal => ⟨fun h => ?noCapacity, fun h hpresent hleft => ?left,
      fun u h hnone hu => ?none⟩, fun s t _ h p hp => exec_pcmRead_outside h hp⟩
  case range =>
    rw [exec_pcmRead]
    exact command_violation (c := .dmemRange) hs (if_neg (mt rangeOk_iff.1 hr.not_ge)) rfl
  case align =>
    rw [exec_pcmRead]
    exact command_violation (c := .dmemAlign) hs ((if_pos (rangeOk_iff.2 hr)).trans (if_neg (mt alignOk_iff.1 hal))) rfl
  case noCapacity =>
    rw [exec_pcmRead_of_legal hs hr hal]
    exact command_done hs.ready (pcmBody_of_noCapacity h) rfl rfl
  case left =>
    rw [exec_pcmRead_of_legal hs hr hal]
    exact command_done hs.ready (pcmBody_of_left h hpresent hleft) rfl rfl
  case none =>
    obtain ⟨t, st, ht⟩ := frDecode_inv hs hu
    by_cases hst : st = .ok
    · subst hst
      rw [frDecode_ok hs ht] at hu
      cases hu
      refine ⟨fun _ => ?_, fun hne => absurd rfl hne⟩
      rw [exec_pcmRead_of_decoded hs hr hal h hnone ht, (decodeLoop_ok _ s t .ok ht).pcmCopy_eq]
    · rw [frDecode_other hs hst ht, frameResult_regs] at hu
      cases hu
      exact ⟨fun hok => absurd hok (word_ne hst), fun _ => exec_pcmRead_of_failing (t := t) hs hr hal h hnone ht hst⟩

end Sys2Proof.Machine
end

section
/-! PROOFS. The system commands (45_system.md R380 to R386; 70_reset_and_hazards.md R451). -/

namespace Sys2Proof.Machine

/-! ### SYS.RESET (R380) -/

theorem exec_sysReset (s : State) : exec .sysReset s = .next s.newSession := rfl

/-- Settles O49: SYS.RESET is the new session of R451, without the common checks. -/
theorem systemReset : Obligations.SystemReset := by
  unfold Obligations.SystemReset
  exact ⟨decode_encode .sysReset, exec_sysReset⟩

/-! ### SYS.DISPOSE and SYS.STATUS (R382, R386) -/

theorem exec_sysDispose (s : State) : exec .sysDispose s = .next { s with
    fpresent := false, fcur := 0, fbuf := [], rb := RiceBatch.inactive, disposed := true
    status := if s.fault = 0#16 then 0x0000#16 else s.fault } :=
  congrArg Host.Outcome.next (endAccepted_eq { s with
    fpresent := false, fcur := 0, fbuf := [], rb := RiceBatch.inactive, disposed := true })

/-- A second SYS.DISPOSE finds everything it would write already in place. -/
theorem exec_sysDispose_idempotent {s t : State} (h : exec .sysDispose s = .next t) : exec .sysDispose t = .next t := by
  rw [exec_sysDispose] at h
  cases h
  exact exec_sysDispose _

/-- The four flags of RES2 are binary digits of one number (R386). -/
theorem conditionBits_eq (s : State) : s.conditionBits =
    BitVec.ofNat 64 (s.disposed.toNat + 2 * s.rb.active.toNat + 4 * s.fpresent.toNat + 8 * s.eos.toNat) := by
  have hflags : ∀ a b c d : Bool, boolReg a ||| (boolReg b <<< 1) ||| (boolReg c <<< 2) ||| (boolReg d <<< 3) =
      BitVec.ofNat 64 (a.toNat + 2 * b.toNat + 4 * c.toNat + 8 * d.toNat) := by decide
  exact hflags s.disposed s.rb.active s.fpresent s.eos

theorem exec_sysStatus (s : State) : exec .sysStatus s = .next { s with
    res0 := s.fsm.code
    res1 := s.fault.setWidth 64
    res2 := BitVec.ofNat 64 (s.disposed.toNat + 2 * s.rb.active.toNat + 4 * s.fpresent.toNat + 8 * s.eos.toNat)
    status := if s.fault = 0#16 then 0x0000#16 else s.fault } := by
  rw [← conditionBits_eq]
  exact congrArg Host.Outcome.next (endAccepted_eq { s with
    res0 := s.fsm.code, res1 := s.fault.setWidth 64, res2 := s.conditionBits })

/-! ### SYS.CFG (R384) -/

theorem exec_sysCfg (a : BitVec 8) (s : State) : exec (.sysCfg a) s = command s (cfgBody a.toNat) := rfl

theorem cfgBody_rate {s : State} (h : s.arg0.toNat ≤ 2 ^ 32 - 1) :
    cfgBody 0 s = .next ({ s with siRate := BitVec.ofNat 32 s.arg0.toNat }, .ok) := by
  rw [BitVec.ofNat_toNat]
  exact if_pos h

theorem cfgBody_bps {s : State} (h : s.arg0.toNat ≤ 32) :
    cfgBody 1 s = .next ({ s with siBps := BitVec.ofNat 6 s.arg0.toNat }, .ok) := by
  rw [BitVec.ofNat_toNat]
  exact if_pos h

theorem cfgBody_channels {s : State} (h : s.arg0.toNat ≤ 8) :
    cfgBody 2 s = .next ({ s with siChannels := BitVec.ofNat 4 s.arg0.toNat }, .ok) := by
  rw [BitVec.ofNat_toNat]
  exact if_pos h

/-- A value past the range of the default that the selector names. -/
theorem cfgBody_outOfRange {s : State} {a : BitVec 8} (h : (a = 0#8 ∧ 2 ^ 32 - 1 < s.arg0.toNat) ∨
    (a = 1#8 ∧ 32 < s.arg0.toNat) ∨ (a = 2#8 ∧ 8 < s.arg0.toNat)) : cfgBody a.toNat s = Res.violation s .cfgRange := by
  rcases h with ⟨rfl, hv⟩ | ⟨rfl, hv⟩ | ⟨rfl, hv⟩ <;> exact if_neg hv.not_ge

/-- A selector that names no default. -/
theorem cfgBody_selector {n : Nat} (h : 2 < n) (s : State) : cfgBody n s = Res.violation s .selectorRange := by
  match n, h with
  | n + 3, _ => rfl

/-- Settles O50: SYS.DISPOSE and SYS.STATUS have one equation each, in every state; SYS.CFG is `cfgBody` after the common
checks. -/
theorem systemCommands : Obligations.SystemCommands := by
  unfold Obligations.SystemCommands
  refine ⟨⟨decode_encode .sysDispose, decode_encode .sysStatus, exec_sysDispose, fun s => ?status,
    fun s t => exec_sysDispose_idempotent⟩, fun a => .of_body rfl rfl, fun s hs => ?cfg⟩
  case status =>
    rw [exec_sysStatus]
    cases s.fsm <;> rfl
  case cfg =>
    simp only [exec_sysCfg]
    exact ⟨fun h => command_done hs (cfgBody_rate h) rfl rfl, fun h => command_done hs (cfgBody_bps h) rfl rfl,
      fun h => command_done hs (cfgBody_channels h) rfl rfl, fun a h => command_violation hs (cfgBody_outOfRange h) rfl,
      fun a h => command_violation hs (cfgBody_selector h s) rfl⟩

end Sys2Proof.Machine
end

section
/-! PROOFS. The exception rules (60_exceptions.md R400 to R407): the STATUS and FAULT a command leaves, and the words that a
sticky fault or a dispose turns away. -/

namespace Sys2Proof.Machine

/-! ### The end of a command -/

/-- What a command that starts with FAULT = `f` leaves in STATUS and FAULT: the fault of before, or a status of its own that is
latched when it is sticky. -/
inductive Ended (f : Half) (t : State) : Prop where
  | kept (hf : f ≠ 0#16) (status : t.status = f) (fault : t.fault = f)
  | first (hf : f = 0#16) (st : Status) (status : t.status = st.word) (fault : t.fault = if st.sticky then st.word else 0#16)

theorem endWith_ended {s : State} (h : s.fault = 0#16) (st : Status) : Ended 0#16 (s.endWith st) :=
  .first rfl st rfl (by simp [State.endWith, h])

theorem endAccepted_ok {s : State} (h : s.fault = 0#16) : s.endAccepted.status = 0x0000#16 := by
  rw [endAccepted_eq]
  exact if_pos h

theorem endAccepted_ended {f : Half} {s : State} (h : s.fault = f) : Ended f s.endAccepted := by
  subst h
  by_cases hf : s.fault = 0#16
  · exact .first hf .ok (endAccepted_ok hf) hf
  · refine .kept hf ?_ rfl
    rw [endAccepted_eq]
    exact if_neg hf

/-- A command whose body leaves FAULT to its end. -/
theorem command_ended {s t : State} {body : State → Res} (hb : ∀ u st, body s = .next (u, st) → u.fault = s.fault)
    (h : command s body = .next t) : Ended s.fault t := by
  cases command_next h with
  | sticky hf => exact .kept hf rfl rfl
  | disposed hf _ => exact .first hf (.violation .disposed) rfl rfl
  | ran hr u st hbody _ =>
    rw [hr.noFault]
    exact endWith_ended ((hb u st hbody).trans hr.noFault) st

theorem exec_ended {i : Instr} {s t : State} (h : exec i s = .next t) (hi : i ≠ .sysReset) : Ended s.fault t := by
  rcases checked_cases i with hc | rfl | rfl | rfl | rfl
  · obtain ⟨body, he, hok, -⟩ := exec_body i hc
    exact command_ended (fun u st hb => body_fault (hok s u st hb)) (he s ▸ h)
  · exact absurd rfl hi
  all_goals
    cases h
    exact endAccepted_ended rfl

theorem rejectWord_ended {e : DecodeError} {s t : State} (h : rejectWord e s = .next t) : Ended s.fault t := by
  obtain ⟨c, he⟩ := rejectWord_eq e s
  refine command_ended (fun u st hb => ?_) (he ▸ h)
  cases hb
  rfl

theorem runWord_ended {w : Word} {s t : State} (h : runWord w s = .next t) (hw : decode w ≠ .ok .sysReset) :
    Ended s.fault t := by
  cases hd : decode w with
  | ok i =>
    have hi : i ≠ .sysReset := fun e => hw (hd.trans (congrArg Except.ok e))
    exact exec_ended (s := { s with cmd := w }) (runWord_of_decode_ok hd s ▸ h) hi
  | error e => exact rejectWord_ended (s := { s with cmd := w }) (runWord_of_decode_error hd s ▸ h)

/-- Settles O52: every end of a word but SYS.RESET is as `Ended` says; the words of the statuses are `word_cases`, and the sticky
ones have the low bytes of `sticky_word`. -/
theorem statusAndFault : Obligations.StatusAndFault := by
  unfold Obligations.StatusAndFault
  intro w s t h hw
  cases runWord_ended h hw with
  | kept hf hstatus hfault => exact ⟨fun _ => ⟨hfault, hstatus⟩, fun h0 => absurd h0 hf⟩
  | first hf st hstatus hfault =>
    refine ⟨fun hne => absurd hf hne, fun _ => ?_⟩
    rw [hstatus, hfault, ← sticky_word]
    exact ⟨word_cases st, fun hy => if_pos hy, fun hn => if_neg hn⟩

/-! ### Words that are turned away -/

/-- Every word but the four of R406, legal or not, passes the common checks first. -/
theorem runWord_eq_command {w : Word}
    (h : ∀ i, decode w = .ok i → i ≠ .sysReset ∧ i ≠ .sysStatus ∧ i ≠ .sysDispose ∧ i ≠ .brEos) (s : State) :
    ∃ body, runWord w s = command { s with cmd := w } body := by
  cases hd : decode w with
  | ok i =>
    obtain ⟨body, he, -⟩ := exec_body i (checked_of (h i hd))
    exact ⟨body, (runWord_of_decode_ok hd s).trans (he _)⟩
  | error e =>
    obtain ⟨c, he⟩ := rejectWord_eq e { s with cmd := w }
    exact ⟨_, (runWord_of_decode_error hd s).trans he⟩

/-- Settles O51: every word but the four is a `command`, which a fault (`command_of_fault`) or a dispose (`command_of_disposed`)
turns away; the four end as `Ended` says, or with the status of a new session. -/
theorem stickyFaultAndDispose : Obligations.StickyFaultAndDispose := by
  unfold Obligations.StickyFaultAndDispose
  refine ⟨⟨fun w s hf hw => ?faulted, fun i s t hf h hi => ?kept, fun s t h => ?reset⟩,
    fun w s hf hd hw => ?disposed, fun i s t hf _ hi h => ?accepted⟩
  case faulted =>
    obtain ⟨body, he⟩ := runWord_eq_command hw s
    exact he.trans (command_of_fault (s := { s with cmd := w }) hf body)
  case kept =>
    cases exec_ended h hi with
    | kept _ hstatus hfault => exact ⟨hstatus, hfault⟩
    | first h0 => exact absurd h0 hf
  case reset =>
    cases h
    exact ⟨rfl, rfl⟩
  case disposed =>
    obtain ⟨body, he⟩ := runWord_eq_command hw s
    exact he.trans (command_of_disposed (s := { s with cmd := w }) hf hd body)
  case accepted =>
    rcases hi with rfl | rfl | rfl | rfl <;> cases h
    · rfl
    all_goals exact endAccepted_ok hf

end Sys2Proof.Machine
end

section
/-! PROOFS. The refusal for want of a predictor (60_exceptions.md R412): FR.STEP at a payload, the FR.DECODE whose micro-steps
reach one, and the PCM.READ that decodes so. -/

namespace Sys2Proof.Machine

/-! ### Along the micro-steps of FR.DECODE -/

/-- What an FR.STEP after which FR.DECODE goes on leaves for the rest of the decode. -/
structure GoesOn (s u : State) : Prop where
  accepts : u.Accepts
  inv : u.FrameInv
  shorter : u.measure < s.measure
  predictor : u.predictor = none ↔ s.predictor = none
  absent : decodeRun s = .refused .predictorAbsent ↔ decodeRun u = .refused .predictorAbsent

theorem frStep_goesOn {s u : State} (hs : s.Accepts) (hi : s.FrameInv) (h : exec .frStep s = .next u)
    (hok : u.status = 0x0000#16) (hgoes : u.fsm ≠ .done) : GoesOn s u := by
  obtain ⟨t, st, ht, rfl⟩ := frStep_inv hs h
  obtain rfl := (word_eq_zero st).1 hok
  have hu : (frameResult t .ok).endWith .ok = t.with0 t.fsm.code 0x0000#16 := endWith_ok _
  rw [hu] at hgoes ⊢
  have ok : MicroOk s t .ok := microStep_ok s t .ok ht
  have hrun : decodeRun (t.with0 t.fsm.code 0x0000#16) = (decodeRun s).with0 t.fsm.code 0x0000#16 := by
    rw [decodeRun_loop hi ht hgoes, decodeRun_with0]
  exact {
    accepts := accepts_after hs ok
    inv := { ok.inv hi with }
    shorter := ok.progress hi rfl
    predictor := Option.isSome_eq_isSome.1 ok.present
    absent := by rw [hrun]; exact with0_refused.symm }

/-- The loop is refused only where its micro-steps reach a payload: they get shorter, and the last is refused itself. -/
theorem payload_of_decodeRun_absent {s : State} (hs : s.Accepts) (hi : s.FrameInv)
    (h : decodeRun s = .refused .predictorAbsent) : s.predictor = none ∧ ∃ t, Steps s t ∧ t.AtPayload := by
  induction hm : s.measure using Nat.strong_induction_on generalizing s with
  | _ m ih =>
    subst hm
    by_cases hgoes : ∃ t, microStep s = .next (t, .ok)
    · obtain ⟨t, ht⟩ := hgoes
      have hframe : t.fsm ≠ .done := fun hd => nomatch (decodeRun_frame ht hd).symm.trans h
      have hstep := frStep_ok hs ht rfl
      have hon := frStep_goesOn hs hi hstep rfl hframe
      obtain ⟨hnone, v, hv, hpay⟩ := ih _ hon.shorter hon.accepts hon.inv (hon.absent.1 h) rfl
      exact ⟨hon.predictor.1 hnone, v, .step s _ v hstep rfl hframe hv, hpay⟩
    · rw [decodeRun_stop (not_exists.1 hgoes)] at h
      obtain ⟨hnone, hpay⟩ := microStep_predictorAbsent.1 h
      exact ⟨hnone, s, .refl s, hpay⟩

theorem decodeRun_absent_of_payload {s t : State} (h : Steps s t) (hs : s.Accepts) (hi : s.FrameInv)
    (hnone : s.predictor = none) (hpay : t.AtPayload) : decodeRun s = .refused .predictorAbsent := by
  induction h with
  | refl s =>
    have he := microStep_predictorAbsent.2 ⟨hnone, hpay⟩
    exact (decodeRun_stop fun t ht => nomatch he.symm.trans ht).trans he
  | step s u t h hok hgoes _ ih =>
    have hon := frStep_goesOn hs hi h hok hgoes
    exact hon.absent.2 (ih hon.accepts hon.inv (hon.predictor.2 hnone) hpay)

/-! ### PCM.READ (R364) -/

theorem pcmBody_absent {s : State} : pcmBody s = .refused .predictorAbsent ↔
    s.arg1 ≠ 0#64 ∧ (s.fpresent = false ∨ s.fcur = s.frameLen) ∧ decodeRun s = .refused .predictorAbsent := by
  constructor
  · intro h
    have hcap : s.arg1 ≠ 0#64 := fun h0 => nomatch (pcmBody_of_noCapacity h0).symm.trans h
    have hnone : s.fpresent = false ∨ s.fcur = s.frameLen := by
      by_contra hleft
      obtain ⟨hpresent, hcur⟩ := not_or.1 hleft
      exact nomatch (pcmBody_of_left hcap (by simpa using hpresent) hcur).symm.trans h
    rw [pcmBody, if_neg (arg1_toNat_ne_zero hcap), if_neg (not_left_of_none hnone)] at h
    split at h
    case h_1 | h_2 | h_3 => cases h
    case h_4 r hr =>
      cases h
      exact ⟨hcap, hnone, hr⟩
  · rintro ⟨hcap, hnone, hrun⟩
    rw [pcmBody, if_neg (arg1_toNat_ne_zero hcap), if_neg (not_left_of_none hnone), hrun]

/-- A PCM.READ that is refused so has passed its operand checks. -/
theorem pcmRead_absent {s : State} (hs : s.Accepts) : exec .pcmRead s = .refused .predictorAbsent ↔
    s.arg0.toNat + 4 * s.arg1.toNat ≤ s.cfg.dmemBytes ∧ s.arg0.toNat % 4 = 0 ∧ pcmBody s = .refused .predictorAbsent := by
  constructor
  · intro h
    rw [exec_pcmRead] at h
    obtain ⟨-, hbody⟩ := command_refused (by decide) h
    split at hbody
    · next hr =>
      split at hbody
      · next hal => exact ⟨rangeOk_iff.1 hr, alignOk_iff.1 hal, (noBatch_accepts hs _).symm.trans hbody⟩
      · cases hbody
    · cases hbody
  · rintro ⟨hr, hal, hbody⟩
    rw [exec_pcmRead_of_legal hs hr hal]
    exact command_of_refused hs.ready hbody

/-! ### No other command -/

/-- Only the three commands that decode frames can be refused so: the bodies of all others end (`exec_body`). -/
theorem decodes_of_absent {i : Instr} {s : State} (h : exec i s = .refused .predictorAbsent) :
    i = .frStep ∨ i = .frDecode ∨ i = .pcmRead := by
  rcases checked_cases i with hc | rfl | rfl | rfl | rfl
  · obtain ⟨body, he, -, hends⟩ := exec_body i hc
    obtain ⟨-, hbody⟩ := command_refused (by decide) (he s ▸ h)
    by_contra hi
    obtain ⟨p, hp⟩ := hends s fun hd => absurd hd hi
    exact nomatch hp.symm.trans hbody
  all_goals cases h

/-- Settles O43: FR.STEP is refused when its micro-step is (`microStep_predictorAbsent`), FR.DECODE when its loop is, by
induction along its micro-steps, and PCM.READ when it comes to that loop (`pcmBody_absent`). -/
theorem predictorAbsent : Obligations.PredictorAbsent := by
  unfold Obligations.PredictorAbsent
  refine ⟨fun s hs => (frStep_absent hs).trans microStep_predictorAbsent, fun s hs hi => (frDecode_absent hs).trans ?reached,
    fun s u hs hi h hok hgoes => ?goesOn, fun s hs _ => ?pcm, fun i s => decodes_of_absent⟩
  case reached =>
    exact ⟨payload_of_decodeRun_absent hs hi.frame,
      fun ⟨hnone, t, ht, hpay⟩ => decodeRun_absent_of_payload ht hs hi.frame hnone hpay⟩
  case goesOn =>
    have hon := frStep_goesOn hs hi.frame h hok hgoes
    rw [frDecode_absent hs, frDecode_absent hon.accepts]
    exact hon.absent
  case pcm =>
    rw [pcmRead_absent hs, pcmBody_absent, frDecode_absent hs]
    rfl

end Sys2Proof.Machine
end

section
/-! PROOFS. Power-on reset (70_reset_and_hazards.md R450): the value of every piece of engine state, and the invariant. -/

namespace Sys2Proof.Machine

/-! ### An engine that has received nothing -/

theorem avail_of_noBytes {s : State} (h : s.S = []) : s.avail = 0 := by
  rw [State.avail, h, List.length_nil]

/-- With no bit received the hidden buffer holds no word (10_state.md R42). -/
theorem wordCount_of_avail_zero {s : State} (h : s.avail = 0) : s.wordCount = 0 := by
  rw [State.wordCount, h, Nat.zero_sub, Nat.zero_div]

theorem partialBytes_of_avail_zero {s : State} (h : s.avail = 0) : s.partialBytes = 0 := by
  rw [State.partialBytes, h, Nat.zero_sub, Nat.zero_mod, Nat.zero_div]

/-- A CHBUF with no cell listed reads as 0 (R53). -/
theorem chan_of_noCells {s : State} (h : s.chbuf = []) (c j : Nat) : s.chan c j = 0 := by
  rw [State.chan, h, readCell]

/-! ### The statements -/

/-- Settles O1: the fields of `State.reset` are the values of R450, and what the state computes from them (the available bits,
the hidden buffer, the samples of CHBUF) is 0 because the stream and CHBUF are empty. -/
theorem resetState : Obligations.ResetState := by
  unfold Obligations.ResetState
  have havail : State.reset.avail = 0 := avail_of_noBytes rfl
  exact ⟨rfl, rfl, rfl, rfl, rfl, rfl, rfl, rfl, rfl, rfl, rfl, rfl,
    rfl, rfl, havail, rfl, rfl, rfl, rfl, rfl, rfl, rfl, rfl, rfl,
    rfl, rfl, rfl, rfl, chan_of_noCells rfl, rfl, rfl,
    rfl, rfl, rfl, rfl, rfl, wordCount_of_avail_zero havail, partialBytes_of_avail_zero havail⟩

/-- A session started anew right after power-on (45_system.md R380) is the power-on state again. -/
theorem newSession_reset : State.reset.newSession = State.reset := rfl

/-- Settles O58: the reset state is a new session (`newSession_reset`), and every new session with a canonical DMEM satisfies the
invariant (`inv_newSession`). -/
theorem invariantAtReset : Obligations.InvariantAtReset := by
  unfold Obligations.InvariantAtReset
  rw [← newSession_reset]
  exact inv_newSession (by decide)

end Sys2Proof.Machine
end
